-- ==== Sys2Proof/Word.lean ====
section
/-!
DEFINITION. The widths of the block: bytes, 32-bit values, 24-bit device addresses, 16-bit fields
(spec/00_scope.md R9, spec/20_memory.md R61, R66).
-/

namespace Sys2Proof

/-- A byte: 8 bits (R9). -/
abbrev Byte := BitVec 8

/-- A register value, an address argument, a deadline: 32 bits (R61, R66). -/
abbrev Word := BitVec 32

/-- A 16-bit field: a session id, a port, a DMA size, a HIF length (R34, R105). -/
abbrev Half := BitVec 16

/-- A device address as a clocked command frame carries it: 24 bits (R61, R94). -/
abbrev Addr := BitVec 24

/-- A byte string, byte 0 first (R9). -/
abbrev Bytes := List Byte

end Sys2Proof
end

