-- ==== Sys2Proof/Syntax.lean ====
section
/-!
DEFINITION. The instructions of the block: one constructor of `Instr` for every row of
spec/opcode_table.json. The block fetches no instruction stream: its instructions are the frames it puts on the
bus and the operations a caller invokes (spec/30_encoding.md R91, R102, R107, R112; log 8).
-/

namespace Sys2Proof

/-- A socket address: family, port, IP (R110). -/
structure SockAddr where
  family : Half
  port : Half
  ip : Word
deriving DecidableEq, Repr

/-- The all-zero address (R259, R260). -/
def SockAddr.zero : SockAddr := ⟨0, 0, 0⟩

/-- The SSL flag set of a slot: the four named flags, and the flags the source does not name as the byte of their
bits (R34, I9 of spec/93_implementation_defined.md; log 26). -/
structure SslFlags where
  active : Bool
  bypassVerify : Bool
  cacheSession : Bool
  delayHandshake : Bool
  other : Byte
deriving DecidableEq, Repr

/-- The empty flag set, "sslOff" (R252). -/
def SslFlags.empty : SslFlags := ⟨false, false, false, false, 0⟩

/-- The two socket types of `Socket` (R252). -/
inductive SockType where
  | stream
  | datagram
deriving DecidableEq, Repr

/-- A byte span a caller lends to an operation: its buffer's base and length (R60). -/
structure Span where
  base : Nat
  len : Nat
deriving DecidableEq, Repr

/-- A callback of the table `CB` (R31): the socket multiplexer's, or a collaborator's. -/
inductive Callback where
  | socket
  | collaborator (id : Nat)
deriving DecidableEq, Repr

/-- What a HIF row carries besides its group and opcode number: the same number identifies a request (block to
device) and its reply or event (device to block), R107 (log 10). -/
inductive HifPacket where
  /-- sent through `Hif.Send` with these control bytes, data bytes and offset (R208) -/
  | outbound (control data : Bytes) (offset : Nat)
  /-- received with this data flag and declared length (R105, R211) -/
  | inbound (dataFlag : Bool) (length : Half)
deriving DecidableEq, Repr

/-- The command frames with their operands (R91, R92, R131 to R141). -/
inductive Cmd where
  | dmaWrite (a : Addr) (n : Half)
  | dmaRead (a : Addr) (n : Half)
  | internalWrite (a : BitVec 15) (d : Word)
  | internalRead (a : BitVec 15)
  | terminate
  | repeatData
  | extWrite (a : Addr) (n : BitVec 24)
  | extRead (a : Addr) (n : BitVec 24)
  | singleWrite (a : Addr) (d : Word)
  | singleRead (a : Addr)
  | reset
deriving DecidableEq, Repr

/-- The instructions: one constructor per row of spec/opcode_table.json, in the table's order. -/
inductive Instr where
  -- the command frames (formats CMD*)
  | cmdDmaWrite (a : Addr) (n : Half)
  | cmdDmaRead (a : Addr) (n : Half)
  | cmdInternalWrite (a : BitVec 15) (d : Word)
  | cmdInternalRead (a : BitVec 15)
  | cmdTerminate
  | cmdRepeat
  | cmdExtWrite (a : Addr) (n : BitVec 24)
  | cmdExtRead (a : Addr) (n : BitVec 24)
  | cmdSingleWrite (a : Addr) (d : Word)
  | cmdSingleRead (a : Addr)
  | cmdReset
  -- one chunk of a data frame (format TAG)
  | tagFirst (payload : Bytes)
  | tagMiddle (payload : Bytes)
  | tagLast (payload : Bytes)
  | tagAny (seq : BitVec 4)
  -- HIF packets (format HIF)
  | hifBind (p : HifPacket)
  | hifListen (p : HifPacket)
  | hifAccept (p : HifPacket)
  | hifConnect (p : HifPacket)
  | hifSend (p : HifPacket)
  | hifRecv (p : HifPacket)
  | hifSendTo (p : HifPacket)
  | hifRecvFrom (p : HifPacket)
  | hifClose (p : HifPacket)
  | hifDnsResolve (p : HifPacket)
  | hifSslConnect (p : HifPacket)
  | hifSslSend (p : HifPacket)
  | hifSslRecv (p : HifPacket)
  | hifSslClose (p : HifPacket)
  | hifSetSockOpt (p : HifPacket)
  | hifSslCreate (group : Byte) (p : HifPacket)
  | hifSslSetSockOpt (p : HifPacket)
  | hifPing (p : HifPacket)
  | hifSslSetCsList (p : HifPacket)
  | hifSslBind (p : HifPacket)
  | hifSecure (p : HifPacket)
  -- the operations (format OP)
  | opReadRegister (addr : Word)
  | opWriteRegister (addr value : Word)
  | opReadBlock (addr : Word) (buf : Span)
  | opWriteBlock (addr : Word) (buf : Span)
  | opTransportReset
  | opTransportInit
  | opSetPacketSize (limit : Nat)
  | opHifInit
  | opWaitForBootrom
  | opWaitForFirmwareStart
  | opEnableInterrupts
  | opChipWake
  | opChipSleep
  | opHifSend (group opcode : Byte) (control data : Bytes) (offset : Nat)
  | opIsr
  | opHifReceive (address : Word) (data : Span) (done : Bool)
  | opRegisterCallback (group : Byte) (cb : Callback)
  | opOpenEventChannel
  | opSocket (type : SockType) (sslConfig : SslFlags)
  | opBind (i : Int) (addr : SockAddr) (deadline : Word)
  | opListen (i : Int) (backlog : Byte) (deadline : Word)
  | opAccept (i : Int) (deadline : Word)
  | opConnect (i : Int) (addr : SockAddr) (deadline : Word)
  | opSecure (i : Int) (deadline : Word)
  | opSendSocket (i : Int) (buf : Bytes) (deadline : Word)
  | opSendTo (i : Int) (buf : Bytes) (addr : SockAddr) (deadline : Word)
  | opRecv (i : Int) (buf : Span) (deadline : Word)
  | opRecvFrom (i : Int) (buf : Span) (deadline : Word)
  | opSetsockopt (i : Int) (option : Byte) (value : Bytes)
  | opShutdown (i : Int)
  | opGetHostByName (name : Bytes) (deadline : Word)
  | opInitialize
  | opReset
deriving DecidableEq, Repr

end Sys2Proof
end

