-- ==== Sys2Proof/Config.lean ====
section
/-!
DEFINITION. The numbers the source fixes (spec/00_scope.md R7), the open parameters of R8 as one record of plain
data (log 3), and the free values: constants without a body, so that nothing can be proved of their value.
-/

namespace Sys2Proof

/-! ### The constants of R7 -/

/-- Attempts of one transport operation, `MAX_ATTEMPTS` (R7, R172). -/
def maxAttempts : Nat := 10
/-- Largest payload of one `writeBlock` exchange, `BUS_MTU` (R7, R180). -/
def busMtu : Nat := 2040
/-- Bytes scanned for a start tag, `TAG_SCAN_MAX` (R7, R147). -/
def tagScanMax : Nat := 10
/-- Register reads at addresses up to this one are clockless, `CLOCKLESS_RD_MAX` (R7, R93, R174). -/
def clocklessRdMax : Nat := 0xFF
/-- Register writes at addresses up to this one are clockless, `CLOCKLESS_WR_MAX` (R7, R93, R174). -/
def clocklessWrMax : Nat := 0x30
/-- HIF header on the wire, `HIF_HDR_WIRE` (R7, R105). -/
def hifHdrWire : Nat := 8
/-- Largest HIF packet, header included, `HIF_MAX_PKT` (R7, R208). -/
def hifMaxPkt : Nat := 1596
/-- After this many polls the DMA poll slows down, `HIF_DMA_THROTTLE` (R7, R208). -/
def hifDmaThrottle : Nat := 500
/-- Largest allowed `size - declared_length`, `RX_SLACK` (R7, R212). -/
def rxSlack : Int := 4
/-- Clock-enable acknowledge polls, `WAKE_POLLS` (R7, R206). -/
def wakePolls : Nat := 10
/-- HIF group of the socket opcodes, `GROUP_IP` (R7, R107). -/
def groupIp : Byte := 0x01

/-! ### Function parameters as tables -/

/-- A function parameter of R8, held as plain data: the answers at finitely many arguments, and the answer
everywhere else (log 3). -/
structure Fn (α β : Type) where
  entries : List (α × β)
  base : β
deriving DecidableEq, Repr, Inhabited

/-- The value of a function parameter at an argument. -/
def Fn.app {α β : Type} [DecidableEq α] (f : Fn α β) (a : α) : β :=
  ((f.entries.find? fun e => e.1 = a).map (·.2)).getD f.base

/-- The three answers of `OPT_VALID` (R264). -/
inductive OptAnswer where
  | ok
  | badOption
  | badValue
deriving DecidableEq, Repr, Inhabited

/-! ### Record layouts (R109, R110, D55; log 26) -/

/-- `LAYOUT_SockAddr` (R110): eight bytes; which of its six orders family, port and IP stand in, and whether port and
IP are in network byte order inside the little-endian record. -/
structure AddrLayout where
  order : Fin 6
  portNetwork : Bool
  ipNetwork : Bool
deriving DecidableEq, Repr, Inhabited

/-- `LAYOUT_R`, the layout of one record (R109): the bytes its fields are laid over, where each field of the record
begins, in the order R109 lists them, and the width of its byte string, if it has one: `none` where the string takes
as many bytes as it has. `noSid` says that the record has no session-id field. -/
structure Layout where
  base : Bytes
  offs : List Nat
  strWidth : Option Nat
  noSid : Bool
deriving DecidableEq, Repr, Inhabited

/-- The layout parameters of R109 and R110. -/
structure Layouts where
  sockAddr : AddrLayout
  bindCmd : Layout
  listenCmd : Layout
  connectCmd : Layout
  sendCmd : Layout
  recvCmd : Layout
  closeCmd : Layout
  setSockOptCmd : Layout
  sslCreateCmd : Layout
  dnsCmd : Layout
  bindReply : Layout
  listenReply : Layout
  acceptReply : Layout
  connectReply : Layout
  sendReply : Layout
  recvReply : Layout
  dnsReply : Layout
deriving DecidableEq, Repr, Inhabited

/-- The bit each named SSL flag takes in a record's `ssl_flags` byte (R34, R109; log 26). -/
structure SslBits where
  active : Fin 8
  bypassVerify : Fin 8
  cacheSession : Fin 8
  delayHandshake : Fin 8
deriving DecidableEq, Repr, Inhabited

/-! ### The parameters of R8 -/

/-- Every parameter of spec/00_scope.md R8 (log 3). -/
structure Params where
  regProtocolConfig : Addr
  regChipId : Addr
  regEfuseStatus : Addr
  regBootrom : Addr
  regVersionInfo : Addr
  regChipConfig : Addr
  regFwState : Addr
  regPinMux : Addr
  regIntrEnable : Addr
  regWakeA : Addr
  regWakeB : Addr
  regClkStatus : Addr
  regHifTxCtrl : Addr
  regHifDmaCtrl : Addr
  regHifDmaAddr : Addr
  regHifTxReady : Addr
  regHifRxCtrl : Addr
  regHifRxBase : Addr
  bitEfuseLoaded : Fin 32
  magicBootromDone : Word
  magicStartFirmware : Word
  magicFwReady : Word
  versionInfoWord : Word
  chipConfigWord : Word
  bitPinMux : Fin 32
  bitIntrEnable : Fin 32
  bitWakeA : Fin 32
  bitWakeB : Fin 32
  bitClkEnAck : Fin 32
  /-- `BIT_DMA_REQ` and `BIT_TX_READY`, which the rules use only through `DMA_PUBLISHED`, `TX_READY_WORD` and
  `CTRL_WORD` (spec/92_eei_decisions.md; log 27) -/
  bitDmaReq : Fin 32
  bitTxReady : Fin 32
  bitRxIntr : Fin 32
  bitRxDone : Fin 32
  /-- `RX_SIZE_LSB`: the 12-bit size field lies inside the register (R106) -/
  rxSizeLsb : Fin 21
  /-- `CHIP_FAMILY_OK(id)` -/
  chipFamilyOk : Fn Word Bool
  /-- `CTRL_WORD(group, opcode, length)` -/
  ctrlWord : Fn (Byte × Byte × Half) Word
  /-- `DMA_PUBLISHED(word)` -/
  dmaPublished : Fn Word Bool
  /-- `TX_READY_WORD(dma_addr)` -/
  txReadyWord : Fn Word Word
  /-- `DRSP_LEN`, while `CRC_EN` is 0 and while it is 1 -/
  drspLenOff : Nat
  drspLenOn : Nat
  /-- `DRSP_OK(bytes)` -/
  drspOk : Fn Bytes Bool
  /-- `DEADLINE_TO_DEVICE(deadline)` -/
  deadlineToDevice : Fn Word Word
  /-- `OPT_VALID(option, value)` -/
  optValid : Fn (Byte × Bytes) OptAnswer
  /-- `HIF_DMA_POLLS` -/
  hifDmaPolls : Nat
  /-- which byte `GROUP_WIFI` is, `GROUP_IP` left out of the count (D54, C14): see `Params.groupWifi` -/
  groupWifiIx : Fin 255
  layouts : Layouts
  sslBits : SslBits
  txOffsetTcp : Half
  txOffsetUdp : Half
  txOffsetTls : Half
  /-- `INIT_CFG_WRITEBACK`: absent by default; where it is supplied, the word written back from the word read and
  `PKT_LIMIT` (R183; log 17) -/
  initCfgWriteback : Option (Fn (Word × Nat) Word)
  /-- `ACCEPT_HOLDS_SLOT_LOCK`, default true (R257) -/
  acceptHoldsSlotLock : Bool
  /-- `RECV_DEFERS_RXDONE`, default false (R382) -/
  recvDefersRxdone : Bool
  /-- `CRC7_POLY`, which the spec supplies with the default 0x09 (R130, D6; log 15) -/
  crc7Poly : BitVec 7
  /-- `CRC7_INIT`, which the spec supplies with the default 0x7F (R130, D6; log 15) -/
  crc7Init : BitVec 7
deriving DecidableEq, Repr, Inhabited

/-- `GROUP_WIFI`: any byte but `GROUP_IP` (R8, D54, C14). -/
def Params.groupWifi (p : Params) : Byte :=
  if p.groupWifiIx.val = 0 then 0x00 else BitVec.ofNat 8 (p.groupWifiIx.val + 1)

/-! ### Free values -/

/-- What `Isr` hands to a collaborator's callback: which callback it is, opcode byte, length and address (R31,
R213). -/
structure CollabCall where
  id : Nat
  opcode : Byte
  length : Int
  address : Word
deriving DecidableEq, Repr, Inhabited

/-- What a collaborator's callback does when `Isr` invokes it: the `Receive` calls it makes, each an address, a
span and the `done` bit, and the payload it returns, if any (R31, R213; log 21). -/
structure CollabRun where
  receives : List (Word × Span × Bool)
  ret : Option Bytes
deriving DecidableEq, Repr, Inhabited

end Sys2Proof

namespace Sys2Proof.Config

/-- The parameters of this block: uninterpreted, nothing can be proved of their values (R8, R45; log 3). -/
opaque params : Params

/-- What the device answers to byte transfer number `n` once the script of the state is used up: a byte, or `none`
where the transfer fails (R11, R45, R68, R170; log 2). -/
opaque deviceAnswer (n : Nat) : Option Byte

/-- Free bytes: the bytes of `CF` beyond `CF_LEN` (R21, U2; log 5) and a caller's buffer after a failed read (R178,
U7; log 6). -/
opaque freeByte (n : Nat) : Byte

/-- What collaborators' callbacks do, by the number of the run and by what the callback is handed, once the script of
the state is used up (R31, R45; log 21). -/
opaque collaborator (n : Nat) (call : CollabCall) : CollabRun

end Sys2Proof.Config
end

