-- ==== Sys2Proof/Machine/Operands.lean ====
section
/-!
DEFINITION. How operands become bytes and bytes become operands: the byte orders of spec/20_memory.md R63 and R64,
the command-frame formats of spec/30_encoding.md R92 to R95, the HIF header of R105, and the record layouts of R109.
-/

namespace Sys2Proof

/-! ### Byte orders (R9, R63, R64) -/

/-- `be_2(v)`. -/
def be2 (v : Half) : Bytes := [v.extractLsb' 8 8, v.extractLsb' 0 8]

/-- `be_3(v)`. -/
def be3 (v : BitVec 24) : Bytes := [v.extractLsb' 16 8, v.extractLsb' 8 8, v.extractLsb' 0 8]

/-- `be_4(v)`. -/
def be4 (v : Word) : Bytes :=
  [v.extractLsb' 24 8, v.extractLsb' 16 8, v.extractLsb' 8 8, v.extractLsb' 0 8]

/-- `le_2(v)`. -/
def le2 (v : Half) : Bytes := [v.extractLsb' 0 8, v.extractLsb' 8 8]

/-- `from_be` of two bytes. -/
def fromBe2 (b0 b1 : Byte) : Half := b0 ++ b1

/-- `from_be` of three bytes. -/
def fromBe3 (b0 b1 b2 : Byte) : BitVec 24 := b0 ++ b1 ++ b2

/-- `from_be` of four bytes. -/
def fromBe4 (b0 b1 b2 b3 : Byte) : Word := b0 ++ b1 ++ b2 ++ b3

/-- `from_le` of two bytes. -/
def fromLe2 (b0 b1 : Byte) : Half := b1 ++ b0

/-- `from_le(B)` of a byte string. -/
def fromLe : Bytes → Nat
  | [] => 0
  | b :: bs => b.toNat + 256 * fromLe bs

/-- `le_N(v)`, for `N` the first argument. -/
def toLe : Nat → Nat → Bytes
  | 0, _ => []
  | n + 1, v => BitVec.ofNat 8 v :: toLe n (v / 256)

/-! ### Command frames (R92 to R95) -/

/-- The opcode byte of a command frame (R91). -/
def Cmd.opcode : Cmd → Byte
  | .dmaWrite _ _ => 0xC1
  | .dmaRead _ _ => 0xC2
  | .internalWrite _ _ => 0xC3
  | .internalRead _ => 0xC4
  | .terminate => 0xC5
  | .repeatData => 0xC6
  | .extWrite _ _ => 0xC7
  | .extRead _ _ => 0xC8
  | .singleWrite _ _ => 0xC9
  | .singleRead _ => 0xCA
  | .reset => 0xCF

/-- The two address bytes of `CMD4_A16` and `CMD7_A16D32`, clockless flag set: bit 7 of `CF[1]` (R93, R94). -/
def be2Clockless (a : BitVec 15) : Bytes := [1#1 ++ a.extractLsb' 8 7, a.extractLsb' 0 8]

/-- The bytes after the opcode byte, by format (R92). -/
def Cmd.operandBytes : Cmd → Bytes
  | .dmaWrite a n => be3 a ++ be2 n
  | .dmaRead a n => be3 a ++ be2 n
  | .internalWrite a d => be2Clockless a ++ be4 d
  | .internalRead a => be2Clockless a ++ [0x00]
  | .terminate => [0x00, 0x00, 0x00]
  | .repeatData => [0x00, 0x00, 0x00]
  | .extWrite a n => be3 a ++ be3 n
  | .extRead a n => be3 a ++ be3 n
  | .singleWrite a d => be3 a ++ be4 d
  | .singleRead a => be3 a
  | .reset => [0xFF, 0xFF, 0xFF]

/-- A command frame without its CRC byte: `CF[0..CF_LEN-1]` (R90, R92). -/
def Cmd.bytes (c : Cmd) : Bytes := c.opcode :: c.operandBytes

/-- The frame `readRegister(a)` builds (R93, R174, R176). -/
def Cmd.readRegister (a : Addr) : Cmd :=
  if a.toNat ≤ clocklessRdMax then .internalRead (a.setWidth 15) else .singleRead a

/-- The frame `writeRegister(a, d)` builds (R93, R174, R177). -/
def Cmd.writeRegister (a : Addr) (d : Word) : Cmd :=
  if a.toNat ≤ clocklessWrMax then .internalWrite (a.setWidth 15) d else .singleWrite a d

/-! ### The HIF header (R105) -/

/-- The opcode byte of a header: data flag in bit 7, opcode number below (R105, R208). -/
def hifOpcodeByte (opcode : Byte) (hasData : Bool) : Byte :=
  (opcode &&& 0x7F) ||| (if hasData then 0x80 else 0x00)

/-- `H = group ++ op ++ le_2(total) ++ 00 00 00 00` (R105, R208). -/
def hifHeader (group op : Byte) (total : Half) : Bytes :=
  [group, op] ++ le2 total ++ [0x00, 0x00, 0x00, 0x00]

/-- Total packet length (R209). -/
def hifTotal (control data : Bytes) (offset : Nat) : Nat :=
  hifHdrWire + max control.length (offset + data.length)

/-- `tls`: SSL active and the handshake not deferred (R108). -/
def SslFlags.tls (f : SslFlags) : Bool := f.active && !f.delayHandshake

/-- The opcode of an operation that has a plain and an SSL opcode (R108). -/
def pickOpcode (f : SslFlags) (plain ssl : Byte) : Byte := if f.tls then ssl else plain

/-! ### Records (R109, R110; log 26) -/

/-- `t` with the bytes `b` laid over it from offset `off`; it grows where they reach past its end. -/
def overlay (t : Bytes) (off : Nat) (b : Bytes) : Bytes :=
  (t ++ List.replicate (off - t.length) 0x00).take off ++ b ++ t.drop (off + b.length)

/-- The bytes of fields laid over a record, field number `k` at its offset. -/
def overlays (offs : List Nat) : Nat → Bytes → List Bytes → Bytes
  | _, t, [] => t
  | k, t, b :: bs => overlays offs (k + 1) (overlay t (offs.getD k 0) b) bs

/-- `enc(R{...})`: the fields' bytes, in the order R109 lists the fields (section 1 of spec/43_socket.md, R109). -/
def Layout.enc (l : Layout) (fields : List Bytes) : Bytes := overlays l.offs 0 l.base fields

/-- The bytes of field number `k`, of the given width, in a record. -/
def Layout.field (l : Layout) (k width : Nat) (b : Bytes) : Bytes := (b.drop (l.offs.getD k 0)).take width

/-- The number in field number `k`: records are little-endian (R63, R109). -/
def Layout.num (l : Layout) (k width : Nat) (b : Bytes) : Nat := fromLe (l.field k width b)

/-- A byte string as a field: padded with 0x00 or cut where the layout fixes its width (log 26). -/
def Layout.strBytes (l : Layout) (v : Bytes) : Bytes :=
  match l.strWidth with
  | none => v
  | some w => (v ++ List.replicate w 0x00).take w

/-- The byte string in field number `k`. -/
def Layout.str (l : Layout) (k : Nat) (b : Bytes) : Bytes :=
  match l.strWidth with
  | none => b.drop (l.offs.getD k 0)
  | some w => l.field k w b

/-- Where family, port and IP stand in a `SockAddr` (R110). -/
def AddrLayout.offs (l : AddrLayout) : Nat × Nat × Nat :=
  match l.order with
  | 0 => (0, 2, 4)
  | 1 => (0, 6, 2)
  | 2 => (2, 0, 4)
  | 3 => (6, 0, 2)
  | 4 => (4, 6, 0)
  | 5 => (6, 4, 0)

/-- A byte string in network byte order where asked for, little-endian bytes given (R63, R110). -/
def inOrder (network : Bool) (b : Bytes) : Bytes := if network then b.reverse else b

/-- The eight bytes of a `SockAddr` (R110). -/
def AddrLayout.enc (l : AddrLayout) (a : SockAddr) : Bytes :=
  overlay
    (overlay (overlay (List.replicate 8 0x00) l.offs.1 (le2 a.family)) l.offs.2.1 (inOrder l.portNetwork (le2 a.port)))
    l.offs.2.2 (inOrder l.ipNetwork (toLe 4 a.ip.toNat))

/-- The `SockAddr` eight bytes hold (R110). -/
def AddrLayout.dec (l : AddrLayout) (b : Bytes) : SockAddr where
  family := BitVec.ofNat 16 (fromLe ((b.drop l.offs.1).take 2))
  port := BitVec.ofNat 16 (fromLe (inOrder l.portNetwork ((b.drop l.offs.2.1).take 2)))
  ip := BitVec.ofNat 32 (fromLe (inOrder l.ipNetwork ((b.drop l.offs.2.2).take 4)))

/-- A record's `ssl_flags` byte from a flag set (R34, R109; log 26). -/
def sslByte (bits : SslBits) (f : SslFlags) : Byte :=
  f.other
    ||| (if f.active then (1 : Byte) <<< bits.active.val else 0)
    ||| (if f.bypassVerify then (1 : Byte) <<< bits.bypassVerify.val else 0)
    ||| (if f.cacheSession then (1 : Byte) <<< bits.cacheSession.val else 0)
    ||| (if f.delayHandshake then (1 : Byte) <<< bits.delayHandshake.val else 0)

end Sys2Proof
end

