-- ==== Sys2Proof/WellFormed.lean ====
section
/-!
DEFINITION. Which operands an instruction admits: the ranges under "Operands" in spec/40_framer.md R131 to R141,
spec/41_transport.md R176 to R184 and spec/30_encoding.md R101. An instruction outside them "has no meaning" and is
refused (R61, R181, R184, the common part of section 2 of spec/40_framer.md).
-/

namespace Sys2Proof

/-- The operand range of each command frame (R131 to R141). -/
def Cmd.inRange : Cmd → Bool
  | .dmaWrite _ _ => true
  | .dmaRead _ _ => true
  | .internalWrite a _ => a.toNat ≤ 0x30
  | .internalRead a => a.toNat ≤ 0xFF
  | .terminate => true
  | .repeatData => true
  | .extWrite _ n => 2 ≤ n.toNat && n.toNat ≤ 2040
  | .extRead _ n => 2 ≤ n.toNat
  | .singleWrite a _ => 0x30 < a.toNat
  | .singleRead a => 0xFF < a.toNat
  | .reset => true

/-- The legal packet size limits (R7, R23, R184). -/
def legalLimits : List Nat := [256, 512, 1024, 2048, 4096, 8192]

/-- An address argument reaches the wire only below `2^24` (R61). -/
def addrInRange (a : Word) : Bool := a.toNat < 2 ^ 24

/-- A chunk carries between 1 and the largest legal packet size of payload bytes (R101, R145). -/
def payloadInRange (payload : Bytes) : Bool := 1 ≤ payload.length && payload.length ≤ 8192

/-- The operands that the spec admits for each instruction. -/
def Instr.wellFormed : Instr → Bool
  | .cmdDmaWrite a n => (Cmd.dmaWrite a n).inRange
  | .cmdDmaRead a n => (Cmd.dmaRead a n).inRange
  | .cmdInternalWrite a d => (Cmd.internalWrite a d).inRange
  | .cmdInternalRead a => (Cmd.internalRead a).inRange
  | .cmdTerminate => true
  | .cmdRepeat => true
  | .cmdExtWrite a n => (Cmd.extWrite a n).inRange
  | .cmdExtRead a n => (Cmd.extRead a n).inRange
  | .cmdSingleWrite a d => (Cmd.singleWrite a d).inRange
  | .cmdSingleRead a => (Cmd.singleRead a).inRange
  | .cmdReset => true
  | .tagFirst payload => payloadInRange payload
  | .tagMiddle payload => payloadInRange payload
  | .tagLast payload => payloadInRange payload
  | .tagAny _ => true
  | .hifBind _ => true
  | .hifListen _ => true
  | .hifAccept _ => true
  | .hifConnect _ => true
  | .hifSend _ => true
  | .hifRecv _ => true
  | .hifSendTo _ => true
  | .hifRecvFrom _ => true
  | .hifClose _ => true
  | .hifDnsResolve _ => true
  | .hifSslConnect _ => true
  | .hifSslSend _ => true
  | .hifSslRecv _ => true
  | .hifSslClose _ => true
  | .hifSetSockOpt _ => true
  | .hifSslCreate _ _ => true
  | .hifSslSetSockOpt _ => true
  | .hifPing _ => true
  | .hifSslSetCsList _ => true
  | .hifSslBind _ => true
  | .hifSecure _ => true
  | .opReadRegister addr => addrInRange addr
  | .opWriteRegister addr _ => addrInRange addr
  | .opReadBlock addr buf => addrInRange addr && 1 ≤ buf.len && buf.len < 2 ^ 24
  | .opWriteBlock addr buf => addrInRange addr && 1 ≤ buf.len
  | .opTransportReset => true
  | .opTransportInit => true
  | .opSetPacketSize limit => legalLimits.contains limit
  | .opHifInit => true
  | .opWaitForBootrom => true
  | .opWaitForFirmwareStart => true
  | .opEnableInterrupts => true
  | .opChipWake => true
  | .opChipSleep => true
  | .opHifSend _ _ _ _ _ => true
  | .opIsr => true
  | .opHifReceive _ _ _ => true
  | .opRegisterCallback _ _ => true
  | .opOpenEventChannel => true
  | .opSocket _ _ => true
  | .opBind _ _ _ => true
  | .opListen _ _ _ => true
  | .opAccept _ _ => true
  | .opConnect _ _ _ => true
  | .opSecure _ _ => true
  | .opSendSocket _ _ _ => true
  | .opSendTo _ _ _ _ => true
  | .opRecv _ _ _ => true
  | .opRecvFrom _ _ _ => true
  | .opSetsockopt _ _ _ => true
  | .opShutdown _ => true
  | .opGetHostByName _ _ => true
  | .opInitialize => true
  | .opReset => true

end Sys2Proof
end

