-- ==== Sys2Proof/Decode.lean ====
section
/-!
DEFINITION. The decoder and the encoder. A request to the block is a frame to put on the bus, a tag byte received, a
HIF packet in one of its two directions, or an invocation of an operation; the decoder reads the instruction from it,
or rejects it by name. The block itself has no decoder (spec/30_encoding.md R97): this one reads what a row of
spec/opcode_table.json stands for (R113; logs 8, 9, 10).
-/

namespace Sys2Proof

/-- What the outside asks of the block. -/
inductive Request where
  /-- a command frame or a written chunk, its bytes as they go on the wire, byte 0 first -/
  | frame (b : Bytes)
  /-- a tag byte received at a chunk boundary (R102, R147) -/
  | receivedTag (b : Byte)
  /-- a HIF packet from the device: the bytes of its header (R105) -/
  | inboundPacket (header : Bytes)
  /-- a HIF packet to the device: its header, control bytes, data bytes and data offset (R105, R210) -/
  | outboundPacket (header control data : Bytes) (offset : Nat)
  /-- an instruction named as such: an operation invoked by a caller (R112), or any other row (log 8) -/
  | call (op : Instr)
deriving DecidableEq, Repr

/-- Why a request is no instruction. -/
inductive DecodeError where
  /-- fewer bytes than the format has (R92) -/
  | truncated
  /-- a first byte that is no command opcode and no tag the block writes (R98, R102) -/
  | reservedOpcode (b : Byte)
  /-- a received byte whose high nibble is not 0xF (R102, R147) -/
  | notATag (b : Byte)
  /-- a packet received of a group and opcode number that no row has: group, opcode byte, declared length (R111) -/
  | unknownPacket (group opcode : Byte) (length : Half)
  /-- an outbound header that does not agree with the packet it heads (R105, R209) -/
  | headerMismatch
deriving DecidableEq, Repr

/-! ### Decoding -/

/-- A command frame read by its opcode byte (R91, R92, R97). Fill bytes and the clockless flag are not examined, and
bytes beyond the frame (its CRC byte) are not either (log 9). -/
def decodeFrame : Bytes → Except DecodeError Instr
  | [] => .error .truncated
  | b :: bs =>
    if b = 0xC1 then
      match bs with
      | b1 :: b2 :: b3 :: b4 :: b5 :: _ => .ok (.cmdDmaWrite (fromBe3 b1 b2 b3) (fromBe2 b4 b5))
      | _ => .error .truncated
    else if b = 0xC2 then
      match bs with
      | b1 :: b2 :: b3 :: b4 :: b5 :: _ => .ok (.cmdDmaRead (fromBe3 b1 b2 b3) (fromBe2 b4 b5))
      | _ => .error .truncated
    else if b = 0xC3 then
      match bs with
      | b1 :: b2 :: b3 :: b4 :: b5 :: b6 :: _ =>
        .ok (.cmdInternalWrite ((fromBe2 b1 b2).setWidth 15) (fromBe4 b3 b4 b5 b6))
      | _ => .error .truncated
    else if b = 0xC4 then
      match bs with
      | b1 :: b2 :: _ :: _ => .ok (.cmdInternalRead ((fromBe2 b1 b2).setWidth 15))
      | _ => .error .truncated
    else if b = 0xC5 then
      match bs with
      | _ :: _ :: _ :: _ => .ok .cmdTerminate
      | _ => .error .truncated
    else if b = 0xC6 then
      match bs with
      | _ :: _ :: _ :: _ => .ok .cmdRepeat
      | _ => .error .truncated
    else if b = 0xC7 then
      match bs with
      | b1 :: b2 :: b3 :: b4 :: b5 :: b6 :: _ => .ok (.cmdExtWrite (fromBe3 b1 b2 b3) (fromBe3 b4 b5 b6))
      | _ => .error .truncated
    else if b = 0xC8 then
      match bs with
      | b1 :: b2 :: b3 :: b4 :: b5 :: b6 :: _ => .ok (.cmdExtRead (fromBe3 b1 b2 b3) (fromBe3 b4 b5 b6))
      | _ => .error .truncated
    else if b = 0xC9 then
      match bs with
      | b1 :: b2 :: b3 :: b4 :: b5 :: b6 :: b7 :: _ =>
        .ok (.cmdSingleWrite (fromBe3 b1 b2 b3) (fromBe4 b4 b5 b6 b7))
      | _ => .error .truncated
    else if b = 0xCA then
      match bs with
      | b1 :: b2 :: b3 :: _ => .ok (.cmdSingleRead (fromBe3 b1 b2 b3))
      | _ => .error .truncated
    else if b = 0xCF then
      match bs with
      | _ :: _ :: _ :: _ => .ok .cmdReset
      | _ => .error .truncated
    else if b = 0xF1 then .ok (.tagFirst bs)
    else if b = 0xF2 then .ok (.tagMiddle bs)
    else if b = 0xF3 then .ok (.tagLast bs)
    else .error (.reservedOpcode b)

/-- A tag byte received: "high nibble == 0xF", the low nibble not examined (R102, R147). -/
def decodeReceivedTag (b : Byte) : Except DecodeError Instr :=
  if b.extractLsb' 4 4 = 0xF then .ok (.tagAny (b.extractLsb' 0 4)) else .error (.notATag b)

/-- The HIF row of a group and an opcode number, if there is one (R107, R111, R113). `SslCreate` is matched on the opcode
number alone: its group is the open parameter `GROUP_WIFI`. -/
def hifRow (group op : Byte) (p : HifPacket) : Option Instr :=
  if op = 0x50 then some (.hifSslCreate group p)
  else if group ≠ groupIp then none
  else if op = 0x41 then some (.hifBind p)
  else if op = 0x42 then some (.hifListen p)
  else if op = 0x43 then some (.hifAccept p)
  else if op = 0x44 then some (.hifConnect p)
  else if op = 0x45 then some (.hifSend p)
  else if op = 0x46 then some (.hifRecv p)
  else if op = 0x47 then some (.hifSendTo p)
  else if op = 0x48 then some (.hifRecvFrom p)
  else if op = 0x49 then some (.hifClose p)
  else if op = 0x4A then some (.hifDnsResolve p)
  else if op = 0x4B then some (.hifSslConnect p)
  else if op = 0x4C then some (.hifSslSend p)
  else if op = 0x4D then some (.hifSslRecv p)
  else if op = 0x4E then some (.hifSslClose p)
  else if op = 0x4F then some (.hifSetSockOpt p)
  else if op = 0x51 then some (.hifSslSetSockOpt p)
  else if op = 0x52 then some (.hifPing p)
  else if op = 0x53 then some (.hifSslSetCsList p)
  else if op = 0x54 then some (.hifSslBind p)
  else if op = 0x56 then some (.hifSecure p)
  else none

/-- An inbound packet by its header: group, opcode byte, length; the padding is not read (R105). -/
def decodeInbound : Bytes → Except DecodeError Instr
  | g :: op :: l0 :: l1 :: _ =>
    match hifRow g (op &&& 0x7F) (.inbound (op.getLsbD 7) (fromLe2 l0 l1)) with
    | some i => .ok i
    | none => .error (.unknownPacket g op (fromLe2 l0 l1))
  | _ => .error .truncated

/-- An outbound packet: its header must be the one R105 and R209 give it. A packet that no row names is an invocation
of `Hif.Send` itself (R208, R267). -/
def decodeOutbound (header control data : Bytes) (offset : Nat) : Except DecodeError Instr :=
  match header with
  | g :: op :: _ =>
    if header = hifHeader g (hifOpcodeByte op !data.isEmpty) (BitVec.ofNat 16 (hifTotal control data offset)) then
      match hifRow g (op &&& 0x7F) (.outbound control data offset) with
      | some i => .ok i
      | none => .ok (.opHifSend g (op &&& 0x7F) control data offset)
    else .error .headerMismatch
  | _ => .error .truncated

/-- The instruction a request stands for, or why it is none. -/
def decode : Request → Except DecodeError Instr
  | .frame b => decodeFrame b
  | .receivedTag b => decodeReceivedTag b
  | .inboundPacket header => decodeInbound header
  | .outboundPacket header control data offset => decodeOutbound header control data offset
  | .call op => .ok op

/-! ### Encoding -/

/-- The request of a HIF row with the given group and opcode number (R105, R107). -/
def encodeHif (group op : Byte) : HifPacket → Request
  | .outbound control data offset =>
    .outboundPacket
      (hifHeader group (hifOpcodeByte op !data.isEmpty) (BitVec.ofNat 16 (hifTotal control data offset)))
      control data offset
  | .inbound dataFlag length => .inboundPacket (hifHeader group (hifOpcodeByte op dataFlag) length)

/-- The request that stands for an instruction: the words of spec/30_encoding.md. -/
def encode : Instr → Request
  | .cmdDmaWrite a n => .frame (Cmd.dmaWrite a n).bytes
  | .cmdDmaRead a n => .frame (Cmd.dmaRead a n).bytes
  | .cmdInternalWrite a d => .frame (Cmd.internalWrite a d).bytes
  | .cmdInternalRead a => .frame (Cmd.internalRead a).bytes
  | .cmdTerminate => .frame Cmd.terminate.bytes
  | .cmdRepeat => .frame Cmd.repeatData.bytes
  | .cmdExtWrite a n => .frame (Cmd.extWrite a n).bytes
  | .cmdExtRead a n => .frame (Cmd.extRead a n).bytes
  | .cmdSingleWrite a d => .frame (Cmd.singleWrite a d).bytes
  | .cmdSingleRead a => .frame (Cmd.singleRead a).bytes
  | .cmdReset => .frame Cmd.reset.bytes
  | .tagFirst payload => .frame (0xF1 :: payload)
  | .tagMiddle payload => .frame (0xF2 :: payload)
  | .tagLast payload => .frame (0xF3 :: payload)
  | .tagAny seq => .receivedTag (0xF#4 ++ seq)
  | .hifBind p => encodeHif groupIp 0x41 p
  | .hifListen p => encodeHif groupIp 0x42 p
  | .hifAccept p => encodeHif groupIp 0x43 p
  | .hifConnect p => encodeHif groupIp 0x44 p
  | .hifSend p => encodeHif groupIp 0x45 p
  | .hifRecv p => encodeHif groupIp 0x46 p
  | .hifSendTo p => encodeHif groupIp 0x47 p
  | .hifRecvFrom p => encodeHif groupIp 0x48 p
  | .hifClose p => encodeHif groupIp 0x49 p
  | .hifDnsResolve p => encodeHif groupIp 0x4A p
  | .hifSslConnect p => encodeHif groupIp 0x4B p
  | .hifSslSend p => encodeHif groupIp 0x4C p
  | .hifSslRecv p => encodeHif groupIp 0x4D p
  | .hifSslClose p => encodeHif groupIp 0x4E p
  | .hifSetSockOpt p => encodeHif groupIp 0x4F p
  | .hifSslCreate group p => encodeHif group 0x50 p
  | .hifSslSetSockOpt p => encodeHif groupIp 0x51 p
  | .hifPing p => encodeHif groupIp 0x52 p
  | .hifSslSetCsList p => encodeHif groupIp 0x53 p
  | .hifSslBind p => encodeHif groupIp 0x54 p
  | .hifSecure p => encodeHif groupIp 0x56 p
  | .opReadRegister addr => .call (.opReadRegister addr)
  | .opWriteRegister addr value => .call (.opWriteRegister addr value)
  | .opReadBlock addr buf => .call (.opReadBlock addr buf)
  | .opWriteBlock addr buf => .call (.opWriteBlock addr buf)
  | .opTransportReset => .call .opTransportReset
  | .opTransportInit => .call .opTransportInit
  | .opSetPacketSize limit => .call (.opSetPacketSize limit)
  | .opHifInit => .call .opHifInit
  | .opWaitForBootrom => .call .opWaitForBootrom
  | .opWaitForFirmwareStart => .call .opWaitForFirmwareStart
  | .opEnableInterrupts => .call .opEnableInterrupts
  | .opChipWake => .call .opChipWake
  | .opChipSleep => .call .opChipSleep
  | .opHifSend group opcode control data offset => .call (.opHifSend group opcode control data offset)
  | .opIsr => .call .opIsr
  | .opHifReceive address data done => .call (.opHifReceive address data done)
  | .opRegisterCallback group cb => .call (.opRegisterCallback group cb)
  | .opOpenEventChannel => .call .opOpenEventChannel
  | .opSocket type sslConfig => .call (.opSocket type sslConfig)
  | .opBind i addr deadline => .call (.opBind i addr deadline)
  | .opListen i backlog deadline => .call (.opListen i backlog deadline)
  | .opAccept i deadline => .call (.opAccept i deadline)
  | .opConnect i addr deadline => .call (.opConnect i addr deadline)
  | .opSecure i deadline => .call (.opSecure i deadline)
  | .opSendSocket i buf deadline => .call (.opSendSocket i buf deadline)
  | .opSendTo i buf addr deadline => .call (.opSendTo i buf addr deadline)
  | .opRecv i buf deadline => .call (.opRecv i buf deadline)
  | .opRecvFrom i buf deadline => .call (.opRecvFrom i buf deadline)
  | .opSetsockopt i option value => .call (.opSetsockopt i option value)
  | .opShutdown i => .call (.opShutdown i)
  | .opGetHostByName name deadline => .call (.opGetHostByName name deadline)
  | .opInitialize => .call .opInitialize
  | .opReset => .call .opReset

/-! ### The words of spec/opcode_table.json (R113) -/

/-- The eight bytes of a word, least significant first: byte 0 is sent first (R9, R113). -/
def tableBytes (w : Nat) : Bytes :=
  let v := BitVec.ofNat 64 w
  [v.extractLsb' 0 8, v.extractLsb' 8 8, v.extractLsb' 16 8, v.extractLsb' 24 8,
   v.extractLsb' 32 8, v.extractLsb' 40 8, v.extractLsb' 48 8, v.extractLsb' 56 8]

/-- The request that a word of the opcode table stands for. A row of format `HIF` matches the 16-bit value
`group << 8 | opcode_byte`, whose group byte the hardware sends first (R105, R113); it is read as a packet received.
A row of format `CMD*` or `TAG` matches its first byte, a tag the block never writes being one received (R102). -/
def requestOfTableWord (nbits w : Nat) : Request :=
  let group : Byte := BitVec.ofNat 8 (w / 256)
  let op : Byte := BitVec.ofNat 8 w
  let header : Bytes := group :: op :: (tableBytes w).drop 2
  let frame : Request :=
    if op.extractLsb' 4 4 = 0xF ∧ op ≠ 0xF1 ∧ op ≠ 0xF2 ∧ op ≠ 0xF3 then .receivedTag op
    else .frame (tableBytes w)
  if nbits ≤ 8 then frame
  else
    match decodeInbound header with
    | .ok _ => .inboundPacket header
    | .error _ => frame

/-- The instruction the decoder reads from a word of the opcode table, numbered as the table numbers bits. -/
def decodeTableWord (nbits w : Nat) : Option Instr := (decode (requestOfTableWord nbits w)).toOption

end Sys2Proof
end

