-- ==== Sys2Proof/Machine/State.lean ====
section
/-!
DEFINITION. Every piece of state the spec gives the block (spec/10_state.md), its reset values (R46), the outside
world's scripts and records (logs 1, 2, 23), and the reasons a request is refused. All of it is plain data.
-/

namespace Sys2Proof.Machine

/-! ### Errors and results (R12, R320 to R323) -/

/-- The errors an operation ends in, by name (R321, R322, R323). -/
inductive Err where
  /-- `E_XFER`: a byte transfer failed -/
  | xfer
  /-- `E_DEV(st)`: the response's status nibble is not 0 -/
  | dev (st : BitVec 4)
  /-- `E_DATA_RSP`: the trailer after a written data frame was rejected -/
  | dataRsp (trailer : Bytes)
  /-- `E_ECHO_MISMATCH`: the echo byte differs from `CF[0]` -/
  | echoMismatch (expected received : Byte)
  /-- `E_NO_START_TAG`: no start tag among ten bytes -/
  | noStartTag
  /-- `errIncompatibleVersion` -/
  | incompatibleVersion
  /-- `errBootromFailed` -/
  | bootromFailed
  /-- `errFirmwareFailed` -/
  | firmwareFailed
  /-- `errInterruptsEnableFailed` -/
  | interruptsEnableFailed
  /-- `errFirmwareLoadFailed` -/
  | firmwareLoadFailed
  /-- `errFirmwareTimeout` -/
  | firmwareTimeout
  /-- `errMessageTooLong` -/
  | messageTooLong
  /-- `errBadMemoryAlloc` -/
  | badMemoryAlloc
  /-- `errOperationFailed` -/
  | operationFailed
  /-- `E_WAKE_FAILED` -/
  | wakeFailed
  /-- `ErrNoAvailableSocket` -/
  | noAvailableSocket
  /-- `ErrInvalidParameter` -/
  | invalidParameter
  /-- `ErrSocketInvalidArg` -/
  | socketInvalidArg
  /-- `ErrSocketBufferFull` -/
  | socketBufferFull
  /-- `ErrSocketInvalid` -/
  | socketInvalid
  /-- `ErrSocketTimeout` -/
  | socketTimeout
  /-- `SocketError(v)`: the device's signed status code, unchanged (R325) -/
  | socketError (v : Int)
deriving DecidableEq, Repr

/-- What an operation that ends ok returns. -/
inductive Value where
  | unit
  | word (w : Word)
  | count (n : Nat)
  | countFrom (n : Nat) (sender : SockAddr)
  | slot (i : Nat)
  | accepted (connDesc : Int) (addr : SockAddr)
  | queue (id : Nat)
  | bytes (b : Bytes)
deriving DecidableEq, Repr

/-- How an operation ends (R12). -/
inductive Result where
  | ok (v : Value)
  | err (e : Err)
deriving DecidableEq, Repr

/-! ### Agents, locks and sequencers -/

/-- The agents that hold locks: a caller task by its number, and the worker (R11). -/
inductive Agent where
  | caller (id : Nat)
  | worker
deriving DecidableEq, Repr

/-- A lock: free, or held by an agent (R25). -/
inductive Lock where
  | free
  | held (by_ : Agent)
deriving DecidableEq, Repr

/-- The transport sequencer `T_SEQ` (R26, R186). -/
inductive TSeq where
  | idle | build | cmdWr | rspRd | dataXfer | drspRd | recoverReset | recoverSettle | doneOk | doneErr
deriving DecidableEq, Repr

/-- `HIF_STATE` (R27, R200). -/
inductive HifState where
  | uninitialized | bootstrapping | ready | shutdown
deriving DecidableEq, Repr

/-- The worker sequencer `W_SEQ` (R33, R223). -/
inductive WSeq where
  | wait | wake | isr | sleep | stopped
deriving DecidableEq, Repr

/-- What the worker is doing outside `W_WAIT`: a round of its own (R223), or the table's row `Isr` or a packet received,
asked for by request number `id` and run in the worker's context, for `Isr` and callbacks run nowhere else (R332, R335;
logs 10, 16). -/
inductive WorkerJob where
  | round
  | isr (id : Nat)
  | packet (id : Nat) (group opcode : Byte) (length : Half)
deriving DecidableEq, Repr

/-- What `DF_SPAN` refers to; the framer never owns payload bytes (R23). -/
inductive DataRef where
  /-- no data frame yet -/
  | none
  /-- the span a caller lent (R60) -/
  | span (sp : Span)
  /-- `n` bytes of the operation itself: a register word, a header, control bytes, a record -/
  | operand (n : Nat)
deriving DecidableEq, Repr

/-- `SLOT[i].state` (R35, R250). -/
inductive SlotState where
  | free | allocated | bound | listening | connected | closing
deriving DecidableEq, Repr

/-! ### Replies, events, queues -/

/-- The kinds of a request that has a reply slot (R36). -/
inductive Kind where
  | bind | listen | connect | send | recv
deriving DecidableEq, Repr

/-- A decoded reply or event record (R109). Descriptors and 8-bit status fields are signed 8 bits, counts signed 16
bits (R288). `sid` is `none` where the record's layout has no session id. -/
inductive Reply where
  /-- `BindReply`, `ListenReply` -/
  | status (sock status : BitVec 8) (sid : Option Half)
  /-- `AcceptReply` -/
  | accept (addr : SockAddr) (listenSock connSock : BitVec 8) (extra : Half)
  /-- `ConnectReply` -/
  | connect (sock error : BitVec 8) (extraData : Half) (sid : Option Half)
  /-- `SendReply` -/
  | send (sock : BitVec 8) (sentBytes : BitVec 16) (sid : Option Half)
  /-- `RecvReply` -/
  | recv (addr : SockAddr) (count : BitVec 16) (dataOffset : Half) (sock : BitVec 8) (sid : Option Half)
  /-- `DnsReply` -/
  | dns (name : Bytes) (ip : Word)
deriving DecidableEq, Repr

/-- A reply slot: a one-shot mailbox (R36). -/
inductive Mail where
  | waiting
  | filled (rep : Reply)
  | abandoned
deriving DecidableEq, Repr

/-- What a callback returns and `Isr` broadcasts (R31, R215): a record of the socket callback, or a collaborator's
bytes. -/
inductive Payload where
  | reply (rep : Reply)
  | bytes (b : Bytes)
deriving DecidableEq, Repr

/-- An `Event`: group, opcode, decoded payload (R32). -/
structure Event where
  group : Byte
  opcode : Byte
  payload : Payload
deriving DecidableEq, Repr

/-- A subscriber queue, which holds at most one event (`SUBQ_CAP`, R32), under the name `OpenEventChannel`
returned. -/
structure Queue where
  id : Nat
  content : Option Event
deriving DecidableEq, Repr

/-! ### The socket table -/

/-- An entry of `SLOT[i].replies`: the session id, the request kind, and the reply slot (R36). -/
structure ReplyEntry where
  sid : Half
  kind : Kind
  mail : Nat
deriving DecidableEq, Repr

/-- An accept record (R37). -/
structure AcceptRec where
  listenDesc : BitVec 8
  connDesc : BitVec 8
  addr : SockAddr
deriving DecidableEq, Repr

/-- One entry of the socket table (R34). -/
structure Slot where
  inUse : Bool
  /-- signed 8 bits, -1 when free -/
  desc : BitVec 8
  sid : Half
  ssl : SslFlags
  txOffset : Half
  rxAddr : Word
  rxRem : Half
  rxFrom : SockAddr
  replies : List ReplyEntry
  /-- a queue of capacity 1 (`ACCEPTQ_CAP`) -/
  acceptq : Option AcceptRec
  lock : Lock
  state : SlotState
  /-- the reply slots on which `Accept` waits here: whom `Shutdown` and `Reset` wake (R265, R286) -/
  acceptWaiters : List Nat
deriving DecidableEq, Repr

/-- A free slot at power-on (R46); the fields R46 leaves unspecified hold zero (log 4). -/
def Slot.free : Slot where
  inUse := false
  desc := 0xFF
  sid := 0
  ssl := .empty
  txOffset := 0
  rxAddr := 0
  rxRem := 0
  rxFrom := .zero
  replies := []
  acceptq := none
  lock := .free
  state := .free
  acceptWaiters := []

/-! ### What goes on outside -/

/-- The delays the rules name (R395). -/
inductive Delay where
  | settle | efusePoll | wakeSettle | wakePoll | dmaThrottle
deriving DecidableEq, Repr

/-- What an observer of the bus sees: chip-select, a byte sent with what came back (`none`: the transfer failed), and
the delays between (R170, R340; log 28). -/
inductive BusEvent where
  | csAssert
  | csRelease
  | xfer (sent : Byte) (received : Option Byte)
  | delay (d : Delay)
deriving DecidableEq, Repr

/-- What an action of an operation answers to the operation's next line. -/
inductive Val where
  | unit
  | flag (b : Bool)
  | num (n : Nat)
  | bytes (b : Bytes)
  | err (e : Option Err)
  /-- a chunk's outcome, the bytes it brought, and whether bytes are left -/
  | chunk (e : Option Err) (data : Bytes) (more : Bool)
  | mail (m : Option Nat)
  | reply (r : Except Err Reply)
  | accepted (r : Except Err (Option AcceptRec))
  | slot (s : Slot)
  | callback (cb : Option Callback)
  | collab (run : CollabRun)
  | ids (l : List Nat)
deriving DecidableEq, Repr

/-- A caller task in the middle of an operation: which one, and what its actions have answered so far, which fixes
the line it waits at (R42; log 23). -/
structure Task where
  id : Nat
  instr : Instr
  log : List Val
deriving DecidableEq, Repr

/-- What can happen next (log 1). -/
inductive Input where
  /-- a request reaches the block -/
  | request (r : Request)
  /-- the interrupt pin is sampled at this level (R326) -/
  | pin (level : Bool)
  /-- the worker takes a turn (R223) -/
  | work
  /-- a waiting caller task takes a turn -/
  | resume (task : Nat)
  /-- the wait of a caller task expires (R340) -/
  | expire (task : Nat)
  /-- a consumer takes the event of its queue (R215) -/
  | consume (queue : Nat)
  /-- the owner of a buffer fills part of it (R60) -/
  | store (base : Nat) (bytes : Bytes)
deriving DecidableEq, Repr

/-! ### The units -/

/-- The framer's working registers (R21, R22, R23, R24). -/
structure Framer where
  cf : Vector Byte 8
  cfLen : Nat
  cfCrc : Byte
  rsp : Vector Byte 2
  drsp : Bytes
  pktLimit : Nat
  dfSpan : DataRef
  dfRem : Nat
  dfIx : Nat
  crcEn : Bool
deriving DecidableEq, Repr

/-- The transport's registers (R25, R26). -/
structure Transport where
  lock : Lock
  seq : TSeq
  att : Nat
  lastErr : Option Err
deriving DecidableEq, Repr

/-- The HIF session's registers and tables (R27 to R32). -/
structure Hif where
  state : HifState
  awake : Bool
  lock : Lock
  rxAddr : Word
  rxSize : BitVec 12
  rxValid : Bool
  rxPend : Bool
  cb : Vector (Option Callback) 256
  subs : List Queue
deriving DecidableEq, Repr

/-- Interrupt and worker (R33); `wjob` and `wlog` are the worker's position: what it is doing, and the answers its
actions have had so far (R42; log 23). -/
structure Irq where
  go : Bool
  stop : Bool
  wseq : WSeq
  irqPrev : Bool
  intrEn : Bool
  wjob : WorkerJob
  wlog : List Val
deriving DecidableEq, Repr

/-- The socket multiplexer (R34, R36, R39, R40). -/
structure Sockets where
  slots : Vector Slot 11
  /-- the reply slots that exist, by name (R36) -/
  mail : List (Nat × Mail)
  sid : Half
  sidLock : Lock
  dnsReply : Option Nat
deriving DecidableEq, Repr

/-- The driver root's own fields (R41; log 27). -/
structure Root where
  live : Bool
  wifi : Bytes
deriving DecidableEq, Repr

/-- The model's own fields: the scripts of what the outside does, and the records of what the block did (logs 1, 2,
5, 6, 19, 21, 23). -/
structure Env where
  /-- the device's answers to come, `none` where a transfer fails -/
  miso : List (Option Byte)
  /-- transfers answered so far -/
  xferIx : Nat
  /-- free bytes drawn so far -/
  free : Nat
  /-- what was on the bus, oldest first -/
  bus : List BusEvent
  /-- the present level of the interrupt pin -/
  pin : Bool
  /-- what happens next -/
  inbox : List Input
  /-- after which actions to come an agent hands over; used up, none does -/
  yields : List Bool
  /-- the wait of the running task expires now -/
  fired : Bool
  tasks : List Task
  nextTask : Nat
  nextMail : Nat
  nextQueue : Nat
  /-- how the tasks that ended did, oldest first -/
  results : List (Nat × Result)
  /-- the queues `broadcast` or `Reset` closed, with what they held -/
  closed : List Queue
  /-- what consumers took, oldest first: an event, or `none` for the end of a closed queue (R221) -/
  delivered : List (Nat × Option Event)
  /-- collaborators' callback runs to come -/
  collab : List CollabRun
  /-- callback runs drawn so far -/
  collabIx : Nat
  /-- what collaborators' callbacks were handed, oldest first (R213) -/
  calls : List CollabCall
deriving DecidableEq, Repr

/-- The whole machine. -/
structure State where
  fr : Framer
  tr : Transport
  hif : Hif
  irq : Irq
  sock : Sockets
  root : Root
  /-- the callers' buffers (R60), in canonical form: see Machine/Memory.lean -/
  mem : List Host.Cell
  /-- the parameters of R8, which no step changes -/
  params : Params
  env : Env
deriving DecidableEq, Repr

/-! ### Updates of one unit -/

/-- Change the framer. -/
def State.mapFr (s : State) (f : Framer → Framer) : State := { s with fr := f s.fr }
/-- Change the transport. -/
def State.mapTr (s : State) (f : Transport → Transport) : State := { s with tr := f s.tr }
/-- Change the HIF session. -/
def State.mapHif (s : State) (f : Hif → Hif) : State := { s with hif := f s.hif }
/-- Change interrupt and worker. -/
def State.mapIrq (s : State) (f : Irq → Irq) : State := { s with irq := f s.irq }
/-- Change the socket multiplexer. -/
def State.mapSock (s : State) (f : Sockets → Sockets) : State := { s with sock := f s.sock }
/-- Change the driver root. -/
def State.mapRoot (s : State) (f : Root → Root) : State := { s with root := f s.root }
/-- Change the callers' buffers. -/
def State.setMem (s : State) (m : List Host.Cell) : State := { s with mem := m }
/-- Change the model's own fields. -/
def State.mapEnv (s : State) (f : Env → Env) : State := { s with env := f s.env }

/-! ### Outcomes other than a next state -/

/-- The block never stops with a fault: every operation ends in ok or a named error, or does not end (R12, R320).
There is nothing to raise. -/
inductive Fault where
deriving DecidableEq, Repr

/-- Why a request is refused. Each is safe: nothing happens, and the spec gives the request no meaning. -/
inductive Refusal where
  /-- raised by the dispatcher for an instruction without a meaning yet; safe, the model stops -/
  | notModelled (mnemonic : String)
  /-- raised by an operation invoked in a session state where it has no meaning, or during `Initialize()` (R224, R336,
  R374, U11); safe -/
  | wrongSessionState
  /-- raised by a socket operation, and by `Reset`, while `ROOT_LIVE = 0` (R252, R286, R336); safe -/
  | rootNotLive
  /-- raised by `Initialize` while `ROOT_LIVE = 1` (R285); safe -/
  | rootLive
  /-- raised by a frame builder or a transport operation for an operand outside its range (R61, R131 to R141, U3), also
  where another operation reaches a device address of `2^24` or more (log 13), and by `SslCreate` sent under another
  group than `GROUP_WIFI` (R107); safe -/
  | operandRange
  /-- raised by a block operation of no bytes, and by a chunk of no bytes or of more than `PKT_LIMIT` (R101, R142,
  R181); safe -/
  | blockSize
  /-- raised by `setPacketSize` for a limit outside the legal set (R184); safe -/
  | packetSizeIllegal
  /-- raised by `setPacketSize` while `HIF_STATE` is `bootstrapping` or `ready` (R184); safe -/
  | packetSizeFrozen
  /-- raised by a second `GetHostByName` while one is outstanding (R266); safe -/
  | dnsBusy
  /-- raised by `Isr` and a packet received while the worker is in a round: `Isr` is never re-entered (R332); safe -/
  | isrReentry
  /-- raised by `Isr` and a packet received while the worker has stopped: nobody else runs them (R335); safe -/
  | workerStopped
  /-- raised by the step for a request that stands for no instruction: a command byte the block never sends (R98, U4), a
  frame or a header with bytes missing (R92, R105), a packet under a header that is not its own (R105, R208); safe -/
  | undecodable (e : DecodeError)
deriving DecidableEq, Repr

/-! ### Reset (R46, R371) -/

/-- The machine at power-on, before the first `Initialize()` (R46, R371). Registers R46 leaves unspecified hold zero
(log 4); nothing is pending outside (log 8). -/
def State.reset : State where
  fr := {
    cf := #v[0, 0, 0, 0, 0, 0, 0, 0]
    cfLen := 0
    cfCrc := 0
    rsp := #v[0, 0]
    drsp := []
    pktLimit := 1024
    dfSpan := .none
    dfRem := 0
    dfIx := 0
    crcEn := true }
  tr := { lock := .free, seq := .idle, att := 0, lastErr := none }
  hif := {
    state := .uninitialized
    awake := false
    lock := .free
    rxAddr := 0
    rxSize := 0
    rxValid := false
    rxPend := false
    cb := Vector.replicate 256 none
    subs := [] }
  irq := { go := false, stop := false, wseq := .stopped, irqPrev := true, intrEn := false, wjob := .round, wlog := [] }
  sock := {
    slots := Vector.replicate 11 Slot.free
    mail := []
    sid := 0
    sidLock := .free
    dnsReply := none }
  root := { live := false, wifi := [] }
  mem := []
  params := Config.params
  env := {
    miso := []
    xferIx := 0
    free := 0
    bus := []
    pin := true
    inbox := []
    yields := []
    fired := false
    tasks := []
    nextTask := 0
    nextMail := 0
    nextQueue := 0
    results := []
    closed := []
    delivered := []
    collab := []
    collabIx := 0
    calls := [] }

end Sys2Proof.Machine
end

