-- ==== Sys2Proof/Machine/Flags.lean ====
section
/-!
DEFINITION. The computations over bytes that the framer makes: the CRC7 (spec/40_framer.md R130), the checks of the
response and the data trailer (R148, R150), the tag of a written chunk (R143), which errors are retried
(spec/41_transport.md R173), and the bits of register words (spec/30_encoding.md R106).
-/

namespace Sys2Proof.Machine

/-- One bit through the CRC7 register of the given polynomial (R130). -/
def crc7Bit (poly c : BitVec 7) (bit : Bool) : BitVec 7 :=
  if c.msb != bit then (c <<< 1) ^^^ poly else c <<< 1

/-- One byte through the CRC7 register, most significant bit first (R130). -/
def crc7Byte (poly c : BitVec 7) (b : Byte) : BitVec 7 :=
  [7, 6, 5, 4, 3, 2, 1, 0].foldl (fun c i => crc7Bit poly c (b.getLsbD i)) c

/-- The CRC7 of a byte string for a polynomial and a seed (R130). -/
def crc7With (poly init : BitVec 7) (bs : Bytes) : BitVec 7 := bs.foldl (crc7Byte poly) init

/-- `crc7(B)` with the block's `CRC7_POLY` and `CRC7_INIT` (R130; log 15). -/
def crc7 (p : Params) (bs : Bytes) : BitVec 7 := crc7With p.crc7Poly p.crc7Init bs

/-- The CRC byte on the wire: the CRC shifted left by one (R96). -/
def crcByte (p : Params) (bs : Bytes) : Byte := (crc7 p bs) ++ 0#1

/-- `check_rsp`: the echo byte first, then the status nibble (R148). -/
def checkRsp (cf0 : Byte) (rsp : Vector Byte 2) : Option Err :=
  if rsp[0] ≠ cf0 then some (.echoMismatch cf0 rsp[0])
  else if rsp[1].extractLsb' 0 4 ≠ 0 then some (.dev (rsp[1].extractLsb' 0 4))
  else none

/-- `check_drsp` (R150). -/
def checkDrsp (p : Params) (drsp : Bytes) : Option Err :=
  if p.drspOk.app drsp then none else some (.dataRsp drsp)

/-- `DRSP_LEN` (R103, R150). -/
def drspLen (p : Params) (crcEn : Bool) : Nat := if crcEn then p.drspLenOn else p.drspLenOff

/-- `seq(ix, rem, sz)` (R143). -/
def tagSeq (ix rem sz : Nat) : BitVec 4 :=
  if sz = rem then 0x3 else if ix = 0 then 0x1 else 0x2

/-- The tag byte `0xF0 | seq` (R102). -/
def tagByte (seq : BitVec 4) : Byte := 0xF#4 ++ seq

/-- The five device error codes of the response's status nibble (R104, R149). -/
inductive DevStatus where
  | unsupportedCmd | unexpectedData | cmdCrcErr | dataCrcErr | internalErr | unknown (st : BitVec 4)
deriving DecidableEq, Repr

/-- The name of a non-zero status nibble (R104, R149). -/
def devStatus (st : BitVec 4) : DevStatus :=
  if st = 1 then .unsupportedCmd
  else if st = 2 then .unexpectedData
  else if st = 3 then .cmdCrcErr
  else if st = 4 then .dataCrcErr
  else if st = 5 then .internalErr
  else .unknown st

/-- The classes of R324. -/
inductive ErrClass where
  /-- (1) transient, retried by the transport only -/
  | transport
  /-- (2) surfaced at once -/
  | corruption
  /-- (3) fatal to `Init` -/
  | handshake
  /-- (4) reported by the device in a reply -/
  | device
  /-- (5) rejected before any bus traffic -/
  | local_
  /-- the local timeout of R323 -/
  | timeout
deriving DecidableEq, Repr

/-- What an error comes from, where its class depends on it (the class columns of R322 and R323; log 33). -/
inductive Cause where
  /-- `Send` of the HIF session raised it (R208) -/
  | send
  /-- `Receive` raised it (R218) -/
  | receive
  /-- an argument or a slot was rejected before any bus traffic (R329) -/
  | rejected
  /-- a reply whose `ExtraData` is no offset (R258, R259) -/
  | badReply
  /-- the waiter was completed by `Shutdown` or `Reset` (R265, R286) -/
  | woken
  /-- it stands for the error of an operation inside this one, which had this class (R253, R254) -/
  | replaces (c : ErrClass)
deriving DecidableEq, Repr

/-- The class of `ErrSocketInvalid`, which stands for several causes (R323; log 33). -/
def Cause.socketClass : Cause → ErrClass
  | .send => .transport
  | .receive => .corruption
  | .rejected => .local_
  | .badReply => .corruption
  | .woken => .local_
  | .replaces c => c

/-- The class of `ErrSocketBufferFull`, which stands for a failed `Hif.Send`: 5 where the packet was rejected before any bus
traffic, else 1, whatever the inner error's class was (R323; log 33). -/
def Cause.bufferClass (c : Cause) : ErrClass := if c.socketClass = .local_ then .local_ else .transport

/-- The class of an error, by its name and, where two classes share a name, by what it comes from (R321 to R324). -/
def Err.class (e : Err) (c : Cause) : ErrClass :=
  match e with
  | .xfer => .transport
  | .dev _ => .transport
  | .dataRsp _ => .transport
  | .echoMismatch _ _ => .corruption
  | .noStartTag => .corruption
  | .incompatibleVersion => .handshake
  | .bootromFailed => .handshake
  | .firmwareFailed => .handshake
  | .interruptsEnableFailed => .handshake
  | .firmwareLoadFailed => .handshake
  | .firmwareTimeout => .handshake
  | .messageTooLong => if c = .receive then .corruption else .local_
  | .badMemoryAlloc => if c = .receive then .corruption else .transport
  | .operationFailed => .corruption
  | .wakeFailed => .transport
  | .noAvailableSocket => .local_
  | .invalidParameter => .local_
  | .socketInvalidArg => .local_
  | .socketBufferFull => c.bufferClass
  | .socketInvalid => c.socketClass
  | .socketTimeout => .timeout
  | .socketError _ => .device

/-- Whether the retry machine retries an error: class `RETRY` of R173 (R172, R321). -/
def Err.retried : Err → Bool
  | .xfer => true
  | .dev _ => true
  | .dataRsp _ => true
  | _ => false

/-- A 32-bit word with one bit set (R205, R206, R219). -/
def setBit (w : Word) (i : Fin 32) : Word := w ||| ((1 : Word) <<< i.val)

/-- A 32-bit word with one bit cleared (R207, R211). -/
def clearBit (w : Word) (i : Fin 32) : Word := w &&& ~~~((1 : Word) <<< i.val)

/-- The 12-bit size field of the RX-control register (R106, R211). -/
def rxSizeField (p : Params) (w : Word) : BitVec 12 := w.extractLsb' p.rxSizeLsb.val 12

end Sys2Proof.Machine
end

