-- ==== Sys2Proof/Machine/Memory.lean ====
section
/-!
DEFINITION. The callers' buffers: bytes by address (spec/20_memory.md R60), as a list of cells in one canonical form,
addresses strictly rising and no cell equal to what an unlisted address reads as. An unlisted byte reads 0 (log 7).
-/

namespace Sys2Proof.Machine

/-- What a byte nothing has written reads as (log 7). -/
def unwrittenByte : Byte := 0

/-- Read one byte. -/
def memRead : List Host.Cell → Nat → Byte
  | [], _ => unwrittenByte
  | (a, b) :: m, x => if a = x then b else memRead m x

/-- Write one byte, keeping the canonical form. -/
def memWrite : List Host.Cell → Nat → Byte → List Host.Cell
  | [], x, b => if b = unwrittenByte then [] else [(x, b)]
  | (a, c) :: m, x, b =>
    if x < a then (if b = unwrittenByte then (a, c) :: m else (x, b) :: (a, c) :: m)
    else if x = a then (if b = unwrittenByte then m else (x, b) :: m)
    else (a, c) :: memWrite m x b

/-- Read `n` bytes from `base`. -/
def memReadBytes (m : List Host.Cell) (base : Nat) : Nat → Bytes
  | 0 => []
  | n + 1 => memRead m base :: memReadBytes m (base + 1) n

/-- Write a byte string from `base`. -/
def memWriteBytes (m : List Host.Cell) (base : Nat) : Bytes → List Host.Cell
  | [] => m
  | b :: bs => memWriteBytes (memWrite m base b) (base + 1) bs

/-- Every cell lies at or above `lo`, addresses rise strictly, and no cell holds the unwritten value. -/
def memWfFrom (lo : Nat) : List Host.Cell → Bool
  | [] => true
  | (a, b) :: m => lo ≤ a && b ≠ unwrittenByte && memWfFrom (a + 1) m

/-- The canonical form of memory. -/
def Memory.wf (m : List Host.Cell) : Bool := memWfFrom 0 m

end Sys2Proof.Machine
end

