-- ==== Sys2Proof/Machine/Program.lean ====
section
/-!
DEFINITION. An operation as a program over indivisible actions. The spec writes an operation as pseudocode (spec/
00_scope.md R10) whose steps are "one bus transfer, one state update or one agent hand-over" (D1 of
spec/92_eei_decisions.md); other agents act between them (R11, R344). `Action` is the list of the indivisible steps,
`Prog` is pseudocode over them. What each action does is `perform` (Machine/Ops.lean).
-/

namespace Sys2Proof.Machine

/-- A change of one slot by the caller that holds its lock. -/
inductive SlotUpd where
  /-- state `Bound` (R255) -/
  | bound
  /-- state `Listening` (R256) -/
  | listening
  /-- `tx_offset` and state `Connected` (R258) -/
  | connected (txOffset : Half)
  /-- the deferred-handshake flag cleared, and `tx_offset` (R259) -/
  | secured (txOffset : Half)
  /-- the session id of a packet without a reply slot (R264) -/
  | sid (sid : Half)
  /-- `n` bytes pulled out of the receive window (R262; log 25) -/
  | pulled (n : Nat)
  /-- the receive window dropped (R262) -/
  | noWindow
deriving DecidableEq, Repr

/-- One assignment to a state element that no lock orders: one indivisible state update (R10, R72, D1). An assignment to
a whole table or to a whole slot is one update, and so is the completion of the waiters of one slot (log 32). -/
inductive Put where
  /-- `CRC_EN <- b` (R183) -/
  | crcEn (b : Bool)
  | hifState (st : HifState)
  | awake (b : Bool)
  | rxAddr (a : Word)
  | rxSize (n : BitVec 12)
  | rxValid (b : Bool)
  | rxPend (b : Bool)
  /-- `CB[g] <- none` for all `g` -/
  | clearCb
  /-- `SUBS <- []`: every queue closed, its event discarded -/
  | clearSubs
  | go (b : Bool)
  | stop (b : Bool)
  | wSeq (w : WSeq)
  /-- `W_SEQ <- W_STOPPED` for a worker between rounds (R286) -/
  | stopWorker
  | irqPrev (b : Bool)
  /-- `IRQ_PREV <- ` the pin's level (R285) -/
  | irqPrevPin
  | intrEn (b : Bool)
  /-- every waiter of slot `i` completed with `ErrSocketInvalid` (R265, R286) -/
  | wake (i : Fin 11)
  /-- `SLOT[i] <- free` (R286) -/
  | slot (i : Fin 11)
  | sid (v : Half)
  /-- the waiter for DNS completed, `DNS_REPLY <- no waiter` (R286) -/
  | dns
  | rootLive (b : Bool)
deriving DecidableEq, Repr

/-- Where the bytes of a written data frame come from (R23, R60): a caller's span, read when a chunk goes out (log 34),
or bytes of the operation itself, among them the byte strings it was handed as a value (log 39). -/
inductive Source where
  | span (sp : Span)
  | value (b : Bytes)
deriving DecidableEq, Repr

/-- The indivisible steps of the operations. -/
inductive Action where
  /-- an assignment -/
  | put (p : Put)
  /-- is `HIF_STATE = ready`? (R208, R218, R224) -/
  | sessionReady
  -- transport (R171, R172, R182)
  /-- take `T_LOCK`; `ATT <- 1`, `T_SEQ <- BUILD` -/
  | acquire
  /-- `BUILD`: build the command frame; `T_SEQ <- CMD_WR` -/
  | build (c : Cmd)
  /-- `CMD_WR`: send the command frame; then `T_SEQ <- RSP_RD`, or `DONE_OK` where no response is read -/
  | cmdWr (last : Bool)
  /-- `RSP_RD`: read and check the response; then `T_SEQ <- next` -/
  | rspRd (next : TSeq)
  /-- start reading a data frame of `n` bytes into what the reference names -/
  | startRead (n : Nat) (into : DataRef)
  /-- start writing a data frame -/
  | startWrite (src : Source)
  /-- `DATA_XFER`: read one chunk -/
  | chunkRd
  /-- `DATA_XFER`: write one chunk -/
  | chunkWr (src : Source)
  /-- `DRSP_RD`: read and check the data trailer -/
  | drspRd
  /-- an exchange failed: decide about a retry -/
  | failed (e : Err)
  /-- a frame without response could not be sent: `T_SEQ <- DONE_ERR` (R182) -/
  | sendFailed
  /-- `RECOVER_RESET`: send the soft-reset frame, ignoring its failure -/
  | recoverReset
  /-- `RECOVER_SETTLE`: settle; `ATT <- ATT + 1`, `T_SEQ <- BUILD` -/
  | settle
  /-- `T_SEQ <- IDLE`, release `T_LOCK` -/
  | release
  /-- take `T_LOCK` alone, for a frame builder or a chunk by itself (logs 11, 12) -/
  | lockT
  /-- release `T_LOCK` alone -/
  | unlockT
  /-- a frame builder by itself (R131 to R141; log 12) -/
  | buildOnly (c : Cmd)
  /-- write one chunk with the given tag and payload (R142; log 11) -/
  | tagChunk (seq : BitVec 4) (payload : Bytes)
  /-- read one chunk of the data frame in progress, if bytes of it are left (R146; log 11) -/
  | scanChunk
  /-- read `PKT_LIMIT` -/
  | getPktLimit
  -- HIF session
  | getAwake
  /-- let a delay pass (R340) -/
  | delay (d : Delay)
  /-- has the wait of this task expired? (R340; log 19) -/
  | timedOut
  | lockS
  | unlockS
  | getRxPend
  /-- the three tests of `Receive`, each its own line (R218): is there a window? -/
  | rxIsValid
  /-- is the request longer than the window? -/
  | rxTooLong (n : Nat)
  /-- does the range leave the window? -/
  | rxOutside (address : Word) (n : Nat)
  /-- is RX-done due after this read? (R218) -/
  | rxDoneDue (address : Word) (n : Nat) (done : Bool)
  | setCb (g : Byte) (cb : Callback)
  | getCb (g : Byte)
  /-- the queues of `SUBS` as they stand (R215) -/
  | subsIds
  /-- push an event into one queue, or close and remove a full one (R215; log 20) -/
  | offer (queue : Nat) (ev : Event)
  | openQueue
  /-- a collaborator's callback invoked: what it does (R213; log 21) -/
  | drawCollab (call : CollabCall)
  /-- fill a lent span -/
  | fillSpan (sp : Span) (b : Bytes)
  /-- a lent span after a failed read: free bytes (R178, U7; log 6) -/
  | scrambleSpan (sp : Span)
  -- socket multiplexer
  /-- `lock(SLOT[i].lock)` (R253, R257) -/
  | lockSlot (i : Fin 11)
  /-- `trylock(SLOT[i].lock)`: the answer is whether the lock was free (R252, R274) -/
  | tryLock (i : Fin 11)
  /-- `leave(i)`: `unlock(SLOT[i].lock)` (R252, R253, R274) -/
  | leave (i : Fin 11)
  /-- is the slot in use under its own descriptor? (R253) -/
  | slotValid (i : Fin 11)
  /-- `in_use` (R252, R274) -/
  | slotInUse (i : Fin 11)
  /-- `next_sid()` (R251) -/
  | nextSid
  | getSlot (i : Fin 11)
  /-- `SLOT[i].sid <- s; SLOT[i].replies[s] <- (kind, waiting)` (R253) -/
  | insertReply (i : Fin 11) (sid : Half) (kind : Kind)
  /-- remove the entry after a failed send (R253) -/
  | removeReply (i : Fin 11) (mail : Nat)
  /-- wait for the reply slot to be filled, or for the deadline where there is one; the entry is removed (R253) -/
  | waitReply (i : Fin 11) (mail : Nat) (bounded : Bool)
  | updSlot (i : Fin 11) (u : SlotUpd)
  /-- mark the slot in use (R252) -/
  | allocSlot (i : Fin 11) (sid : Half) (ssl : SslFlags) (txOffset : Half)
  /-- `state <- Closing; desc <- -1`; answers whether the slot used TLS (R265) -/
  | beginClose (i : Fin 11)
  /-- free the slot (R265) -/
  | freeSlot (i : Fin 11)
  /-- join the waiters of a slot's accept queue -/
  | acceptOpen (i : Fin 11)
  /-- wait for a record and take it (R257) -/
  | acceptWait (i : Fin 11) (mail : Nat) (bounded : Bool)
  /-- wait for a record without taking it (R257, `ACCEPT_HOLDS_SLOT_LOCK` false) -/
  | acceptPeek (i : Fin 11) (mail : Nat) (bounded : Bool)
  /-- take the record if it is still there (R257) -/
  | acceptTake (i : Fin 11) (mail : Nat)
  /-- `match(sock, sid, kind)` (R271) -/
  | matchReply (sock : BitVec 8) (sid : Option Half) (kind : Kind)
  /-- `fill(e, rep)` (R271) -/
  | fillMail (mail : Nat) (rep : Reply)
  /-- the receive window of a matched reply (R277) -/
  | setRxwin (i : Fin 11) (addr : Word) (rem : Half) (sender : SockAddr)
  /-- is there a listening parent with room in its accept queue? (R274) -/
  | acceptParent (p : Fin 11)
  /-- allocate the connected slot (R274) -/
  | allocConn (c p : Fin 11) (sid txOffset : Half)
  /-- put the record into the parent's accept queue (R274) -/
  | acceptPut (p : Fin 11) (r : AcceptRec)
  /-- `DNS_REPLY <- waiting` (R266) -/
  | dnsOpen
  | dnsWait (mail : Nat) (bounded : Bool)
  | dnsClose (mail : Nat)
  /-- fill `DNS_REPLY` if it waits (R280) -/
  | dnsFill (rep : Reply)
  -- driver root
  /-- wait until every lock is free and the worker is between rounds (R285; log 22) -/
  | quiesce
deriving DecidableEq, Repr

/-- Pseudocode over actions: an answer; an action and what follows for each of its answers; the head of a poll loop;
a jump back to the last such head, at which the agent hands over (log 19); an argument that an operation inside this
one refuses (R61, U3; log 13). -/
inductive Prog (α : Type) where
  | ret (a : α)
  | act (a : Action) (k : Val → Prog α)
  | mark (p : Prog α)
  | back
  | refuse (r : Refusal)

/-- One action as a program. -/
def Prog.call (a : Action) : Prog Val := .act a .ret

/-- Sequencing. -/
def Prog.bind {α β : Type} : Prog α → (α → Prog β) → Prog β
  | .ret a, f => f a
  | .act a k, f => .act a fun v => (k v).bind f
  | .mark p, f => .mark (p.bind f)
  | .back, _ => .back
  | .refuse r, _ => .refuse r

/-- Do an action whose answer does not matter, then go on. -/
def Prog.andThen {α : Type} (a : Action) (p : Prog α) : Prog α := .act a fun _ => p

/-- Assignments one after another, then a program. -/
def Prog.puts {α : Type} : List Put → Prog α → Prog α
  | [], p => p
  | u :: us, p => .andThen (.put u) (Prog.puts us p)

/-- Sequencing of programs that may end in an error: `x <- p?` (section 1 of spec/42_hif.md). -/
def Prog.tryBind {α β : Type} (p : Prog (Except Err α)) (f : α → Prog (Except Err β)) : Prog (Except Err β) :=
  p.bind fun r =>
    match r with
    | .ok a => f a
    | .error e => .ret (.error e)

/-! ### Reading an action's answer. Each action answers in one form, so the other cases never arise. -/

/-- A yes-or-no answer. -/
def Val.toFlag : Val → Bool
  | .flag b => b
  | _ => false

/-- A number. -/
def Val.toNum : Val → Nat
  | .num n => n
  | _ => 0

/-- A byte string. -/
def Val.toBytes : Val → Bytes
  | .bytes b => b
  | _ => []

/-- An error, or none. -/
def Val.toErr : Val → Option Err
  | .err e => e
  | _ => none

/-- A reply slot's name, or none. -/
def Val.toMail : Val → Option Nat
  | .mail m => m
  | _ => none

/-- A reply, or the error its waiter ends in. -/
def Val.toReply : Val → Except Err Reply
  | .reply r => r
  | _ => .error .socketInvalid

/-- An accept record if one was there, or the error its waiter ends in. -/
def Val.toAccepted : Val → Except Err (Option AcceptRec)
  | .accepted r => r
  | _ => .error .socketInvalid

/-- A slot's content. -/
def Val.toSlot : Val → Slot
  | .slot s => s
  | _ => Slot.free

/-- A callback, or none. -/
def Val.toCallback : Val → Option Callback
  | .callback cb => cb
  | _ => none

/-- Names of queues. -/
def Val.toIds : Val → List Nat
  | .ids l => l
  | _ => []

/-- A collaborator's run. -/
def Val.toCollab : Val → CollabRun
  | .collab r => r
  | _ => ⟨[], none⟩

end Sys2Proof.Machine
end

