-- ==== Sys2Proof/Machine/Ops.lean ====
section
/-!
DEFINITION. What each indivisible action does to the state: the bus primitives and bus steps (spec/41_transport.md
R170, R171), the frame builders (spec/40_framer.md R131 to R141), the chunker and the de-chunker (R142, R146), the
locks, the socket tables (spec/43_socket.md), the raising of an error and its way back to the invoker
(spec/60_exceptions.md R320), and the interrupt entry (R326, R328).
-/

namespace Sys2Proof.Machine

/-! ### Raising an error: the block's form of taking an exception (R320) -/

/-- `raise E(info)`: the operation ends and `err(E)` goes to its invoker; no state is saved and no mode changes. -/
def raise {α : Type} (e : Err) : Prog (Except Err α) := .ret (.error e)

/-- The return to a caller task: the task's result is recorded under its number (R320; log 23). -/
def returnToCaller (id : Nat) (r : Result) (s : State) : State :=
  s.mapEnv fun e => { e with results := e.results ++ [(id, r)] }

/-! ### The interrupt (R222, R326 to R328) -/

/-- A sample of the pin: a falling edge with `INTR_EN = 1` sets `GO`; then `IRQ_PREV <- irq` (R326, R327, R328). -/
def samplePin (level : Bool) (s : State) : State :=
  (s.mapEnv fun e => { e with pin := level }).mapIrq fun q =>
    { q with go := q.go || (q.irqPrev && !level && q.intrEn), irqPrev := level }

/-! ### Locks (R10) -/

/-- A lock's new value when an agent asks for it: `none` while it is held. -/
def Lock.take (l : Lock) (ag : Agent) : Option Lock :=
  match l with
  | .free => some (.held ag)
  | .held _ => none

/-- A lock's new value when an agent releases it: an agent releases only what it holds. -/
def Lock.drop (l : Lock) (ag : Agent) : Lock := if l = .held ag then .free else l

/-! ### Bus primitives (R10, R170) -/

/-- The device's next answer: the script, then the oracle (R11, R68; log 2). -/
def nextAnswer (e : Env) : Option Byte :=
  match e.miso with
  | [] => Config.deviceAnswer e.xferIx
  | a :: _ => a

/-- `Xfer(b)`: send a byte, receive one; `none` where the transfer fails (R170). -/
def xfer (b : Byte) (s : State) : Option Byte × State :=
  (nextAnswer s.env, s.mapEnv fun e =>
    { e with miso := e.miso.tail, xferIx := e.xferIx + 1, bus := e.bus ++ [.xfer b (nextAnswer e)] })

/-- `XferBuf(tx)`: send bytes, receive as many; it stops at the first failure (R170; log 18). -/
def xferBuf : Bytes → State → Option Bytes × State
  | [], s => (some [], s)
  | b :: bs, s =>
    match xfer b s with
    | (none, s1) => (none, s1)
    | (some r, s1) =>
      match xferBuf bs s1 with
      | (none, s2) => (none, s2)
      | (some rs, s2) => (some (r :: rs), s2)

/-- `n` filler bytes 0x00 (R103). -/
def filler (n : Nat) : Bytes := List.replicate n 0x00

/-- `cs(1)` and `cs(0)` (R170). -/
def chipSelect (on : Bool) (s : State) : State :=
  s.mapEnv fun e => { e with bus := e.bus ++ [if on then .csAssert else .csRelease] }

/-- A delay on the bus record (R340; log 28). -/
def passDelay (d : Delay) (s : State) : State := s.mapEnv fun e => { e with bus := e.bus ++ [.delay d] }

/-- A bus step that sends bytes and takes what comes back (R170). -/
def busStep (tx : Bytes) (s : State) : Option Bytes × State :=
  match xferBuf tx (chipSelect true s) with
  | (r, s1) => (r, chipSelect false s1)

/-! ### Frame builders (R131 to R141) -/

/-- A frame builder: writes `CF`, `CF_LEN` and, when `CRC_EN = 1`, `CF_CRC`, nothing else (section 2 of spec/
40_framer.md). The bytes of `CF` beyond the frame are free (R21, U2; log 5). -/
def buildFrame (c : Cmd) (s : State) : State :=
  let b := c.bytes
  let byte (k : Nat) : Byte := b.getD k (Config.freeByte (s.env.free + k))
  (s.mapFr fun f =>
    { f with
      cf := #v[byte 0, byte 1, byte 2, byte 3, byte 4, byte 5, byte 6, byte 7]
      cfLen := b.length
      cfCrc := if f.crcEn then crcByte s.params b else f.cfCrc }).mapEnv fun e => { e with free := e.free + 8 }

/-- The bytes of the command frame on the wire (R90, R96, R97). -/
def frameBytes (f : Framer) : Bytes :=
  f.cf.toList.take f.cfLen ++ (if f.crcEn then [f.cfCrc] else [])

/-! ### Transport actions (R171, R172, R186) -/

/-- `IDLE` to `BUILD`: `T_LOCK` obtained, `ATT <- 1` (R186). -/
def doAcquire (ag : Agent) (s : State) : Option Val × State :=
  match s.tr.lock.take ag with
  | none => (none, s)
  | some l => (some .unit, s.mapTr fun t => { t with lock := l, seq := .build, att := 1 })

/-- `BUILD` (R171). -/
def doBuild (c : Cmd) (s : State) : Option Val × State :=
  (some .unit, (buildFrame c s).mapTr fun t => { t with seq := .cmdWr })

/-- `CMD_WR`: the command-frame write, received bytes discarded (R170, R171). -/
def doCmdWr (last : Bool) (s : State) : Option Val × State :=
  match busStep (frameBytes s.fr) s with
  | (none, s1) => (some (.err (some .xfer)), s1)
  | (some _, s1) =>
    (some (.err none), s1.mapTr fun t => { t with seq := if last then .doneOk else .rspRd })

/-- `RSP_RD`: two filler bytes, `RSP` received and checked (R148, R170, R171). -/
def doRspRd (next : TSeq) (s : State) : Option Val × State :=
  match busStep (filler 2) s with
  | (some [r0, r1], s1) =>
    let s2 := s1.mapFr fun f => { f with rsp := #v[r0, r1] }
    match checkRsp s2.fr.cf[0] s2.fr.rsp with
    | some e => (some (.err (some e)), s2)
    | none => (some (.err none), s2.mapTr fun t => { t with seq := next })
  | (_, s1) => (some (.err (some .xfer)), s1)

/-- Start of a data frame read: `DF_REM <- L; DF_IX <- 0` (R146). -/
def doStartRead (n : Nat) (into : DataRef) (s : State) : Option Val × State :=
  (some .unit, s.mapFr fun f => { f with dfSpan := into, dfRem := n, dfIx := 0 })

/-- A lone byte is padded with 0x00 (R179, R181). -/
def padBlock (b : Bytes) : Bytes := if 2 ≤ b.length then b else b ++ [0x00]

/-- How many bytes a source holds. -/
def Source.len : Source → Nat
  | .span sp => sp.len
  | .value b => b.length

/-- The first bytes of a source (R180). -/
def Source.take (n : Nat) : Source → Source
  | .span sp => .span ⟨sp.base, min n sp.len⟩
  | .value b => .value (b.take n)

/-- A source without its first bytes (R180). -/
def Source.drop (n : Nat) : Source → Source
  | .span sp => .span ⟨sp.base + n, sp.len - n⟩
  | .value b => .value (b.drop n)

/-- What a source holds now. -/
def Source.load (src : Source) (m : List Host.Cell) : Bytes :=
  match src with
  | .span sp => memReadBytes m sp.base sp.len
  | .value b => b

/-- What `DF_SPAN` refers to while a source is written (R23). -/
def Source.ref : Source → DataRef
  | .span sp => .span sp
  | .value b => .operand b.length

/-- The bytes of a data frame on the wire: at least two (R181). -/
def wireLen (n : Nat) : Nat := max n 2

/-- Start of a data frame write: `DF_REM <- len(S); DF_IX <- 0` (R142). -/
def doStartWrite (src : Source) (s : State) : Option Val × State :=
  (some .unit, s.mapFr fun f => { f with dfSpan := src.ref, dfRem := wireLen src.len, dfIx := 0 })

/-- `scan_tag()`: the first byte with high nibble 0xF ends the scan (R147). -/
def scanTag : Nat → State → Option Err × State
  | 0, s => (some .noStartTag, s)
  | n + 1, s =>
    match xfer 0x00 s with
    | (none, s1) => (some .xfer, s1)
    | (some b, s1) => if b.extractLsb' 4 4 = 0xF then (none, s1) else scanTag n s1

/-- The two CRC bytes of a chunk, when `CRC_EN = 1` (R101, R144). -/
def chunkCrc (crcEn : Bool) : Bytes := if crcEn then [0x00, 0x00] else []

/-- The size of the next chunk: `min(DF_REM, PKT_LIMIT)` (R142, R146). -/
def chunkSize (f : Framer) : Nat := min f.dfRem f.pktLimit

/-- One pass of the loop of `chunk_read`, without chip-select: tag scan, payload, CRC bytes discarded (R146). -/
def readChunk (s : State) : Except Err Bytes × State :=
  match scanTag tagScanMax s with
  | (some e, s1) => (.error e, s1)
  | (none, s1) =>
    match xferBuf (filler (chunkSize s.fr)) s1 with
    | (none, s2) => (.error .xfer, s2)
    | (some d, s2) =>
      match xferBuf (chunkCrc s.fr.crcEn) s2 with
      | (none, s3) => (.error .xfer, s3)
      | (some _, s3) => (.ok d, s3.mapFr fun f => { f with dfRem := f.dfRem - d.length, dfIx := f.dfIx + 1 })

/-- `DATA_XFER` of a read: one chunk is one bus step (R146, R170), its size by the `PKT_LIMIT` that stands now (log 36
DEDUCED); the last one ends the exchange (R186). -/
def doChunkRd (s : State) : Option Val × State :=
  match readChunk (chipSelect true s) with
  | (.error e, s1) => (some (.chunk (some e) [] false), chipSelect false s1)
  | (.ok d, s1) =>
    let s2 := chipSelect false s1
    if s2.fr.dfRem = 0 then (some (.chunk none d false), s2.mapTr fun t => { t with seq := .doneOk })
    else (some (.chunk none d true), s2)

/-- The wire bytes of one chunk: tag, payload, CRC bytes (R101, R142, R144). -/
def chunkBytes (seq : BitVec 4) (payload : Bytes) (crcEn : Bool) : Bytes :=
  tagByte seq :: payload ++ chunkCrc crcEn

/-- The payload of the next written chunk: `S[pos .. pos+sz-1]` (R142). -/
def nextPayload (f : Framer) (b : Bytes) : Bytes := (b.drop (b.length - f.dfRem)).take (chunkSize f)

/-- A chunk written: `DF_REM` and `DF_IX` move on (R142). -/
def chunkWritten (n : Nat) (f : Framer) : Framer := { f with dfRem := f.dfRem - n, dfIx := f.dfIx + 1 }

/-- `DATA_XFER` of a write: one chunk is one bus step (R142, R170), its bytes read out of the span now (log 34), its size
by the `PKT_LIMIT` that stands now, until `DF_REM = 0`: a limit changed since the frame began is log 36 (DEDUCED); after
the last the trailer is read (R186). -/
def doChunkWr (src : Source) (s : State) : Option Val × State :=
  let sz := chunkSize s.fr
  let payload := nextPayload s.fr (padBlock (src.load s.mem))
  match busStep (chunkBytes (tagSeq s.fr.dfIx s.fr.dfRem sz) payload s.fr.crcEn) s with
  | (none, s1) => (some (.chunk (some .xfer) [] false), s1)
  | (some _, s1) =>
    let s2 := s1.mapFr (chunkWritten sz)
    if s2.fr.dfRem = 0 then (some (.chunk none [] false), s2.mapTr fun t => { t with seq := .drspRd })
    else (some (.chunk none [] true), s2)

/-- `DRSP_RD`: the trailer read and checked (R150, R170, R171). -/
def doDrspRd (s : State) : Option Val × State :=
  match busStep (filler (drspLen s.params s.fr.crcEn)) s with
  | (none, s1) => (some (.err (some .xfer)), s1)
  | (some d, s1) =>
    let s2 := s1.mapFr fun f => { f with drsp := d }
    match checkDrsp s2.params d with
    | some e => (some (.err (some e)), s2)
    | none => (some (.err none), s2.mapTr fun t => { t with seq := .doneOk })

/-- An attempt failed: a corruption ends the operation at once, a retried error at the tenth attempt; the answer is
whether to recover and try again (R172, R186). -/
def doFailed (e : Err) (s : State) : Option Val × State :=
  if e.retried then
    if s.tr.att < maxAttempts then
      (some (.flag true), s.mapTr fun t => { t with lastErr := some e, seq := .recoverReset })
    else (some (.flag false), s.mapTr fun t => { t with lastErr := some e, seq := .doneErr })
  else (some (.flag false), s.mapTr fun t => { t with seq := .doneErr })

/-- A frame without response failed: R186's table has no row for it, since no retry machine runs (R182), and the model
goes from `CMD_WR` to `DONE_ERR` (log 35). -/
def doSendFailed (s : State) : Option Val × State := (some .unit, s.mapTr fun t => { t with seq := .doneErr })

/-- `RECOVER_RESET`: the soft-reset frame, its own failure ignored (R172, R182, R186). -/
def doRecoverReset (s : State) : Option Val × State :=
  let s1 := buildFrame .reset s
  match busStep (frameBytes s1.fr) s1 with
  | (_, s2) => (some .unit, s2.mapTr fun t => { t with seq := .recoverSettle })

/-- `RECOVER_SETTLE`: about 1 ms, then the next attempt (R172, R186). -/
def doSettle (s : State) : Option Val × State :=
  (some .unit, (passDelay .settle s).mapTr fun t => { t with att := t.att + 1, seq := .build })

/-- `DONE_OK` or `DONE_ERR` to `IDLE`: the lock released (R172, R186). -/
def doRelease (ag : Agent) (s : State) : Option Val × State :=
  (some .unit, s.mapTr fun t => { t with seq := .idle, lock := t.lock.drop ag })

/-- `lock(T_LOCK)` alone: no exchange begins, `T_SEQ` and `ATT` stay as they are (logs 11, 12). -/
def doLockT (ag : Agent) (s : State) : Option Val × State :=
  match s.tr.lock.take ag with
  | none => (none, s)
  | some l => (some .unit, s.mapTr fun t => { t with lock := l })

/-- `unlock(T_LOCK)` alone. -/
def doUnlockT (ag : Agent) (s : State) : Option Val × State :=
  (some .unit, s.mapTr fun t => { t with lock := t.lock.drop ag })

/-- One chunk written with the tag and the payload the invoker gives (R101, R142; log 11). -/
def doTagChunk (seq : BitVec 4) (payload : Bytes) (s : State) : Option Val × State :=
  match busStep (chunkBytes seq payload s.fr.crcEn) s with
  | (none, s1) => (some (.err (some .xfer)), s1)
  | (some _, s1) => (some (.err none), s1.mapFr (chunkWritten payload.length))

/-- One chunk of the data frame in progress read; the loop of R146 does not run where no byte is left, and a frame that
ended in an error has left its counts (log 11). -/
def doScanChunk (s : State) : Option Val × State :=
  if s.fr.dfRem = 0 then (some (.chunk none [] false), s)
  else
    match readChunk (chipSelect true s) with
    | (.error e, s1) => (some (.chunk (some e) [] false), chipSelect false s1)
    | (.ok d, s1) => (some (.chunk none d false), chipSelect false s1)

/-! ### HIF session actions -/

/-- `lock(S_LOCK)` (R10, R29). -/
def doLockS (ag : Agent) (s : State) : Option Val × State :=
  match s.hif.lock.take ag with
  | none => (none, s)
  | some l => (some .unit, s.mapHif fun h => { h with lock := l })

/-- `unlock(S_LOCK)` (R10, R29). -/
def doUnlockS (ag : Agent) (s : State) : Option Val × State :=
  (some .unit, s.mapHif fun h => { h with lock := h.lock.drop ag })

/-- `len(data) > RX_SIZE` (R218, R225). -/
def rxTooLong (h : Hif) (n : Nat) : Bool := n > h.rxSize.toNat

/-- `address < RX_ADDR or address + len(data) > RX_ADDR + RX_SIZE`, over the integers (R218, R225). -/
def rxOutside (h : Hif) (address : Word) (n : Nat) : Bool :=
  address.toNat < h.rxAddr.toNat || address.toNat + n > h.rxAddr.toNat + h.rxSize.toNat

/-- Whether `Receive` gives RX-done: the window's end reached or `done` set, and still pending (R218). -/
def rxDoneDue (h : Hif) (address : Word) (n : Nat) (done : Bool) : Bool :=
  (address.toNat + n = h.rxAddr.toNat + h.rxSize.toNat || done) && h.rxPend

/-- `CB[g] <- cb` (R220). -/
def doSetCb (g : Byte) (cb : Callback) (s : State) : Option Val × State :=
  (some .unit, s.mapHif fun h => { h with cb := h.cb.set g.toNat (some cb) g.isLt })

/-- Push an event into one queue: an empty one takes it, a full one is closed and removed; a queue that is gone takes
nothing (R215; log 20). -/
def offerTo (id : Nat) (ev : Event) (s : State) : State :=
  match s.hif.subs.find? fun q => q.id = id with
  | none => s
  | some ⟨_, none⟩ => s.mapHif fun h => { h with subs := h.subs.map fun q => if q.id = id then ⟨id, some ev⟩ else q }
  | some ⟨_, some old⟩ =>
    (s.mapHif fun h => { h with subs := h.subs.filter fun q => q.id ≠ id }).mapEnv fun e =>
      { e with closed := e.closed ++ [⟨id, some old⟩] }

/-- A new empty queue appended to `SUBS` (R221). -/
def doOpenQueue (s : State) : Option Val × State :=
  (some (.num s.env.nextQueue),
   (s.mapHif fun h => { h with subs := h.subs ++ [⟨s.env.nextQueue, none⟩] }).mapEnv fun e =>
     { e with nextQueue := e.nextQueue + 1 })

/-- A collaborator's callback invoked: what it is handed is recorded, and what it does is the script's, then free (R31,
R45, R213; log 21). -/
def doDrawCollab (call : CollabCall) (s : State) : Option Val × State :=
  match s.env.collab with
  | [] =>
    (some (.collab (Config.collaborator s.env.collabIx call)),
     s.mapEnv fun e => { e with collabIx := e.collabIx + 1, calls := e.calls ++ [call] })
  | r :: rest =>
    (some (.collab r),
     s.mapEnv fun e => { e with collab := rest, collabIx := e.collabIx + 1, calls := e.calls ++ [call] })

/-! ### Lent spans (R60, R178) -/

/-- Fill a span: as many bytes as the span has room for. -/
def fillSpan (sp : Span) (b : Bytes) (s : State) : State := s.setMem (memWriteBytes s.mem sp.base (b.take sp.len))

/-- `n` free bytes, drawn from number `k` on (log 6). -/
def freeBytes (k : Nat) : Nat → Bytes
  | 0 => []
  | n + 1 => Config.freeByte k :: freeBytes (k + 1) n

/-- A span after a failed read holds unspecified bytes (R178, U7; log 6). -/
def scrambleSpan (sp : Span) (s : State) : State :=
  (s.setMem (memWriteBytes s.mem sp.base (freeBytes s.env.free sp.len))).mapEnv fun e =>
    { e with free := e.free + sp.len }

/-! ### Socket actions -/

/-- Change one slot. -/
def Sockets.setSlot (k : Sockets) (i : Fin 11) (f : Slot → Slot) : Sockets :=
  { k with slots := k.slots.set i.val (f k.slots[i.val]) i.isLt }

/-- Slot `i`. -/
def Sockets.slot (k : Sockets) (i : Fin 11) : Slot := k.slots[i.val]

/-- A descriptor as a slot index, if it is one: signed, 0 to 10 (R253, R271, R288). -/
def slotIx (i : Int) : Option (Fin 11) :=
  if h : 0 ≤ i ∧ i < 11 then some ⟨i.toNat, by omega⟩ else none

/-- The value of a reply slot, if it exists. -/
def mailGet (mail : List (Nat × Mail)) (m : Nat) : Option Mail := (mail.find? fun e => e.1 = m).map (·.2)

/-- Change the value of a reply slot. -/
def mailSet (mail : List (Nat × Mail)) (m : Nat) (v : Mail) : List (Nat × Mail) :=
  mail.map fun e => if e.1 = m then (e.1, v) else e

/-- Remove a reply slot. -/
def mailDel (mail : List (Nat × Mail)) (m : Nat) : List (Nat × Mail) := mail.filter fun e => e.1 ≠ m

/-- Complete a waiter with `ErrSocketInvalid`: its reply slot becomes abandoned, also where a reply lies in it that the
waiter has not taken yet (R36, R265, R286; log 22). -/
def mailAbandon (mail : List (Nat × Mail)) (m : Nat) : List (Nat × Mail) := mailSet mail m .abandoned

/-- A slot that an operation may enter: in use, under its own descriptor (R253). -/
def Sockets.valid (k : Sockets) (i : Fin 11) : Bool :=
  (k.slot i).inUse && decide ((k.slot i).desc = BitVec.ofNat 8 i.val)

/-- An agent may change a slot: the slot is valid and the agent holds its lock. After a `Reset` in the middle of its
operation it may not (R72, R286, R287; log 22). -/
def Sockets.owns (k : Sockets) (ag : Agent) (i : Fin 11) : Bool :=
  k.valid i && decide ((k.slot i).lock = .held ag)

/-- `lock(SLOT[i].lock)` (R253, R257). -/
def doLockSlot (ag : Agent) (i : Fin 11) (s : State) : Option Val × State :=
  match (s.sock.slot i).lock.take ag with
  | none => (none, s)
  | some l => (some .unit, s.mapSock fun k => k.setSlot i fun x => { x with lock := l })

/-- `trylock(SLOT[i].lock)`: never blocks; the answer is whether the lock was taken (R252, R274). -/
def doTryLock (ag : Agent) (i : Fin 11) (s : State) : Option Val × State :=
  match (s.sock.slot i).lock.take ag with
  | none => (some (.flag false), s)
  | some l => (some (.flag true), s.mapSock fun k => k.setSlot i fun x => { x with lock := l })

/-- `unlock(SLOT[i].lock)` (R253). -/
def doLeave (ag : Agent) (i : Fin 11) (s : State) : Option Val × State :=
  (some .unit, s.mapSock fun k => k.setSlot i fun x => { x with lock := x.lock.drop ag })

/-- `next_sid()`: under `SID_LOCK`, `SID <- (SID + 1) mod 2^16` (R76, R251). -/
def doNextSid (s : State) : Option Val × State :=
  match s.sock.sidLock with
  | .held _ => (none, s)
  | .free => (some (.num (s.sock.sid + 1).toNat), s.mapSock fun k => { k with sid := k.sid + 1 })

/-- Insert before send (R253): the slot's id, a waiting reply slot, and the registry entry; nothing where the slot is
the caller's no more. -/
def doInsertReply (ag : Agent) (i : Fin 11) (sid : Half) (kind : Kind) (s : State) : Option Val × State :=
  let m := s.env.nextMail
  if s.sock.owns ag i then
    (some (.mail (some m)),
     (s.mapSock fun k =>
       { (k.setSlot i fun x =>
           { x with
             sid := sid
             replies := ⟨sid, kind, m⟩ :: x.replies.filter fun e => e.sid ≠ sid }) with
         mail := k.mail ++ [(m, .waiting)] }).mapEnv fun e => { e with nextMail := m + 1 })
  else (some (.mail none), s)

/-- The registry without one entry, and its reply slot gone. -/
def Sockets.dropReply (k : Sockets) (i : Fin 11) (m : Nat) : Sockets :=
  { (k.setSlot i fun x => { x with replies := x.replies.filter fun e => e.mail ≠ m }) with mail := mailDel k.mail m }

/-- Wait for the reply: filled, the entry is taken; abandoned, the waiter ends with `ErrSocketInvalid`; still
waiting, the deadline, where there is one, ends it with `ErrSocketTimeout` (R253, R265, R286). -/
def doWaitReply (i : Fin 11) (m : Nat) (bounded : Bool) (s : State) : Option Val × State :=
  match mailGet s.sock.mail m with
  | some (.filled r) => (some (.reply (.ok r)), s.mapSock fun k => k.dropReply i m)
  | some .waiting =>
    if bounded && s.env.fired then (some (.reply (.error .socketTimeout)), s.mapSock fun k => k.dropReply i m)
    else (none, s)
  | some .abandoned => (some (.reply (.error .socketInvalid)), s.mapSock fun k => k.dropReply i m)
  | none => (some (.reply (.error .socketInvalid)), s.mapSock fun k => k.dropReply i m)

/-- A change of one slot (R255 to R262, R264). -/
def SlotUpd.apply (u : SlotUpd) (x : Slot) : Slot :=
  match u with
  | .bound => { x with state := .bound }
  | .listening => { x with state := .listening }
  | .connected off => { x with txOffset := off, state := .connected }
  | .secured off => { x with ssl := { x.ssl with delayHandshake := false }, txOffset := off }
  | .sid v => { x with sid := v }
  | .pulled n => { x with rxAddr := x.rxAddr + BitVec.ofNat 32 n, rxRem := x.rxRem - BitVec.ofNat 16 n }
  | .noWindow => { x with rxRem := 0 }

/-- A change of one slot by its holder (R255 to R262, R264). -/
def doUpdSlot (ag : Agent) (i : Fin 11) (u : SlotUpd) (s : State) : Option Val × State :=
  (some .unit, if s.sock.owns ag i then s.mapSock fun k => k.setSlot i u.apply else s)

/-- The slot `Socket` marks in use (R252). -/
def allocated (i : Fin 11) (sid : Half) (ssl : SslFlags) (txOffset : Half) (x : Slot) : Slot :=
  { x with
    inUse := true
    desc := BitVec.ofNat 8 i.val
    sid := sid
    ssl := ssl
    txOffset := txOffset
    rxRem := 0
    replies := []
    acceptq := none
    state := .allocated }

/-- An agent that holds a slot's lock may mark it in use, while the driver is live: not one that a `Reset` overtook (R252,
R274, R286; log 22). -/
def mayAllocate (ag : Agent) (i : Fin 11) (s : State) : Bool :=
  s.root.live && decide ((s.sock.slot i).lock = .held ag)

/-- Mark the slot in use; the answer is whether that was still possible (R252). -/
def doAllocSlot (ag : Agent) (i : Fin 11) (sid : Half) (ssl : SslFlags) (txOffset : Half) (s : State) :
    Option Val × State :=
  if mayAllocate ag i s then
    (some (.flag true), s.mapSock fun k => k.setSlot i (allocated i sid ssl txOffset))
  else (some (.flag false), s)

/-- `Closing`: the descriptor is invalidated; the answer is `tls(i)`, read first (R265). -/
def doBeginClose (ag : Agent) (i : Fin 11) (s : State) : Option Val × State :=
  (some (.flag (s.sock.slot i).ssl.tls),
   if s.sock.owns ag i then s.mapSock fun k => k.setSlot i fun x => { x with state := .closing, desc := 0xFF } else s)

/-- The slot as freed (R265, R286); the fields R46 leaves unspecified keep what they hold (log 22). -/
def freed (x : Slot) : Slot :=
  { x with
    inUse := false
    desc := 0xFF
    ssl := .empty
    rxRem := 0
    replies := []
    acceptq := none
    state := .free
    acceptWaiters := [] }

/-- The reply slots somebody waits on in a slot: its registry and its `Accept` waiters (R265, R286). -/
def waitersOf (x : Slot) : List Nat := x.replies.map (·.mail) ++ x.acceptWaiters

/-- Complete every waiter of a slot (R265, R286). -/
def Sockets.wakeSlot (k : Sockets) (i : Fin 11) : Sockets :=
  { k with mail := (waitersOf (k.slot i)).foldl mailAbandon k.mail }

/-- Free a slot; its lock is not touched. Its registry goes with it, so that a waiter that has joined since the others were
woken is completed too (R265, R286; log 22). -/
def Sockets.freeSlot (k : Sockets) (i : Fin 11) : Sockets := (k.wakeSlot i).setSlot i freed

/-- The slot freed by its holder (R265). -/
def doFreeSlot (ag : Agent) (i : Fin 11) (s : State) : Option Val × State :=
  (some .unit, if (s.sock.slot i).lock = .held ag then s.mapSock fun k => k.freeSlot i else s)

/-- Join the `Accept` waiters of a slot, where it is still the caller's (R257; log 22). -/
def doAcceptOpen (ag : Agent) (i : Fin 11) (s : State) : Option Val × State :=
  let m := s.env.nextMail
  if s.sock.owns ag i then
    (some (.mail (some m)),
     (s.mapSock fun k =>
       { (k.setSlot i fun x => { x with acceptWaiters := x.acceptWaiters ++ [m] }) with
         mail := k.mail ++ [(m, .waiting)] }).mapEnv fun e => { e with nextMail := m + 1 })
  else (some (.mail none), s)

/-- Leave the `Accept` waiters of a slot. -/
def Sockets.dropAccept (k : Sockets) (i : Fin 11) (m : Nat) : Sockets :=
  { (k.setSlot i fun x => { x with acceptWaiters := x.acceptWaiters.filter fun w => w ≠ m }) with
    mail := mailDel k.mail m }

/-- Take the record at the head of the accept queue. -/
def takeAccept (x : Slot) : Slot := { x with acceptq := none }

/-- Has `Shutdown` or `Reset` woken this `Accept` waiter? (R265, R286) -/
def acceptWoken (k : Sockets) (m : Nat) : Bool := mailGet k.mail m ≠ some .waiting

/-- Wait for a record and take it, the slot lock held (R257). -/
def doAcceptWait (i : Fin 11) (m : Nat) (bounded : Bool) (s : State) : Option Val × State :=
  if acceptWoken s.sock m then (some (.accepted (.error .socketInvalid)), s.mapSock fun k => k.dropAccept i m)
  else
    match (s.sock.slot i).acceptq with
    | some r => (some (.accepted (.ok (some r))), s.mapSock fun k => (k.setSlot i takeAccept).dropAccept i m)
    | none =>
      if bounded && s.env.fired then
        (some (.accepted (.error .socketTimeout)), s.mapSock fun k => k.dropAccept i m)
      else (none, s)

/-- Wait for a record without the slot lock (R257). -/
def doAcceptPeek (i : Fin 11) (m : Nat) (bounded : Bool) (s : State) : Option Val × State :=
  if acceptWoken s.sock m then (some (.accepted (.error .socketInvalid)), s.mapSock fun k => k.dropAccept i m)
  else
    match (s.sock.slot i).acceptq with
    | some _ => (some (.accepted (.ok none)), s)
    | none =>
      if bounded && s.env.fired then
        (some (.accepted (.error .socketTimeout)), s.mapSock fun k => k.dropAccept i m)
      else (none, s)

/-- Take the record if it is still there (R257). -/
def doAcceptTake (i : Fin 11) (m : Nat) (s : State) : Option Val × State :=
  if acceptWoken s.sock m then (some (.accepted (.error .socketInvalid)), s.mapSock fun k => k.dropAccept i m)
  else
    match (s.sock.slot i).acceptq with
    | some r => (some (.accepted (.ok (some r))), s.mapSock fun k => (k.setSlot i takeAccept).dropAccept i m)
    | none => (some (.accepted (.ok none)), s)

/-- The registry entry a reply matches by session id, or the only entry where the layout has no id (R271). -/
def findEntry (replies : List ReplyEntry) (sid : Option Half) : Option ReplyEntry :=
  match sid with
  | some v => replies.find? fun e => e.sid = v
  | none =>
    match replies with
    | [e] => some e
    | _ => none

/-- `match(sock, sid, kind)` (R271): the reply slot of the waiting entry, if there is one. -/
def matchReply (k : Sockets) (sock : BitVec 8) (sid : Option Half) (kind : Kind) : Option Nat :=
  match slotIx sock.toInt with
  | none => none
  | some i =>
    if (k.slot i).inUse = false then none
    else
      match findEntry (k.slot i).replies sid with
      | none => none
      | some e => if e.kind = kind ∧ mailGet k.mail e.mail = some .waiting then some e.mail else none

/-- `fill(e, rep)`: only a waiting reply slot is filled (R253, R271). -/
def fillMail (k : Sockets) (m : Nat) (rep : Reply) : Sockets :=
  if mailGet k.mail m = some .waiting then { k with mail := mailSet k.mail m (.filled rep) } else k

/-- A parent that takes an accept event: in use, and room in its accept queue (R274). -/
def acceptParent (k : Sockets) (p : Fin 11) : Bool := (k.slot p).inUse && (k.slot p).acceptq.isNone

/-- The slot an accept event allocates, inheriting the SSL flags of its parent (R274). -/
def connAllocated (c : Fin 11) (sid : Half) (ssl : SslFlags) (txOffset : Half) (x : Slot) : Slot :=
  { x with
    inUse := true
    desc := BitVec.ofNat 8 c.val
    sid := sid
    ssl := ssl
    txOffset := txOffset
    rxRem := 0
    replies := []
    acceptq := none
    state := .connected }

/-- The connected slot allocated (R274). -/
def doAllocConn (ag : Agent) (c p : Fin 11) (sid txOffset : Half) (s : State) : Option Val × State :=
  (some .unit,
   if mayAllocate ag c s then s.mapSock fun k => k.setSlot c (connAllocated c sid (s.sock.slot p).ssl txOffset)
   else s)

/-- `put ... into SLOT[p].acceptq`, which holds at most one record (R37, R274). The record is dropped where the parent has
been freed since it was tested, by `Shutdown` or by `Reset`: logs 37 and 22 (DEDUCED). -/
def acceptPut (r : AcceptRec) (x : Slot) : Slot :=
  if x.inUse && x.acceptq.isNone then { x with acceptq := some r } else x

/-- The receive window of a slot in use (R277). It is dropped where the slot has been freed since the reply was matched, by
`Shutdown` or by `Reset`: logs 37 and 22 (DEDUCED). -/
def openWindow (addr : Word) (rem : Half) (sender : SockAddr) (x : Slot) : Slot :=
  if x.inUse then { x with rxAddr := addr, rxRem := rem, rxFrom := sender } else x

/-- `DNS_REPLY <- waiting` (R266). -/
def doDnsOpen (s : State) : Option Val × State :=
  let m := s.env.nextMail
  (some (.num m),
   (s.mapSock fun k => { k with dnsReply := some m, mail := k.mail ++ [(m, .waiting)] }).mapEnv fun e =>
     { e with nextMail := m + 1 })

/-- `DNS_REPLY <- no waiter` (R266). -/
def Sockets.dropDns (k : Sockets) (m : Nat) : Sockets :=
  { k with dnsReply := if k.dnsReply = some m then none else k.dnsReply, mail := mailDel k.mail m }

/-- Wait for the DNS reply (R266). -/
def doDnsWait (m : Nat) (bounded : Bool) (s : State) : Option Val × State :=
  match mailGet s.sock.mail m with
  | some (.filled r) => (some (.reply (.ok r)), s.mapSock fun k => k.dropDns m)
  | some .waiting =>
    if bounded && s.env.fired then (some (.reply (.error .socketTimeout)), s.mapSock fun k => k.dropDns m)
    else (none, s)
  | some .abandoned => (some (.reply (.error .socketInvalid)), s.mapSock fun k => k.dropDns m)
  | none => (some (.reply (.error .socketInvalid)), s.mapSock fun k => k.dropDns m)

/-- Fill `DNS_REPLY` if it waits; the answer is whether it did (R280). -/
def doDnsFill (rep : Reply) (s : State) : Option Val × State :=
  match s.sock.dnsReply with
  | none => (some (.flag false), s)
  | some m =>
    if mailGet s.sock.mail m = some .waiting then (some (.flag true), s.mapSock fun k => fillMail k m rep)
    else (some (.flag false), s)

/-! ### Assignments (R46, R285, R286) -/

/-- What an assignment does. -/
def Put.apply (u : Put) (s : State) : State :=
  match u with
  | .crcEn b => s.mapFr fun f => { f with crcEn := b }
  | .hifState st => s.mapHif fun h => { h with state := st }
  | .awake b => s.mapHif fun h => { h with awake := b }
  | .rxAddr a => s.mapHif fun h => { h with rxAddr := a }
  | .rxSize n => s.mapHif fun h => { h with rxSize := n }
  | .rxValid b => s.mapHif fun h => { h with rxValid := b }
  | .rxPend b => s.mapHif fun h => { h with rxPend := b }
  | .clearCb => s.mapHif fun h => { h with cb := Vector.replicate 256 none }
  | .clearSubs =>
    (s.mapHif fun h => { h with subs := [] }).mapEnv fun e =>
      { e with closed := e.closed ++ s.hif.subs.map fun q => { q with content := none } }
  | .go b => s.mapIrq fun q => { q with go := b }
  | .stop b => s.mapIrq fun q => { q with stop := b }
  | .wSeq w => s.mapIrq fun q => { q with wseq := w }
  | .stopWorker => s.mapIrq fun q => { q with wseq := if q.wseq = .wait then .stopped else q.wseq }
  | .irqPrev b => s.mapIrq fun q => { q with irqPrev := b }
  | .irqPrevPin => s.mapIrq fun q => { q with irqPrev := s.env.pin }
  | .intrEn b => s.mapIrq fun q => { q with intrEn := b }
  | .wake i => s.mapSock fun k => k.wakeSlot i
  | .slot i => s.mapSock fun k => k.freeSlot i
  | .sid v => s.mapSock fun k => { k with sid := v }
  | .dns => s.mapSock fun k => { k with dnsReply := none, mail := (k.dnsReply.toList).foldl mailAbandon k.mail }
  | .rootLive b => s.mapRoot fun r => { r with live := b }

/-- Assignments one after another. -/
def putAll (l : List Put) (s : State) : State := l.foldl (fun t u => u.apply t) s

/-- The slots, in order. -/
def allSlots : List (Fin 11) := [0, 1, 2, 3, 4, 5, 6, 7, 8, 9, 10]

/-- Every slot: its waiters completed, then the slot freed (R286). -/
def slotPuts : List Put := allSlots.flatMap fun i => [.wake i, .slot i]

/-- The worker is between rounds, or has stopped. -/
def betweenRounds (q : Irq) : Bool := decide (q.wseq = .wait) || decide (q.wseq = .stopped)

/-- Nothing begun before is in the middle of a step that a lock orders: every lock is free, and no round of the worker is
in progress (R25, R29, R72, R286; log 22). -/
def quiet (s : State) : Bool :=
  decide (s.tr.lock = .free) && decide (s.hif.lock = .free) && decide (s.sock.sidLock = .free) &&
    allSlots.all (fun i => decide ((s.sock.slot i).lock = .free)) && betweenRounds s.irq

/-- `T_SEQ <- IDLE`, `W_SEQ <- W_STOPPED`, the locks being free (R46). -/
def quieted (s : State) : State :=
  (s.mapTr fun t => { t with seq := .idle }).mapIrq fun q => { q with wseq := .stopped, wjob := .round, wlog := [] }

/-- The locks, `T_SEQ` and `W_SEQ` at their values of R46. `Initialize()` frees no lock under its holder: it waits until
whoever was overtaken by a `Reset()` has released it, and until a round in progress has finished (R285, R286; log 22). -/
def doQuiesce (s : State) : Option Val × State := if quiet s then (some .unit, quieted s) else (none, s)

/-- Every other state element set to its value of R46, power-on variant, but `PKT_LIMIT`, in the order of R46's table;
elements R46 leaves unspecified keep what they hold, waiters that are still there are completed (R285; log 22). -/
def initPuts : List Put :=
  [.crcEn true, .hifState .uninitialized, .awake false, .rxValid false, .rxPend false, .clearCb, .clearSubs, .go false,
    .stop false, .irqPrev true, .intrEn false] ++ slotPuts ++ [.sid 0, .dns, .rootLive false]

/-- `Reset()` line by line, and the two elements that only R46 and R372 name, `IRQ_PREV` and a waiting worker's `W_SEQ`
(R286; log 22). No lock is taken or freed: whoever holds one wakes and releases it. -/
def resetPuts : List Put :=
  [.intrEn false, .stop true, .go false] ++ slotPuts ++
  [.dns, .clearSubs, .clearCb, .rxValid false, .rxPend false, .awake false, .sid 0, .irqPrev true, .stopWorker,
    .hifState .shutdown, .rootLive false]

/-- What the assignments of `Initialize()` come to, once everything is quiet (R285). -/
def resetAll (s : State) : State := putAll initPuts (quieted s)

/-- What the assignments of `Reset()` come to (R286, R372). -/
def teardown (s : State) : State := putAll resetPuts s

/-! ### All actions -/

/-- An action's answer and the state after it; no answer where the agent has to wait. -/
def perform (a : Action) (ag : Agent) (s : State) : Option Val × State :=
  match a with
  | .put u => (some .unit, u.apply s)
  | .sessionReady => (some (.flag (decide (s.hif.state = .ready))), s)
  | .acquire => doAcquire ag s
  | .build c => doBuild c s
  | .cmdWr last => doCmdWr last s
  | .rspRd next => doRspRd next s
  | .startRead n into => doStartRead n into s
  | .startWrite src => doStartWrite src s
  | .chunkRd => doChunkRd s
  | .chunkWr src => doChunkWr src s
  | .drspRd => doDrspRd s
  | .failed e => doFailed e s
  | .sendFailed => doSendFailed s
  | .recoverReset => doRecoverReset s
  | .settle => doSettle s
  | .release => doRelease ag s
  | .lockT => doLockT ag s
  | .unlockT => doUnlockT ag s
  | .buildOnly c => (some .unit, buildFrame c s)
  | .tagChunk seq payload => doTagChunk seq payload s
  | .scanChunk => doScanChunk s
  | .getPktLimit => (some (.num s.fr.pktLimit), s)
  | .getAwake => (some (.flag s.hif.awake), s)
  | .delay d => (some .unit, passDelay d s)
  | .timedOut => (some (.flag s.env.fired), s)
  | .lockS => doLockS ag s
  | .unlockS => doUnlockS ag s
  | .getRxPend => (some (.flag s.hif.rxPend), s)
  | .rxIsValid => (some (.flag s.hif.rxValid), s)
  | .rxTooLong n => (some (.flag (rxTooLong s.hif n)), s)
  | .rxOutside address n => (some (.flag (rxOutside s.hif address n)), s)
  | .rxDoneDue address n done => (some (.flag (rxDoneDue s.hif address n done)), s)
  | .setCb g cb => doSetCb g cb s
  | .getCb g => (some (.callback (s.hif.cb[g.toNat]'g.isLt)), s)
  | .subsIds => (some (.ids (s.hif.subs.map (·.id))), s)
  | .offer id ev => (some .unit, offerTo id ev s)
  | .openQueue => doOpenQueue s
  | .drawCollab call => doDrawCollab call s
  | .fillSpan sp b => (some .unit, fillSpan sp b s)
  | .scrambleSpan sp => (some .unit, scrambleSpan sp s)
  | .lockSlot i => doLockSlot ag i s
  | .tryLock i => doTryLock ag i s
  | .leave i => doLeave ag i s
  | .slotValid i => (some (.flag (s.sock.valid i)), s)
  | .slotInUse i => (some (.flag (s.sock.slot i).inUse), s)
  | .nextSid => doNextSid s
  | .getSlot i => (some (.slot (s.sock.slot i)), s)
  | .insertReply i sid kind => doInsertReply ag i sid kind s
  | .removeReply i m => (some .unit, s.mapSock fun k => k.dropReply i m)
  | .waitReply i m bounded => doWaitReply i m bounded s
  | .updSlot i u => doUpdSlot ag i u s
  | .allocSlot i sid ssl txOffset => doAllocSlot ag i sid ssl txOffset s
  | .beginClose i => doBeginClose ag i s
  | .freeSlot i => doFreeSlot ag i s
  | .acceptOpen i => doAcceptOpen ag i s
  | .acceptWait i m bounded => doAcceptWait i m bounded s
  | .acceptPeek i m bounded => doAcceptPeek i m bounded s
  | .acceptTake i m => doAcceptTake i m s
  | .matchReply sock sid kind => (some (.mail (matchReply s.sock sock sid kind)), s)
  | .fillMail m rep => (some .unit, s.mapSock fun k => fillMail k m rep)
  | .setRxwin i addr rem sender => (some .unit, s.mapSock fun k => k.setSlot i (openWindow addr rem sender))
  | .acceptParent p => (some (.flag (acceptParent s.sock p)), s)
  | .allocConn c p sid txOffset => doAllocConn ag c p sid txOffset s
  | .acceptPut p r => (some .unit, s.mapSock fun k => k.setSlot p (acceptPut r))
  | .dnsOpen => doDnsOpen s
  | .dnsWait m bounded => doDnsWait m bounded s
  | .dnsClose m => (some .unit, s.mapSock fun k => k.dropDns m)
  | .dnsFill rep => doDnsFill rep s
  | .quiesce => doQuiesce s

end Sys2Proof.Machine
end

