-- ==== Sys2Proof/Machine/Exchange.lean ====
section
/-!
DEFINITION. The transport's operations as programs: exchanges, the retry machine, register and block operations,
transport init (spec/41_transport.md R171 to R183). They are what every other operation reaches the bus through (R62).
-/

namespace Sys2Proof.Machine

/-- The data phase of an exchange (R171). -/
inductive DataPhase where
  /-- no data frame: `writeRegister` -/
  | absent
  /-- a data frame of `n` bytes is read into what the reference names -/
  | read (n : Nat) (into : DataRef)
  /-- a data frame is written -/
  | write (src : Source)
deriving DecidableEq, Repr

/-- Where the sequencer goes after a good response (R186). -/
def DataPhase.afterRsp : DataPhase → TSeq
  | .absent => .doneOk
  | .read _ _ => .dataXfer
  | .write _ => .dataXfer

/-- The chunks of `chunk_read`, one action each, the bytes so far in hand; every chunk moves at least one byte, so `n`
rounds do (R146). -/
def readChunks : Nat → Bytes → Prog (Except Err Bytes)
  | 0, acc => .ret (.ok acc)
  | n + 1, acc => .act .chunkRd fun v =>
    match v with
    | .chunk (some e) _ _ => raise e
    | .chunk none d true => readChunks n (acc ++ d)
    | .chunk none d false => .ret (.ok (acc ++ d))
    | _ => .ret (.ok acc)

/-- The chunks of `chunk_write`, one action each (R142). -/
def writeChunks (src : Source) : Nat → Prog (Option Err)
  | 0 => .ret none
  | n + 1 => .act (.chunkWr src) fun v =>
    match v with
    | .chunk (some e) _ _ => .ret (some e)
    | .chunk none _ true => writeChunks src n
    | _ => .ret none

/-- `DATA_XFER` and `DRSP_RD` (R171). -/
def dataPhase : DataPhase → Prog (Except Err Bytes)
  | .absent => .ret (.ok [])
  | .read n into => .andThen (.startRead n into) (readChunks n [])
  | .write src =>
    .andThen (.startWrite src) <| (writeChunks src (wireLen src.len)).bind fun r =>
      match r with
      | some e => raise e
      | none => .act .drspRd fun v =>
        match v.toErr with
        | some e => raise e
        | none => .ret (.ok [])

/-- One attempt of an operation; it ends at the first failing step (R171). -/
def exchange (c : Cmd) (d : DataPhase) : Prog (Except Err Bytes) :=
  .andThen (.build c) <| .act (.cmdWr false) fun v =>
    match v.toErr with
    | some e => raise e
    | none => .act (.rspRd d.afterRsp) fun w =>
      match w.toErr with
      | some e => raise e
      | none => dataPhase d

/-- The loop of `run(exchange)`: at most the given number of attempts, `ATT` counting them (R172). -/
def attempts (c : Cmd) (d : DataPhase) : Nat → Prog (Except Err Bytes)
  | 0 => .andThen .release (raise .xfer)
  | n + 1 => (exchange c d).bind fun r =>
    match r with
    | .ok b => .andThen .release (.ret (.ok b))
    | .error e => .act (.failed e) fun v =>
      if v.toFlag then .andThen .recoverReset (.andThen .settle (attempts c d n))
      else .andThen .release (raise e)

/-- `run(exchange)` (R172, R175). -/
def runExchange (c : Cmd) (d : DataPhase) : Prog (Except Err Bytes) :=
  .andThen .acquire (attempts c d maxAttempts)

/-! ### The operations -/

/-- `readRegister(addr)` for an address below `2^24` (R176). -/
def readReg (a : Addr) : Prog (Except Err Word) :=
  (runExchange (Cmd.readRegister a) (.read 4 (.operand 4))).tryBind fun b => .ret (.ok (BitVec.ofNat 32 (fromLe b)))

/-- `writeRegister(addr, value)` for an address below `2^24` (R177). -/
def writeReg (a : Addr) (d : Word) : Prog (Except Err Unit) :=
  (runExchange (Cmd.writeRegister a d) .absent).tryBind fun _ => .ret (.ok ())

/-- `readBlock` of `n` bytes at an address below `2^24`: at least two bytes travel (R178, R181). -/
def readBlockAt (a : Addr) (n : Nat) (into : DataRef) : Prog (Except Err Bytes) :=
  (runExchange (.extRead a (BitVec.ofNat 24 (wireLen n))) (.read (wireLen n) into)).tryBind fun b =>
    .ret (.ok (b.take n))

/-- One piece of a `writeBlock`: at most `BUS_MTU` bytes (R179). An address of `2^24` or more is refused (R61, U3;
log 13). -/
def writePiece (a : Nat) (src : Source) : Prog (Except Err Unit) :=
  if a < 2 ^ 24 then
    (runExchange (.extWrite (BitVec.ofNat 24 a) (BitVec.ofNat 24 (wireLen src.len))) (.write src)).tryBind
      fun _ => .ret (.ok ())
  else .refuse .operandRange

/-- `writeBlock` in pieces of at most `BUS_MTU` bytes at advancing addresses, each an operation of its own; a block of
at most that many bytes is one piece (R179, R180). The first argument bounds the number of pieces. -/
def writePieces : Nat → Nat → Source → Prog (Except Err Unit)
  | 0, _, _ => .ret (.ok ())
  | n + 1, a, src =>
    if src.len = 0 then .ret (.ok ())
    else (writePiece a (src.take busMtu)).tryBind fun _ => writePieces n (a + busMtu) (src.drop busMtu)

/-- `MemRead(a, n)` (R10); refused at `2^24` or more (R61, U3; log 13). -/
def devRead (a : Word) (n : Nat) (into : DataRef) : Prog (Except Err Bytes) :=
  if a.toNat < 2 ^ 24 then readBlockAt (a.setWidth 24) n into else .refuse .operandRange

/-- `MemWrite(a, n, v)` (R10); the address is an integer, so that nothing wraps (R225). -/
def devWrite (a : Nat) (src : Source) : Prog (Except Err Unit) := writePieces src.len a src

/-- `reset()`: the soft-reset frame, no response, no retry (R182). -/
def softReset : Prog (Except Err Unit) :=
  .andThen .acquire <| .andThen (.build .reset) <| .act (.cmdWr true) fun v =>
    match v.toErr with
    | some e => .andThen .sendFailed (.andThen .release (raise e))
    | none => .andThen .release (.ret (.ok ()))

/-- The write-back of `INIT_CFG_WRITEBACK`, where it is supplied (R183; log 17). -/
def cfgWriteback (p : Params) (w : Word) : Prog (Except Err Unit) :=
  match p.initCfgWriteback with
  | none => .ret (.ok ())
  | some f => .act .getPktLimit fun v => writeReg p.regProtocolConfig (f.app (w, v.toNum))

/-- The probe of transport `init()`: with `CRC_EN` as it is, then, if that fails, with `CRC_EN <- 0` (R183). -/
def probeConfig (p : Params) : Prog (Except Err Word) :=
  (readReg p.regProtocolConfig).bind fun r =>
    match r with
    | .ok w => .ret (.ok w)
    | .error _ => .andThen (.put (.crcEn false)) (readReg p.regProtocolConfig)

/-- Transport `init()` (R183): `CRC_EN` ends 0 on every path. -/
def transportInit (p : Params) : Prog (Except Err Unit) :=
  .andThen (.put (.crcEn true)) <| ((probeConfig p).tryBind (cfgWriteback p)).bind fun r =>
    .andThen (.put (.crcEn false)) (.ret r)

/-! ### Frame builders and chunks by themselves (logs 11, 12) -/

/-- An action under `T_LOCK` alone. -/
def underT (a : Action) (k : Val → Prog (Except Err Value)) : Prog (Except Err Value) :=
  .andThen .lockT <| .act a fun v => .andThen .unlockT (k v)

/-- A frame builder (R131 to R141; log 12). -/
def buildProgram (c : Cmd) : Prog (Except Err Value) := underT (.buildOnly c) fun _ => .ret (.ok .unit)

/-- One chunk of a written data frame under its tag (R142, R143; log 11). -/
def tagProgram (seq : BitVec 4) (payload : Bytes) : Prog (Except Err Value) :=
  underT (.tagChunk seq payload) fun v =>
    match v.toErr with
    | some e => raise e
    | none => .ret (.ok .unit)

/-- One chunk of a data frame read behind a tag scan (R146, R147; log 11). -/
def tagScanProgram : Prog (Except Err Value) :=
  underT .scanChunk fun v =>
    match v with
    | .chunk (some e) _ _ => raise e
    | .chunk none d _ => .ret (.ok (.bytes d))
    | _ => .ret (.ok (.bytes []))

end Sys2Proof.Machine
end

