-- ==== Sys2Proof/Machine/Records.lean ====
section
/-!
DEFINITION. The socket records: requests encoded and replies decoded by the layouts of spec/30_encoding.md R109.
-/

namespace Sys2Proof.Machine

/-- The socket descriptor of a request: the slot index, signed 8 bits (R109). -/
def sockField (i : Fin 11) : Bytes := [BitVec.ofNat 8 i.val]

/-- `enc(BindCmd{addr, sock, sid})` (R255). -/
def encBind (p : Params) (addr : SockAddr) (i : Fin 11) (sid : Half) : Bytes :=
  p.layouts.bindCmd.enc [p.layouts.sockAddr.enc addr, sockField i, le2 sid]

/-- `enc(ListenCmd{sock, backlog, sid})` (R256). -/
def encListen (p : Params) (i : Fin 11) (backlog : Byte) (sid : Half) : Bytes :=
  p.layouts.listenCmd.enc [sockField i, [backlog], le2 sid]

/-- `enc(ConnectCmd{addr, sock, ssl_flags, sid})` (R258, R259). -/
def encConnect (p : Params) (addr : SockAddr) (i : Fin 11) (ssl : SslFlags) (sid : Half) : Bytes :=
  p.layouts.connectCmd.enc [p.layouts.sockAddr.enc addr, sockField i, [sslByte p.sslBits ssl], le2 sid]

/-- `enc(SendCmd{sock, data_size, addr, sid})` (R260, R261). -/
def encSend (p : Params) (i : Fin 11) (dataSize : Nat) (addr : SockAddr) (sid : Half) : Bytes :=
  p.layouts.sendCmd.enc [sockField i, le2 (BitVec.ofNat 16 dataSize), p.layouts.sockAddr.enc addr, le2 sid]

/-- `enc(RecvCmd{timeout, sock, sid})` (R262). -/
def encRecv (p : Params) (timeout : Word) (i : Fin 11) (sid : Half) : Bytes :=
  p.layouts.recvCmd.enc [toLe 4 timeout.toNat, sockField i, le2 sid]

/-- `enc(CloseCmd{sock, sid})` (R265). -/
def encClose (p : Params) (i : Fin 11) (sid : Half) : Bytes := p.layouts.closeCmd.enc [sockField i, le2 sid]

/-- `enc(SetSockOptCmd{sock, option, value, sid})` (R264). The byte string, whose width may vary, is laid down last. -/
def encSetSockOpt (p : Params) (i : Fin 11) (option : Byte) (value : Bytes) (sid : Half) : Bytes :=
  let l := p.layouts.setSockOptCmd
  overlay (l.enc [sockField i, [option], [], le2 sid]) (l.offs.getD 2 0) (l.strBytes value)

/-- `enc(SslCreateCmd{sock})` (R252). -/
def encSslCreate (p : Params) (i : Fin 11) : Bytes := p.layouts.sslCreateCmd.enc [sockField i]

/-- `enc(DnsCmd{name})` (R266). -/
def encDns (p : Params) (name : Bytes) : Bytes := p.layouts.dnsCmd.enc [p.layouts.dnsCmd.strBytes name]

/-- The records the device sends (R109). -/
inductive RxRecord where
  | bindReply | listenReply | acceptReply | connectReply | sendReply | recvReply | dnsReply
deriving DecidableEq, Repr

/-- The layout of a record the device sends. -/
def rxLayout (p : Params) : RxRecord → Layout
  | .bindReply => p.layouts.bindReply
  | .listenReply => p.layouts.listenReply
  | .acceptReply => p.layouts.acceptReply
  | .connectReply => p.layouts.connectReply
  | .sendReply => p.layouts.sendReply
  | .recvReply => p.layouts.recvReply
  | .dnsReply => p.layouts.dnsReply

/-- The widths of a session-id field that may be absent, last in its record (R109). -/
def sidWidth (l : Layout) : List Nat := if l.noSid then [] else [2]

/-- The widths of the fields of a record, in the order R109 lists them. -/
def recWidths (l : Layout) : RxRecord → List Nat
  | .bindReply => [1, 1] ++ sidWidth l
  | .listenReply => [1, 1] ++ sidWidth l
  | .acceptReply => [8, 1, 1, 2]
  | .connectReply => [1, 1, 2] ++ sidWidth l
  | .sendReply => [1, 2] ++ sidWidth l
  | .recvReply => [8, 2, 2, 1] ++ sidWidth l
  | .dnsReply => [l.strWidth.getD 0, 4]

/-- `SIZE_R`, the size of a record the device sends: every field lies inside (R270). -/
def recSize (p : Params) (r : RxRecord) : Nat :=
  ((rxLayout p r).enc ((recWidths (rxLayout p r) r).map fun w => List.replicate w 0x00)).length

/-- A session id in field number `k`, if the record has one (R109). -/
def recSid (l : Layout) (k : Nat) (b : Bytes) : Option Half :=
  if l.noSid then none else some (BitVec.ofNat 16 (l.num k 2 b))

/-- A `SockAddr` in field number `k` (R110). -/
def addrAt (p : Params) (l : Layout) (k : Nat) (b : Bytes) : SockAddr := p.layouts.sockAddr.dec (l.field k 8 b)

/-- `dec` of a record (R109, R272 to R277, R280). -/
def decRec (p : Params) (r : RxRecord) (b : Bytes) : Reply :=
  let l := rxLayout p r
  match r with
  | .bindReply => .status (BitVec.ofNat 8 (l.num 0 1 b)) (BitVec.ofNat 8 (l.num 1 1 b)) (recSid l 2 b)
  | .listenReply => .status (BitVec.ofNat 8 (l.num 0 1 b)) (BitVec.ofNat 8 (l.num 1 1 b)) (recSid l 2 b)
  | .acceptReply =>
    .accept (addrAt p l 0 b) (BitVec.ofNat 8 (l.num 1 1 b)) (BitVec.ofNat 8 (l.num 2 1 b))
      (BitVec.ofNat 16 (l.num 3 2 b))
  | .connectReply =>
    .connect (BitVec.ofNat 8 (l.num 0 1 b)) (BitVec.ofNat 8 (l.num 1 1 b)) (BitVec.ofNat 16 (l.num 2 2 b))
      (recSid l 3 b)
  | .sendReply => .send (BitVec.ofNat 8 (l.num 0 1 b)) (BitVec.ofNat 16 (l.num 1 2 b)) (recSid l 2 b)
  | .recvReply =>
    .recv (addrAt p l 0 b) (BitVec.ofNat 16 (l.num 1 2 b)) (BitVec.ofNat 16 (l.num 2 2 b))
      (BitVec.ofNat 8 (l.num 3 1 b)) (recSid l 4 b)
  | .dnsReply => .dns (l.str 0 b) (BitVec.ofNat 32 (l.num 1 4 b))

end Sys2Proof.Machine
end

