-- ==== Sys2Proof/Machine/Session.lean ====
section
/-!
DEFINITION. The HIF session's operations as programs (spec/42_hif.md R201 to R219), the socket multiplexer's dispatch
callback (spec/43_socket.md R270 to R280), and the worker's round (R223).
-/

namespace Sys2Proof.Machine

/-! ### The boot handshake (R202 to R205) -/

/-- Set one bit of a device register: a read, then a write (R205, R206, R219). -/
def setRegBit (a : Addr) (bit : Fin 32) : Prog (Except Err Unit) :=
  (readReg a).tryBind fun w => writeReg a (setBit w bit)

/-- Clear one bit of a device register (R207). -/
def clearRegBit (a : Addr) (bit : Fin 32) : Prog (Except Err Unit) :=
  (readReg a).tryBind fun w => writeReg a (clearBit w bit)

/-- `check_chip_id()` (R202). The error of a rejected id has no name of its own; `Init` replaces it (R201). -/
def checkChipId (p : Params) : Prog (Except Err Unit) :=
  (readReg p.regChipId).tryBind fun id =>
    if p.chipFamilyOk.app id then .ret (.ok ()) else raise .incompatibleVersion

/-- The efuse poll of `waitForBootrom`: no bound (R203, R388; log 19). -/
def efusePoll (p : Params) : Prog (Except Err Unit) :=
  .mark <| (readReg p.regEfuseStatus).tryBind fun e =>
    if e.getLsbD p.bitEfuseLoaded.val then .ret (.ok ()) else .andThen (.delay .efusePoll) .back

/-- `wait_until(RegRead(a)? = magic) or timeout: raise e` (R203, R204, R340; log 19). -/
def pollMagic (a : Addr) (magic : Word) (e : Err) : Prog (Except Err Unit) :=
  .mark <| .act .timedOut fun v =>
    if v.toFlag then raise e
    else (readReg a).tryBind fun w => if w = magic then .ret (.ok ()) else .back

/-- `waitForBootrom()` (R203). -/
def waitForBootrom (p : Params) : Prog (Except Err Unit) :=
  (efusePoll p).tryBind fun _ =>
    (pollMagic p.regBootrom p.magicBootromDone .firmwareLoadFailed).tryBind fun _ =>
      (writeReg p.regVersionInfo p.versionInfoWord).tryBind fun _ =>
        (writeReg p.regChipConfig p.chipConfigWord).tryBind fun _ =>
          writeReg p.regBootrom p.magicStartFirmware

/-- `waitForFirmwareStart()` (R204). -/
def waitForFirmwareStart (p : Params) : Prog (Except Err Unit) :=
  (pollMagic p.regFwState p.magicFwReady .firmwareTimeout).tryBind fun _ => writeReg p.regFwState 0x00000000

/-- `enableInterrupts()` (R205). -/
def enableInterrupts (p : Params) : Prog (Except Err Unit) :=
  (setRegBit p.regPinMux p.bitPinMux).tryBind fun _ => setRegBit p.regIntrEnable p.bitIntrEnable

/-- `fail(E)` of `Init` (R201). -/
def initFail (e : Err) : Prog (Except Err Unit) := .andThen (.put (.hifState .uninitialized)) (raise e)

/-- A stage of `Init`: its failure, whatever it is, becomes the stage's error (R201). -/
def initStage (stage : Prog (Except Err Unit)) (e : Err) (rest : Prog (Except Err Unit)) : Prog (Except Err Unit) :=
  stage.bind fun r =>
    match r with
    | .ok _ => rest
    | .error _ => initFail e

/-- `Init()` (R201). -/
def hifInit (p : Params) : Prog (Except Err Unit) :=
  .andThen (.put (.hifState .bootstrapping)) <| (transportInit p).bind fun r =>
    match r with
    | .error e => initFail e
    | .ok _ =>
      initStage (checkChipId p) .incompatibleVersion <|
        initStage (waitForBootrom p) .bootromFailed <|
          initStage (waitForFirmwareStart p) .firmwareFailed <|
            initStage (enableInterrupts p) .interruptsEnableFailed <|
              .andThen (.put (.hifState .ready)) (.ret (.ok ()))

/-! ### Wake and sleep (R206, R207) -/

/-- The polls for the clock-enable acknowledge (R206). -/
def wakePoll (p : Params) : Nat → Prog (Except Err Unit)
  | 0 => raise .wakeFailed
  | k + 1 => (readReg p.regClkStatus).tryBind fun c =>
    if c.getLsbD p.bitClkEnAck.val then .andThen (.put (.awake true)) (.ret (.ok ()))
    else .andThen (.delay .wakePoll) (wakePoll p k)

/-- `ChipWake()`, the session lock held (R206, R226). -/
def chipWake (p : Params) : Prog (Except Err Unit) :=
  .act .getAwake fun v =>
    if v.toFlag then .ret (.ok ())
    else (setRegBit p.regWakeA p.bitWakeA).tryBind fun _ =>
      (setRegBit p.regWakeB p.bitWakeB).tryBind fun _ =>
        .andThen (.delay .wakeSettle) (wakePoll p wakePolls)

/-- `ChipSleep()`, the session lock held (R207, R226). -/
def chipSleep (p : Params) : Prog (Except Err Unit) :=
  .act .getAwake fun v =>
    if v.toFlag then
      (clearRegBit p.regWakeB p.bitWakeB).tryBind fun _ =>
        (clearRegBit p.regWakeA p.bitWakeA).tryBind fun _ => .andThen (.put (.awake false)) (.ret (.ok ()))
    else .ret (.ok ())

/-- A program under the session lock (R226). -/
def withSession {α : Type} (body : Prog α) : Prog α :=
  .andThen .lockS <| body.bind fun r => .andThen .unlockS (.ret r)

/-! ### Send (R208 to R210) -/

/-- The polls for a DMA address: poll number `k`, and how many are left (R208). -/
def dmaPoll (p : Params) (k : Nat) : Nat → Prog (Except Err (Option Word))
  | 0 => .ret (.ok none)
  | n + 1 => (readReg p.regHifDmaCtrl).tryBind fun w =>
    if p.dmaPublished.app w then (readReg p.regHifDmaAddr).tryBind fun a => .ret (.ok (some a))
    else if k > hifDmaThrottle then .andThen (.delay .dmaThrottle) (dmaPoll p (k + 1) n)
    else dmaPoll p (k + 1) n

/-- `MemWrite` of a byte string, left out where it is empty (R208); the string is a value (log 39). -/
def devWriteSome (a : Nat) (v : Bytes) : Prog (Except Err Unit) :=
  if v.isEmpty then .ret (.ok ()) else devWrite a (.value v)

/-- The packet's three block writes and the TX-ready write (R208, R210). -/
def sendPacket (p : Params) (dma : Word) (header control data : Bytes) (offset : Nat) : Prog (Except Err Unit) :=
  (devWrite dma.toNat (.value header)).tryBind fun _ =>
    (devWriteSome (dma.toNat + 8) control).tryBind fun _ =>
      (devWriteSome (dma.toNat + 8 + offset) data).tryBind fun _ =>
        writeReg p.regHifTxReady (p.txReadyWord.app dma)

/-- `body()` of `Send` (R208). -/
def sendBody (p : Params) (group opcode : Byte) (control data : Bytes) (offset : Nat) : Prog (Except Err Unit) :=
  let op := hifOpcodeByte opcode !data.isEmpty
  let total : Half := BitVec.ofNat 16 (hifTotal control data offset)
  (chipWake p).tryBind fun _ =>
    (writeReg p.regHifTxCtrl (p.ctrlWord.app (group, op, total))).tryBind fun _ =>
      (dmaPoll p 1 p.hifDmaPolls).tryBind fun dma =>
        match dma with
        | none => raise .badMemoryAlloc
        | some a =>
          if a = 0 then raise .badMemoryAlloc
          else sendPacket p a (hifHeader group op total) control data offset

/-- A program that starts in `ready` only: after a `Reset` in the middle of an operation, a `Send` or `Receive` that the
operation goes on to is turned away; the error is never seen, for the operation has its own (R224, R286; log 14). -/
def ifReady {α : Type} (body : Prog (Except Err α)) : Prog (Except Err α) :=
  .act .sessionReady fun v => if v.toFlag then body else raise .badMemoryAlloc

/-- `Hif.Send(group, opcode, control, data, offset)` (R208): too long a packet is rejected before any bus traffic;
otherwise the chip is put to sleep whatever the outcome. Control and data are values: what their owner changes meanwhile
is not sent (R60; log 39, DEDUCED). -/
def hifSend (p : Params) (group opcode : Byte) (control data : Bytes) (offset : Nat) : Prog (Except Err Unit) :=
  ifReady <| withSession <|
    if hifTotal control data offset > hifMaxPkt then raise .messageTooLong
    else (sendBody p group opcode control data offset).bind fun r => (chipSleep p).bind fun _ => .ret r

/-! ### Receive (R218, R219) -/

/-- `rx_done()` (R219). -/
def rxDone (p : Params) : Prog (Except Err Unit) :=
  (setRegBit p.regHifRxCtrl p.bitRxDone).tryBind fun _ => .andThen (.put (.rxPend false)) (.ret (.ok ()))

/-- RX-done where `Receive` is to give it (R218). -/
def rxDoneIfDue (p : Params) (address : Word) (n : Nat) (done : Bool) : Prog (Except Err Unit) :=
  .act (.rxDoneDue address n done) fun v => if v.toFlag then rxDone p else .ret (.ok ())

/-- `MemRead`, left out where no byte is asked for (R218). -/
def devReadSome (a : Word) (n : Nat) (into : DataRef) : Prog (Except Err Bytes) :=
  if n = 0 then .ret (.ok []) else devRead a n into

/-- What `DF_SPAN` refers to while bytes are read for an operation or into a caller's span (R23). -/
def readRef (n : Nat) : Option Span → DataRef
  | none => .operand n
  | some sp => .span sp

/-- The three tests of `Receive`, one after another: validity, length, range (R218, R329). -/
def rxChecked {α : Type} (address : Word) (n : Nat) (body : Prog (Except Err α)) : Prog (Except Err α) :=
  .act .rxIsValid fun v =>
    if v.toFlag then
      .act (.rxTooLong n) fun w =>
        if w.toFlag then raise .messageTooLong
        else .act (.rxOutside address n) fun u => if u.toFlag then raise .badMemoryAlloc else body
    else raise .badMemoryAlloc

/-- `Receive(address, data, done)` of `n` bytes (R218); the bytes fill the span, where one is lent. -/
def receive (p : Params) (address : Word) (n : Nat) (done : Bool) (into : Option Span) : Prog (Except Err Bytes) :=
  ifReady <| rxChecked address n <|
    (devReadSome address n (readRef n into)).tryBind fun d =>
      match into with
      | none => (rxDoneIfDue p address n done).tryBind fun _ => .ret (.ok d)
      | some sp => .andThen (.fillSpan sp d) <| (rxDoneIfDue p address n done).tryBind fun _ => .ret (.ok d)

/-! ### The dispatch callback (R270 to R280) -/

/-- What a callback answers: a payload or `nil`, and whether the round's RX-done is deferred (R382). -/
abbrev CbAnswer := Option Payload × Bool

/-- `nil`. -/
def cbNil : Prog CbAnswer := .ret (none, false)

/-- A decoded record. -/
def cbReply (r : Reply) : Prog CbAnswer := .ret (some (.reply r), false)

/-- `fetch(R, length, address, done)` (R270). -/
def fetch (p : Params) (r : RxRecord) (length : Int) (address : Word) (done : Bool) : Prog (Option Reply) :=
  if length < recSize p r then .ret none
  else (receive p address (recSize p r) done none).bind fun x =>
    match x with
    | .ok b => .ret (some (decRec p r b))
    | .error _ => .ret none

/-- Match a reply and fill its reply slot (R271, R272, R275, R276). -/
def cbMatch (sock : BitVec 8) (sid : Option Half) (kind : Kind) (rep : Reply) : Prog CbAnswer :=
  .act (.matchReply sock sid kind) fun v =>
    match v.toMail with
    | none => cbNil
    | some m => .andThen (.fillMail m rep) (cbReply rep)

/-- `cb_status` (R272, R273). -/
def cbStatus (p : Params) (kind : Kind) (rec : RxRecord) (length : Int) (address : Word) : Prog CbAnswer :=
  (fetch p rec length address true).bind fun r =>
    match r with
    | some (.status sock status sid) => cbMatch sock sid kind (.status sock status sid)
    | _ => cbNil

/-- `cb_connect` (R275). -/
def cbConnect (p : Params) (length : Int) (address : Word) : Prog CbAnswer :=
  (fetch p .connectReply length address true).bind fun r =>
    match r with
    | some (.connect sock error extraData sid) => cbMatch sock sid .connect (.connect sock error extraData sid)
    | _ => cbNil

/-- `cb_send` (R276). -/
def cbSend (p : Params) (length : Int) (address : Word) : Prog CbAnswer :=
  (fetch p .sendReply length address true).bind fun r =>
    match r with
    | some (.send sock sentBytes sid) => cbMatch sock sid .send (.send sock sentBytes sid)
    | _ => cbNil

/-- The end of `cb_recv` (R277): a matched positive count records the socket's window and leaves the HIF window for
the caller to pull from; anything else releases the HIF window now. -/
def cbRecvMatched (p : Params) (address : Word) (addr : SockAddr) (count : BitVec 16) (dataOffset : Half)
    (sock : BitVec 8) (sid : Option Half) (mail : Option Nat) : Prog CbAnswer :=
  let rep := Reply.recv addr count dataOffset sock sid
  match mail, slotIx sock.toInt with
  | some m, some i =>
    if count.toInt > 0 then
      .andThen (.setRxwin i (address + dataOffset.setWidth 32) count addr) <|
        .andThen (.fillMail m rep) (.ret (some (.reply rep), p.recvDefersRxdone))
    else
      (receive p address 0 true none).bind fun _ => .andThen (.fillMail m rep) (cbReply rep)
  | _, _ => (receive p address 0 true none).bind fun _ => cbNil

/-- `cb_recv` (R277). -/
def cbRecv (p : Params) (length : Int) (address : Word) : Prog CbAnswer :=
  (fetch p .recvReply length address false).bind fun r =>
    match r with
    | some (.recv addr count dataOffset sock sid) =>
      .act (.matchReply sock sid .recv) fun v => cbRecvMatched p address addr count dataOffset sock sid v.toMail
    | _ => cbNil

/-- Queue an accept record with its parent (R274). -/
def cbAcceptPut (pi : Fin 11) (addr : SockAddr) (listenSock connSock : BitVec 8) (extra : Half) : Prog CbAnswer :=
  .andThen (.acceptPut pi ⟨listenSock, connSock, addr⟩) (cbReply (.accept addr listenSock connSock extra))

/-- The connected slot of an accept event (R274). -/
def cbAcceptConn (pi : Fin 11) (addr : SockAddr) (listenSock connSock : BitVec 8) (extra : Half) : Prog CbAnswer :=
  if connSock.toInt < 0 then cbAcceptPut pi addr listenSock connSock extra
  else
    match slotIx connSock.toInt with
    | none => cbNil
    | some c => .act (.tryLock c) fun v =>
      if v.toFlag then
        .act (.slotInUse c) fun u =>
          if u.toFlag = true ∨ extra.toNat < 8 then .andThen (.leave c) cbNil
          else .act .nextSid fun w =>
            .andThen (.allocConn c pi (BitVec.ofNat 16 w.toNum) (extra - 8)) <| .andThen (.leave c) <|
              cbAcceptPut pi addr listenSock connSock extra
      else cbNil

/-- A stream slot index: 0 to 6 (R34, R257, R274). -/
def streamIx (i : Int) : Option (Fin 11) := if i ≤ 6 then slotIx i else none

/-- `cb_accept` (R274). -/
def cbAccept (p : Params) (length : Int) (address : Word) : Prog CbAnswer :=
  (fetch p .acceptReply length address true).bind fun r =>
    match r with
    | some (.accept addr listenSock connSock extra) =>
      match streamIx listenSock.toInt with
      | none => cbNil
      | some pi => .act (.acceptParent pi) fun v =>
        if v.toFlag then cbAcceptConn pi addr listenSock connSock extra else cbNil
    | _ => cbNil

/-- `cb_dns` (R280). -/
def cbDns (p : Params) (length : Int) (address : Word) : Prog CbAnswer :=
  (fetch p .dnsReply length address true).bind fun r =>
    match r with
    | some (.dns name ip) => .act (.dnsFill (.dns name ip)) fun v => if v.toFlag then cbReply (.dns name ip) else cbNil
    | _ => cbNil

/-- `sock_cb(opcode, length, address)` (R270, R279). -/
def sockCb (p : Params) (opcode : Byte) (length : Int) (address : Word) : Prog CbAnswer :=
  let k := opcode &&& 0x7F
  if k = 0x41 ∨ k = 0x54 then cbStatus p .bind .bindReply length address
  else if k = 0x42 then cbStatus p .listen .listenReply length address
  else if k = 0x43 then cbAccept p length address
  else if k = 0x44 ∨ k = 0x4B ∨ k = 0x56 then cbConnect p length address
  else if k = 0x45 ∨ k = 0x4C ∨ k = 0x47 then cbSend p length address
  else if k = 0x46 ∨ k = 0x4D ∨ k = 0x48 then cbRecv p length address
  else if k = 0x4A then cbDns p length address
  else cbNil

/-- The `Receive` calls of a collaborator's callback, their results its own affair (R213; log 21). -/
def collabReceives (p : Params) : List (Word × Span × Bool) → Prog Unit
  | [] => .ret ()
  | (address, sp, done) :: rest =>
    (receive p address sp.len done (some sp)).bind fun r =>
      match r with
      | .ok _ => collabReceives p rest
      | .error _ => .andThen (.scrambleSpan sp) (collabReceives p rest)

/-- A collaborator's callback (R31, R213; log 21). -/
def collabCb (p : Params) (call : CollabCall) : Prog CbAnswer :=
  .act (.drawCollab call) fun v =>
    (collabReceives p v.toCollab.receives).bind fun _ => .ret (v.toCollab.ret.map .bytes, false)

/-- A callback invoked (R213). -/
def invokeCb (p : Params) (cb : Callback) (opcode : Byte) (length : Int) (address : Word) : Prog CbAnswer :=
  match cb with
  | .socket => sockCb p opcode length address
  | .collaborator id => collabCb p ⟨id, opcode, length, address⟩

/-! ### Isr (R211 to R217) -/

/-- An event pushed into queues one by one (R215). -/
def offerAll {α : Type} (ev : Event) : List Nat → Prog α → Prog α
  | [], p => p
  | q :: qs, p => .andThen (.offer q ev) (offerAll ev qs p)

/-- `broadcast(ev)`: to every queue that is open when it begins, each push or removal a step of its own (R215; log
20). -/
def broadcast {α : Type} (ev : Event) (p : Prog α) : Prog α := .act .subsIds fun v => offerAll ev v.toIds p

/-- `Isr` from the broadcast on (R211, R215, R216, R382). -/
def isrFinish (p : Params) (group opcode : Byte) (a : CbAnswer) : Prog (Except Err Unit) :=
  let last : Prog (Except Err Unit) :=
    if a.2 then .ret (.ok ())
    else .act .getRxPend fun v => if v.toFlag then rxDone p else .ret (.ok ())
  match a.1 with
  | none => last
  | some pl => broadcast ⟨group, opcode, pl⟩ last

/-- `Isr` from the look-up of the callback on (R211, R213, R214). -/
def isrDispatch (p : Params) (group opcode : Byte) (length : Half) (addr : Word) : Prog (Except Err Unit) :=
  .act (.getCb group) fun v =>
    match v.toCallback with
    | none => isrFinish p group opcode (none, false)
    | some cb => (invokeCb p cb opcode ((length.toNat : Int) - 8) (addr + 8)).bind (isrFinish p group opcode)

/-- The header check, over the integers (R212, R225). -/
def headerOk (size : BitVec 12) (length : Half) : Bool := (size.toNat : Int) - length.toNat ≤ rxSlack

/-- "if the RX-interrupt bit is set, clears it" (R211). -/
def ackRxIntr (p : Params) (r : Word) : Prog (Except Err Unit) :=
  if r.getLsbD p.bitRxIntr.val then writeReg p.regHifRxCtrl (clearBit r p.bitRxIntr) else .ret (.ok ())

/-- Group, opcode byte and declared length of a packet. -/
structure Header where
  group : Byte
  opcode : Byte
  length : Half
deriving DecidableEq, Repr

/-- The header of a packet, read at its address, unless a packet received by itself brings it (R211; log 10). -/
def readHeader (given : Option Header) (addr : Word) : Prog (Except Err Header) :=
  match given with
  | some h => .ret (.ok h)
  | none =>
    (devRead addr 4 (.operand 4)).tryBind fun h =>
      .ret (.ok ⟨h.getD 0 0, h.getD 1 0, fromLe2 (h.getD 2 0) (h.getD 3 0)⟩)

/-- `Isr` from the test of the size on: the packet's header and address, its window recorded; `none` where no packet is
pending (R211, R212, R217). -/
def isrWindow (p : Params) (given : Option Header) (size : BitVec 12) : Prog (Except Err (Option (Header × Word))) :=
  if size = 0 then .ret (.ok none)
  else (readReg p.regHifRxBase).tryBind fun addr =>
    (readHeader given addr).tryBind fun h =>
      if headerOk size h.length then
        .puts [.rxAddr addr, .rxSize size, .rxValid true] (.ret (.ok (some (h, addr))))
      else raise .operationFailed

/-- The locked part of `Isr` (R211). -/
def isrHead (p : Params) (given : Option Header) : Prog (Except Err (Option (Header × Word))) :=
  (readReg p.regHifRxCtrl).tryBind fun r =>
    (ackRxIntr p r).tryBind fun _ => .andThen (.put (.rxPend true)) (isrWindow p given (rxSizeField p r))

/-- `Isr` after its locked part (R211, R217). -/
def isrRest (p : Params) : Option (Header × Word) → Prog (Except Err Unit)
  | none => .ret (.ok ())
  | some (h, addr) => isrDispatch p h.group h.opcode h.length addr

/-- `Isr()` (R211): the session lock is released before the callback (R213). -/
def isr (p : Params) (given : Option Header) : Prog (Except Err Unit) :=
  (withSession (isrHead p given)).tryBind (isrRest p)

/-! ### The worker's round (R223) -/

/-- `if r = ok then Isr()` (R223). -/
def isrIfAwake (p : Params) (r : Except Err Unit) : Prog (Except Err Unit) :=
  match r with
  | .ok _ => isr p none
  | .error e => raise e

/-- Wake, `Isr`, sleep; all results dropped (R223, R332). -/
def workerRound (p : Params) : Prog Unit :=
  (withSession (chipWake p)).bind fun r =>
    .andThen (.put (.wSeq .isr)) <|
      (isrIfAwake p r).bind fun _ =>
          .andThen (.put (.wSeq .sleep)) <| (withSession (chipSleep p)).bind fun _ => .ret ()

/-- What the worker runs: a round, `Isr` by itself, or `Isr` for a packet whose header is in hand (R332, R335; logs 10,
16). -/
def workerProg (p : Params) (job : WorkerJob) : Prog (Except Err Unit) :=
  match job with
  | .round => (workerRound p).bind fun _ => .ret (.ok ())
  | .isr _ => isr p none
  | .packet _ group opcode length => isr p (some ⟨group, opcode, length⟩)

end Sys2Proof.Machine
end

