-- ==== Sys2Proof/Machine/SocketOps.lean ====
section
/-!
DEFINITION. The socket multiplexer's and the driver root's operations as programs (spec/43_socket.md R251 to R266,
R285, R286).
-/

namespace Sys2Proof.Machine

/-! ### The request/reply pattern (R253, R254) -/

/-- `send_error(kind)` (R254). -/
def sendError : Kind → Err
  | .bind => .socketInvalid
  | .listen => .socketInvalid
  | .connect => .socketInvalid
  | .send => .socketBufferFull
  | .recv => .socketInvalid

/-- `enter(i)` from the lock on: the lock is taken, then the slot tested, and a slot that is not in use unlocked again
(R253). -/
def enterSlot (k : Fin 11) (body : Prog (Except Err Value)) : Prog (Except Err Value) :=
  .andThen (.lockSlot k) <| .act (.slotValid k) fun v =>
    if v.toFlag then body else .andThen (.leave k) (raise .socketInvalid)

/-- `enter(i)`, the body, `leave(i)` on every path (R253). -/
def perSlot (i : Int) (body : Fin 11 → Prog (Except Err Value)) : Prog (Except Err Value) :=
  match slotIx i with
  | none => raise .socketInvalid
  | some k => enterSlot k <| (body k).bind fun r => .andThen (.leave k) (.ret r)

/-- A request on the wire: group, opcode number, control bytes from the session id, data, offset. -/
structure Packet where
  group : Byte
  opcode : Byte
  control : Half → Bytes
  data : Bytes
  offset : Nat

/-- `request(...)`: insert before send, then wait for the reply (R253); a slot that `Reset` has freed meanwhile ends it
(R286; log 22). -/
def request (p : Params) (i : Fin 11) (kind : Kind) (pk : Packet) (deadline : Word) : Prog (Except Err Reply) :=
  .act .nextSid fun v =>
    let sid : Half := BitVec.ofNat 16 v.toNum
    .act (.insertReply i sid kind) fun w =>
      match w.toMail with
      | none => raise .socketInvalid
      | some m =>
        (hifSend p pk.group pk.opcode (pk.control sid) pk.data pk.offset).bind fun r =>
          match r with
          | .error _ => .andThen (.removeReply i m) (raise (sendError kind))
          | .ok _ => .act (.waitReply i m (deadline != 0)) fun u => .ret u.toReply

/-- A packet of the group IP without data (R255 to R266). -/
def ipPacket (opcode : Byte) (control : Half → Bytes) : Packet := ⟨groupIp, opcode, control, [], 0⟩

/-- A status reply: 0 is success, any other value is the device's error (R254). -/
def statusOk (v : BitVec 8) (after : Prog (Except Err Value)) : Prog (Except Err Value) :=
  if v ≠ 0 then raise (.socketError v.toInt) else after

/-! ### The operations (R252, R255 to R266) -/

/-- `Bind` (R255). -/
def bindOp (p : Params) (i : Int) (addr : SockAddr) (deadline : Word) : Prog (Except Err Value) :=
  perSlot i fun k => .act (.getSlot k) fun v =>
    (request p k .bind (ipPacket (pickOpcode v.toSlot.ssl 0x41 0x54) (encBind p addr k)) deadline).tryBind fun rep =>
      match rep with
      | .status _ status _ => statusOk status (.andThen (.updSlot k .bound) (.ret (.ok .unit)))
      | _ => raise .socketInvalid

/-- `Listen` (R256). -/
def listenOp (p : Params) (i : Int) (backlog : Byte) (deadline : Word) : Prog (Except Err Value) :=
  perSlot i fun k =>
    (request p k .listen (ipPacket 0x42 (encListen p k backlog)) deadline).tryBind fun rep =>
      match rep with
      | .status _ status _ => statusOk status (.andThen (.updSlot k .listening) (.ret (.ok .unit)))
      | _ => raise .socketInvalid

/-- The result of an accept record: a negative connected descriptor is the device's error (R257). -/
def acceptResult (r : AcceptRec) : Prog (Except Err Value) :=
  if r.connDesc.toInt < 0 then raise (.socketError r.connDesc.toInt)
  else .ret (.ok (.accepted r.connDesc.toInt r.addr))

/-- The wait of `Accept` with the slot lock held (R257). -/
def acceptHolding (k : Fin 11) (m : Nat) (bounded : Bool) : Prog (Except Err Value) :=
  .act (.acceptWait k m bounded) fun v =>
    .andThen (.leave k) <|
      match v.toAccepted with
      | .error e => raise e
      | .ok none => raise .socketInvalid
      | .ok (some r) => acceptResult r

/-- The wait of `Accept` with the slot lock released, taken again to take the record (R257; log 30). -/
def acceptReleasing (k : Fin 11) (m : Nat) (bounded : Bool) : Prog (Except Err Value) :=
  .andThen (.leave k) <| .mark <| .act (.acceptPeek k m bounded) fun v =>
    match v.toAccepted with
    | .error e => raise e
    | .ok _ =>
      .andThen (.lockSlot k) <| .act (.acceptTake k m) fun w =>
        .andThen (.leave k) <|
          match w.toAccepted with
          | .error e => raise e
          | .ok none => .back
          | .ok (some r) => acceptResult r

/-- `Accept` (R257). -/
def acceptOp (p : Params) (i : Int) (deadline : Word) : Prog (Except Err Value) :=
  match streamIx i with
  | none => raise .socketInvalid
  | some k => enterSlot k <| .act (.acceptOpen k) fun w =>
    match w.toMail with
    | none => .andThen (.leave k) (raise .socketInvalid)
    | some m =>
      if p.acceptHoldsSlotLock then acceptHolding k m (deadline != 0) else acceptReleasing k m (deadline != 0)

/-- `ExtraData - 8`, which must be an offset (R258, R259). -/
def extraOffset (extraData : Half) (after : Half → Prog (Except Err Value)) : Prog (Except Err Value) :=
  if extraData.toNat < 8 then raise .socketInvalid else after (extraData - 8)

/-- `Connect` (R258). -/
def connectOp (p : Params) (i : Int) (addr : SockAddr) (deadline : Word) : Prog (Except Err Value) :=
  perSlot i fun k => .act (.getSlot k) fun v =>
    let ssl := v.toSlot.ssl
    (request p k .connect (ipPacket (pickOpcode ssl 0x44 0x4B) (encConnect p addr k ssl)) deadline).tryBind fun rep =>
      match rep with
      | .connect _ error extraData _ =>
        statusOk error <| extraOffset extraData fun off =>
          .andThen (.updSlot k (.connected off)) (.ret (.ok .unit))
      | _ => raise .socketInvalid

/-- `Secure` (R259). -/
def secureOp (p : Params) (i : Int) (deadline : Word) : Prog (Except Err Value) :=
  perSlot i fun k => .act (.getSlot k) fun v =>
    let ssl := v.toSlot.ssl
    if !(ssl.active && ssl.delayHandshake) then raise .socketInvalidArg
    else
      (request p k .connect (ipPacket 0x56 (encConnect p .zero k ssl)) deadline).tryBind fun rep =>
        match rep with
        | .connect _ error extraData _ =>
          statusOk error <| extraOffset extraData fun off =>
            .andThen (.updSlot k (.secured off)) (.ret (.ok .unit))
        | _ => raise .socketInvalid

/-- The end of `Send` and `SendTo`: a negative count is the device's error (R254, R260). -/
def sentResult (rep : Reply) : Prog (Except Err Value) :=
  match rep with
  | .send _ sentBytes _ =>
    if sentBytes.toInt < 0 then raise (.socketError sentBytes.toInt) else .ret (.ok (.count sentBytes.toNat))
  | _ => raise .socketInvalid

/-- `Send` of a socket (R260). Its bytes are a value kept with the task, no span: what their owner changes meanwhile is not
sent (R60; log 39, DEDUCED). -/
def sendOp (p : Params) (i : Int) (buf : Bytes) (deadline : Word) : Prog (Except Err Value) :=
  perSlot i fun k => .act (.getSlot k) fun v =>
    (request p k .send
      ⟨groupIp, pickOpcode v.toSlot.ssl 0x45 0x4C, encSend p k buf.length .zero, buf, v.toSlot.txOffset.toNat⟩
      deadline).tryBind sentResult

/-- `SendTo` (R261); its bytes are a value, as in `sendOp` (log 39). -/
def sendToOp (p : Params) (i : Int) (buf : Bytes) (addr : SockAddr) (deadline : Word) : Prog (Except Err Value) :=
  perSlot i fun k => .act (.getSlot k) fun v =>
    (request p k .send ⟨groupIp, 0x47, encSend p k buf.length addr, buf, v.toSlot.txOffset.toNat⟩
      deadline).tryBind sentResult

/-- Pull resident bytes out of the receive window (R262): how many, and the sender recorded with the window. -/
def pullWindow (p : Params) (k : Fin 11) (buf : Span) : Prog (Except Err (Nat × SockAddr)) :=
  .act (.getSlot k) fun v =>
    let x := v.toSlot
    let n := min buf.len x.rxRem.toNat
    (receive p x.rxAddr n (n = x.rxRem.toNat) (some ⟨buf.base, n⟩)).bind fun r =>
      match r with
      | .error _ => .andThen (.updSlot k .noWindow) (raise .socketInvalid)
      | .ok _ => .andThen (.updSlot k (.pulled n)) (.ret (.ok (n, x.rxFrom)))

/-- Ask the device for bytes (R262): the count it answers. -/
def recvRequest (p : Params) (k : Fin 11) (opcode : Byte) (deadline : Word) : Prog (Except Err Nat) :=
  (request p k .recv (ipPacket opcode (encRecv p (p.deadlineToDevice.app deadline) k)) deadline).tryBind fun rep =>
    match rep with
    | .recv _ count _ _ _ =>
      if count.toInt < 0 then raise (.socketError count.toInt) else .ret (.ok count.toNat)
    | _ => raise .socketInvalid

/-- `Recv` and `RecvFrom` with the slot lock held: a request unless bytes are resident, then the pull (R262, R263). A
reply of zero bytes pulls nothing (log 31). -/
def recvBody (p : Params) (k : Fin 11) (opcode : Byte) (buf : Span) (deadline : Word) (resident : Bool) :
    Prog (Except Err (Nat × SockAddr)) :=
  if resident then pullWindow p k buf
  else (recvRequest p k opcode deadline).tryBind fun count =>
    if count = 0 then .act (.getSlot k) fun v => .ret (.ok (0, v.toSlot.rxFrom)) else pullWindow p k buf

/-- `Recv` (R262). -/
def recvOp (p : Params) (i : Int) (buf : Span) (deadline : Word) : Prog (Except Err Value) :=
  perSlot i fun k => .act (.getSlot k) fun v =>
    (recvBody p k (pickOpcode v.toSlot.ssl 0x46 0x4D) buf deadline (v.toSlot.rxRem != 0)).tryBind fun r =>
      .ret (.ok (.count r.1))

/-- `RecvFrom` (R263). -/
def recvFromOp (p : Params) (i : Int) (buf : Span) (deadline : Word) : Prog (Except Err Value) :=
  perSlot i fun k => .act (.getSlot k) fun v =>
    (recvBody p k 0x48 buf deadline (v.toSlot.rxRem != 0)).tryBind fun r => .ret (.ok (.countFrom r.1 r.2))

/-- A lent span holds free bytes after a failure (R178, U7; log 6). -/
def scrambleOnError {α : Type} (sp : Span) (body : Prog (Except Err α)) : Prog (Except Err α) :=
  body.bind fun r =>
    match r with
    | .ok v => .ret (.ok v)
    | .error e => .andThen (.scrambleSpan sp) (raise e)

/-- A failed send of a packet without reply is `ErrSocketInvalid` (R252, R254, R264 to R266). -/
def sentOr (r : Except Err Unit) (v : Value) : Prog (Except Err Value) :=
  match r with
  | .ok _ => .ret (.ok v)
  | .error _ => raise .socketInvalid

/-- `Setsockopt` (R264): the option is validated before anything else. -/
def setsockoptOp (p : Params) (i : Int) (option : Byte) (value : Bytes) : Prog (Except Err Value) :=
  match p.optValid.app (option, value) with
  | .badOption => raise .invalidParameter
  | .badValue => raise .socketInvalidArg
  | .ok =>
    perSlot i fun k => .act (.getSlot k) fun v => .act .nextSid fun w =>
      let sid : Half := BitVec.ofNat 16 w.toNum
      .andThen (.updSlot k (.sid sid)) <|
        (hifSend p groupIp (pickOpcode v.toSlot.ssl 0x4F 0x51) (encSetSockOpt p k option value sid) [] 0).bind
          fun r => sentOr r .unit

/-- `Shutdown` (R265). -/
def shutdownOp (p : Params) (i : Int) : Prog (Except Err Value) :=
  perSlot i fun k => .act (.beginClose k) fun v => .act .nextSid fun w =>
    (hifSend p groupIp (if v.toFlag then 0x4E else 0x49) (encClose p k (BitVec.ofNat 16 w.toNum)) [] 0).bind fun r =>
      .andThen (.put (.wake k)) (.andThen (.freeSlot k) (sentOr r .unit))

/-- `default_offset(type, ssl)` (R252). -/
def defaultOffset (p : Params) (type : SockType) (ssl : SslFlags) : Half :=
  match type with
  | .datagram => p.txOffsetUdp
  | .stream => if ssl.tls then p.txOffsetTls else p.txOffsetTcp

/-- The slots `Socket` scans, in order (R252). -/
def socketRange : SockType → List (Fin 11)
  | .stream => [0, 1, 2, 3, 4, 5, 6]
  | .datagram => [7, 8, 9, 10]

/-- Mark a slot whose lock was just taken as in use and release it (R252). -/
def socketTake (p : Params) (type : SockType) (ssl : SslFlags) (k : Fin 11) : Prog (Except Err Value) :=
  .act .nextSid fun v =>
    .act (.allocSlot k (BitVec.ofNat 16 v.toNum) ssl (defaultOffset p type ssl)) fun w =>
      .andThen (.leave k) (if w.toFlag then .ret (.ok (.slot k.val)) else raise .socketInvalid)

/-- A free slot was found: the SSL-create packet first, where a TLS-capable stream socket was asked for (R252). -/
def socketFound (p : Params) (type : SockType) (ssl : SslFlags) (k : Fin 11) : Prog (Except Err Value) :=
  if type = .stream ∧ ssl.active = true then
    (hifSend p p.groupWifi 0x50 (encSslCreate p k) [] 0).bind fun r =>
      match r with
      | .ok _ => socketTake p type ssl k
      | .error _ => .andThen (.leave k) (raise .socketInvalid)
  else socketTake p type ssl k

/-- The scan of `Socket` (R252). -/
def socketScan (p : Params) (type : SockType) (ssl : SslFlags) : List (Fin 11) → Prog (Except Err Value)
  | [] => raise .noAvailableSocket
  | k :: rest => .act (.tryLock k) fun v =>
    if v.toFlag then
      .act (.slotInUse k) fun w =>
        if w.toFlag then .andThen (.leave k) (socketScan p type ssl rest) else socketFound p type ssl k
    else socketScan p type ssl rest

/-- `Socket` (R252). -/
def socketOp (p : Params) (type : SockType) (ssl : SslFlags) : Prog (Except Err Value) :=
  socketScan p type ssl (socketRange type)

/-- `GetHostByName` once nobody else resolves (R266). -/
def getHostByNameOp (p : Params) (name : Bytes) (deadline : Word) : Prog (Except Err Value) :=
  .act .dnsOpen fun v =>
    (hifSend p groupIp 0x4A (encDns p name) [] 0).bind fun r =>
      match r with
      | .error _ => .andThen (.dnsClose v.toNum) (raise .socketInvalid)
      | .ok _ => .act (.dnsWait v.toNum (deadline != 0)) fun w =>
        match w.toReply with
        | .ok (.dns _ ip) => .ret (.ok (.word ip))
        | .ok _ => raise .socketInvalid
        | .error e => raise e

/-! ### Driver root (R285, R286) -/

/-- `RegisterCallback(group, cb)` (R220). -/
def registerCallback (group : Byte) (cb : Callback) : Prog (Except Err Value) :=
  withSession <| .andThen (.setCb group cb) (.ret (.ok .unit))

/-- `OpenEventChannel()` (R221). -/
def openEventChannel : Prog (Except Err Value) :=
  withSession <| .act .openQueue fun v => .ret (.ok (.queue v.toNum))

/-- `Initialize()` (R285). -/
def initializeOp (p : Params) : Prog (Except Err Value) :=
  .andThen .quiesce <| .puts initPuts <| (hifInit p).tryBind fun _ =>
    (registerCallback groupIp .socket).tryBind fun _ =>
      .puts [.wSeq .wait, .irqPrevPin, .intrEn true, .rootLive true] (.ret (.ok .unit))

/-- `Reset()` (R286). -/
def resetOp : Prog (Except Err Value) := .puts resetPuts (.ret (.ok .unit))

end Sys2Proof.Machine
end

