-- ==== Sys2Proof/Machine/Run.lean ====
section
/-!
DEFINITION. How an agent runs a program: its actions one after another, other agents' moves where it waits or hands
over, its position kept where it stops (spec/00_scope.md R11, R12; spec/10_state.md R42; spec/60_exceptions.md R330,
R335, R344; logs 1, 19, 23).
-/

namespace Sys2Proof.Machine

/-- What a run of a program ends in: its answer, or its position, with the state; or a refusal, from which there is no
state. -/
inductive RunRes (α : Type) where
  | done (a : α) (s : State)
  | parked (log : List Val) (s : State)
  | refused (r : Refusal)
deriving DecidableEq

/-- An expiry that nobody takes is gone (R341; log 19). -/
def dropExpiry (s : State) : State := s.mapEnv fun e => { e with fired := false }

/-- The end of an action: its hand-over choice is used up, and an expiry that it did not take is gone (log 19). -/
def endAction (s : State) : State := s.mapEnv fun e => { e with yields := e.yields.tail, fired := false }

/-- After an action: does the agent hand over? -/
def handOver (s : State) : Bool × State := (s.env.yields.headD false, endAction s)

/-- Run a program with `go` as what an action does. The second argument is the rest of the answers to replay, which
brings a parked agent back to its position; then come the answers so far and those up to the last poll-loop head,
latest first. -/
def Prog.run {α : Type} (go : Action → State → Option Val × State) :
    Prog α → List Val → List Val → List Val → State → RunRes α
  | .ret a, _, _, _, s => .done a s
  | .mark p, todo, sofar, _, s => p.run go todo sofar sofar s
  | .back, _, _, head, s => .parked head.reverse s
  | .refuse r, _, _, _, _ => .refused r
  | .act _ k, v :: todo, sofar, head, s => (k v).run go todo (v :: sofar) head s
  | .act a k, [], sofar, head, s =>
    match go a s with
    | (none, s1) => .parked sofar.reverse s1
    | (some v, s1) =>
      if (handOver s1).1 then .parked (v :: sofar).reverse (handOver s1).2
      else (k v).run go [] (v :: sofar) head (handOver s1).2

/-- The result of an operation. -/
def toResult : Except Err Value → Result
  | .ok v => .ok v
  | .error e => .err e

/-! ### The worker (R223) -/

/-- What the worker ran was asked for under a number: its result is recorded (logs 10, 16). -/
def jobResult (job : WorkerJob) (r : Except Err Unit) (s : State) : State :=
  match job with
  | .round => s
  | .isr id => returnToCaller id (toResult (r.map fun _ => .unit)) s
  | .packet id _ _ _ => returnToCaller id (toResult (r.map fun _ => .unit)) s

/-- The worker is done: it waits, or stops on `STOP` (R223, R286). -/
def workerEnd (r : Except Err Unit) (s : State) : State :=
  (jobResult s.irq.wjob r s).mapIrq fun q =>
    { q with wseq := if q.stop then .stopped else .wait, wjob := .round, wlog := [] }

/-- The end of the worker's turn: between rounds, or in the middle of one. -/
def workerSettle : RunRes (Except Err Unit) → Host.Outcome State Fault Refusal
  | .done r s => .next (workerEnd r s)
  | .parked log s => .next (s.mapIrq fun q => { q with wlog := log })
  | .refused r => .refused r

/-- The worker goes on with what it is doing. -/
def workerRun (s : State) : Host.Outcome State Fault Refusal :=
  workerSettle ((workerProg s.params s.irq.wjob).run (fun a t => perform a .worker t) s.irq.wlog [] [] s)

/-- The worker takes the signal: a round begins (R223, R328). -/
def takeGo (s : State) : State := s.mapIrq fun q => { q with go := false, wseq := .wake, wjob := .round, wlog := [] }

/-- One turn of the worker: it stops on `STOP`; waiting, it takes the signal `GO` and starts a round; in the middle of
a round it goes on (R223). -/
def workerTurn (s : State) : Host.Outcome State Fault Refusal :=
  match s.irq.wseq with
  | .stopped => .next s
  | .wait =>
    if s.irq.stop then .next (s.mapIrq fun q => { q with wseq := .stopped })
    else if s.irq.go then workerRun (takeGo s)
    else .next s
  | .wake => workerRun s
  | .isr => workerRun s
  | .sleep => workerRun s

/-! ### What happens around a waiting caller -/

/-- A consumer takes its queue's event; a queue that is closed and empty tells it the end of the stream (R215,
R221). -/
def consumeQueue (id : Nat) (s : State) : State :=
  match s.hif.subs.find? (fun q => q.id = id) with
  | some ⟨_, some ev⟩ =>
    (s.mapHif fun h => { h with subs := h.subs.map fun q => if q.id = id then ⟨id, none⟩ else q }).mapEnv fun e =>
      { e with delivered := e.delivered ++ [(id, some ev)] }
  | some ⟨_, none⟩ => s
  | none =>
    match s.env.closed.find? (fun q => q.id = id) with
    | some ⟨_, some ev⟩ =>
      s.mapEnv fun e =>
        { e with
          closed := e.closed.map fun q => if q.id = id then ⟨id, none⟩ else q
          delivered := e.delivered ++ [(id, some ev)] }
    | some ⟨_, none⟩ => s.mapEnv fun e => { e with delivered := e.delivered ++ [(id, none)] }
    | none => s

/-- The owner of a buffer fills part of it (R60). -/
def storeBytes (base : Nat) (b : Bytes) (s : State) : State := s.setMem (memWriteBytes s.mem base b)

/-- The inputs that take their place while a caller waits inside its operation; `none` for those that end its turn:
another request, another task's turn, a turn of the worker that is refused (log 1). -/
def serveInput (id : Nat) (inp : Input) (s : State) : Option State :=
  match inp with
  | .request _ => none
  | .pin level => some (samplePin level s)
  | .work =>
    match workerTurn s with
    | .next s1 => some s1
    | .fault _ => none
    | .refused _ => none
  | .resume _ => none
  | .expire t => if t = id then some (s.mapEnv fun e => { e with fired := true }) else none
  | .consume q => some (consumeQueue q s)
  | .store base b => some (storeBytes base b s)

/-- A caller waits: inputs happen until its action can be done, or its turn ends (R10, R340). -/
def waitFor (a : Action) (id : Nat) : List Input → State → Option Val × State
  | [], s => (none, s.mapEnv fun e => { e with inbox := [] })
  | inp :: rest, s =>
    match serveInput id inp s with
    | none => (none, s.mapEnv fun e => { e with inbox := inp :: rest })
    | some s1 =>
      match perform a (.caller id) s1 with
      | (some v, s2) => (some v, s2.mapEnv fun e => { e with inbox := rest })
      | (none, s2) => waitFor a id rest (dropExpiry s2)

/-- An action of a caller task, with the wait it may take. -/
def callerGo (id : Nat) (a : Action) (s : State) : Option Val × State :=
  match perform a (.caller id) s with
  | (some v, s1) => (some v, s1)
  | (none, s1) => waitFor a id s1.env.inbox (dropExpiry s1)

/-! ### Caller tasks (R11, R335; log 23) -/

/-- The end of a caller's turn: the operation has ended, or its task is parked. -/
def settle (id : Nat) (instr : Instr) : RunRes (Except Err Value) → Host.Outcome State Fault Refusal
  | .done r s => .next (returnToCaller id (toResult r) s)
  | .parked log s => .next (s.mapEnv fun e => { e with tasks := e.tasks ++ [⟨id, instr, log⟩] })
  | .refused r => .refused r

/-- The state in which a new task starts: it has the next number. -/
def newTask (s : State) : State := s.mapEnv fun e => { e with nextTask := e.nextTask + 1, fired := false }

/-- An operation invoked: a new task runs its program until it ends or has to wait. -/
def startTask (instr : Instr) (p : Prog (Except Err Value)) (s : State) : Host.Outcome State Fault Refusal :=
  settle s.env.nextTask instr (p.run (callerGo s.env.nextTask) [] [] [] (newTask s))

/-- An operation that returns nothing. -/
def noValue (p : Prog (Except Err Unit)) : Prog (Except Err Value) := p.tryBind fun _ => .ret (.ok .unit)

/-! ### Gates (R200, R224, R336, R374; log 12) -/

/-- Is a task an `Initialize()` in progress? -/
def Task.isInitialize (t : Task) : Bool := t.instr = .opInitialize

/-- An `Initialize()` is in progress: no other operation may be invoked (R374, U11; log 12). -/
def initializing (s : State) : Bool := s.env.tasks.any Task.isInitialize

/-- Only in the given session states, and not during `Initialize()` (R201, R224, R374). -/
def whenIn (s : State) (states : List HifState) (k : Host.Outcome State Fault Refusal) :
    Host.Outcome State Fault Refusal :=
  if states.contains s.hif.state ∧ initializing s = false then k else .refused .wrongSessionState

/-- Only while `HIF_STATE = ready` (R224, R336). -/
def whenReady (s : State) (k : Host.Outcome State Fault Refusal) : Host.Outcome State Fault Refusal :=
  if s.hif.state = .ready ∧ initializing s = false then k else .refused .wrongSessionState

/-- Only while `ROOT_LIVE = 1`, and in `ready` (R252, R336). -/
def whenLive (s : State) (k : Host.Outcome State Fault Refusal) : Host.Outcome State Fault Refusal :=
  if s.root.live then whenReady s k else .refused .rootNotLive

/-! ### What only the worker runs (R332, R335; logs 10, 16) -/

/-- `Isr`, or a packet received, handed to the worker: it runs it if it waits for a signal; while it is in a round `Isr`
would be re-entered, and a worker that has stopped runs nothing. -/
def startJob (job : Nat → WorkerJob) (s : State) : Host.Outcome State Fault Refusal :=
  whenReady s
    (if s.irq.wseq = .stopped ∨ s.irq.stop = true then .refused .workerStopped
      else if s.irq.wseq ≠ .wait then .refused .isrReentry
      else workerRun ((newTask s).mapIrq fun q => { q with wseq := .isr, wjob := job s.env.nextTask, wlog := [] }))

end Sys2Proof.Machine
end

