-- ==== Sys2Proof/Machine/FrameRows.lean ====
section
/-!
DEFINITION. The meanings of the rows of formats `CMD*` and `TAG`: the command-frame builders (spec/40_framer.md R131 to
R141) and one chunk of a data frame (R142 to R147).
-/

namespace Sys2Proof.Machine

/-- A frame builder invoked: an operand outside its range is refused, no frame is built (section 2 of
spec/40_framer.md). It takes `T_LOCK`, under which alone the frame registers change, and has no meaning while the session
boots (R67, R72, R374; log 12). -/
def buildRow (instr : Instr) (c : Cmd) (s : State) : Host.Outcome State Fault Refusal :=
  if c.inRange then whenIn s [.uninitialized, .ready, .shutdown] (startTask instr (buildProgram c) s)
  else .refused .operandRange

/-- One chunk written under a tag: 1 to `PKT_LIMIT` payload bytes (R101, R142; log 11). -/
def tagRow (instr : Instr) (seq : BitVec 4) (payload : Bytes) (s : State) : Host.Outcome State Fault Refusal :=
  whenReady s
    (if payload.length = 0 ∨ payload.length > s.fr.pktLimit then .refused .blockSize
      else startTask instr (tagProgram seq payload) s)

/-- `CMD_DMA_WRITE` (R131). -/
def execCmdDmaWrite (a : Addr) (n : Half) (s : State) : Host.Outcome State Fault Refusal :=
  buildRow (.cmdDmaWrite a n) (.dmaWrite a n) s

/-- `CMD_DMA_READ` (R132). -/
def execCmdDmaRead (a : Addr) (n : Half) (s : State) : Host.Outcome State Fault Refusal :=
  buildRow (.cmdDmaRead a n) (.dmaRead a n) s

/-- `CMD_INTERNAL_WRITE` (R133). -/
def execCmdInternalWrite (a : BitVec 15) (d : Word) (s : State) : Host.Outcome State Fault Refusal :=
  buildRow (.cmdInternalWrite a d) (.internalWrite a d) s

/-- `CMD_INTERNAL_READ` (R134). -/
def execCmdInternalRead (a : BitVec 15) (s : State) : Host.Outcome State Fault Refusal :=
  buildRow (.cmdInternalRead a) (.internalRead a) s

/-- `CMD_TERMINATE` (R135). -/
def execCmdTerminate (s : State) : Host.Outcome State Fault Refusal := buildRow .cmdTerminate .terminate s

/-- `CMD_REPEAT` (R136). -/
def execCmdRepeat (s : State) : Host.Outcome State Fault Refusal := buildRow .cmdRepeat .repeatData s

/-- `CMD_EXT_WRITE` (R137). -/
def execCmdExtWrite (a : Addr) (n : BitVec 24) (s : State) : Host.Outcome State Fault Refusal :=
  buildRow (.cmdExtWrite a n) (.extWrite a n) s

/-- `CMD_EXT_READ` (R138). -/
def execCmdExtRead (a : Addr) (n : BitVec 24) (s : State) : Host.Outcome State Fault Refusal :=
  buildRow (.cmdExtRead a n) (.extRead a n) s

/-- `CMD_SINGLE_WRITE` (R139). -/
def execCmdSingleWrite (a : Addr) (d : Word) (s : State) : Host.Outcome State Fault Refusal :=
  buildRow (.cmdSingleWrite a d) (.singleWrite a d) s

/-- `CMD_SINGLE_READ` (R140). -/
def execCmdSingleRead (a : Addr) (s : State) : Host.Outcome State Fault Refusal :=
  buildRow (.cmdSingleRead a) (.singleRead a) s

/-- `CMD_RESET` (R141). -/
def execCmdReset (s : State) : Host.Outcome State Fault Refusal := buildRow .cmdReset .reset s

/-- `TAG_FIRST`: a chunk of two or more, the first (R102, R143). -/
def execTagFirst (payload : Bytes) (s : State) : Host.Outcome State Fault Refusal :=
  tagRow (.tagFirst payload) 0x1 payload s

/-- `TAG_MIDDLE` (R102, R143). -/
def execTagMiddle (payload : Bytes) (s : State) : Host.Outcome State Fault Refusal :=
  tagRow (.tagMiddle payload) 0x2 payload s

/-- `TAG_LAST`: the last or only chunk (R102, R143). -/
def execTagLast (payload : Bytes) (s : State) : Host.Outcome State Fault Refusal :=
  tagRow (.tagLast payload) 0x3 payload s

/-- `TAG_ANY`: a chunk is read behind a tag scan; the low nibble of its tag is not examined (R102, R146, R147). -/
def execTagAny (seq : BitVec 4) (s : State) : Host.Outcome State Fault Refusal :=
  whenReady s (startTask (.tagAny seq) tagScanProgram s)

end Sys2Proof.Machine
end

