-- ==== Sys2Proof/Machine/HifOps.lean ====
section
/-!
DEFINITION. The meanings of the HIF session's operations as a caller invokes them (spec/42_hif.md R201 to R221).
-/

namespace Sys2Proof.Machine

/-- `ChipWake()` under the session lock (R206, R226). -/
def chipWakeProg (p : Params) : Prog (Except Err Value) := noValue (withSession (chipWake p))

/-- `ChipSleep()` under the session lock (R207, R226). -/
def chipSleepProg (p : Params) : Prog (Except Err Value) := noValue (withSession (chipSleep p))

/-- `Receive` into a lent span: free bytes after any error (R218, U7; log 6). -/
def receiveProg (p : Params) (address : Word) (data : Span) (done : Bool) : Prog (Except Err Value) :=
  scrambleOnError data (noValue ((receive p address data.len done (some data)).tryBind fun _ => .ret (.ok ())))

/-- `Hif.Init` (R200, R201, R346). It runs at once, also where a worker round or a `Send` begun before `Reset` is still in
progress, without the wait of `Initialize`; and it leaves `AWAKE` as it is, also where a `ChipWake` that `Reset` overtook,
or a `Send` or round whose sleep failed, has left `AWAKE = 1` in `shutdown`: log 38 (DEDUCED). -/
def execHifInit (s : State) : Host.Outcome State Fault Refusal :=
  whenIn s [.uninitialized, .shutdown] (startTask .opHifInit (noValue (hifInit s.params)) s)

/-- `waitForBootrom` (R203). -/
def execWaitForBootrom (s : State) : Host.Outcome State Fault Refusal :=
  whenReady s (startTask .opWaitForBootrom (noValue (waitForBootrom s.params)) s)

/-- `waitForFirmwareStart` (R204). -/
def execWaitForFirmwareStart (s : State) : Host.Outcome State Fault Refusal :=
  whenReady s (startTask .opWaitForFirmwareStart (noValue (waitForFirmwareStart s.params)) s)

/-- `enableInterrupts` (R205). -/
def execEnableInterrupts (s : State) : Host.Outcome State Fault Refusal :=
  whenReady s (startTask .opEnableInterrupts (noValue (enableInterrupts s.params)) s)

/-- `ChipWake` (R206, R224). -/
def execChipWake (s : State) : Host.Outcome State Fault Refusal :=
  whenReady s (startTask .opChipWake (chipWakeProg s.params) s)

/-- `ChipSleep` (R207, R224). -/
def execChipSleep (s : State) : Host.Outcome State Fault Refusal :=
  whenReady s (startTask .opChipSleep (chipSleepProg s.params) s)

/-- `Hif.Send` (R208, R224). -/
def execHifSendOp (group opcode : Byte) (control data : Bytes) (offset : Nat) (s : State) :
    Host.Outcome State Fault Refusal :=
  whenReady s
    (startTask (.opHifSend group opcode control data offset)
      (noValue (hifSend s.params group opcode control data offset)) s)

/-- `Isr`: the worker runs it, nobody else (R211, R224, R332, R335; log 16). -/
def execIsr (s : State) : Host.Outcome State Fault Refusal := startJob .isr s

/-- `Hif.Receive` (R218, R224). -/
def execHifReceive (address : Word) (data : Span) (done : Bool) (s : State) : Host.Outcome State Fault Refusal :=
  whenReady s (startTask (.opHifReceive address data done) (receiveProg s.params address data done) s)

/-- `RegisterCallback` (R220, R224; log 12). -/
def execRegisterCallback (group : Byte) (cb : Callback) (s : State) : Host.Outcome State Fault Refusal :=
  whenIn s [.uninitialized, .ready] (startTask (.opRegisterCallback group cb) (registerCallback group cb) s)

/-- `OpenEventChannel` (R221, R224; log 12). -/
def execOpenEventChannel (s : State) : Host.Outcome State Fault Refusal :=
  whenIn s [.uninitialized, .ready] (startTask .opOpenEventChannel openEventChannel s)

end Sys2Proof.Machine
end

