-- ==== Sys2Proof/Machine/HifRows.lean ====
section
/-!
DEFINITION. The meanings of the rows of format `HIF` (spec/30_encoding.md R105, R107): outbound, the packet is sent
through `Hif.Send` (spec/42_hif.md R208); inbound, the worker takes it as `Isr` does, the header in hand (R211 to R216,
R335, spec/43_socket.md R270 to R280; log 10).
-/

namespace Sys2Proof.Machine

/-- A HIF packet sent, as a program; a packet received is no caller's (R335). -/
def hifRowProg (p : Params) (group op : Byte) (pk : HifPacket) : Prog (Except Err Value) :=
  match pk with
  | .outbound control data offset => noValue (hifSend p group op control data offset)
  | .inbound _ _ => .ret (.ok .unit)

/-- A HIF packet in one of its two directions: sent through `Hif.Send` by a caller, or received, which the worker alone
handles (R335; log 10). -/
def hifRowExec (instr : Instr) (group op : Byte) (pk : HifPacket) (s : State) : Host.Outcome State Fault Refusal :=
  match pk with
  | .outbound control data offset =>
    whenReady s (startTask instr (hifRowProg s.params group op (.outbound control data offset)) s)
  | .inbound dataFlag length => startJob (fun id => .packet id group (hifOpcodeByte op dataFlag) length) s

/-- `Bind`, opcode number 0x41 of the group IP (R107, R255, R272). -/
def execHifBind (pk : HifPacket) (s : State) : Host.Outcome State Fault Refusal :=
  hifRowExec (.hifBind pk) groupIp 0x41 pk s

/-- `Listen`, opcode number 0x42 of the group IP (R107, R256, R273). -/
def execHifListen (pk : HifPacket) (s : State) : Host.Outcome State Fault Refusal :=
  hifRowExec (.hifListen pk) groupIp 0x42 pk s

/-- `Accept`, opcode number 0x43 of the group IP (R107, R274). -/
def execHifAccept (pk : HifPacket) (s : State) : Host.Outcome State Fault Refusal :=
  hifRowExec (.hifAccept pk) groupIp 0x43 pk s

/-- `Connect`, opcode number 0x44 of the group IP (R107, R258, R275). -/
def execHifConnect (pk : HifPacket) (s : State) : Host.Outcome State Fault Refusal :=
  hifRowExec (.hifConnect pk) groupIp 0x44 pk s

/-- `Send`, opcode number 0x45 of the group IP (R107, R260, R276). -/
def execHifSend (pk : HifPacket) (s : State) : Host.Outcome State Fault Refusal :=
  hifRowExec (.hifSend pk) groupIp 0x45 pk s

/-- `Recv`, opcode number 0x46 of the group IP (R107, R262, R277). -/
def execHifRecv (pk : HifPacket) (s : State) : Host.Outcome State Fault Refusal :=
  hifRowExec (.hifRecv pk) groupIp 0x46 pk s

/-- `SendTo`, opcode number 0x47 of the group IP (R107, R261, R276). -/
def execHifSendTo (pk : HifPacket) (s : State) : Host.Outcome State Fault Refusal :=
  hifRowExec (.hifSendTo pk) groupIp 0x47 pk s

/-- `RecvFrom`, opcode number 0x48 of the group IP (R107, R263, R277). -/
def execHifRecvFrom (pk : HifPacket) (s : State) : Host.Outcome State Fault Refusal :=
  hifRowExec (.hifRecvFrom pk) groupIp 0x48 pk s

/-- `Close`, opcode number 0x49 of the group IP (R107, R265, R279). -/
def execHifClose (pk : HifPacket) (s : State) : Host.Outcome State Fault Refusal :=
  hifRowExec (.hifClose pk) groupIp 0x49 pk s

/-- `DnsResolve`, opcode number 0x4A of the group IP (R107, R266, R280). -/
def execHifDnsResolve (pk : HifPacket) (s : State) : Host.Outcome State Fault Refusal :=
  hifRowExec (.hifDnsResolve pk) groupIp 0x4A pk s

/-- `SslConnect`, opcode number 0x4B of the group IP (R107, R258, R275). -/
def execHifSslConnect (pk : HifPacket) (s : State) : Host.Outcome State Fault Refusal :=
  hifRowExec (.hifSslConnect pk) groupIp 0x4B pk s

/-- `SslSend`, opcode number 0x4C of the group IP (R107, R260, R276). -/
def execHifSslSend (pk : HifPacket) (s : State) : Host.Outcome State Fault Refusal :=
  hifRowExec (.hifSslSend pk) groupIp 0x4C pk s

/-- `SslRecv`, opcode number 0x4D of the group IP (R107, R262, R277). -/
def execHifSslRecv (pk : HifPacket) (s : State) : Host.Outcome State Fault Refusal :=
  hifRowExec (.hifSslRecv pk) groupIp 0x4D pk s

/-- `SslClose`, opcode number 0x4E of the group IP (R107, R265, R279). -/
def execHifSslClose (pk : HifPacket) (s : State) : Host.Outcome State Fault Refusal :=
  hifRowExec (.hifSslClose pk) groupIp 0x4E pk s

/-- `SetSockOpt`, opcode number 0x4F of the group IP (R107, R264, R279). -/
def execHifSetSockOpt (pk : HifPacket) (s : State) : Host.Outcome State Fault Refusal :=
  hifRowExec (.hifSetSockOpt pk) groupIp 0x4F pk s

/-- `SslCreate`, opcode number 0x50; the block sends it under `GROUP_WIFI` only (R107, R252, R279; log 3). -/
def execHifSslCreate (group : Byte) (pk : HifPacket) (s : State) : Host.Outcome State Fault Refusal :=
  match pk with
  | .outbound control data offset =>
    if group = s.params.groupWifi then
      hifRowExec (.hifSslCreate group (.outbound control data offset)) group 0x50 (.outbound control data offset) s
    else .refused .operandRange
  | .inbound dataFlag length =>
    hifRowExec (.hifSslCreate group (.inbound dataFlag length)) group 0x50 (.inbound dataFlag length) s

/-- `SslSetSockOpt`, opcode number 0x51 of the group IP (R107, R264, R279). -/
def execHifSslSetSockOpt (pk : HifPacket) (s : State) : Host.Outcome State Fault Refusal :=
  hifRowExec (.hifSslSetSockOpt pk) groupIp 0x51 pk s

/-- `Ping`, opcode number 0x52 of the group IP (R107, R267, R279). -/
def execHifPing (pk : HifPacket) (s : State) : Host.Outcome State Fault Refusal :=
  hifRowExec (.hifPing pk) groupIp 0x52 pk s

/-- `SslSetCsList`, opcode number 0x53 of the group IP (R107, R267, R279). -/
def execHifSslSetCsList (pk : HifPacket) (s : State) : Host.Outcome State Fault Refusal :=
  hifRowExec (.hifSslSetCsList pk) groupIp 0x53 pk s

/-- `SslBind`, opcode number 0x54 of the group IP (R107, R255, R272). -/
def execHifSslBind (pk : HifPacket) (s : State) : Host.Outcome State Fault Refusal :=
  hifRowExec (.hifSslBind pk) groupIp 0x54 pk s

/-- `Secure`, opcode number 0x56 of the group IP (R107, R259, R275). -/
def execHifSecure (pk : HifPacket) (s : State) : Host.Outcome State Fault Refusal :=
  hifRowExec (.hifSecure pk) groupIp 0x56 pk s

end Sys2Proof.Machine
end

