-- ==== Sys2Proof/Machine/SocketRows.lean ====
section
/-!
DEFINITION. The meanings of the socket multiplexer's and the driver root's operations as a caller invokes them (spec/
43_socket.md R252 to R266, R285, R286).
-/

namespace Sys2Proof.Machine

/-- `Socket` (R252). -/
def execSocket (type : SockType) (ssl : SslFlags) (s : State) : Host.Outcome State Fault Refusal :=
  whenLive s (startTask (.opSocket type ssl) (socketOp s.params type ssl) s)

/-- `Bind` (R255). -/
def execBind (i : Int) (addr : SockAddr) (deadline : Word) (s : State) : Host.Outcome State Fault Refusal :=
  whenLive s (startTask (.opBind i addr deadline) (bindOp s.params i addr deadline) s)

/-- `Listen` (R256). -/
def execListen (i : Int) (backlog : Byte) (deadline : Word) (s : State) : Host.Outcome State Fault Refusal :=
  whenLive s (startTask (.opListen i backlog deadline) (listenOp s.params i backlog deadline) s)

/-- `Accept` (R257). -/
def execAccept (i : Int) (deadline : Word) (s : State) : Host.Outcome State Fault Refusal :=
  whenLive s (startTask (.opAccept i deadline) (acceptOp s.params i deadline) s)

/-- `Connect` (R258). -/
def execConnect (i : Int) (addr : SockAddr) (deadline : Word) (s : State) : Host.Outcome State Fault Refusal :=
  whenLive s (startTask (.opConnect i addr deadline) (connectOp s.params i addr deadline) s)

/-- `Secure` (R259). -/
def execSecure (i : Int) (deadline : Word) (s : State) : Host.Outcome State Fault Refusal :=
  whenLive s (startTask (.opSecure i deadline) (secureOp s.params i deadline) s)

/-- `Send` of a socket (R260). -/
def execSendSocket (i : Int) (buf : Bytes) (deadline : Word) (s : State) : Host.Outcome State Fault Refusal :=
  whenLive s (startTask (.opSendSocket i buf deadline) (sendOp s.params i buf deadline) s)

/-- `SendTo` (R261). -/
def execSendTo (i : Int) (buf : Bytes) (addr : SockAddr) (deadline : Word) (s : State) :
    Host.Outcome State Fault Refusal :=
  whenLive s (startTask (.opSendTo i buf addr deadline) (sendToOp s.params i buf addr deadline) s)

/-- `Recv` as a program; the span holds free bytes after any error (R262, U7; log 6). -/
def recvProg (p : Params) (i : Int) (buf : Span) (deadline : Word) : Prog (Except Err Value) :=
  scrambleOnError buf (recvOp p i buf deadline)

/-- `RecvFrom` as a program (R263, U7; log 6). -/
def recvFromProg (p : Params) (i : Int) (buf : Span) (deadline : Word) : Prog (Except Err Value) :=
  scrambleOnError buf (recvFromOp p i buf deadline)

/-- `Recv` (R262). -/
def execRecv (i : Int) (buf : Span) (deadline : Word) (s : State) : Host.Outcome State Fault Refusal :=
  whenLive s (startTask (.opRecv i buf deadline) (recvProg s.params i buf deadline) s)

/-- `RecvFrom` (R263). -/
def execRecvFrom (i : Int) (buf : Span) (deadline : Word) (s : State) : Host.Outcome State Fault Refusal :=
  whenLive s (startTask (.opRecvFrom i buf deadline) (recvFromProg s.params i buf deadline) s)

/-- `Setsockopt` (R264). -/
def execSetsockopt (i : Int) (option : Byte) (value : Bytes) (s : State) : Host.Outcome State Fault Refusal :=
  whenLive s (startTask (.opSetsockopt i option value) (setsockoptOp s.params i option value) s)

/-- `Shutdown` (R265). -/
def execShutdown (i : Int) (s : State) : Host.Outcome State Fault Refusal :=
  whenLive s (startTask (.opShutdown i) (shutdownOp s.params i) s)

/-- `GetHostByName`: a second concurrent one is refused (R266). -/
def execGetHostByName (name : Bytes) (deadline : Word) (s : State) : Host.Outcome State Fault Refusal :=
  whenLive s
    (if s.sock.dnsReply.isSome then .refused .dnsBusy
      else startTask (.opGetHostByName name deadline) (getHostByNameOp s.params name deadline) s)

/-- `Initialize` (R285), refused while `HIF_STATE` is `bootstrapping` (R374). -/
def execInitialize (s : State) : Host.Outcome State Fault Refusal :=
  if s.root.live then .refused .rootLive
  else whenIn s [.uninitialized, .ready, .shutdown] (startTask .opInitialize (initializeOp s.params) s)

/-- `Reset` (R286), refused while `HIF_STATE` is `bootstrapping` (R374). -/
def execReset (s : State) : Host.Outcome State Fault Refusal :=
  if s.root.live then whenIn s [.uninitialized, .ready, .shutdown] (startTask .opReset resetOp s)
  else .refused .rootNotLive

end Sys2Proof.Machine
end

