-- ==== Sys2Proof/Machine/TransportOps.lean ====
section
/-!
DEFINITION. The meanings of the transport's operations as a caller invokes them (spec/41_transport.md R176 to R184).
-/

namespace Sys2Proof.Machine

/-- `readRegister` as a program (R176). -/
def readRegisterProg (addr : Word) : Prog (Except Err Value) :=
  (readReg (addr.setWidth 24)).tryBind fun w => .ret (.ok (.word w))

/-- `writeRegister` as a program (R177). -/
def writeRegisterProg (addr value : Word) : Prog (Except Err Value) := noValue (writeReg (addr.setWidth 24) value)

/-- `readBlock` as a program: the span is filled on success, holds free bytes on any error (R178). -/
def readBlockProg (addr : Word) (buf : Span) : Prog (Except Err Value) :=
  scrambleOnError buf <|
    (devRead addr buf.len (.span buf)).tryBind fun d => .andThen (.fillSpan buf d) (.ret (.ok .unit))

/-- `writeBlock` as a program, split at the MTU; the span's bytes are read as the chunks go out (R60, R179, R180; log
34). -/
def writeBlockProg (addr : Word) (buf : Span) : Prog (Except Err Value) := noValue (devWrite addr.toNat (.span buf))

/-- Every piece of a block of `n` bytes starts below `2^24` (R61, R180). -/
def piecesInRange (addr : Word) (n : Nat) : Bool := addr.toNat + busMtu * ((n - 1) / busMtu) < 2 ^ 24

/-- A transport operation on an address: refused at `2^24` or more (R61; log 12). -/
def whenAddr (s : State) (addr : Word) (k : Host.Outcome State Fault Refusal) : Host.Outcome State Fault Refusal :=
  whenReady s (if addrInRange addr then k else .refused .operandRange)

/-- `readRegister` (R176). -/
def execReadRegister (addr : Word) (s : State) : Host.Outcome State Fault Refusal :=
  whenAddr s addr (startTask (.opReadRegister addr) (readRegisterProg addr) s)

/-- `writeRegister` (R177). -/
def execWriteRegister (addr value : Word) (s : State) : Host.Outcome State Fault Refusal :=
  whenAddr s addr (startTask (.opWriteRegister addr value) (writeRegisterProg addr value) s)

/-- `readBlock`: 1 to `2^24 - 1` bytes (R66, R178, R181). -/
def execReadBlock (addr : Word) (buf : Span) (s : State) : Host.Outcome State Fault Refusal :=
  whenAddr s addr
    (if buf.len = 0 ∨ buf.len ≥ 2 ^ 24 then .refused .blockSize
      else startTask (.opReadBlock addr buf) (readBlockProg addr buf) s)

/-- `writeBlock`: 1 byte or more, and no piece of it at `2^24` or beyond; its arguments are tested before any bus step
(R61, R179, R180, R181, R329). -/
def execWriteBlock (addr : Word) (buf : Span) (s : State) : Host.Outcome State Fault Refusal :=
  whenAddr s addr
    (if buf.len = 0 then .refused .blockSize
      else if piecesInRange addr buf.len then startTask (.opWriteBlock addr buf) (writeBlockProg addr buf) s
      else .refused .operandRange)

/-- `reset()` of the transport (R182). -/
def execTransportReset (s : State) : Host.Outcome State Fault Refusal :=
  whenReady s (startTask .opTransportReset (noValue softReset) s)

/-- Transport `init()` (R183). -/
def execTransportInit (s : State) : Host.Outcome State Fault Refusal :=
  whenReady s (startTask .opTransportInit (noValue (transportInit s.params)) s)

/-- `setPacketSize(limit)`: before init only, and one of the legal limits (R12, R184). -/
def execSetPacketSize (limit : Nat) (s : State) : Host.Outcome State Fault Refusal :=
  if s.hif.state ≠ .uninitialized ∧ s.hif.state ≠ .shutdown then .refused .packetSizeFrozen
  else if initializing s then .refused .wrongSessionState
  else if legalLimits.contains limit then
    .next (returnToCaller s.env.nextTask (.ok .unit) ((newTask s).mapFr fun f => { f with pktLimit := limit }))
  else .refused .packetSizeIllegal

end Sys2Proof.Machine
end

