-- ==== Sys2Proof/Machine/Dispatch.lean ====
section
/-! DEFINITION. The dispatcher: one arm per instruction, each one call of its meaning. -/

namespace Sys2Proof.Machine

def exec (i : Instr) (s : State) : Host.Outcome State Fault Refusal :=
  match i with
  | .cmdDmaWrite a n => Sys2Proof.Machine.execCmdDmaWrite a n s
  | .cmdDmaRead a n => Sys2Proof.Machine.execCmdDmaRead a n s
  | .cmdInternalWrite a d => Sys2Proof.Machine.execCmdInternalWrite a d s
  | .cmdInternalRead a => Sys2Proof.Machine.execCmdInternalRead a s
  | .cmdTerminate => Sys2Proof.Machine.execCmdTerminate s
  | .cmdRepeat => Sys2Proof.Machine.execCmdRepeat s
  | .cmdExtWrite a n => Sys2Proof.Machine.execCmdExtWrite a n s
  | .cmdExtRead a n => Sys2Proof.Machine.execCmdExtRead a n s
  | .cmdSingleWrite a d => Sys2Proof.Machine.execCmdSingleWrite a d s
  | .cmdSingleRead a => Sys2Proof.Machine.execCmdSingleRead a s
  | .cmdReset => Sys2Proof.Machine.execCmdReset s
  | .tagFirst payload => Sys2Proof.Machine.execTagFirst payload s
  | .tagMiddle payload => Sys2Proof.Machine.execTagMiddle payload s
  | .tagLast payload => Sys2Proof.Machine.execTagLast payload s
  | .tagAny seq => Sys2Proof.Machine.execTagAny seq s
  | .hifBind p => Sys2Proof.Machine.execHifBind p s
  | .hifListen p => Sys2Proof.Machine.execHifListen p s
  | .hifAccept p => Sys2Proof.Machine.execHifAccept p s
  | .hifConnect p => Sys2Proof.Machine.execHifConnect p s
  | .hifSend p => Sys2Proof.Machine.execHifSend p s
  | .hifRecv p => Sys2Proof.Machine.execHifRecv p s
  | .hifSendTo p => Sys2Proof.Machine.execHifSendTo p s
  | .hifRecvFrom p => Sys2Proof.Machine.execHifRecvFrom p s
  | .hifClose p => Sys2Proof.Machine.execHifClose p s
  | .hifDnsResolve p => Sys2Proof.Machine.execHifDnsResolve p s
  | .hifSslConnect p => Sys2Proof.Machine.execHifSslConnect p s
  | .hifSslSend p => Sys2Proof.Machine.execHifSslSend p s
  | .hifSslRecv p => Sys2Proof.Machine.execHifSslRecv p s
  | .hifSslClose p => Sys2Proof.Machine.execHifSslClose p s
  | .hifSetSockOpt p => Sys2Proof.Machine.execHifSetSockOpt p s
  | .hifSslCreate group p => Sys2Proof.Machine.execHifSslCreate group p s
  | .hifSslSetSockOpt p => Sys2Proof.Machine.execHifSslSetSockOpt p s
  | .hifPing p => Sys2Proof.Machine.execHifPing p s
  | .hifSslSetCsList p => Sys2Proof.Machine.execHifSslSetCsList p s
  | .hifSslBind p => Sys2Proof.Machine.execHifSslBind p s
  | .hifSecure p => Sys2Proof.Machine.execHifSecure p s
  | .opReadRegister addr => Sys2Proof.Machine.execReadRegister addr s
  | .opWriteRegister addr value => Sys2Proof.Machine.execWriteRegister addr value s
  | .opReadBlock addr buf => Sys2Proof.Machine.execReadBlock addr buf s
  | .opWriteBlock addr buf => Sys2Proof.Machine.execWriteBlock addr buf s
  | .opTransportReset => Sys2Proof.Machine.execTransportReset s
  | .opTransportInit => Sys2Proof.Machine.execTransportInit s
  | .opSetPacketSize limit => Sys2Proof.Machine.execSetPacketSize limit s
  | .opHifInit => Sys2Proof.Machine.execHifInit s
  | .opWaitForBootrom => Sys2Proof.Machine.execWaitForBootrom s
  | .opWaitForFirmwareStart => Sys2Proof.Machine.execWaitForFirmwareStart s
  | .opEnableInterrupts => Sys2Proof.Machine.execEnableInterrupts s
  | .opChipWake => Sys2Proof.Machine.execChipWake s
  | .opChipSleep => Sys2Proof.Machine.execChipSleep s
  | .opHifSend group opcode control data offset => Sys2Proof.Machine.execHifSendOp group opcode control data offset s
  | .opIsr => Sys2Proof.Machine.execIsr s
  | .opHifReceive address data done => Sys2Proof.Machine.execHifReceive address data done s
  | .opRegisterCallback group cb => Sys2Proof.Machine.execRegisterCallback group cb s
  | .opOpenEventChannel => Sys2Proof.Machine.execOpenEventChannel s
  | .opSocket type sslConfig => Sys2Proof.Machine.execSocket type sslConfig s
  | .opBind ix addr deadline => Sys2Proof.Machine.execBind ix addr deadline s
  | .opListen ix backlog deadline => Sys2Proof.Machine.execListen ix backlog deadline s
  | .opAccept ix deadline => Sys2Proof.Machine.execAccept ix deadline s
  | .opConnect ix addr deadline => Sys2Proof.Machine.execConnect ix addr deadline s
  | .opSecure ix deadline => Sys2Proof.Machine.execSecure ix deadline s
  | .opSendSocket ix buf deadline => Sys2Proof.Machine.execSendSocket ix buf deadline s
  | .opSendTo ix buf addr deadline => Sys2Proof.Machine.execSendTo ix buf addr deadline s
  | .opRecv ix buf deadline => Sys2Proof.Machine.execRecv ix buf deadline s
  | .opRecvFrom ix buf deadline => Sys2Proof.Machine.execRecvFrom ix buf deadline s
  | .opSetsockopt ix option value => Sys2Proof.Machine.execSetsockopt ix option value s
  | .opShutdown ix => Sys2Proof.Machine.execShutdown ix s
  | .opGetHostByName name deadline => Sys2Proof.Machine.execGetHostByName name deadline s
  | .opInitialize => Sys2Proof.Machine.execInitialize s
  | .opReset => Sys2Proof.Machine.execReset s

end Sys2Proof.Machine
end

