-- ==== Sys2Proof/Machine/Tasks.lean ====
section
/-!
DEFINITION. Waiting caller tasks: which program an instruction runs, and how a task goes on (spec/10_state.md R42;
log 23).
-/

namespace Sys2Proof.Machine

/-- An instruction that no caller task runs: its effect is one state update, or it is the worker's. -/
def noProgram : Prog (Except Err Value) := .ret (.ok .unit)

/-- The program a task of an instruction runs. -/
def progOf (p : Params) (instr : Instr) : Prog (Except Err Value) :=
  match instr with
  | .cmdDmaWrite a n => buildProgram (.dmaWrite a n)
  | .cmdDmaRead a n => buildProgram (.dmaRead a n)
  | .cmdInternalWrite a d => buildProgram (.internalWrite a d)
  | .cmdInternalRead a => buildProgram (.internalRead a)
  | .cmdTerminate => buildProgram .terminate
  | .cmdRepeat => buildProgram .repeatData
  | .cmdExtWrite a n => buildProgram (.extWrite a n)
  | .cmdExtRead a n => buildProgram (.extRead a n)
  | .cmdSingleWrite a d => buildProgram (.singleWrite a d)
  | .cmdSingleRead a => buildProgram (.singleRead a)
  | .cmdReset => buildProgram .reset
  | .tagFirst payload => tagProgram 0x1 payload
  | .tagMiddle payload => tagProgram 0x2 payload
  | .tagLast payload => tagProgram 0x3 payload
  | .tagAny _ => tagScanProgram
  | .hifBind pk => hifRowProg p groupIp 0x41 pk
  | .hifListen pk => hifRowProg p groupIp 0x42 pk
  | .hifAccept pk => hifRowProg p groupIp 0x43 pk
  | .hifConnect pk => hifRowProg p groupIp 0x44 pk
  | .hifSend pk => hifRowProg p groupIp 0x45 pk
  | .hifRecv pk => hifRowProg p groupIp 0x46 pk
  | .hifSendTo pk => hifRowProg p groupIp 0x47 pk
  | .hifRecvFrom pk => hifRowProg p groupIp 0x48 pk
  | .hifClose pk => hifRowProg p groupIp 0x49 pk
  | .hifDnsResolve pk => hifRowProg p groupIp 0x4A pk
  | .hifSslConnect pk => hifRowProg p groupIp 0x4B pk
  | .hifSslSend pk => hifRowProg p groupIp 0x4C pk
  | .hifSslRecv pk => hifRowProg p groupIp 0x4D pk
  | .hifSslClose pk => hifRowProg p groupIp 0x4E pk
  | .hifSetSockOpt pk => hifRowProg p groupIp 0x4F pk
  | .hifSslCreate group pk => hifRowProg p group 0x50 pk
  | .hifSslSetSockOpt pk => hifRowProg p groupIp 0x51 pk
  | .hifPing pk => hifRowProg p groupIp 0x52 pk
  | .hifSslSetCsList pk => hifRowProg p groupIp 0x53 pk
  | .hifSslBind pk => hifRowProg p groupIp 0x54 pk
  | .hifSecure pk => hifRowProg p groupIp 0x56 pk
  | .opReadRegister addr => readRegisterProg addr
  | .opWriteRegister addr value => writeRegisterProg addr value
  | .opReadBlock addr buf => readBlockProg addr buf
  | .opWriteBlock addr buf => writeBlockProg addr buf
  | .opTransportReset => noValue softReset
  | .opTransportInit => noValue (transportInit p)
  | .opSetPacketSize _ => noProgram
  | .opHifInit => noValue (hifInit p)
  | .opWaitForBootrom => noValue (waitForBootrom p)
  | .opWaitForFirmwareStart => noValue (waitForFirmwareStart p)
  | .opEnableInterrupts => noValue (enableInterrupts p)
  | .opChipWake => chipWakeProg p
  | .opChipSleep => chipSleepProg p
  | .opHifSend group opcode control data offset => noValue (hifSend p group opcode control data offset)
  | .opIsr => noProgram
  | .opHifReceive address data done => receiveProg p address data done
  | .opRegisterCallback group cb => registerCallback group cb
  | .opOpenEventChannel => openEventChannel
  | .opSocket type sslConfig => socketOp p type sslConfig
  | .opBind i addr deadline => bindOp p i addr deadline
  | .opListen i backlog deadline => listenOp p i backlog deadline
  | .opAccept i deadline => acceptOp p i deadline
  | .opConnect i addr deadline => connectOp p i addr deadline
  | .opSecure i deadline => secureOp p i deadline
  | .opSendSocket i buf deadline => sendOp p i buf deadline
  | .opSendTo i buf addr deadline => sendToOp p i buf addr deadline
  | .opRecv i buf deadline => recvProg p i buf deadline
  | .opRecvFrom i buf deadline => recvFromProg p i buf deadline
  | .opSetsockopt i option value => setsockoptOp p i option value
  | .opShutdown i => shutdownOp p i
  | .opGetHostByName name deadline => getHostByNameOp p name deadline
  | .opInitialize => initializeOp p
  | .opReset => resetOp

/-- A task by its number. -/
def findTask (id : Nat) (s : State) : Option Task := s.env.tasks.find? fun t => t.id = id

/-- A task goes on from the line it waits at, its wait expired or not; without such a task nothing happens. An expiry is
for this task's wait alone (R340, R341; logs 19, 23). -/
def goOn (id : Nat) (expired : Bool) (s : State) : Host.Outcome State Fault Refusal :=
  match findTask id s with
  | none => .next s
  | some t =>
    settle id t.instr
      ((progOf s.params t.instr).run (callerGo id) t.log [] []
        (s.mapEnv fun e => { e with tasks := e.tasks.filter fun u => u.id ≠ id, fired := expired }))

/-- A task takes a turn. -/
def resumeTask (id : Nat) (s : State) : Host.Outcome State Fault Refusal := goOn id false s

/-- The wait of a task expires, and the task goes on (R340; log 19). -/
def expireTask (id : Nat) (s : State) : Host.Outcome State Fault Refusal := goOn id true s

end Sys2Proof.Machine
end

