-- ==== Sys2Proof/Machine/Inputs.lean ====
section
/-!
DEFINITION. Where the block takes its next instruction from, and what every other input does to it (spec/00_scope.md
R11, spec/10_state.md R46; logs 1, 8).
-/

namespace Sys2Proof.Machine

/-- What happens next is the head of the inbox. -/
def nextInput (s : State) : Option Input := s.env.inbox.head?

/-- The state once the head of the inbox has been taken. -/
def popInput (s : State) : State := s.mapEnv fun e => { e with inbox := e.inbox.tail }

/-- A request put at the head of the inbox: the very next input. -/
def pushRequest (r : Request) (s : State) : State := s.mapEnv fun e => { e with inbox := .request r :: e.inbox }

/-- An input that is no request. -/
def takeInput (inp : Input) (s : State) : Host.Outcome State Fault Refusal :=
  match inp with
  | .request _ => .next s
  | .pin level => .next (samplePin level s)
  | .work => workerTurn s
  | .resume t => resumeTask t s
  | .expire t => expireTask t s
  | .consume q => .next (consumeQueue q s)
  | .store base b => .next (storeBytes base b s)

/-- A request that stands for no instruction, once it has been taken. A byte received that is no tag is discarded
(R147). A packet received that no row names goes to the worker as every packet does: its group's callback is invoked, and
RX-done given (R111, R214, R279, U19). The block sends no reserved command (R98, U4), and what is too short, or carries a
header that is not its own, is no frame and no packet (R92, R105, R208): these are refused. -/
def undecoded (e : DecodeError) (s : State) : Host.Outcome State Fault Refusal :=
  match e with
  | .notATag _ => .next s
  | .unknownPacket group opcode length => startJob (fun id => .packet id group opcode length) s
  | .truncated => .refused (.undecodable .truncated)
  | .reservedOpcode b => .refused (.undecodable (.reservedOpcode b))
  | .headerMismatch => .refused (.undecodable .headerMismatch)

end Sys2Proof.Machine
end

