-- ==== Sys2Proof/Machine/Step.lean ====
section
/-!
DEFINITION. One step of the machine: one input (logs 1, 8, 29), and how the host places an instruction where the step
takes its next one.
-/

namespace Sys2Proof.Machine

/-- One step: the next input is taken. A request is decoded and its instruction executed; any other input is another
agent's move (R11). Without an input nothing happens (R46; log 29). -/
def step (s : State) : Host.Outcome State Fault Refusal :=
  match nextInput s with
  | none => .next s
  | some (.request r) =>
    match decode r with
    | .ok i => exec i (popInput s)
    | .error e => undecoded e (popInput s)
  | some inp => takeInput inp (popInput s)

/-- The state in which the word of an opcode-table row is the very next request (log 8). -/
def State.withFetchWord (s : State) (nbits w : Nat) : State := pushRequest (requestOfTableWord nbits w) s

end Sys2Proof.Machine
end

