-- ==== Sys2Proof/Safety.lean ====
section
/-!
DEFINITION. The terms claims are made in: a run of a program that ends within one turn, what a device that answers
well puts on the bus, and the invariants of the machine.
-/

namespace Sys2Proof.Machine

/-! ### Runs that end -/

/-- A program run to its end within the agent's turn: the answer and the state after it; `none` where the turn ends
before the program does. -/
def Prog.eval {α : Type} (go : Action → State → Option Val × State) : Prog α → State → Option (α × State)
  | .ret a, s => some (a, s)
  | .mark p, s => p.eval go s
  | .back, _ => none
  | .refuse _, _ => none
  | .act a k, s =>
    match go a s with
    | (none, _) => none
    | (some v, s1) => if (handOver s1).1 then none else (k v).eval go (handOver s1).2

/-- The worker's actions. -/
def workerGo (a : Action) (s : State) : Option Val × State := perform a .worker s

/-- The number the next caller task gets. -/
def taskOf (s : State) : Nat := s.env.nextTask

/-- A caller task runs a program from `s` to its end in `t`, answering `r`, without handing over. -/
def Runs {α : Type} (id : Nat) (p : Prog α) (s : State) (r : α) (t : State) : Prop :=
  p.eval (callerGo id) s = some (r, t)

/-! ### One operation on the wire: what goes over the bus when a device answers well

Independent of the programs that drive the bus: the bus record as spec/30_encoding.md, spec/40_framer.md and R170 write
it, every byte in both directions, chip-select around each bus step, and the delays. Bytes received that the rules
discard are free. -/

/-- Transfers that succeed: each byte sent, and the byte received with it. -/
def xferEvents (tx rx : Bytes) : List BusEvent := List.zipWith (fun b r => .xfer b (some r)) tx rx

/-- A bus step: chip-select asserted, the transfers, chip-select released (R170). -/
def stepEvents (tx rx : Bytes) : List BusEvent := .csAssert :: (xferEvents tx rx ++ [.csRelease])

/-- A bus step that ends at the transfer of a byte that fails (R170; log 18). -/
def failedStep (tx rx : Bytes) (b : Byte) : List BusEvent :=
  .csAssert :: (xferEvents tx rx ++ [.xfer b none, .csRelease])

/-- What the device answers, transfer by transfer; `none` is a transfer that fails. -/
def answersOf (l : List BusEvent) : List (Option Byte) :=
  l.filterMap fun e =>
    match e with
    | .xfer _ r => some r
    | .csAssert => none
    | .csRelease => none
    | .delay _ => none

/-- A command frame on the wire: its bytes, and the CRC byte when `CRC_EN = 1` (R90, R96). -/
def commandWire (p : Params) (crcEn : Bool) (c : Cmd) : Bytes := c.bytes ++ if crcEn then [crcByte p c.bytes] else []

/-- A good response to a command frame: its opcode echoed, status nibble 0, the high nibble free (R103, R148). -/
def goodRsp (c : Cmd) (hi : BitVec 4) : Bytes := [c.opcode, hi ++ 0x0#4]

/-- The two CRC bytes after a chunk's payload, when `CRC_EN = 1` (R101). -/
def crcTail (crcEn : Bool) (c0 c1 : Byte) : Bytes := if crcEn then [c0, c1] else []

/-- A command frame sent and answered well (R171). -/
def commandEvents (p : Params) (crcEn : Bool) (c : Cmd) (x : Bytes) (hi : BitVec 4) : List BusEvent :=
  stepEvents (commandWire p crcEn c) x ++ stepEvents (filler 2) (goodRsp c hi)

/-- One chunk read, a bus step: at most nine bytes that are no tag, a byte with high nibble 0xF, the payload, two
discarded CRC bytes when `CRC_EN = 1` (R101, R102, R146, R147). -/
inductive ChunkFrom (crcEn : Bool) (d : Bytes) : List BusEvent → Prop where
  | mk (noise rx : Bytes) (seq : BitVec 4) (c0 c1 : Byte) (hn : noise.length < tagScanMax)
      (ht : ∀ b ∈ noise, b.extractLsb' 4 4 ≠ 0xF#4) (hr : rx = noise ++ (0xF#4 ++ seq) :: d ++ crcTail crcEn c0 c1) :
      ChunkFrom crcEn d (stepEvents (filler rx.length) rx)

/-- A data frame read: every chunk but the last is `limit` bytes (R101, R145, R146). -/
inductive FrameFrom (crcEn : Bool) (limit : Nat) : Bytes → List BusEvent → Prop where
  | last (d : Bytes) (ev : List BusEvent) (h0 : 0 < d.length) (hl : d.length ≤ limit) (hc : ChunkFrom crcEn d ev) :
      FrameFrom crcEn limit d ev
  | more (d rest : Bytes) (ev ev' : List BusEvent) (hl : d.length = limit) (hr : 0 < rest.length)
      (hc : ChunkFrom crcEn d ev) (hf : FrameFrom crcEn limit rest ev') : FrameFrom crcEn limit (d ++ rest) (ev ++ ev')

/-- A data frame written, from chunk number `ix` on: tag 0xF3 on the last chunk, else 0xF1 on the first and 0xF2 on the
others, two zero CRC bytes when `CRC_EN = 1`, each chunk a bus step (R101, R102, R142 to R145). -/
inductive FrameTo (crcEn : Bool) (limit : Nat) : Nat → Bytes → List BusEvent → Prop where
  | last (ix : Nat) (d y : Bytes) (h0 : 0 < d.length) (hl : d.length ≤ limit)
      (hy : y.length = (0xF3 :: d ++ crcTail crcEn 0x00 0x00).length) :
      FrameTo crcEn limit ix d (stepEvents (0xF3 :: d ++ crcTail crcEn 0x00 0x00) y)
  | more (ix : Nat) (d rest y : Bytes) (ev : List BusEvent) (hl : d.length = limit) (hr : 0 < rest.length)
      (hy : y.length = (0xF3 :: d ++ crcTail crcEn 0x00 0x00).length) (hf : FrameTo crcEn limit (ix + 1) rest ev) :
      FrameTo crcEn limit ix (d ++ rest)
        (stepEvents ((if ix = 0 then 0xF1 else 0xF2) :: d ++ crcTail crcEn 0x00 0x00) y ++ ev)

/-- One register or block operation and the data it moves, or a delay between two. -/
inductive Access where
  /-- `readRegister` (R176) -/
  | read (a : Addr) (v : Word)
  /-- `writeRegister` (R177) -/
  | write (a : Addr) (v : Word)
  /-- `readBlock` of 1 to `2^24 - 1` bytes (R178) -/
  | readBlock (a : Addr) (b : Bytes)
  /-- `writeBlock` of 1 to 2040 bytes (R179) -/
  | writeBlock (a : Addr) (b : Bytes)
  /-- a delay (R172, R203, R206, R208) -/
  | delay (d : Delay)
deriving DecidableEq, Repr

/-- An operation that succeeds at its first attempt: what goes over the bus, byte for byte and step for step (R170,
R171, R176 to R179, R181). -/
inductive OnWire (p : Params) (crcEn : Bool) (limit : Nat) : Access → List BusEvent → Prop where
  | read (a : Addr) (v : Word) (x : Bytes) (hi : BitVec 4) (ev : List BusEvent)
      (hx : x.length = (commandWire p crcEn (.readRegister a)).length)
      (hf : FrameFrom crcEn limit
        [v.extractLsb' 0 8, v.extractLsb' 8 8, v.extractLsb' 16 8, v.extractLsb' 24 8] ev) :
      OnWire p crcEn limit (.read a v) (commandEvents p crcEn (.readRegister a) x hi ++ ev)
  | write (a : Addr) (v : Word) (x : Bytes) (hi : BitVec 4)
      (hx : x.length = (commandWire p crcEn (.writeRegister a v)).length) :
      OnWire p crcEn limit (.write a v) (commandEvents p crcEn (.writeRegister a v) x hi)
  | readBlock (a : Addr) (b d x : Bytes) (hi : BitVec 4) (ev : List BusEvent) (h0 : 0 < b.length)
      (hb : b.length < 2 ^ 24) (hd : d.length = max b.length 2) (hp : b = d.take b.length)
      (hx : x.length = (commandWire p crcEn (.extRead a (BitVec.ofNat 24 d.length))).length)
      (hf : FrameFrom crcEn limit d ev) :
      OnWire p crcEn limit (.readBlock a b)
        (commandEvents p crcEn (.extRead a (BitVec.ofNat 24 d.length)) x hi ++ ev)
  | writeBlock (a : Addr) (b d x drsp : Bytes) (hi : BitVec 4) (ev : List BusEvent) (h0 : 0 < b.length)
      (hb : b.length ≤ busMtu) (hd : d = if b.length = 1 then b ++ [0x00] else b)
      (hx : x.length = (commandWire p crcEn (.extWrite a (BitVec.ofNat 24 d.length))).length)
      (hf : FrameTo crcEn limit 0 d ev) (hl : drsp.length = drspLen p crcEn) (hk : p.drspOk.app drsp = true) :
      OnWire p crcEn limit (.writeBlock a b)
        (commandEvents p crcEn (.extWrite a (BitVec.ofNat 24 d.length)) x hi ++ ev ++
          stepEvents (filler drsp.length) drsp)
  | delay (d : Delay) : OnWire p crcEn limit (.delay d) [.delay d]

/-- Operations one after another on the wire. -/
inductive AllOnWire (p : Params) (crcEn : Bool) (limit : Nat) : List Access → List BusEvent → Prop where
  | nil : AllOnWire p crcEn limit [] []
  | cons (x : Access) (xs : List Access) (ev ev' : List BusEvent) (h : OnWire p crcEn limit x ev)
      (hs : AllOnWire p crcEn limit xs ev') : AllOnWire p crcEn limit (x :: xs) (ev ++ ev')

/-- The device will answer these operations, one after another, each at its first attempt; then `rest` is left of its
script. `ev` is what goes over the bus meanwhile. -/
def Answers (s : State) (xs : List Access) (ev : List BusEvent) (rest : List (Option Byte)) : Prop :=
  AllOnWire s.params s.fr.crcEn s.fr.pktLimit xs ev ∧ s.env.miso = answersOf ev ++ rest

/-! ### Attempts that fail (R172, R173) -/

/-- The data frame of an operation: none, one of so many bytes that is read, or one that is written (R171). -/
inductive DataFrame where
  | absent
  | read (n : Nat)
  | write (d : Bytes)
deriving DecidableEq, Repr

/-- The command frame of a register or block operation, and its data frame (R176 to R179, R181). -/
inductive Carries : Access → Cmd → DataFrame → Prop where
  | read (a : Addr) (v : Word) : Carries (.read a v) (.readRegister a) (.read 4)
  | write (a : Addr) (v : Word) : Carries (.write a v) (.writeRegister a v) .absent
  | readBlock (a : Addr) (b : Bytes) (h0 : 0 < b.length) (hb : b.length < 2 ^ 24) :
      Carries (.readBlock a b) (.extRead a (BitVec.ofNat 24 (max b.length 2))) (.read (max b.length 2))
  | writeBlock (a : Addr) (b d : Bytes) (h0 : 0 < b.length) (hb : b.length ≤ busMtu)
      (hd : d = if b.length = 1 then b ++ [0x00] else b) :
      Carries (.writeBlock a b) (.extWrite a (BitVec.ofNat 24 d.length)) (.write d)

/-- Chunks read in full: of `n` bytes of a data frame, `m` are left, one at least (R146). -/
inductive ChunksFrom (crcEn : Bool) (limit : Nat) : Nat → Nat → List BusEvent → Prop where
  | nil (n : Nat) (h0 : 0 < n) : ChunksFrom crcEn limit n n []
  | more (n m : Nat) (d : Bytes) (ev ev' : List BusEvent) (hl : d.length = limit) (hc : ChunkFrom crcEn d ev)
      (h : ChunksFrom crcEn limit n m ev') : ChunksFrom crcEn limit (limit + n) m (ev ++ ev')

/-- Chunks written in full, from chunk number `ix` of the bytes `b` on: what is left, one byte at least, begins with chunk
number `jx` (R142, R143). -/
inductive ChunksTo (crcEn : Bool) (limit : Nat) : Nat → Bytes → Nat → Bytes → List BusEvent → Prop where
  | nil (ix : Nat) (b : Bytes) (h0 : 0 < b.length) : ChunksTo crcEn limit ix b ix b []
  | more (ix jx : Nat) (d b left y : Bytes) (ev : List BusEvent) (hl : d.length = limit)
      (hy : y.length = (0xF3 :: d ++ crcTail crcEn 0x00 0x00).length) (h : ChunksTo crcEn limit (ix + 1) b jx left ev) :
      ChunksTo crcEn limit ix (d ++ b) jx left
        (stepEvents ((if ix = 0 then 0xF1 else 0xF2) :: d ++ crcTail crcEn 0x00 0x00) y ++ ev)

/-- The wire bytes of chunk number `ix`, the first of the bytes that are left (R101, R102, R142 to R144). -/
def chunkWire (crcEn : Bool) (limit ix : Nat) (left : Bytes) : Bytes :=
  (if left.length ≤ limit then 0xF3 else if ix = 0 then 0xF1 else 0xF2) ::
    left.take limit ++ crcTail crcEn 0x00 0x00

/-- An attempt of an operation that fails with an error that is retried: a transfer fails, of the command frame, the
response, a chunk of the data frame or the data trailer; the response has a device status; or the trailer of a written
data frame is no success (R104, R148, R150, R170, R171; a bus step ends at the transfer that fails, log 18). -/
inductive FailedAttempt (p : Params) (crcEn : Bool) (limit : Nat) (c : Cmd) (f : DataFrame) :
    Err → List BusEvent → Prop where
  | command (tx rx tail : Bytes) (b : Byte) (hc : commandWire p crcEn c = tx ++ b :: tail)
      (hr : rx.length = tx.length) : FailedAttempt p crcEn limit c f .xfer (failedStep tx rx b)
  | response (x rx : Bytes) (hx : x.length = (commandWire p crcEn c).length) (hr : rx.length < 2) :
      FailedAttempt p crcEn limit c f .xfer
        (stepEvents (commandWire p crcEn c) x ++ failedStep (filler rx.length) rx 0x00)
  | status (x : Bytes) (hi st : BitVec 4) (hx : x.length = (commandWire p crcEn c).length) (hs : st ≠ 0) :
      FailedAttempt p crcEn limit c f (.dev st)
        (stepEvents (commandWire p crcEn c) x ++ stepEvents (filler 2) [c.opcode, hi ++ st])
  | chunkRead (n m : Nat) (x noise d rx tail : Bytes) (y c0 c1 : Byte) (hi seq : BitVec 4) (ev : List BusEvent)
      (hf : f = .read n) (hx : x.length = (commandWire p crcEn c).length) (hs : ChunksFrom crcEn limit n m ev)
      (hd : d.length = min m limit) (hn : noise.length < tagScanMax) (ht : ∀ b ∈ noise, b.extractLsb' 4 4 ≠ 0xF#4)
      (hc : noise ++ (0xF#4 ++ seq) :: d ++ crcTail crcEn c0 c1 = rx ++ y :: tail) :
      FailedAttempt p crcEn limit c f .xfer
        (commandEvents p crcEn c x hi ++ ev ++ failedStep (filler rx.length) rx 0x00)
  | chunkWritten (jx : Nat) (x b left tx rx tail : Bytes) (y : Byte) (hi : BitVec 4) (ev : List BusEvent)
      (hf : f = .write b) (hx : x.length = (commandWire p crcEn c).length)
      (hs : ChunksTo crcEn limit 0 b jx left ev) (hc : chunkWire crcEn limit jx left = tx ++ y :: tail)
      (hr : rx.length = tx.length) :
      FailedAttempt p crcEn limit c f .xfer (commandEvents p crcEn c x hi ++ ev ++ failedStep tx rx y)
  | trailerCut (d x rx : Bytes) (hi : BitVec 4) (ev : List BusEvent) (hf : f = .write d)
      (hx : x.length = (commandWire p crcEn c).length) (hw : FrameTo crcEn limit 0 d ev)
      (hr : rx.length < drspLen p crcEn) :
      FailedAttempt p crcEn limit c f .xfer
        (commandEvents p crcEn c x hi ++ ev ++ failedStep (filler rx.length) rx 0x00)
  | trailer (d x drsp : Bytes) (hi : BitVec 4) (ev : List BusEvent) (hf : f = .write d)
      (hx : x.length = (commandWire p crcEn c).length) (hw : FrameTo crcEn limit 0 d ev)
      (hl : drsp.length = drspLen p crcEn) (hk : p.drspOk.app drsp = false) :
      FailedAttempt p crcEn limit c f (.dataRsp drsp)
        (commandEvents p crcEn c x hi ++ ev ++ stepEvents (filler drsp.length) drsp)

/-- An attempt of an operation that fails with an error that is not retried: another byte than the opcode echoed, or no
start tag among ten bytes, at any chunk of the data frame that is read (R146 to R148, R173). -/
inductive CorruptAttempt (p : Params) (crcEn : Bool) (limit : Nat) (c : Cmd) (f : DataFrame) :
    Err → List BusEvent → Prop where
  | echo (x : Bytes) (e st : Byte) (hx : x.length = (commandWire p crcEn c).length) (he : e ≠ c.opcode) :
      CorruptAttempt p crcEn limit c f (.echoMismatch c.opcode e)
        (stepEvents (commandWire p crcEn c) x ++ stepEvents (filler 2) [e, st])
  | noTag (n m : Nat) (x bytes : Bytes) (hi : BitVec 4) (ev : List BusEvent) (hf : f = .read n)
      (hx : x.length = (commandWire p crcEn c).length) (hs : ChunksFrom crcEn limit n m ev)
      (hb : bytes.length = tagScanMax) (ht : ∀ b ∈ bytes, b.extractLsb' 4 4 ≠ 0xF#4) :
      CorruptAttempt p crcEn limit c f .noStartTag
        (commandEvents p crcEn c x hi ++ ev ++ stepEvents (filler tagScanMax) bytes)

/-- What lies between two attempts: the soft-reset frame, whose own failure is ignored, and the settle delay (R172, R182;
a bus step ends at the transfer that fails, log 18). -/
inductive Recovery (p : Params) (crcEn : Bool) : List BusEvent → Prop where
  | sent (y : Bytes) (hy : y.length = (commandWire p crcEn .reset).length) :
      Recovery p crcEn (stepEvents (commandWire p crcEn .reset) y ++ [.delay .settle])
  | failed (tx rx tail : Bytes) (b : Byte) (hc : commandWire p crcEn .reset = tx ++ b :: tail)
      (hr : rx.length = tx.length) : Recovery p crcEn (failedStep tx rx b ++ [.delay .settle])

/-- Attempts that fail one after another, a recovery behind each. -/
inductive FailedAttempts (p : Params) (crcEn : Bool) (limit : Nat) (c : Cmd) (f : DataFrame) :
    List Err → List BusEvent → Prop where
  | nil : FailedAttempts p crcEn limit c f [] []
  | cons (e : Err) (es : List Err) (ev ev' ev'' : List BusEvent) (h : FailedAttempt p crcEn limit c f e ev)
      (hr : Recovery p crcEn ev') (hs : FailedAttempts p crcEn limit c f es ev'') :
      FailedAttempts p crcEn limit c f (e :: es) (ev ++ ev' ++ ev'')

/-- An operation that succeeds: at its first attempt, or behind nine attempts at most that fail with these errors, each
with its recovery (R172). -/
inductive Succeeds (p : Params) (crcEn : Bool) (limit : Nat) : Access → List Err → List BusEvent → Prop where
  | mk (a : Access) (c : Cmd) (f : DataFrame) (errs : List Err) (ev ev' : List BusEvent) (hc : Carries a c f)
      (hf : FailedAttempts p crcEn limit c f errs ev) (hn : errs.length ≤ 9) (hw : OnWire p crcEn limit a ev') :
      Succeeds p crcEn limit a errs (ev ++ ev')

/-- Operations that succeed one after another, with the errors of all their failed attempts. -/
inductive AllSucceed (p : Params) (crcEn : Bool) (limit : Nat) : List Access → List Err → List BusEvent → Prop where
  | nil : AllSucceed p crcEn limit [] [] []
  | cons (x : Access) (xs : List Access) (errs errs' : List Err) (ev ev' : List BusEvent)
      (h : Succeeds p crcEn limit x errs ev) (hs : AllSucceed p crcEn limit xs errs' ev') :
      AllSucceed p crcEn limit (x :: xs) (errs ++ errs') (ev ++ ev')

/-- An operation that ends in an error: its tenth attempt fails like the nine before it, or one of the ten fails with an
error that is not retried; with the retried errors met (R172, R173). -/
inductive Fails (p : Params) (crcEn : Bool) (limit : Nat) : Access → Err → List Err → List BusEvent → Prop where
  | exhausted (a : Access) (c : Cmd) (f : DataFrame) (e : Err) (errs : List Err) (ev ev' : List BusEvent)
      (hc : Carries a c f) (hf : FailedAttempts p crcEn limit c f errs ev) (hn : errs.length = 9)
      (h : FailedAttempt p crcEn limit c f e ev') : Fails p crcEn limit a e (errs ++ [e]) (ev ++ ev')
  | corrupt (a : Access) (c : Cmd) (f : DataFrame) (e : Err) (errs : List Err) (ev ev' : List BusEvent)
      (hc : Carries a c f) (hf : FailedAttempts p crcEn limit c f errs ev) (hn : errs.length ≤ 9)
      (h : CorruptAttempt p crcEn limit c f e ev') : Fails p crcEn limit a e errs (ev ++ ev')

/-- `T_LAST_ERR` after these errors: the last of them (R172). -/
def noted (errs : List Err) (s : State) : State :=
  s.mapTr fun r => { r with lastErr := errs.getLast?.or r.lastErr }

/-- What an operation finds before it can go on the bus: `T_LOCK` free, `T_SEQ` idle, a legal `PKT_LIMIT`, no hand-over
to come. -/
structure BusReady (s : State) : Prop where
  lock : s.tr.lock = .free
  idle : s.tr.seq = .idle
  limit : s.fr.pktLimit ∈ legalLimits
  yields : s.env.yields = []

/-- What operations on the bus leave: of `s`, only the framer's and the transport's working registers, the bus record
and the script differ; `T_LOCK` is free and `T_SEQ` idle again; `ev` went over the bus, and nothing else. -/
structure BusDone (s t : State) (ev : List BusEvent) (rest : List (Option Byte)) : Prop where
  crcEn : t.fr.crcEn = s.fr.crcEn
  limit : t.fr.pktLimit = s.fr.pktLimit
  lock : t.tr.lock = .free
  idle : t.tr.seq = .idle
  lastErr : t.tr.lastErr = s.tr.lastErr
  hif : t.hif = s.hif
  irq : t.irq = s.irq
  sock : t.sock = s.sock
  root : t.root = s.root
  mem : t.mem = s.mem
  params : t.params = s.params
  bus : t.env.bus = s.env.bus ++ ev
  env : t.env =
    { s.env with miso := rest, xferIx := t.env.xferIx, free := t.env.free, bus := t.env.bus, fired := t.env.fired }

/-- The call of an operation that ended in `r`: the task's result is recorded, and but for that the state is `s` after
operations on the bus, over which `ev` went. -/
def Returned (s : State) (id : Nat) (r : Result) (ev : List BusEvent) (rest : List (Option Byte)) (t : State) : Prop :=
  ∃ u, BusDone s u ev rest ∧ t = returnToCaller id r u

/-- The call ended in `r` and left `u`, but for the model's own expiry flag. -/
def Ends (i : Instr) (s : State) (r : Result) (u : State) : Prop :=
  ∃ b, exec i s = .next (returnToCaller (taskOf s) r (u.mapEnv fun e => { e with fired := b }))

/-- The session is open to operations: `HIF_STATE = ready`, and no `Initialize()` in progress (R224, R374). -/
def Ready (s : State) : Prop := s.hif.state = .ready ∧ initializing s = false

/-- A packet of an opcode-table row that has a meaning in its direction: the SSL-create packet is sent to the group WIFI
alone (R107). -/
def RowOf (p : Params) (group op : Byte) (pk : HifPacket) (i : Instr) : Prop :=
  hifRow group op pk = some i ∧ (op = 0x50 → group = p.groupWifi ∨ ∃ f l, pk = .inbound f l)

/-- The opcode numbers the socket callback handles (R270). -/
def handledOpcodes : List Byte :=
  [0x41, 0x54, 0x42, 0x43, 0x44, 0x4B, 0x56, 0x45, 0x4C, 0x47, 0x46, 0x4D, 0x48, 0x4A]

/-- Nobody takes the packets of a group and an opcode byte: no callback is registered for the group, or it is the group
IP's and the opcode number is none that the socket callback handles (R111, R214, R270, R279). -/
def NobodyTakes (s : State) (group op : Byte) : Prop :=
  s.hif.cb[group.toNat]'group.isLt = none ∨
    group = groupIp ∧ s.hif.cb[groupIp.toNat]'groupIp.isLt = some .socket ∧ op &&& 0x7F ∉ handledOpcodes

/-- Memory differs inside the span at most. -/
structure Spared (m m' : List Host.Cell) (buf : Span) : Prop where
  wf : Memory.wf m' = true
  outside : ∀ x, (x < buf.base ∨ buf.base + buf.len ≤ x) → memRead m' x = memRead m x

/-- The span holds the bytes; every byte outside is as it was. -/
structure Filled (m m' : List Host.Cell) (buf : Span) (b : Bytes) : Prop extends Spared m m' buf where
  span : memReadBytes m' buf.base buf.len = b

/-- What a frame builder leaves: `CF`, `CF_LEN` and, when `CRC_EN = 1`, `CF_CRC` hold the frame; nothing else differs but
how many free bytes were drawn (R21, R96; log 5). -/
structure Framed (frame : Bytes) (s u : State) : Prop where
  len : u.fr.cfLen = frame.length
  bytes : u.fr.cf.toList.take frame.length = frame
  crc : u.fr.cfCrc = if s.fr.crcEn then crcByte s.params frame else s.fr.cfCrc
  fr : u.fr = { s.fr with cf := u.fr.cf, cfLen := u.fr.cfLen, cfCrc := u.fr.cfCrc }
  rest : u = { s with fr := u.fr, env := { s.env with free := u.env.free } }

/-- A frame builder invoked: the call ended ok and left the frame (logs 5, 12). -/
def Built (frame : Bytes) (s t : State) : Prop :=
  ∃ u, Framed frame (newTask s) u ∧ t = returnToCaller (taskOf s) (.ok .unit) u

/-! ### The operations as sequences of register and block operations (R205 to R211, R219) -/

/-- A block written in pieces of 2040 bytes and a last one, at advancing addresses below `2^24` (R180). -/
inductive Pieces : Nat → Bytes → List Access → Prop where
  | last (a : Nat) (b : Bytes) (h0 : 0 < b.length) (hb : b.length ≤ busMtu) (ha : a < 2 ^ 24) :
      Pieces a b [.writeBlock (BitVec.ofNat 24 a) b]
  | more (a : Nat) (d rest : Bytes) (xs : List Access) (hd : d.length = busMtu) (hr : 0 < rest.length)
      (ha : a < 2 ^ 24) (h : Pieces (a + busMtu) rest xs) :
      Pieces a (d ++ rest) (.writeBlock (BitVec.ofNat 24 a) d :: xs)

/-- The four transport operations with a data or register access: the accesses each consists of, its result, and the lent
span it reads bytes into, with the bytes; a block written is as many accesses as it has pieces (R174, R176 to R181). -/
inductive Transfers (s : State) : Instr → List Access → Value → Option (Span × Bytes) → Prop where
  | read (addr v : Word) (ha : addr.toNat < 2 ^ 24) :
      Transfers s (.opReadRegister addr) [.read (addr.setWidth 24) v] (.word v) none
  | write (addr v : Word) (ha : addr.toNat < 2 ^ 24) :
      Transfers s (.opWriteRegister addr v) [.write (addr.setWidth 24) v] .unit none
  | readBlock (addr : Word) (buf : Span) (b : Bytes) (ha : addr.toNat < 2 ^ 24) (h0 : 0 < b.length)
      (hb : b.length < 2 ^ 24) (hl : buf.len = b.length) :
      Transfers s (.opReadBlock addr buf) [.readBlock (addr.setWidth 24) b] .unit (some (buf, b))
  | writeBlock (addr : Word) (buf : Span) (xs : List Access)
      (hp : Pieces addr.toNat (memReadBytes s.mem buf.base buf.len) xs) :
      Transfers s (.opWriteBlock addr buf) xs .unit none

/-- A register read, then written back with one bit set. -/
def setBitAccesses (a : Addr) (bit : Fin 32) (w : Word) : List Access :=
  [.read a w, .write a (w ||| (1#32 <<< bit.val))]

/-- A register read, then written back with one bit cleared. -/
def clearBitAccesses (a : Addr) (bit : Fin 32) (w : Word) : List Access :=
  [.read a w, .write a (w &&& ~~~(1#32 <<< bit.val))]

/-- The clock-enable acknowledge (R206). -/
def acked (p : Params) (w : Word) : Bool := w.getLsbD p.bitClkEnAck.val

/-- The polls for the acknowledge; a delay of 2 ms behind each that does not find it (R206). -/
def ackAccesses (p : Params) (polls : List Word) : List Access :=
  polls.flatMap fun w => .read p.regClkStatus w :: if acked p w then [] else [.delay .wakePoll]

/-- `ChipWake`: the two handshake bits set, 3 ms to settle, the polls (R206). -/
def wakeAccesses (p : Params) (wa wb : Word) (polls : List Word) : List Access :=
  setBitAccesses p.regWakeA p.bitWakeA wa ++ setBitAccesses p.regWakeB p.bitWakeB wb ++
    .delay .wakeSettle :: ackAccesses p polls

/-- `ChipSleep` (R207). -/
def sleepAccesses (p : Params) (wb wa : Word) : List Access :=
  clearBitAccesses p.regWakeB p.bitWakeB wb ++ clearBitAccesses p.regWakeA p.bitWakeA wa

/-- `ChipSleep` of a chip that is awake, its result ignored: the chip is asleep, or an operation of it has failed and
`AWAKE` keeps its value (R207, R208); with the retried errors met. -/
inductive Slept (p : Params) (crcEn : Bool) (limit : Nat) : (awake : Bool) → List Err → List BusEvent → Prop where
  | asleep (wb wa : Word) (ev : List BusEvent) (h : AllOnWire p crcEn limit (sleepAccesses p wb wa) ev) :
      Slept p crcEn limit false [] ev
  | failed (wb wa : Word) (before after : List Access) (x : Access) (e : Err) (errs : List Err) (ev ev' : List BusEvent)
      (hs : sleepAccesses p wb wa = before ++ x :: after) (h : AllOnWire p crcEn limit before ev)
      (hx : Fails p crcEn limit x e errs ev') : Slept p crcEn limit true errs (ev ++ ev')

/-- A block write that is left out where there is nothing to write (R208). -/
def writeSome (a : Nat) (b : Bytes) : List Access := if b = [] then [] else [.writeBlock (BitVec.ofNat 24 a) b]

/-- The polls for a DMA address, from number `k` on; a delay behind each poll after the 500th that does not find one
(R208). -/
def dmaAccesses (p : Params) : Nat → List Word → List Access
  | _, [] => []
  | k, w :: ws =>
    .read p.regHifDmaCtrl w ::
      ((if p.dmaPublished.app w = false ∧ 500 < k then [.delay .dmaThrottle] else []) ++ dmaAccesses p (k + 1) ws)

/-- `Hif.Send` between wake and the DMA address: control word and polls (R208, R209). -/
def handoverAccesses (p : Params) (group opcode : Byte) (control data : Bytes) (offset : Nat) (polls : List Word) :
    List Access :=
  let op : Byte := (opcode &&& 0x7F) ||| (if data = [] then 0x00 else 0x80)
  let total : Half := BitVec.ofNat 16 (8 + max control.length (offset + data.length))
  .write p.regHifTxCtrl (p.ctrlWord.app (group, op, total)) :: dmaAccesses p 1 polls

/-- `Hif.Send` between wake and sleep: hand-over, DMA address, header, control bytes, data bytes, TX-ready (R105, R208,
R209, R210). -/
def packetAccesses (p : Params) (group opcode : Byte) (control data : Bytes) (offset : Nat) (polls : List Word)
    (dma : Word) : List Access :=
  let op : Byte := (opcode &&& 0x7F) ||| (if data = [] then 0x00 else 0x80)
  let total : Half := BitVec.ofNat 16 (8 + max control.length (offset + data.length))
  handoverAccesses p group opcode control data offset polls ++
    [.read p.regHifDmaAddr dma,
      .writeBlock (BitVec.ofNat 24 dma.toNat)
        [group, op, total.extractLsb' 0 8, total.extractLsb' 8 8, 0x00, 0x00, 0x00, 0x00]] ++
    writeSome (dma.toNat + 8) control ++ writeSome (dma.toNat + 8 + offset) data ++
    [.write p.regHifTxReady (p.txReadyWord.app dma)]

/-- Polls of which only the last one is answered with the condition. -/
def LastOnly (cond : Word → Bool) (polls : List Word) : Prop :=
  ∃ before w, polls = before ++ [w] ∧ (∀ x ∈ before, cond x = false) ∧ cond w = true

/-- RX-done given, where it is due (R219). -/
def rxDoneAccesses (p : Params) (due : Bool) (w : Word) : List Access :=
  if due then setBitAccesses p.regHifRxCtrl p.bitRxDone w else []

/-- The head of `Isr` up to the test of the size (R211). -/
def isrAccesses (p : Params) (r : Word) : List Access :=
  .read p.regHifRxCtrl r ::
    (if r.getLsbD p.bitRxIntr.val then [.write p.regHifRxCtrl (r &&& ~~~(1#32 <<< p.bitRxIntr.val))] else [])

/-- The 12-bit size field of the RX-control register (R106). -/
def sizeOf12 (p : Params) (r : Word) : Nat := (r.toNat / 2 ^ p.rxSizeLsb.val) % 2 ^ 12

/-! ### What an operation finds before it can start -/

/-- Session open, the session lock free, the bus free. -/
structure SessionReady (s : State) : Prop where
  ready : Ready s
  lock : s.hif.lock = .free
  bus : BusReady s

/-- The driver is live, slot `i` is in use and nobody holds its lock; no hand-over to come. -/
structure SlotReady (i : Fin 11) (s : State) : Prop where
  live : s.root.live = true
  ready : Ready s
  inUse : (s.sock.slot i).inUse = true
  desc : (s.sock.slot i).desc = BitVec.ofNat 8 i.val
  lock : (s.sock.slot i).lock = .free
  yields : s.env.yields = []

/-- The session is free, and the worker waits for a signal. -/
structure WorkerReady (s : State) : Prop where
  session : SessionReady s
  wseq : s.irq.wseq = .wait
  going : s.irq.stop = false

/-- Nothing begun before is in the middle of a step that a lock orders, and the worker is between rounds (R25, R29). -/
structure Quiet (s : State) : Prop where
  transport : s.tr.lock = .free
  session : s.hif.lock = .free
  ids : s.sock.sidLock = .free
  slots : ∀ i : Fin 11, (s.sock.slot i).lock = .free
  worker : s.irq.wseq = .wait ∨ s.irq.wseq = .stopped

/-- The worker waits for a signal, with nothing in hand. -/
def workerIdle (s : State) : State := s.mapIrq fun q => { q with wseq := .wait, wjob := .round, wlog := [] }

/-- The window of a packet recorded, RX-done pending or not (R211, R216). -/
def windowOpened (address : Word) (r : Word) (pend : Bool) (s : State) : State :=
  s.mapHif fun h =>
    { h with rxAddr := address, rxSize := BitVec.ofNat 12 (sizeOf12 s.params r), rxValid := true, rxPend := pend }

/-- The state in which a caller task has entered slot `i` (R253). -/
def entered (i : Fin 11) (s : State) : State :=
  (newTask s).mapSock fun k => k.setSlot i fun x => { x with lock := .held (.caller (taskOf s)) }

/-- The state in which a caller task has changed slot `i` and left it (R253). -/
def changed (i : Fin 11) (id : Nat) (f : Slot → Slot) (s : State) : State :=
  s.mapSock fun k => k.setSlot i fun x => { f x with lock := (f x).lock.drop (.caller id) }

/-- Task `id` still holds slot `i`, which is in use under its own descriptor: no `Reset` has come between. -/
def Holds (i : Fin 11) (id : Nat) (s : State) : Prop :=
  (s.sock.slot i).inUse = true ∧ (s.sock.slot i).desc = BitVec.ofNat 8 i.val ∧
    (s.sock.slot i).lock = .held (.caller id)

/-- The state in which a parked task has got its next turn (R42; log 23). -/
def resumed (id : Nat) (s : State) : State :=
  (popInput s).mapEnv fun e => { e with tasks := e.tasks.filter fun u => u.id ≠ id }

/-- The state in which task `id` is parked again, its actions having answered `log` so far (R42; log 23). -/
def waiting (id : Nat) (i : Instr) (log : List Val) (s : State) : State :=
  s.mapEnv fun e => { e with tasks := e.tasks ++ [⟨id, i, log⟩] }

/-- The opcode a slot uses: the SSL one while SSL is active and the handshake not deferred (R108). -/
def opcodeFor (x : Slot) (plain ssl : Byte) : Byte :=
  if x.ssl.active = true ∧ x.ssl.delayHandshake = false then ssl else plain

/-- Insert before send (R253): session id `sid` drawn, the registry entry and its waiting reply slot in place. -/
def requested (i : Fin 11) (kind : Kind) (s : State) : State :=
  let sid := s.sock.sid + 1
  let m := s.env.nextMail
  (s.mapSock fun k =>
    { (k.setSlot i fun x =>
        { x with sid := sid, replies := ⟨sid, kind, m⟩ :: x.replies.filter fun e => e.sid ≠ sid }) with
      sid := sid
      mail := k.mail ++ [(m, .waiting)] }).mapEnv fun e => { e with nextMail := m + 1 }

/-- The record a reply arrives in and the kind of request it answers, by opcode number (R270, R272, R273, R275,
R276). -/
def replyRecord (op : Byte) : Option (Kind × RxRecord) :=
  if op = 0x41 ∨ op = 0x54 then some (.bind, .bindReply)
  else if op = 0x42 then some (.listen, .listenReply)
  else if op = 0x44 ∨ op = 0x4B ∨ op = 0x56 then some (.connect, .connectReply)
  else if op = 0x45 ∨ op = 0x4C ∨ op = 0x47 then some (.send, .sendReply)
  else none

/-- The descriptor and the session id a reply carries (R271). -/
def replyKey : Reply → BitVec 8 × Option Half
  | .status sock _ sid => (sock, sid)
  | .accept _ listenSock _ _ => (listenSock, none)
  | .connect sock _ _ sid => (sock, sid)
  | .send sock _ sid => (sock, sid)
  | .recv _ _ _ sock sid => (sock, sid)
  | .dns _ _ => (0, none)

/-- The entry a reply matches: of a slot in use, under the reply's session id, or the only entry where the reply carries
none; of the reply's kind, and still waiting (R271, R278). -/
def Matches (k : Sockets) (sock : BitVec 8) (sid : Option Half) (kind : Kind) (e : ReplyEntry) : Prop :=
  ∃ i : Fin 11, sock.toInt = i.val ∧ (k.slot i).inUse = true ∧ e ∈ (k.slot i).replies ∧
    (sid = some e.sid ∨ sid = none ∧ (k.slot i).replies = [e]) ∧ e.kind = kind ∧
    mailGet k.mail e.mail = some .waiting

/-- What a Recv reply leaves of the sockets: whether it is taken, and so broadcast, and whether bytes of it stay in the
window for the caller (R277, R278). -/
inductive RecvOutcome (k : Sockets) (address : Word) (addr : SockAddr) (n : BitVec 16) (off : Half) (sock : BitVec 8)
    (sid : Option Half) : (taken resident : Bool) → Sockets → Prop where
  | bytes (i : Fin 11) (m : Nat) (hm : matchReply k sock sid .recv = some m) (hi : sock.toInt = i.val)
      (hn : 0 < n.toInt) :
      RecvOutcome k address addr n off sock sid true true
        { (k.setSlot i fun x => { x with rxAddr := address + off.setWidth 32, rxRem := n, rxFrom := addr }) with
          mail := mailSet k.mail m (.filled (.recv addr n off sock sid)) }
  | none (m : Nat) (hm : matchReply k sock sid .recv = some m) (hn : n.toInt ≤ 0) :
      RecvOutcome k address addr n off sock sid true false
        { k with mail := mailSet k.mail m (.filled (.recv addr n off sock sid)) }
  | late (hm : matchReply k sock sid .recv = none) : RecvOutcome k address addr n off sock sid false false k

/-- What an inbound connection leaves of the sockets, and whether it is taken, and so broadcast: the slot it names
allocated and its record queued with the parent; a record with a negative descriptor queued alone; or nothing (R37,
R274). -/
inductive AcceptOutcome (s : State) (addr : SockAddr) (listenSock connSock : BitVec 8) (extra : Half) :
    (taken : Bool) → Sockets → Prop where
  | connected (p c : Fin 11) (hp : listenSock.toInt = p.val) (h6 : p.val ≤ 6) (hu : (s.sock.slot p).inUse = true)
      (hq : (s.sock.slot p).acceptq = none) (hc : connSock.toInt = c.val) (hpc : p ≠ c) (hs : s.sock.sidLock = .free)
      (hl : s.root.live = true) (hf : (s.sock.slot c).inUse = false) (hk : (s.sock.slot c).lock = .free)
      (he : 8 ≤ extra.toNat) :
      AcceptOutcome s addr listenSock connSock extra true
        { ((s.sock.setSlot c fun x =>
              { x with
                inUse := true
                desc := connSock
                sid := s.sock.sid + 1
                ssl := (s.sock.slot p).ssl
                txOffset := extra - 8
                rxRem := 0
                replies := []
                acceptq := none
                state := .connected }).setSlot p fun x => { x with acceptq := some ⟨listenSock, connSock, addr⟩ }) with
          sid := s.sock.sid + 1 }
  | refused (p : Fin 11) (hp : listenSock.toInt = p.val) (h6 : p.val ≤ 6) (hu : (s.sock.slot p).inUse = true)
      (hq : (s.sock.slot p).acceptq = none) (hc : connSock.toInt < 0) :
      AcceptOutcome s addr listenSock connSock extra true
        (s.sock.setSlot p fun x => { x with acceptq := some ⟨listenSock, connSock, addr⟩ })
  | dropped
      (h : listenSock.toInt < 0 ∨ 6 < listenSock.toInt ∨ 10 < connSock.toInt ∨
        (∃ p : Fin 11, listenSock.toInt = p.val ∧
          ((s.sock.slot p).inUse = false ∨ (s.sock.slot p).acceptq ≠ none)) ∨
        ∃ c : Fin 11, connSock.toInt = c.val ∧
          ((s.sock.slot c).lock ≠ .free ∨ (s.sock.slot c).inUse = true ∨ extra.toNat < 8)) :
      AcceptOutcome s addr listenSock connSock extra false s.sock

/-- `address` to `address + n` lies in the window last advertised, as integers (R218). -/
def inWindow (h : Hif) (address : Word) (n : Nat) : Prop :=
  h.rxValid = true ∧ n ≤ h.rxSize.toNat ∧ h.rxAddr.toNat ≤ address.toNat ∧
    address.toNat + n ≤ h.rxAddr.toNat + h.rxSize.toNat

/-- An event offered to every open queue: those that are empty take it, the others close (R215). -/
def offered (ev : Event) (s : State) : State :=
  (s.mapHif fun h =>
    { h with subs := (h.subs.filter fun q => q.content.isNone).map fun q => { q with content := some ev } }).mapEnv
      fun e => { e with closed := e.closed ++ s.hif.subs.filter fun q => q.content.isSome }

/-! ### A device that takes a packet, and one that answers it (R208, R211, R253) -/

/-- The words the device answers with while a packet is sent to it. -/
structure SendWords where
  wakeA : Word
  wakeB : Word
  acks : List Word
  polls : List Word
  dma : Word
  sleepB : Word
  sleepA : Word
deriving DecidableEq, Repr

/-- `Hif.Send` from a sleeping chip: wake, packet, sleep. -/
def sendAccesses (p : Params) (group opcode : Byte) (control data : Bytes) (offset : Nat) (w : SendWords) :
    List Access :=
  wakeAccesses p w.wakeA w.wakeB w.acks ++ packetAccesses p group opcode control data offset w.polls w.dma ++
    sleepAccesses p w.sleepB w.sleepA

/-- The device wakes in time and publishes an address for a packet that is not too long (R206, R208). -/
structure GoodSend (p : Params) (control data : Bytes) (offset : Nat) (w : SendWords) : Prop where
  fits : 8 + max control.length (offset + data.length) ≤ 1596
  acks : w.acks.length ≤ 10
  awake : LastOnly (acked p) w.acks
  polls : w.polls.length ≤ p.hifDmaPolls
  published : LastOnly p.dmaPublished.app w.polls
  dma : w.dma ≠ 0
  room : w.dma.toNat + 8 + offset < 2 ^ 24

/-- The words the device answers with during a round of the worker. -/
structure RoundWords where
  wakeA : Word
  wakeB : Word
  acks : List Word
  control : Word
  address : Word
  done : Word
  sleepB : Word
  sleepA : Word
deriving DecidableEq, Repr

/-- A round of the worker for a packet of group IP that carries one record: wake, `Isr` with its header, the record, RX-
done, sleep (R211, R223, R270). -/
def roundAccesses (p : Params) (op : Byte) (record : Bytes) (w : RoundWords) : List Access :=
  let length : Half := BitVec.ofNat 16 (8 + record.length)
  wakeAccesses p w.wakeA w.wakeB w.acks ++
    (isrAccesses p w.control ++
      [.read p.regHifRxBase w.address,
        .readBlock (w.address.setWidth 24) [groupIp, op, length.extractLsb' 0 8, length.extractLsb' 8 8]] ++
      (.readBlock ((w.address + 8).setWidth 24) record :: rxDoneAccesses p true w.done)) ++
    sleepAccesses p w.sleepB w.sleepA

/-- The device wakes in time, and the size it advertises covers header and record and exceeds them by at most four (R206,
R212). -/
structure GoodRound (p : Params) (record : Bytes) (w : RoundWords) : Prop where
  acks : w.acks.length ≤ 10
  awake : LastOnly (acked p) w.acks
  holds : 0 < record.length
  covers : 8 + record.length ≤ sizeOf12 p w.control
  slack : sizeOf12 p w.control ≤ 8 + record.length + 4
  room : w.address.toNat + 8 < 2 ^ 24

/-- The session is free and the chip asleep, the worker waits for a signal with the interrupt enabled, the socket
callback is registered, the subscriber queues have names of their own, and the next things to happen while a caller
waits are a falling edge and a turn of the worker; then `inputs`. -/
structure Awaiting (s : State) (inputs : List Input) : Prop where
  session : SessionReady s
  asleep : s.hif.awake = false
  wseq : s.irq.wseq = .wait
  going : s.irq.stop = false
  high : s.irq.irqPrev = true
  enabled : s.irq.intrEn = true
  callback : s.hif.cb[groupIp.toNat]'groupIp.isLt = some .socket
  distinct : (s.hif.subs.map (·.id)).Nodup
  inbox : s.env.inbox = .pin false :: .work :: inputs

/-- What such a round leaves besides the bus and the reply slot: the window it advertised, RX-done given, the event
offered to the subscribers, the worker waiting again. -/
def roundDone (op : Byte) (rep : Reply) (w : RoundWords) (inputs : List Input) (s : State) : State :=
  offered ⟨groupIp, op, .reply rep⟩
    (((s.mapHif fun h =>
        { h with
          rxAddr := w.address
          rxSize := BitVec.ofNat 12 (sizeOf12 s.params w.control)
          rxValid := true
          rxPend := false }).mapIrq fun q =>
            { q with go := false, wseq := .wait, irqPrev := false, wjob := .round, wlog := [] }).mapEnv
      fun e => { e with inbox := inputs, pin := false })

/-- A session id and the name of a reply slot have been used for slot `k` (R251, R253). -/
def numbered (k : Fin 11) (s : State) : State :=
  (s.mapSock fun q =>
    { (q.setSlot k fun x => { x with sid := s.sock.sid + 1 }) with sid := s.sock.sid + 1 }).mapEnv fun e =>
      { e with nextMail := s.env.nextMail + 1 }

/-- Which packet an operation on a slot sends, which reply makes it succeed, with what result, and what it then changes
in the slot (R255, R256, R258 to R261, R108). -/
inductive SlotRequest (s : State) (k : Fin 11) : Instr → Kind → Packet → Reply → Value → (Slot → Slot) → Prop where
  | bind (addr : SockAddr) (deadline : Word) (sock : BitVec 8) (sid : Option Half) :
      SlotRequest s k (.opBind k.val addr deadline) .bind
        ⟨groupIp, opcodeFor (s.sock.slot k) 0x41 0x54, encBind s.params addr k, [], 0⟩ (.status sock 0 sid) .unit
        (fun x => { x with state := .bound })
  | listen (backlog : Byte) (deadline : Word) (sock : BitVec 8) (sid : Option Half) :
      SlotRequest s k (.opListen k.val backlog deadline) .listen
        ⟨groupIp, 0x42, encListen s.params k backlog, [], 0⟩ (.status sock 0 sid) .unit
        (fun x => { x with state := .listening })
  | connect (addr : SockAddr) (deadline : Word) (sock : BitVec 8) (extra : Half) (sid : Option Half)
      (he : 8 ≤ extra.toNat) :
      SlotRequest s k (.opConnect k.val addr deadline) .connect
        ⟨groupIp, opcodeFor (s.sock.slot k) 0x44 0x4B, encConnect s.params addr k (s.sock.slot k).ssl, [], 0⟩
        (.connect sock 0 extra sid) .unit (fun x => { x with txOffset := extra - 8, state := .connected })
  | secure (deadline : Word) (sock : BitVec 8) (extra : Half) (sid : Option Half)
      (ha : (s.sock.slot k).ssl.active = true) (hd : (s.sock.slot k).ssl.delayHandshake = true)
      (he : 8 ≤ extra.toNat) :
      SlotRequest s k (.opSecure k.val deadline) .connect
        ⟨groupIp, 0x56, encConnect s.params .zero k (s.sock.slot k).ssl, [], 0⟩ (.connect sock 0 extra sid) .unit
        (fun x => { x with ssl := { x.ssl with delayHandshake := false }, txOffset := extra - 8 })
  | send (b : Bytes) (deadline : Word) (sock : BitVec 8) (n : BitVec 16) (sid : Option Half) (hn : 0 ≤ n.toInt) :
      SlotRequest s k (.opSendSocket k.val b deadline) .send
        ⟨groupIp, opcodeFor (s.sock.slot k) 0x45 0x4C, encSend s.params k b.length .zero, b,
          (s.sock.slot k).txOffset.toNat⟩
        (.send sock n sid) (.count n.toNat) (fun x => x)
  | sendTo (b : Bytes) (addr : SockAddr) (deadline : Word) (sock : BitVec 8) (n : BitVec 16) (sid : Option Half)
      (hn : 0 ≤ n.toInt) :
      SlotRequest s k (.opSendTo k.val b addr deadline) .send
        ⟨groupIp, 0x47, encSend s.params k b.length addr, b, (s.sock.slot k).txOffset.toNat⟩
        (.send sock n sid) (.count n.toNat) (fun x => x)

/-- The accesses of `Hif.Init` after transport init, where the device is ready at each first poll (R202 to R205). -/
def bootAccesses (p : Params) (chip efuse pinMux enable : Word) : List Access :=
  [.read p.regChipId chip, .read p.regEfuseStatus efuse, .read p.regBootrom p.magicBootromDone,
    .write p.regVersionInfo p.versionInfoWord, .write p.regChipConfig p.chipConfigWord,
    .write p.regBootrom p.magicStartFirmware, .read p.regFwState p.magicFwReady, .write p.regFwState 0x00000000] ++
    setBitAccesses p.regPinMux p.bitPinMux pinMux ++ setBitAccesses p.regIntrEnable p.bitIntrEnable enable

/-- The device's script lets `Hif.Init` go through: transport init's probe under CRC, then the boot steps without; `ev`
is what goes over the bus (R183, R201 to R205). -/
structure BootsAtOnce (s : State) (chip efuse pinMux enable config : Word) (ev : List BusEvent)
    (rest : List (Option Byte)) : Prop where
  family : s.params.chipFamilyOk.app chip = true
  loaded : efuse.getLsbD s.params.bitEfuseLoaded.val = true
  wire : ∃ ev1 ev2,
    AllOnWire s.params true s.fr.pktLimit
      (.read s.params.regProtocolConfig config ::
        match s.params.initCfgWriteback with
        | none => []
        | some f => [.write s.params.regProtocolConfig (f.app (config, s.fr.pktLimit))]) ev1 ∧
    AllOnWire s.params false s.fr.pktLimit (bootAccesses s.params chip efuse pinMux enable) ev2 ∧
    ev = ev1 ++ ev2 ∧ s.env.miso = answersOf ev ++ rest

/-! ### Socket records byte for byte (R63, R109, R110; log 26) -/

/-- A 16-bit field of a record: least significant byte first (R63). -/
def halfField (v : Half) : Bytes := [v.extractLsb' 0 8, v.extractLsb' 8 8]

/-- A 32-bit field of a record: least significant byte first (R63). -/
def wordField (v : Word) : Bytes :=
  [v.extractLsb' 0 8, v.extractLsb' 8 8, v.extractLsb' 16 8, v.extractLsb' 24 8]

/-- The fields stand in a record, each at its offset (R109). -/
def Stand (l : Layout) (fields : List Bytes) (b : Bytes) : Prop :=
  ∀ k f, fields[k]? = some f → (b.drop (l.offs.getD k 0)).take f.length = f

/-- No two fields share a byte. -/
def Apart (l : Layout) (fields : List Bytes) : Prop :=
  ∀ j k f g, j < k → fields[j]? = some f → fields[k]? = some g →
    l.offs.getD j 0 + f.length ≤ l.offs.getD k 0 ∨ l.offs.getD k 0 + g.length ≤ l.offs.getD j 0

/-- The size of a record: that of the bytes its fields are laid over, or of the field that reaches furthest (R270; log
26). -/
structure Sized (l : Layout) (fields : List Bytes) (n : Nat) : Prop where
  base : l.base.length ≤ n
  within : ∀ k f, fields[k]? = some f → l.offs.getD k 0 + f.length ≤ n
  reached : n = l.base.length ∨ ∃ k f, fields[k]? = some f ∧ n = l.offs.getD k 0 + f.length

/-- A record: its fields at their offsets, its size, and between the fields the bytes they are laid over (R109; log
26). -/
structure IsRecord (l : Layout) (fields : List Bytes) (b : Bytes) : Prop where
  stand : Stand l fields b
  sized : Sized l fields b.length
  other : ∀ x, x < b.length →
    (∀ k f, fields[k]? = some f → x < l.offs.getD k 0 ∨ l.offs.getD k 0 + f.length ≤ x) →
    b.getD x 0x00 = l.base.getD x 0x00

/-- The eight bytes of a `SockAddr`: family, port and IP at their places, little-endian, port and IP the other way round
where the layout has them in network byte order (R63, R110). -/
structure AddrBytes (l : AddrLayout) (a : SockAddr) (b : Bytes) : Prop where
  size : b.length = 8
  family : (b.drop l.offs.1).take 2 = halfField a.family
  port : (b.drop l.offs.2.1).take 2 = if l.portNetwork then (halfField a.port).reverse else halfField a.port
  ip : (b.drop l.offs.2.2).take 4 = if l.ipNetwork then (wordField a.ip).reverse else wordField a.ip

/-- The bytes of a byte-string field: padded with 0x00, or cut, where the layout fixes its width (log 26). -/
def stringField (l : Layout) (v : Bytes) : Bytes :=
  match l.strWidth with
  | none => v
  | some w => (v ++ List.replicate w 0x00).take w

/-- The request records: the layout and the fields of each, in the order R109 lists them. -/
inductive RequestRecord (p : Params) : Layout → List Bytes → Bytes → Prop where
  | bind (addr : SockAddr) (k : Fin 11) (sid : Half) :
      RequestRecord p p.layouts.bindCmd
        [p.layouts.sockAddr.enc addr, [BitVec.ofNat 8 k.val], halfField sid] (encBind p addr k sid)
  | listen (k : Fin 11) (backlog : Byte) (sid : Half) :
      RequestRecord p p.layouts.listenCmd [[BitVec.ofNat 8 k.val], [backlog], halfField sid] (encListen p k backlog sid)
  | connect (addr : SockAddr) (k : Fin 11) (ssl : SslFlags) (sid : Half) :
      RequestRecord p p.layouts.connectCmd
        [p.layouts.sockAddr.enc addr, [BitVec.ofNat 8 k.val], [sslByte p.sslBits ssl], halfField sid]
        (encConnect p addr k ssl sid)
  | send (k : Fin 11) (n : Nat) (addr : SockAddr) (sid : Half) :
      RequestRecord p p.layouts.sendCmd
        [[BitVec.ofNat 8 k.val], halfField (BitVec.ofNat 16 n), p.layouts.sockAddr.enc addr, halfField sid]
        (encSend p k n addr sid)
  | recv (timeout : Word) (k : Fin 11) (sid : Half) :
      RequestRecord p p.layouts.recvCmd [wordField timeout, [BitVec.ofNat 8 k.val], halfField sid]
        (encRecv p timeout k sid)
  | close (k : Fin 11) (sid : Half) :
      RequestRecord p p.layouts.closeCmd [[BitVec.ofNat 8 k.val], halfField sid] (encClose p k sid)
  | setSockOpt (k : Fin 11) (option : Byte) (value : Bytes) (sid : Half) :
      RequestRecord p p.layouts.setSockOptCmd
        [[BitVec.ofNat 8 k.val], [option], stringField p.layouts.setSockOptCmd value, halfField sid]
        (encSetSockOpt p k option value sid)
  | sslCreate (k : Fin 11) : RequestRecord p p.layouts.sslCreateCmd [[BitVec.ofNat 8 k.val]] (encSslCreate p k)
  | dns (name : Bytes) : RequestRecord p p.layouts.dnsCmd [stringField p.layouts.dnsCmd name] (encDns p name)

/-- A session id in a reply, where its layout has one (R109). -/
def SidField (l : Layout) (sid : Option Half) (fields : List Bytes) : Prop :=
  l.noSid = true ∧ sid = none ∧ fields = [] ∨ ∃ v, l.noSid = false ∧ sid = some v ∧ fields = [halfField v]

/-- The reply records: the fields of each, in the order R109 lists them, and the reply they hold; a name that takes as
many bytes as it has is apart. -/
inductive ReplyRecord (p : Params) : RxRecord → List Bytes → Reply → Prop where
  | bind (sock status : Byte) (sid : Option Half) (f : List Bytes) (h : SidField p.layouts.bindReply sid f) :
      ReplyRecord p .bindReply ([sock] :: [status] :: f) (.status sock status sid)
  | listen (sock status : Byte) (sid : Option Half) (f : List Bytes) (h : SidField p.layouts.listenReply sid f) :
      ReplyRecord p .listenReply ([sock] :: [status] :: f) (.status sock status sid)
  | accept (addr : SockAddr) (a : Bytes) (listenSock connSock : Byte) (extra : Half)
      (h : AddrBytes p.layouts.sockAddr addr a) :
      ReplyRecord p .acceptReply [a, [listenSock], [connSock], halfField extra]
        (.accept addr listenSock connSock extra)
  | connect (sock error : Byte) (extra : Half) (sid : Option Half) (f : List Bytes)
      (h : SidField p.layouts.connectReply sid f) :
      ReplyRecord p .connectReply ([sock] :: [error] :: halfField extra :: f) (.connect sock error extra sid)
  | send (sock : Byte) (n : Half) (sid : Option Half) (f : List Bytes) (h : SidField p.layouts.sendReply sid f) :
      ReplyRecord p .sendReply ([sock] :: halfField n :: f) (.send sock n sid)
  | recv (addr : SockAddr) (a : Bytes) (n offset : Half) (sock : Byte) (sid : Option Half) (f : List Bytes)
      (h : AddrBytes p.layouts.sockAddr addr a) (hs : SidField p.layouts.recvReply sid f) :
      ReplyRecord p .recvReply (a :: halfField n :: halfField offset :: [sock] :: f) (.recv addr n offset sock sid)
  | dns (name : Bytes) (ip : Word) (h : p.layouts.dnsReply.strWidth = some name.length) :
      ReplyRecord p .dnsReply [name, wordField ip] (.dns name ip)

/-! ### Moves: what the state can go through in a step -/

/-- One move of one agent: an action, or one of the model's own steps around it. Every next state but that of
`setPacketSize` is reached by moves. -/
inductive Move : State → State → Prop where
  | action (a : Action) (ag : Agent) (s : State) : Move s (perform a ag s).2
  | handOver (s : State) : Move s (handOver s).2
  | pin (level : Bool) (s : State) : Move s (samplePin level s)
  | consume (q : Nat) (s : State) : Move s (consumeQueue q s)
  | store (base : Nat) (b : Bytes) (s : State) : Move s (storeBytes base b s)
  | sequence (w : WSeq) (job : WorkerJob) (log : List Val) (s : State) :
      Move s (s.mapIrq fun q => { q with wseq := w, wjob := job, wlog := log })
  | takeGo (s : State) : Move s (takeGo s)
  | inbox (l : List Input) (s : State) : Move s (s.mapEnv fun e => { e with inbox := l })
  | fired (b : Bool) (s : State) : Move s (s.mapEnv fun e => { e with fired := b })
  | tasks (l : List Task) (s : State) : Move s (s.mapEnv fun e => { e with tasks := l })
  | newTask (s : State) : Move s (newTask s)
  | ended (id : Nat) (r : Result) (s : State) : Move s (returnToCaller id r s)

/-- Any number of moves. -/
abbrev Moves : State → State → Prop := Relation.ReflTransGen Move

/-! ### Invariants -/

/-- Slot `i` as R35 and R287 (a) have it: not in use, it is `Free` with descriptor -1 and everything else R46 gives a free
slot; in use, it is not `Free` and has its own descriptor, but while it closes. -/
structure SlotOk (i : Fin 11) (x : Slot) : Prop where
  used : x.inUse = true → x.state ≠ .free ∧ x.desc = if x.state = .closing then 0xFF else BitVec.ofNat 8 i.val
  free : x.inUse = false →
    x.state = .free ∧ x.desc = 0xFF ∧ x.ssl = .empty ∧ x.rxRem = 0 ∧ x.replies = [] ∧ x.acceptq = none ∧
      x.acceptWaiters = []

/-- The socket multiplexer: its slots are as R35 has them; the names of its reply slots are distinct and below `n`, and so
are the names the registries of the slots hold (R35, R36, R287). -/
structure SocketsOk (n : Nat) (k : Sockets) : Prop where
  slots : ∀ i : Fin 11, SlotOk i (k.slot i)
  mailNames : ∀ e ∈ k.mail, e.1 < n
  mailDistinct : (k.mail.map (·.1)).Nodup
  replyNames : ∀ i : Fin 11, ∀ e ∈ (k.slot i).replies, e.mail < n

/-- What every step keeps: the callers' buffers in canonical form (log 7); `PKT_LIMIT` legal (R23, R184); every slot free
or in use as R35 says; reply slots and subscriber queues under names of their own, all below the next fresh ones (R32, R36). -/
structure StateOk (s : State) : Prop where
  memory : Memory.wf s.mem = true
  limit : s.fr.pktLimit ∈ legalLimits
  sockets : SocketsOk s.env.nextMail s.sock
  openNames : ∀ q ∈ s.hif.subs, q.id < s.env.nextQueue
  openDistinct : (s.hif.subs.map (·.id)).Nodup
  closedNames : ∀ q ∈ s.env.closed, q.id < s.env.nextQueue

end Sys2Proof.Machine
end

