-- ==== Sys2Proof/Certificates/Slice0/Obligations.lean ====
section
/-! DEFINITION. The statements for the provers. -/

open Sys2Proof Sys2Proof.Machine

/-! ### Encoding, step, invariants -/

/-- Every well-formed instruction is read back from the request that stands for it, operands and all (R91 to R95,
R102, R105, R107). Where a cited rule is a decision of the spec's own (D3, D4, D5, D22, D38, D54, its general
knowledge), the statement follows it. -/
def Obligations.DecodeEncodeAgree : Prop := ∀ i : Instr, i.wellFormed = true → decode (encode i) = .ok i

/-- Words written out from the encoding tables decode to what they stand for (R92, R93, R102, R105, R107). Where a
cited rule is a decision of the spec's own (D3, D5, D22, D38, D54, its general knowledge), the statement follows it.
-/
def Obligations.DecodesSpecWords : Prop :=
  decode (.frame [0xC1, 0x01, 0x23, 0x45, 0x01, 0x00]) = .ok (.cmdDmaWrite 0x012345 0x0100) ∧
  decode (.frame [0xC3, 0x80, 0x10, 0x00, 0x00, 0x00, 0x01]) = .ok (.cmdInternalWrite 0x10 0x00000001) ∧
  decode (.frame [0xC4, 0x80, 0xFF, 0x00]) = .ok (.cmdInternalRead 0xFF) ∧
  decode (.frame [0xC7, 0x15, 0x04, 0x00, 0x00, 0x07, 0xF8]) = .ok (.cmdExtWrite 0x150400 2040) ∧
  decode (.frame [0xC9, 0x00, 0x12, 0x34, 0xDE, 0xAD, 0xBE, 0xEF]) = .ok (.cmdSingleWrite 0x001234 0xDEADBEEF) ∧
  decode (.frame [0xCF, 0xFF, 0xFF, 0xFF]) = .ok .cmdReset ∧
  decode (.frame [0xF3, 0xAA, 0xBB, 0xCC]) = .ok (.tagLast [0xAA, 0xBB, 0xCC]) ∧
  decode (.receivedTag 0xF7) = .ok (.tagAny 0x7) ∧
  decode (.inboundPacket [0x01, 0xC5, 0x14, 0x00, 0x00, 0x00, 0x00, 0x00]) = .ok (.hifSend (.inbound true 20)) ∧
  decode (.outboundPacket [0x01, 0x44, 0x14, 0x00, 0x00, 0x00, 0x00, 0x00] (List.replicate 12 0x00) [] 0) =
    .ok (.hifConnect (.outbound (List.replicate 12 0x00) [] 0))

/-- A byte that is neither a command opcode nor a tag the block writes names no frame: the request is refused and
nothing is built (R98, R102). -/
def Obligations.ReservedOpcodeRefused : Prop :=
  ∀ (b : Byte) (bs : Bytes) (s : State),
    b ∉ [0xC1, 0xC2, 0xC3, 0xC4, 0xC5, 0xC6, 0xC7, 0xC8, 0xC9, 0xCA, 0xCF, 0xF1, 0xF2, 0xF3] →
    nextInput s = some (.request (.frame (b :: bs))) → step s = .refused (.undecodable (.reservedOpcode b))

/-- A request that decodes to a well-formed instruction is executed as that instruction, on the state from which the
request has been taken (R112; the step itself is the model's, logs 1 and 8). Where a cited rule is a decision of the
spec's own (D2), the statement follows it. -/
def Obligations.StepRunsDecoded : Prop :=
  ∀ (s : State) (r : Request) (i : Instr), nextInput s = some (.request r) → decode r = .ok i → i.wellFormed = true →
    step s = exec i (popInput s)

/-- Every step keeps the invariant: the callers' buffers in canonical form, `PKT_LIMIT` legal, every slot free with
all its values of a free slot or in use, under its own descriptor unless it closes, and reply slots and subscriber
queues under names of their own (R23, R32, R35, R36, R287 a; the canonical form is log 7; that the registry of a slot
holds one entry at most, R287 b, is said of the requests, in `RequestInsertsSendsAndWaits`). -/
def Obligations.StepKeepsInvariant : Prop := ∀ s t : State, StateOk s → step s = .next t → StateOk t

/-- The invariant holds at power-on. -/
def Obligations.ResetMeetsInvariant : Prop := StateOk State.reset

/-- No step changes the parameters or `WIFI_STATE` (R41, R45); `PKT_LIMIT` is frozen while `HIF_STATE` is
`bootstrapping` or `ready` (R45, R184). Where a cited rule is a decision of the spec's own (D1, D19), the statement
follows it. -/
def Obligations.StepKeepsFixedFields : Prop :=
  (∀ s t : State, step s = .next t → t.params = s.params ∧ t.root.wifi = s.root.wifi) ∧
  (∀ s t : State, step s = .next t → (s.hif.state = .bootstrapping ∨ s.hif.state = .ready) →
      t.fr.pktLimit = s.fr.pktLimit)

/-- The power-on values of R46. Where a cited rule is a decision of the spec's own (D35, D49), the statement follows
it. -/
def Obligations.PowerOnValues : Prop :=
  let s := State.reset
  s.fr.pktLimit = 1024 ∧ s.fr.crcEn = true ∧ s.tr.lock = .free ∧ s.tr.seq = .idle ∧
  s.hif.state = .uninitialized ∧ s.hif.awake = false ∧ s.hif.lock = .free ∧ s.hif.rxValid = false ∧
  s.hif.rxPend = false ∧ (∀ g : Byte, s.hif.cb[g.toNat]'g.isLt = none) ∧ s.hif.subs = [] ∧
  s.irq.go = false ∧ s.irq.stop = false ∧ s.irq.wseq = .stopped ∧ s.irq.irqPrev = true ∧ s.irq.intrEn = false ∧
  (∀ i : Fin 11,
    (s.sock.slot i).inUse = false ∧ (s.sock.slot i).desc.toInt = -1 ∧ (s.sock.slot i).state = .free ∧
    (s.sock.slot i).ssl = .empty ∧ (s.sock.slot i).rxRem = 0 ∧ (s.sock.slot i).replies = [] ∧
    (s.sock.slot i).acceptq = none ∧ (s.sock.slot i).lock = .free) ∧
  s.sock.sid = 0 ∧ s.sock.sidLock = .free ∧ s.sock.dnsReply = none ∧ s.root.live = false

/-! ### The framer -/

/-- Every frame builder, for operands in range, with `T_LOCK` free, writes its frame into `CF`, `CF_LEN` and `CF_CRC`
and nothing else (R131 to R141; that a builder invoked by itself takes `T_LOCK`, and has no meaning while the session
boots, is log 12; the bytes of `CF` past the frame are log 5). Where a cited rule is a decision of the spec's own (D3,
D4, D5, D16, its general knowledge), the statement follows it. -/
def Obligations.FrameBuildersWriteTheirFrames : Prop :=
  ∀ s : State, s.hif.state ≠ .bootstrapping → initializing s = false → s.tr.lock = .free → s.env.yields = [] →
  (∀ (a : Addr) (n : Half), ∃ t, exec (.cmdDmaWrite a n) s = .next t ∧ Built (0xC1 :: be3 a ++ be2 n) s t) ∧
  (∀ (a : Addr) (n : Half), ∃ t, exec (.cmdDmaRead a n) s = .next t ∧ Built (0xC2 :: be3 a ++ be2 n) s t) ∧
  (∀ (a : BitVec 15) (d : Word), a.toNat ≤ 0x30 →
    ∃ t, exec (.cmdInternalWrite a d) s = .next t ∧
      Built ([0xC3, 0x80 ||| (a.extractLsb' 8 7).setWidth 8, a.extractLsb' 0 8] ++ be4 d) s t) ∧
  (∀ a : BitVec 15, a.toNat ≤ 0xFF →
    ∃ t, exec (.cmdInternalRead a) s = .next t ∧
      Built [0xC4, 0x80 ||| (a.extractLsb' 8 7).setWidth 8, a.extractLsb' 0 8, 0x00] s t) ∧
  (∃ t, exec .cmdTerminate s = .next t ∧ Built [0xC5, 0x00, 0x00, 0x00] s t) ∧
  (∃ t, exec .cmdRepeat s = .next t ∧ Built [0xC6, 0x00, 0x00, 0x00] s t) ∧
  (∀ (a : Addr) (n : BitVec 24), 2 ≤ n.toNat → n.toNat ≤ 2040 →
    ∃ t, exec (.cmdExtWrite a n) s = .next t ∧ Built (0xC7 :: be3 a ++ be3 n) s t) ∧
  (∀ (a : Addr) (n : BitVec 24), 2 ≤ n.toNat →
    ∃ t, exec (.cmdExtRead a n) s = .next t ∧ Built (0xC8 :: be3 a ++ be3 n) s t) ∧
  (∀ (a : Addr) (d : Word), 0x30 < a.toNat →
    ∃ t, exec (.cmdSingleWrite a d) s = .next t ∧ Built (0xC9 :: be3 a ++ be4 d) s t) ∧
  (∀ a : Addr, 0xFF < a.toNat → ∃ t, exec (.cmdSingleRead a) s = .next t ∧ Built (0xCA :: be3 a) s t) ∧
  (∃ t, exec .cmdReset s = .next t ∧ Built [0xCF, 0xFF, 0xFF, 0xFF] s t)

/-- Operands out of range have no meaning and nothing happens: addresses and lengths a frame cannot hold, transport
addresses from `2^24` on, empty blocks, block reads from `2^24` bytes on, the SSL-create packet sent to another group
than `GROUP_WIFI` (section 2 of spec/40_framer.md, R61, R66, R107, R181). That a `writeBlock` a later piece of which
would start at `2^24` or beyond is refused whole, before its first piece, is the model's choice (log 13): the MTU
split as spec/41_transport.md writes it sends the pieces before it first. That a chunk invoked by itself has 1 to
`PKT_LIMIT` bytes is log 11. Where a cited rule is a decision of the spec's own (D15, D20, D38, D54), the statement
follows it. -/
def Obligations.OperandsOutOfRangeRefused : Prop :=
  ∀ s : State,
  (∀ (a : BitVec 15) (d : Word), 0x30 < a.toNat → exec (.cmdInternalWrite a d) s = .refused .operandRange) ∧
  (∀ a : BitVec 15, 0xFF < a.toNat → exec (.cmdInternalRead a) s = .refused .operandRange) ∧
  (∀ (a : Addr) (n : BitVec 24), (n.toNat < 2 ∨ 2040 < n.toNat) → exec (.cmdExtWrite a n) s = .refused .operandRange) ∧
  (∀ (a : Addr) (n : BitVec 24), n.toNat < 2 → exec (.cmdExtRead a n) s = .refused .operandRange) ∧
  (∀ (a : Addr) (d : Word), a.toNat ≤ 0x30 → exec (.cmdSingleWrite a d) s = .refused .operandRange) ∧
  (∀ a : Addr, a.toNat ≤ 0xFF → exec (.cmdSingleRead a) s = .refused .operandRange) ∧
  (∀ d : Bytes, Ready s → (d.length = 0 ∨ s.fr.pktLimit < d.length) →
    exec (.tagFirst d) s = .refused .blockSize ∧ exec (.tagMiddle d) s = .refused .blockSize ∧
      exec (.tagLast d) s = .refused .blockSize) ∧
  (∀ (group : Byte) (control data : Bytes) (offset : Nat), group ≠ s.params.groupWifi →
    exec (.hifSslCreate group (.outbound control data offset)) s = .refused .operandRange) ∧
  (∀ (addr v : Word) (buf : Span), Ready s →
    (2 ^ 24 ≤ addr.toNat →
      exec (.opReadRegister addr) s = .refused .operandRange ∧
      exec (.opWriteRegister addr v) s = .refused .operandRange ∧
      exec (.opReadBlock addr buf) s = .refused .operandRange ∧
      exec (.opWriteBlock addr buf) s = .refused .operandRange) ∧
    (addr.toNat < 2 ^ 24 → buf.len = 0 →
      exec (.opReadBlock addr buf) s = .refused .blockSize ∧ exec (.opWriteBlock addr buf) s = .refused .blockSize) ∧
    (addr.toNat < 2 ^ 24 → 2 ^ 24 ≤ buf.len → exec (.opReadBlock addr buf) s = .refused .blockSize) ∧
    (addr.toNat < 2 ^ 24 → ∀ k : Nat, 2040 * k < buf.len → 2 ^ 24 ≤ addr.toNat + 2040 * k →
      exec (.opWriteBlock addr buf) s = .refused .operandRange))

/-- The bytes of a built frame on the wire: the frame, and after its last byte the CRC7 shifted left by one when
`CRC_EN = 1` (R96). -/
def Obligations.CrcByteFollowsTheFrame : Prop :=
  ∀ (c : Cmd) (s : State),
    frameBytes (buildFrame c s).fr =
      if s.fr.crcEn then c.bytes ++ [((crc7 s.params c.bytes).setWidth 8 <<< 1) &&& 0xFE] else c.bytes

/-- The CRC7 in its table form, for every polynomial, with the table values and the examples R130 gives for `CRC7_POLY
= 0x09` and `CRC7_INIT = 0x7F`, the defaults the spec chooses (log 15). Where a cited rule is a decision of the spec's
own (D6, its general knowledge), the statement follows it. -/
def Obligations.CrcTableForm : Prop :=
  (∀ (poly c : BitVec 7) (b : Byte), crc7Byte poly c b = crc7Byte poly 0 ((c.setWidth 8 <<< 1) ^^^ b)) ∧
  ([0x00, 0x01, 0x02, 0x03, 0x04, 0x05, 0x06, 0x07, 0x08, 0x09, 0x0A, 0x0B, 0x0C, 0x0D, 0x0E, 0x0F].map
      (crc7Byte 0x09 0) =
    [0x00, 0x09, 0x12, 0x1B, 0x24, 0x2D, 0x36, 0x3F, 0x48, 0x41, 0x5A, 0x53, 0x6C, 0x65, 0x7E, 0x77]) ∧
  crc7Byte 0x09 0 0x80 = 0x41 ∧ crc7Byte 0x09 0 0xFF = 0x79 ∧
  crc7With 0x09 0x7F [] = 0x7F ∧ crc7With 0x09 0x7F [0x00] = 0x70 ∧ crc7With 0x09 0x7F [0xFF] = 0x09 ∧
  crc7With 0x09 0x7F [0xCA, 0x00, 0x12, 0x34] = 0x7C

/-- The tag scan: the first byte with high nibble 0xF among ten ends it, whatever came before; ten bytes without one
raise `E_NO_START_TAG` and no eleventh is read; the error is not retried (R147). -/
def Obligations.TagScanTakesTheFirstTag : Prop :=
  (∀ (s : State) (noise : Bytes) (b : Byte) (rest : List (Option Byte)),
    noise.length < 10 → (∀ x ∈ noise, x.extractLsb' 4 4 ≠ 0xF#4) → b.extractLsb' 4 4 = 0xF#4 →
    s.env.miso = (noise ++ [b]).map some ++ rest →
    (scanTag tagScanMax s).1 = none ∧ (scanTag tagScanMax s).2.env.miso = rest ∧
      (scanTag tagScanMax s).2.env.bus = s.env.bus ++ (noise ++ [b]).map fun x => .xfer 0x00 (some x)) ∧
  (∀ (s : State) (bytes : Bytes) (rest : List (Option Byte)),
    bytes.length = 10 → (∀ x ∈ bytes, x.extractLsb' 4 4 ≠ 0xF#4) → s.env.miso = bytes.map some ++ rest →
    (scanTag tagScanMax s).1 = some .noStartTag ∧ (scanTag tagScanMax s).2.env.miso = rest ∧
      (scanTag tagScanMax s).2.env.bus = s.env.bus ++ bytes.map fun x => .xfer 0x00 (some x)) ∧
  Err.noStartTag.retried = false

/-- A written chunk is one bus step: its tag, its payload, two zero CRC bytes when `CRC_EN = 1`; `DF_REM` and `DF_IX`
move on and nothing else changes (R102, R142, R144, R170). That a chunk is a request of its own, which leaves `T_SEQ`,
`ATT` and `T_LAST_ERR` as they are, is the model's choice (log 11). Where a cited rule is a decision of the spec's own
(D13, D18), the statement follows it. -/
def Obligations.WrittenChunk : Prop :=
  ∀ (s : State) (i : Instr) (tag : Byte) (d y : Bytes) (rest : List (Option Byte)),
    (i = .tagFirst d ∧ tag = 0xF1 ∨ i = .tagMiddle d ∧ tag = 0xF2 ∨ i = .tagLast d ∧ tag = 0xF3) →
    0 < d.length → d.length ≤ s.fr.pktLimit → Ready s → BusReady s →
    y.length = (tag :: d ++ crcTail s.fr.crcEn 0x00 0x00).length → s.env.miso = y.map some ++ rest →
    ∃ t, exec i s = .next t ∧
      Returned (newTask s) (taskOf s) (.ok .unit) (stepEvents (tag :: d ++ crcTail s.fr.crcEn 0x00 0x00) y) rest t ∧
      t.fr = { s.fr with dfRem := s.fr.dfRem - d.length, dfIx := s.fr.dfIx + 1 } ∧ t.tr = s.tr

/-- A chunk read behind a tag scan, in one bus step: `min(DF_REM, PKT_LIMIT)` bytes are the result, whatever the tag's
low nibble was, and `DF_REM` and `DF_IX` move on; without a tag among ten bytes the operation ends in
`E_NO_START_TAG`; where no byte of a frame is left nothing crosses the bus; nothing else changes (R102, R146, R147,
R170). That a chunk is a request of its own, which leaves `T_SEQ`, `ATT` and `T_LAST_ERR` as they are, is the model's
choice (log 11). Where a cited rule is a decision of the spec's own (D10, D18), the statement follows it. -/
def Obligations.ReadChunk : Prop :=
  (∀ (s : State) (seq : BitVec 4) (d : Bytes) (ev : List BusEvent) (rest : List (Option Byte)),
    Ready s → BusReady s → 0 < s.fr.dfRem → d.length = min s.fr.dfRem s.fr.pktLimit → ChunkFrom s.fr.crcEn d ev →
    s.env.miso = answersOf ev ++ rest →
    ∃ t, exec (.tagAny seq) s = .next t ∧
      Returned (newTask s) (taskOf s) (.ok (.bytes d)) ev rest t ∧
      t.fr = { s.fr with dfRem := s.fr.dfRem - d.length, dfIx := s.fr.dfIx + 1 } ∧ t.tr = s.tr) ∧
  (∀ (s : State) (seq : BitVec 4) (bytes : Bytes) (rest : List (Option Byte)),
    Ready s → BusReady s → 0 < s.fr.dfRem → bytes.length = 10 → (∀ x ∈ bytes, x.extractLsb' 4 4 ≠ 0xF#4) →
    s.env.miso = bytes.map some ++ rest →
    ∃ t, exec (.tagAny seq) s = .next t ∧
      Returned (newTask s) (taskOf s) (.err .noStartTag) (stepEvents (filler 10) bytes) rest t ∧ t.fr = s.fr ∧ t.tr = s.tr) ∧
  (∀ (s : State) (seq : BitVec 4), Ready s → BusReady s → s.fr.dfRem = 0 →
    ∃ t, exec (.tagAny seq) s = .next t ∧
      Returned (newTask s) (taskOf s) (.ok (.bytes [])) [] s.env.miso t ∧ t.fr = s.fr ∧ t.tr = s.tr)

/-! ### The transport -/

/-- `readRegister`: the frame, the response and the data frame of four bytes cross the bus exactly as R176 says, and
the word is the four bytes, least significant first. Where a cited rule is a decision of the spec's own (D14, its
general knowledge), the statement follows it. -/
def Obligations.ReadRegisterReturnsTheWord : Prop :=
  ∀ (s : State) (addr v : Word) (ev : List BusEvent) (rest : List (Option Byte)),
    Ready s → addr.toNat < 2 ^ 24 → BusReady s → Answers s [.read (addr.setWidth 24) v] ev rest →
    ∃ t, exec (.opReadRegister addr) s = .next t ∧ Returned (newTask s) (taskOf s) (.ok (.word v)) ev rest t

/-- `writeRegister`: the value crosses the bus in the command frame, and nothing else changes (R177). -/
def Obligations.WriteRegisterSendsTheWord : Prop :=
  ∀ (s : State) (addr v : Word) (ev : List BusEvent) (rest : List (Option Byte)),
    Ready s → addr.toNat < 2 ^ 24 → BusReady s → Answers s [.write (addr.setWidth 24) v] ev rest →
    ∃ t, exec (.opWriteRegister addr v) s = .next t ∧ Returned (newTask s) (taskOf s) (.ok .unit) ev rest t

/-- `readBlock`: the caller's span holds the bytes the device sent, every other byte of memory is as before (R178,
R181). Where a cited rule is a decision of the spec's own (D15, D16), the statement follows it. -/
def Obligations.ReadBlockFillsTheSpan : Prop :=
  ∀ (s : State) (addr : Word) (buf : Span) (b : Bytes) (ev : List BusEvent) (rest : List (Option Byte)),
    Ready s → addr.toNat < 2 ^ 24 → BusReady s → Memory.wf s.mem = true → buf.len = b.length →
    Answers s [.readBlock (addr.setWidth 24) b] ev rest →
    ∃ t m, exec (.opReadBlock addr buf) s = .next t ∧
      Returned ((newTask s).setMem m) (taskOf s) (.ok .unit) ev rest t ∧ Filled s.mem m buf b

/-- `writeBlock`: the span's bytes go to the device in pieces of at most 2040, each an operation of its own, at
advancing addresses; nothing else changes (R179, R180, R181). Where a cited rule is a decision of the spec's own (D11,
D15), the statement follows it. -/
def Obligations.WriteBlockSendsThePieces : Prop :=
  ∀ (s : State) (addr : Word) (buf : Span) (xs : List Access) (ev : List BusEvent) (rest : List (Option Byte)),
    Ready s → addr.toNat < 2 ^ 24 → BusReady s → 0 < buf.len →
    Pieces addr.toNat (memReadBytes s.mem buf.base buf.len) xs → Answers s xs ev rest →
    ∃ t, exec (.opWriteBlock addr buf) s = .next t ∧ Returned (newTask s) (taskOf s) (.ok .unit) ev rest t

/-- An operation all of whose ten attempts fail: nine soft resets between them, each followed by its settle delay,
then the last attempt's error, whichever of the retried errors it is (`E_XFER` at any byte of the command frame, the
response, a chunk of the data frame or the data trailer; `E_DEV`; `E_DATA_RSP`), with `T_LOCK` free and the rest of
the state as it was; the four transport operations alike. Of a block written in pieces, the pieces before the one that
fails have succeeded, each with ten attempts of its own, and the pieces after it are not sent (R172, R173, R180, R182,
R185; what a failed block read leaves in the lent span is log 6; that a failed transfer ends its bus step at once is
log 18). Where a cited rule is a decision of the spec's own (D7, D8, D9), the statement follows it. -/
def Obligations.TenAttemptsThenTheLastError : Prop :=
  ∀ (s : State) (i : Instr) (before after : List Access) (a : Access) (c : Cmd) (f : DataFrame) (v : Value)
    (sp : Option (Span × Bytes)) (errs0 errs : List Err) (e : Err) (ev0 ev ev' : List BusEvent)
    (rest : List (Option Byte)),
    Ready s → BusReady s → Memory.wf s.mem = true → Transfers s i (before ++ a :: after) v sp →
    AllSucceed s.params s.fr.crcEn s.fr.pktLimit before errs0 ev0 → Carries a c f →
    FailedAttempts s.params s.fr.crcEn s.fr.pktLimit c f errs ev → errs.length = 9 →
    FailedAttempt s.params s.fr.crcEn s.fr.pktLimit c f e ev' → s.env.miso = answersOf (ev0 ++ ev ++ ev') ++ rest →
    ∃ t m, exec i s = .next t ∧
      Returned (((newTask s).setMem m).mapTr fun r => { r with lastErr := some e }) (taskOf s) (.err e)
        (ev0 ++ ev ++ ev') rest t ∧
      t.tr.att = 10 ∧ (sp = none → m = s.mem) ∧ ∀ buf b, sp = some (buf, b) → Spared s.mem m buf

/-- An operation that fails at up to nine attempts, each with one of the retried errors (a transfer that fails, in the
command frame, the response, a chunk of the data frame or the data trailer; a device error status; a data trailer that
is no success), and succeeds at the next, the tenth at the latest: after each failure one soft reset, whose own
failure is ignored, and the settle delay, then the whole exchange again; no error is surfaced; the four transport
operations alike, each piece of a block written having its own attempts (R148, R150, R170, R171, R172, R173, R180,
R182). That a failed transfer ends its bus step at once, chip-select released, is log 18. Where a cited rule is a
decision of the spec's own (D7, D8, D9, D10, D11, D18, its general knowledge), the statement follows it. -/
def Obligations.DeviceErrorIsRetried : Prop :=
  ∀ (s : State) (i : Instr) (before : List Access) (a : Access) (v : Value) (sp : Option (Span × Bytes))
    (errs0 errs : List Err) (ev0 ev : List BusEvent) (rest : List (Option Byte)),
    Ready s → BusReady s → Memory.wf s.mem = true → Transfers s i (before ++ [a]) v sp →
    AllSucceed s.params s.fr.crcEn s.fr.pktLimit before errs0 ev0 →
    Succeeds s.params s.fr.crcEn s.fr.pktLimit a errs ev → s.env.miso = answersOf (ev0 ++ ev) ++ rest →
    ∃ t m, exec i s = .next t ∧
      Returned (noted (errs0 ++ errs) ((newTask s).setMem m)) (taskOf s) (.ok v) (ev0 ++ ev) rest t ∧
      t.tr.att = errs.length + 1 ∧ (sp = none → m = s.mem) ∧ ∀ buf b, sp = some (buf, b) → Filled s.mem m buf b

/-- Corruption ends an operation of the transport at once, at whichever attempt it comes: no reset behind it, no
further attempt. A wrong echo byte, in each of the four operations; and no start tag among ten bytes, at any chunk of
the data frame a register or block read reads. Of a block written in pieces, the pieces before it have succeeded and
the pieces after it are not sent (R146, R147, R148, R171, R172, R173, R180; what a failed block read leaves in the
lent span is log 6; how an attempt before it that fails by a transfer ends its bus step is log 18). Where a cited rule
is a decision of the spec's own (D7, D8, D9, D10), the statement follows it. -/
def Obligations.EchoMismatchIsNotRetried : Prop :=
  ∀ (s : State) (i : Instr) (before after : List Access) (a : Access) (c : Cmd) (f : DataFrame) (v : Value)
    (sp : Option (Span × Bytes)) (errs0 errs : List Err) (e : Err) (ev0 ev ev' : List BusEvent)
    (rest : List (Option Byte)),
    Ready s → BusReady s → Memory.wf s.mem = true → Transfers s i (before ++ a :: after) v sp →
    AllSucceed s.params s.fr.crcEn s.fr.pktLimit before errs0 ev0 → Carries a c f →
    FailedAttempts s.params s.fr.crcEn s.fr.pktLimit c f errs ev → errs.length ≤ 9 →
    CorruptAttempt s.params s.fr.crcEn s.fr.pktLimit c f e ev' → s.env.miso = answersOf (ev0 ++ ev ++ ev') ++ rest →
    ∃ t m, exec i s = .next t ∧
      Returned (noted (errs0 ++ errs) ((newTask s).setMem m)) (taskOf s) (.err e) (ev0 ++ ev ++ ev') rest t ∧
      t.tr.att = errs.length + 1 ∧ (sp = none → m = s.mem) ∧ ∀ buf b, sp = some (buf, b) → Spared s.mem m buf

/-- The transport's `reset()`: one frame in one bus step, no response, no delay, no retry; a transfer that fails, at
whichever byte, is `E_XFER`; no state of the block changes (R170, R182; that a transfer stops at the first byte that
fails is log 18). Where a cited rule is a decision of the spec's own (D7, D18), the statement follows it. -/
def Obligations.TransportResetSendsOneFrame : Prop :=
  (∀ (s : State) (x : Bytes) (rest : List (Option Byte)),
    Ready s → BusReady s → x.length = (commandWire s.params s.fr.crcEn .reset).length →
    s.env.miso = x.map some ++ rest →
    ∃ t, exec .opTransportReset s = .next t ∧
      Returned (newTask s) (taskOf s) (.ok .unit) (stepEvents (commandWire s.params s.fr.crcEn .reset) x) rest t) ∧
  (∀ (s : State) (tx x tail : Bytes) (b : Byte) (rest : List (Option Byte)),
    Ready s → BusReady s → commandWire s.params s.fr.crcEn .reset = tx ++ b :: tail → x.length = tx.length →
    s.env.miso = x.map some ++ none :: rest →
    ∃ t, exec .opTransportReset s = .next t ∧
      Returned (newTask s) (taskOf s) (.err .xfer) (failedStep tx x b) rest t)

/-- Transport `init()`: however it ends, it ends with `CRC_EN = 0`. One whose first probe succeeds: one register read
with CRC bytes, then `CRC_EN = 0`; where `INIT_CFG_WRITEBACK` is supplied, the register is written back as well. One
whose first probe fails: the register is read again with `CRC_EN = 0`, and how that ends is how init ends (R183; log
17). Where a cited rule is a decision of the spec's own (D19), the statement follows it. -/
def Obligations.TransportInitProbesWithCrc : Prop :=
  (∀ (s : State) (w : Word) (ev : List BusEvent) (rest : List (Option Byte)),
      Ready s → BusReady s →
      Answers (s.mapFr fun f => { f with crcEn := true })
        (.read s.params.regProtocolConfig w ::
          match s.params.initCfgWriteback with
          | none => []
          | some f => [.write s.params.regProtocolConfig (f.app (w, s.fr.pktLimit))]) ev rest →
      ∃ t, exec .opTransportInit s = .next t ∧
        Returned ((newTask s).mapFr fun f => { f with crcEn := false }) (taskOf s) (.ok .unit) ev rest t) ∧
  (∀ (s s1 s2 : State) (e e2 : Err) (w : Word), Ready s → s.env.yields = [] →
      Runs (taskOf s) (readReg s.params.regProtocolConfig) ((newTask s).mapFr fun f => { f with crcEn := true })
        (.error e) s1 →
      (Runs (taskOf s) (readReg s.params.regProtocolConfig) (s1.mapFr fun f => { f with crcEn := false })
          (.error e2) s2 →
        Ends .opTransportInit s (.err e2) (s2.mapFr fun f => { f with crcEn := false })) ∧
      (s.params.initCfgWriteback = none →
        Runs (taskOf s) (readReg s.params.regProtocolConfig) (s1.mapFr fun f => { f with crcEn := false }) (.ok w) s2 →
        Ends .opTransportInit s (.ok .unit) (s2.mapFr fun f => { f with crcEn := false }))) ∧
  (∀ (id : Nat) (p : Params) (s t : State) (r : Except Err Unit), Runs id (transportInit p) s r t → t.fr.crcEn = false)

/-- `setPacketSize`: a legal limit before init is taken, and nothing else changes; any other limit, and any limit
while the session boots or runs, is refused (R184); so is every limit while an `Initialize()` is in progress (R374).
Where a cited rule is a decision of the spec's own (D19, D52), the statement follows it. -/
def Obligations.SetPacketSizeBeforeInitOnly : Prop :=
  ∀ (s : State) (limit : Nat),
    ((s.hif.state = .bootstrapping ∨ s.hif.state = .ready) →
      exec (.opSetPacketSize limit) s = .refused .packetSizeFrozen) ∧
    ((s.hif.state = .uninitialized ∨ s.hif.state = .shutdown) →
      (initializing s = true → exec (.opSetPacketSize limit) s = .refused .wrongSessionState) ∧
      (initializing s = false →
        (limit ∈ [256, 512, 1024, 2048, 4096, 8192] →
          exec (.opSetPacketSize limit) s = .next
            (returnToCaller (taskOf s) (.ok .unit) ((newTask s).mapFr fun f => { f with pktLimit := limit }))) ∧
        (limit ∉ [256, 512, 1024, 2048, 4096, 8192] →
          exec (.opSetPacketSize limit) s = .refused .packetSizeIllegal)))

/-- An operation waits while another agent holds the lock it is about to take: it sends nothing and changes nothing
but the model's own list of waiting tasks. `T_LOCK`: each transport operation, each frame builder and chunk invoked by
itself; transport `init()` has set `CRC_EN` before it waits (R183). `S_LOCK`: `ChipWake`, `ChipSleep`, the two
registrations, `Hif.Send` and each HIF row sent by itself. A slot's lock: each operation on that slot. When its turn
comes and the lock is free it goes on, and ends as the operation does; a slot that is then no longer in use ends it in
`ErrSocketInvalid` (R72, R175, R208, R220, R253; the task list and the turns are the model's, logs 1 and 23; rows,
chunks and builders by themselves are logs 10, 11 and 12). Where a cited rule is a decision of the spec's own (D17,
D19, D21, D22, D24, D25, D30, D36, D38, D45), the statement follows it. -/
def Obligations.OperationsWaitForTheBus : Prop :=
  (∀ (s : State) (addr v : Word) (buf : Span) (a : Addr) (a15 : BitVec 15) (n : Half) (n24 : BitVec 24) (w : Word) (d : Bytes)
      (seq : BitVec 4) (ag : Agent),
    Ready s → addr.toNat < 2 ^ 24 → 0 < buf.len → buf.len ≤ 2040 → 0 < d.length → d.length ≤ s.fr.pktLimit →
    0xFF < a.toNat → a15.toNat ≤ 0x30 → 2 ≤ n24.toNat → n24.toNat ≤ 2040 → s.tr.lock = .held ag → s.env.inbox = [] →
    (∀ i ∈ [Instr.opReadRegister addr, .opWriteRegister addr v, .opReadBlock addr buf, .opWriteBlock addr buf,
        .opTransportReset, .cmdDmaWrite a n, .cmdDmaRead a n, .cmdInternalWrite a15 w, .cmdInternalRead a15,
        .cmdTerminate, .cmdRepeat, .cmdExtWrite a n24, .cmdExtRead a n24, .cmdSingleWrite a w, .cmdSingleRead a,
        .cmdReset, .tagFirst d, .tagMiddle d, .tagLast d, .tagAny seq],
      exec i s = .next (waiting (taskOf s) i [] (newTask s))) ∧
    (s.env.yields = [] →
      exec .opTransportInit s =
        .next (waiting (taskOf s) .opTransportInit [.unit] ((newTask s).mapFr fun f => { f with crcEn := true })))) ∧
  (∀ (s : State) (id : Nat) (addr v : Word) (ev : List BusEvent) (rest : List (Option Byte)),
      nextInput s = some (.resume id) → findTask id s = some ⟨id, .opReadRegister addr, []⟩ → BusReady s →
      Answers s [.read (addr.setWidth 24) v] ev rest →
      ∃ t, step s = .next t ∧
        Returned (resumed id s) id (.ok (.word v)) ev rest t) ∧
  (∀ (s : State) (group opcode : Byte) (cb : Callback) (control data : Bytes) (offset : Nat) (row : Instr) (ag : Agent),
    Ready s → s.hif.lock = .held ag → s.env.inbox = [] → s.env.yields = [] →
    (∀ i ∈ [Instr.opChipWake, .opChipSleep, .opRegisterCallback group cb, .opOpenEventChannel],
      exec i s = .next (waiting (taskOf s) i [] (newTask s))) ∧
    exec (.opHifSend group opcode control data offset) s =
      .next (waiting (taskOf s) (.opHifSend group opcode control data offset) [.flag true] (newTask s)) ∧
    (RowOf s.params group opcode (.outbound control data offset) row →
      exec row s = .next (waiting (taskOf s) row [.flag true] (newTask s)))) ∧
  (∀ (s : State) (id : Nat) (group opcode : Byte) (control data : Bytes) (offset : Nat) (a : SendWords)
      (ev : List BusEvent) (rest : List (Option Byte)),
    nextInput s = some (.resume id) → findTask id s = some ⟨id, .opHifSend group opcode control data offset, [.flag true]⟩ →
    s.hif.lock = .free → BusReady s → s.hif.awake = false → GoodSend s.params control data offset a →
    Answers s (sendAccesses s.params group opcode control data offset a) ev rest →
    ∃ t, step s = .next t ∧ Returned (resumed id s) id (.ok .unit) ev rest t) ∧
  (∀ (s : State) (k : Fin 11) (addr : SockAddr) (deadline : Word) (backlog option : Byte) (b value : Bytes) (buf : Span)
      (ag : Agent),
    s.root.live = true → Ready s → (s.sock.slot k).lock = .held ag → s.env.inbox = [] →
    ∀ i : Instr,
      (i ∈ [.opBind k.val addr deadline, .opListen k.val backlog deadline, .opConnect k.val addr deadline,
          .opSecure k.val deadline, .opSendSocket k.val b deadline, .opSendTo k.val b addr deadline,
          .opRecv k.val buf deadline, .opRecvFrom k.val buf deadline, .opShutdown k.val] ∨
        k.val ≤ 6 ∧ i = .opAccept k.val deadline ∨
        s.params.optValid.app (option, value) = .ok ∧ i = .opSetsockopt k.val option value) →
      exec i s = .next (waiting (taskOf s) i [] (newTask s))) ∧
  (∀ (s : State) (id : Nat) (k : Fin 11) (addr : SockAddr) (deadline : Word),
    nextInput s = some (.resume id) → findTask id s = some ⟨id, .opBind k.val addr deadline, []⟩ →
    (s.sock.slot k).lock = .free → s.env.yields = [] →
    ((s.sock.slot k).inUse = false →
      step s = .next (returnToCaller id (.err .socketInvalid) (dropExpiry (resumed id s)))) ∧
    (∀ (s1 : State) (sock : BitVec 8) (sid : Option Half),
      (s.sock.slot k).inUse = true → (s.sock.slot k).desc = BitVec.ofNat 8 k.val →
      Runs id
        (request s.params k .bind
          ⟨groupIp, opcodeFor (s.sock.slot k) 0x41 0x54, encBind s.params addr k, [], 0⟩ deadline)
        ((dropExpiry (resumed id s)).mapSock fun q => q.setSlot k fun x => { x with lock := .held (.caller id) })
        (.ok (.status sock 0 sid)) s1 →
      Holds k id s1 →
      step s =
        .next (returnToCaller id (.ok .unit) (dropExpiry (changed k id (fun x => { x with state := .bound }) s1)))))

/-! ### The HIF session -/

/-- Operations of the session have a meaning in `ready` only, `Hif.Init` in `uninitialized` and `shutdown` only, the
two registrations not in `shutdown` (R200, R201, R224, R336); nothing may be invoked while the session boots, nor
inside an `Initialize()` (R374). Socket operations and `Reset` have a meaning only while the driver is live,
`Initialize` only while it is not (R252, R285, R286). `Isr`, and a packet received, are the worker's alone: never
re-entered, and not run once it has stopped (R332, R335; logs 10 and 16). The gates of the transport, of frame
builders and chunks by themselves and of the registrations are log 12, those of rows by themselves logs 10 and 11.
Where a cited rule is a decision of the spec's own (D7, D37, D48, D50, D51, D52, D56, D57, D62), the statement follows
it. -/
def Obligations.OperationGates : Prop :=
  (∀ (s : State) (addr v : Word) (buf : Span) (done : Bool) (g op : Byte) (control data d : Bytes) (off : Nat)
      (seq : BitVec 4) (pk : HifPacket) (row : Instr),
      (s.hif.state ≠ .ready ∨ initializing s = true) →
        (∀ i ∈ [Instr.opReadRegister addr, .opWriteRegister addr v, .opReadBlock addr buf, .opWriteBlock addr buf,
            .opTransportReset, .opTransportInit, .opWaitForBootrom, .opWaitForFirmwareStart, .opEnableInterrupts,
            .opChipWake, .opChipSleep, .opHifSend g op control data off, .opIsr, .opHifReceive addr buf done,
            .tagFirst d, .tagMiddle d, .tagLast d, .tagAny seq],
          exec i s = .refused .wrongSessionState) ∧
        (RowOf s.params g op pk row → exec row s = .refused .wrongSessionState)) ∧
  (∀ (s : State) (g : Byte) (cb : Callback) (a : Addr) (a15 : BitVec 15) (n : Half) (n24 : BitVec 24) (d : Word),
      ((s.hif.state = .bootstrapping ∨ initializing s = true) →
        0xFF < a.toNat → a15.toNat ≤ 0x30 → 2 ≤ n24.toNat → n24.toNat ≤ 2040 →
        ∀ i ∈ [Instr.opHifInit, .opRegisterCallback g cb, .opOpenEventChannel, .cmdDmaWrite a n, .cmdDmaRead a n,
            .cmdInternalWrite a15 d, .cmdInternalRead a15, .cmdTerminate, .cmdRepeat, .cmdExtWrite a n24,
            .cmdExtRead a n24, .cmdSingleWrite a d, .cmdSingleRead a, .cmdReset],
          exec i s = .refused .wrongSessionState) ∧
      (s.hif.state = .ready → exec .opHifInit s = .refused .wrongSessionState) ∧
      (s.hif.state = .shutdown →
        exec (.opRegisterCallback g cb) s = .refused .wrongSessionState ∧
        exec .opOpenEventChannel s = .refused .wrongSessionState)) ∧
  (∀ (s : State) (type : SockType) (ssl : SslFlags) (i : Int) (addr : SockAddr) (deadline : Word) (backlog option : Byte)
      (b value name : Bytes) (buf : Span),
      (s.root.live = false →
        ∀ instr ∈ [Instr.opSocket type ssl, .opBind i addr deadline, .opListen i backlog deadline, .opAccept i deadline,
            .opConnect i addr deadline, .opSecure i deadline, .opSendSocket i b deadline, .opSendTo i b addr deadline,
            .opRecv i buf deadline, .opRecvFrom i buf deadline, .opSetsockopt i option value, .opShutdown i,
            .opGetHostByName name deadline, .opReset],
          exec instr s = .refused .rootNotLive) ∧
      (s.root.live = true → exec .opInitialize s = .refused .rootLive) ∧
      ((s.hif.state = .bootstrapping ∨ initializing s = true) →
        (s.root.live = false → exec .opInitialize s = .refused .wrongSessionState) ∧
        (s.root.live = true → exec .opReset s = .refused .wrongSessionState))) ∧
  (∀ (s : State) (g op : Byte) (flag : Bool) (length : Half) (i : Instr),
      Ready s → (i = .opIsr ∨ hifRow g op (.inbound flag length) = some i) →
      ((s.irq.wseq = .stopped ∨ s.irq.stop = true) → exec i s = .refused .workerStopped) ∧
      (s.irq.stop = false → s.irq.wseq ∈ [.wake, .isr, .sleep] → exec i s = .refused .isrReentry))

/-- The boot steps by themselves. `waitForBootrom` where the device is ready at the first poll: the two registers
read, the version word, the chip-config word and the start magic written, in that order (R203). `waitForFirmwareStart`
where the magic is there at the first poll: the state register is read and cleared (R204). `enableInterrupts` sets the
pin-mux bit, then the interrupt-enable bit, each by a read and a write (R205). Where a cited rule is a decision of the
spec's own (D58, D59), the statement follows it. -/
def Obligations.BootSteps : Prop :=
  (∀ (s : State) (e : Word) (ev : List BusEvent) (rest : List (Option Byte)),
      Ready s → BusReady s → e.getLsbD s.params.bitEfuseLoaded.val = true →
      Answers s
        [.read s.params.regEfuseStatus e, .read s.params.regBootrom s.params.magicBootromDone,
          .write s.params.regVersionInfo s.params.versionInfoWord,
          .write s.params.regChipConfig s.params.chipConfigWord,
          .write s.params.regBootrom s.params.magicStartFirmware] ev rest →
      ∃ t, exec .opWaitForBootrom s = .next t ∧ Returned (newTask s) (taskOf s) (.ok .unit) ev rest t) ∧
  (∀ (s : State) (ev : List BusEvent) (rest : List (Option Byte)),
      Ready s → BusReady s →
      Answers s [.read s.params.regFwState s.params.magicFwReady, .write s.params.regFwState 0x00000000] ev rest →
      ∃ t, exec .opWaitForFirmwareStart s = .next t ∧ Returned (newTask s) (taskOf s) (.ok .unit) ev rest t) ∧
  (∀ (s : State) (w1 w2 : Word) (ev : List BusEvent) (rest : List (Option Byte)),
      Ready s → BusReady s →
      Answers s
        (setBitAccesses s.params.regPinMux s.params.bitPinMux w1 ++
          setBitAccesses s.params.regIntrEnable s.params.bitIntrEnable w2) ev rest →
      ∃ t, exec .opEnableInterrupts s = .next t ∧ Returned (newTask s) (taskOf s) (.ok .unit) ev rest t)

/-- The boot polls, which start over until their magic is there: a poll that finds it missing hands over, and at its
next turn reads the register anew: it waits again, or goes on where the magic is there; when its time is up the wait
ends in its error. `waitForFirmwareStart` and `waitForBootrom` alike, and the efuse poll, which has no bound and a
delay behind each round (R203, R204, R340; that a poll hands over between rounds, and that an expiry is an input of
the waiting task, is log 19). Where a cited rule is a decision of the spec's own (D46, D58, D59), the statement
follows it. -/
def Obligations.FirmwareTimeout : Prop :=
  (∀ (s : State) (id : Nat),
    nextInput s = some (.expire id) → findTask id s = some ⟨id, .opWaitForFirmwareStart, []⟩ → s.env.yields = [] →
    step s = .next (returnToCaller id (.err .firmwareTimeout) (dropExpiry (resumed id s)))) ∧
  (∀ (s : State) (w : Word) (ev : List BusEvent) (rest : List (Option Byte)),
    Ready s → BusReady s → w ≠ s.params.magicFwReady → Answers s [.read s.params.regFwState w] ev rest →
    ∃ u, exec .opWaitForFirmwareStart s = .next (waiting (taskOf s) .opWaitForFirmwareStart [] u) ∧
      BusDone (newTask s) u ev rest) ∧
  (∀ (s : State) (id : Nat) (w : Word) (ev : List BusEvent) (rest : List (Option Byte)),
    nextInput s = some (.resume id) → findTask id s = some ⟨id, .opWaitForFirmwareStart, []⟩ → BusReady s →
    (w ≠ s.params.magicFwReady → Answers s [.read s.params.regFwState w] ev rest →
      ∃ u, step s = .next (waiting id .opWaitForFirmwareStart [] u) ∧ BusDone (resumed id s) u ev rest) ∧
    (Answers s [.read s.params.regFwState s.params.magicFwReady, .write s.params.regFwState 0x00000000] ev rest →
      ∃ t, step s = .next t ∧ Returned (resumed id s) id (.ok .unit) ev rest t)) ∧
  (∀ (s : State) (w : Word) (ev : List BusEvent) (rest : List (Option Byte)),
    BusReady s → w.getLsbD s.params.bitEfuseLoaded.val = false →
    Answers s [.read s.params.regEfuseStatus w, .delay .efusePoll] ev rest →
    (Ready s →
      ∃ u, exec .opWaitForBootrom s = .next (waiting (taskOf s) .opWaitForBootrom [] u) ∧
        BusDone (newTask s) u ev rest) ∧
    (∀ id : Nat, nextInput s = some (.resume id) → findTask id s = some ⟨id, .opWaitForBootrom, []⟩ →
      ∃ u, step s = .next (waiting id .opWaitForBootrom [] u) ∧ BusDone (resumed id s) u ev rest)) ∧
  (∀ (s : State) (e w : Word) (ev : List BusEvent) (rest : List (Option Byte)),
    Ready s → BusReady s → e.getLsbD s.params.bitEfuseLoaded.val = true → w ≠ s.params.magicBootromDone →
    Answers s [.read s.params.regEfuseStatus e, .read s.params.regBootrom w] ev rest →
    ∃ u log, exec .opWaitForBootrom s = .next (waiting (taskOf s) .opWaitForBootrom log u) ∧
      BusDone (newTask s) u ev rest ∧
      ∀ (v : State) (id : Nat), v.params = s.params → findTask id v = some ⟨id, .opWaitForBootrom, log⟩ →
        (nextInput v = some (.expire id) → v.env.yields = [] →
          step v = .next (returnToCaller id (.err .firmwareLoadFailed) (dropExpiry (resumed id v)))) ∧
        (∀ (w' : Word) (ev' : List BusEvent) (rest' : List (Option Byte)), nextInput v = some (.resume id) → BusReady v →
          (w' ≠ s.params.magicBootromDone → Answers v [.read s.params.regBootrom w'] ev' rest' →
            ∃ u', step v = .next (waiting id .opWaitForBootrom log u') ∧ BusDone (resumed id v) u' ev' rest') ∧
          (Answers v
              [.read s.params.regBootrom s.params.magicBootromDone,
                .write s.params.regVersionInfo s.params.versionInfoWord,
                .write s.params.regChipConfig s.params.chipConfigWord,
                .write s.params.regBootrom s.params.magicStartFirmware] ev' rest' →
            ∃ t, step v = .next t ∧ Returned (resumed id v) id (.ok .unit) ev' rest' t)))

/-- `Hif.Init`: when transport init, the chip id, the two boot waits and the interrupt enable have all succeeded, one
after another, the session is `ready`. A stage that fails ends it in the stage's own error, whatever the inner error
was, and the session is `uninitialized` again; transport init's error is passed on as it is (R200, R201). Where a
cited rule is a decision of the spec's own (D52, D57), the statement follows it. -/
def Obligations.InitRunsItsStages : Prop :=
  (∀ s s1 s2 s3 s4 s5 : State,
      (s.hif.state = .uninitialized ∨ s.hif.state = .shutdown) → initializing s = false → s.env.yields = [] →
      Runs (taskOf s) (transportInit s.params) ((newTask s).mapHif fun h => { h with state := .bootstrapping })
        (.ok ()) s1 →
      Runs (taskOf s) (checkChipId s.params) s1 (.ok ()) s2 →
      Runs (taskOf s) (waitForBootrom s.params) s2 (.ok ()) s3 →
      Runs (taskOf s) (waitForFirmwareStart s.params) s3 (.ok ()) s4 →
      Runs (taskOf s) (enableInterrupts s.params) s4 (.ok ()) s5 →
      Ends .opHifInit s (.ok .unit) (s5.mapHif fun h => { h with state := .ready })) ∧
  (∀ (s s1 s2 s3 s4 s5 : State) (e : Err),
      (s.hif.state = .uninitialized ∨ s.hif.state = .shutdown) → initializing s = false → s.env.yields = [] →
      (Runs (taskOf s) (transportInit s.params) ((newTask s).mapHif fun h => { h with state := .bootstrapping })
          (.error e) s1 →
        Ends .opHifInit s (.err e) (s1.mapHif fun h => { h with state := .uninitialized })) ∧
      (Runs (taskOf s) (transportInit s.params) ((newTask s).mapHif fun h => { h with state := .bootstrapping })
          (.ok ()) s1 →
        (Runs (taskOf s) (checkChipId s.params) s1 (.error e) s2 →
          Ends .opHifInit s (.err .incompatibleVersion) (s2.mapHif fun h => { h with state := .uninitialized })) ∧
        (Runs (taskOf s) (checkChipId s.params) s1 (.ok ()) s2 →
          (Runs (taskOf s) (waitForBootrom s.params) s2 (.error e) s3 →
            Ends .opHifInit s (.err .bootromFailed) (s3.mapHif fun h => { h with state := .uninitialized })) ∧
          (Runs (taskOf s) (waitForBootrom s.params) s2 (.ok ()) s3 →
            (Runs (taskOf s) (waitForFirmwareStart s.params) s3 (.error e) s4 →
              Ends .opHifInit s (.err .firmwareFailed) (s4.mapHif fun h => { h with state := .uninitialized })) ∧
            (Runs (taskOf s) (waitForFirmwareStart s.params) s3 (.ok ()) s4 →
              Runs (taskOf s) (enableInterrupts s.params) s4 (.error e) s5 →
              Ends .opHifInit s (.err .interruptsEnableFailed)
                (s5.mapHif fun h => { h with state := .uninitialized }))))))

/-- `ChipWake`: asleep, the two handshake bits are set, 3 ms pass, and the clock-enable acknowledge is polled up to
ten times, 2 ms behind each poll that does not find it; `AWAKE` is set on the acknowledge, and stays 0 with
`E_WAKE_FAILED` after ten polls without one; awake, nothing happens. `ChipSleep`: awake, the two handshake bits are
cleared in reverse order and `AWAKE` is cleared; asleep, nothing happens. A register access of either that fails ends
it in the transport's error, and `AWAKE` keeps its value (R206, R207; that a failed transfer ends its bus step at once
is log 18). Where a cited rule is a decision of the spec's own (D27, D59), the statement follows it. -/
def Obligations.WakeAndSleepHandshakes : Prop :=
  (∀ (s : State) (wa wb : Word) (polls : List Word) (ev : List BusEvent) (rest : List (Option Byte)), SessionReady s →
      (s.hif.awake = true →
        ∃ t, exec .opChipWake s = .next t ∧ Returned (newTask s) (taskOf s) (.ok .unit) [] s.env.miso t) ∧
      (s.hif.awake = false → Answers s (wakeAccesses s.params wa wb polls) ev rest →
        (polls.length ≤ 10 → LastOnly (acked s.params) polls →
          ∃ t, exec .opChipWake s = .next t ∧
            Returned ((newTask s).mapHif fun h => { h with awake := true }) (taskOf s) (.ok .unit) ev rest t) ∧
        (polls.length = 10 → (∀ w ∈ polls, acked s.params w = false) →
          ∃ t, exec .opChipWake s = .next t ∧ Returned (newTask s) (taskOf s) (.err .wakeFailed) ev rest t))) ∧
  (∀ (s : State) (wb wa : Word) (ev : List BusEvent) (rest : List (Option Byte)), SessionReady s →
      (s.hif.awake = false →
        ∃ t, exec .opChipSleep s = .next t ∧ Returned (newTask s) (taskOf s) (.ok .unit) [] s.env.miso t) ∧
      (s.hif.awake = true → Answers s (sleepAccesses s.params wb wa) ev rest →
        ∃ t, exec .opChipSleep s = .next t ∧
          Returned ((newTask s).mapHif fun h => { h with awake := false }) (taskOf s) (.ok .unit) ev rest t)) ∧
  (∀ (s : State) (wa wb : Word) (polls : List Word) (before after : List Access) (x : Access) (e : Err) (errs : List Err)
      (ev ev' : List BusEvent) (rest : List (Option Byte)), SessionReady s →
      AllOnWire s.params s.fr.crcEn s.fr.pktLimit before ev → Fails s.params s.fr.crcEn s.fr.pktLimit x e errs ev' →
      s.env.miso = answersOf (ev ++ ev') ++ rest →
      (s.hif.awake = false → polls.length ≤ 10 → LastOnly (acked s.params) polls →
        wakeAccesses s.params wa wb polls = before ++ x :: after →
        ∃ t, exec .opChipWake s = .next t ∧
          Returned (noted errs (newTask s)) (taskOf s) (.err e) (ev ++ ev') rest t) ∧
      (s.hif.awake = true → sleepAccesses s.params wb wa = before ++ x :: after →
        ∃ t, exec .opChipSleep s = .next t ∧
          Returned (noted errs (newTask s)) (taskOf s) (.err e) (ev ++ ev') rest t))

/-- `Hif.Send`, and every HIF row sent by it: the chip is woken if it sleeps; control word, polls (a delay behind each
one after the 500th that finds no address), DMA address, header, control bytes, data bytes at their offset and the
TX-ready word follow one another on the bus; the chip is put to sleep, and an operation of that which fails is
ignored: `AWAKE` stays set; nothing else changes (R105, R107, R207, R208, R209, R210). That a HIF row may be sent by
itself is the model's reading of the table (log 10); that a failed transfer ends its bus step at once is log 18. Where
a cited rule is a decision of the spec's own (D21, D22, D24, D25, D27, D38, D54), the statement follows it. -/
def Obligations.PacketSent : Prop :=
  ∀ (s : State) (i : Instr) (group opcode : Byte) (control data : Bytes) (offset : Nat) (wa wb dma : Word)
    (acks polls : List Word) (awake : Bool) (errs : List Err) (ev ev' : List BusEvent) (rest : List (Option Byte)),
    (i = .opHifSend group opcode control data offset ∨
      RowOf s.params group opcode (.outbound control data offset) i) →
    SessionReady s → 8 + max control.length (offset + data.length) ≤ 1596 →
    (s.hif.awake = false → acks.length ≤ 10 ∧ LastOnly (acked s.params) acks) →
    polls.length ≤ s.params.hifDmaPolls → LastOnly s.params.dmaPublished.app polls →
    dma ≠ 0 → dma.toNat + 8 + offset < 2 ^ 24 →
    AllOnWire s.params s.fr.crcEn s.fr.pktLimit
      ((if s.hif.awake then [] else wakeAccesses s.params wa wb acks) ++
        packetAccesses s.params group opcode control data offset polls dma) ev →
    Slept s.params s.fr.crcEn s.fr.pktLimit awake errs ev' → s.env.miso = answersOf (ev ++ ev') ++ rest →
    ∃ t, exec i s = .next t ∧
      Returned (noted errs ((newTask s).mapHif fun h => { h with awake := awake })) (taskOf s) (.ok .unit) (ev ++ ev') rest
        t

/-- A packet longer than 1596 bytes is rejected before any bus traffic; the length is compared before it is narrowed.
A chip that does not acknowledge its wake-up in ten polls: `E_WAKE_FAILED`. A device that publishes no DMA address
within the poll budget, or publishes address 0: `errBadMemoryAlloc`, and no packet byte is written. An operation of
the wake-up, the hand-over or the packet that fails: the transport's error is passed on, and nothing behind it is
sent. Once the chip is awake it is put to sleep all the same, and what comes of that is ignored: an operation of it
that fails too leaves `AWAKE` set (R206, R207, R208, R209). That a HIF row may be sent by itself is log 10; that a
failed transfer ends its bus step at once is log 18. Where a cited rule is a decision of the spec's own (D21, D22,
D24, D25, D27, D59), the statement follows it. -/
def Obligations.PacketsNotSent : Prop :=
  ∀ (s : State) (i : Instr) (group opcode : Byte) (control data : Bytes) (offset : Nat),
    (i = .opHifSend group opcode control data offset ∨
      RowOf s.params group opcode (.outbound control data offset) i) →
    SessionReady s →
    (1596 < 8 + max control.length (offset + data.length) →
      ∃ t, exec i s = .next t ∧ Returned (newTask s) (taskOf s) (.err .messageTooLong) [] s.env.miso t) ∧
    (8 + max control.length (offset + data.length) ≤ 1596 →
      (∀ (wa wb : Word) (acks : List Word) (ev : List BusEvent) (rest : List (Option Byte)),
        s.hif.awake = false → acks.length = 10 → (∀ w ∈ acks, acked s.params w = false) →
        Answers s (wakeAccesses s.params wa wb acks) ev rest →
        ∃ t, exec i s = .next t ∧ Returned (newTask s) (taskOf s) (.err .wakeFailed) ev rest t) ∧
      (∀ (wa wb wa' wb' : Word) (acks polls : List Word) (ev : List BusEvent) (rest : List (Option Byte)),
        (s.hif.awake = false → acks.length ≤ 10 ∧ LastOnly (acked s.params) acks) →
        (polls.length = s.params.hifDmaPolls ∧ (∀ w ∈ polls, s.params.dmaPublished.app w = false) ∧
            Answers s
              ((if s.hif.awake then [] else wakeAccesses s.params wa wb acks) ++
                handoverAccesses s.params group opcode control data offset polls ++
                sleepAccesses s.params wb' wa') ev rest ∨
          polls.length ≤ s.params.hifDmaPolls ∧ LastOnly s.params.dmaPublished.app polls ∧
            Answers s
              ((if s.hif.awake then [] else wakeAccesses s.params wa wb acks) ++
                handoverAccesses s.params group opcode control data offset polls ++
                .read s.params.regHifDmaAddr 0 :: sleepAccesses s.params wb' wa') ev rest) →
        ∃ t, exec i s = .next t ∧
          Returned ((newTask s).mapHif fun h => { h with awake := false }) (taskOf s) (.err .badMemoryAlloc) ev rest t) ∧
      (∀ (wa wb : Word) (acks : List Word) (before after : List Access) (x : Access) (e : Err) (errs : List Err)
          (ev ev' : List BusEvent) (rest : List (Option Byte)),
        s.hif.awake = false → acks.length ≤ 10 → LastOnly (acked s.params) acks →
        wakeAccesses s.params wa wb acks = before ++ x :: after →
        AllOnWire s.params s.fr.crcEn s.fr.pktLimit before ev → Fails s.params s.fr.crcEn s.fr.pktLimit x e errs ev' →
        s.env.miso = answersOf (ev ++ ev') ++ rest →
        ∃ t, exec i s = .next t ∧
          Returned (noted errs (newTask s)) (taskOf s) (.err e) (ev ++ ev') rest t) ∧
      (∀ (wa wb dma : Word) (acks polls : List Word) (before after : List Access) (x : Access) (e : Err)
          (awake : Bool) (errs errs' : List Err) (ev ev' ev'' : List BusEvent) (rest : List (Option Byte)),
        (s.hif.awake = false → acks.length ≤ 10 ∧ LastOnly (acked s.params) acks) →
        polls.length ≤ s.params.hifDmaPolls → LastOnly s.params.dmaPublished.app polls →
        dma ≠ 0 → dma.toNat + 8 + offset < 2 ^ 24 →
        packetAccesses s.params group opcode control data offset polls dma = before ++ x :: after →
        AllOnWire s.params s.fr.crcEn s.fr.pktLimit
          ((if s.hif.awake then [] else wakeAccesses s.params wa wb acks) ++ before) ev →
        Fails s.params s.fr.crcEn s.fr.pktLimit x e errs ev' →
        Slept s.params s.fr.crcEn s.fr.pktLimit awake errs' ev'' →
        s.env.miso = answersOf (ev ++ ev' ++ ev'') ++ rest →
        ∃ t, exec i s = .next t ∧
          Returned (noted (errs ++ errs') ((newTask s).mapHif fun h => { h with awake := awake })) (taskOf s) (.err e)
            (ev ++ ev' ++ ev'') rest t))

/-- `Isr`: no packet pending, the size field is 0: the RX-interrupt bit is cleared if it was set, `RXDONE_PEND` is
set, RX-done is not signalled (R211, R217). A packet whose size exceeds its declared length by more than four is
corrupt. A packet of a group without callback, or of group IP under any opcode number outside the socket callback's
list, opens the RX window and is released by RX-done; no waiter is touched and no event broadcast (R111, R212, R214,
R216, R219, R270, R279). `Isr` asked for by a request is run by the worker (log 16). Where a cited rule is a decision
of the spec's own (D28, D29, D30, D32, D34, D38, D44), the statement follows it. -/
def Obligations.IsrWithoutCallback : Prop :=
  ∀ (s : State) (r addr w : Word) (group op l0 l1 : Byte) (ev : List BusEvent) (rest : List (Option Byte)), WorkerReady s →
    (sizeOf12 s.params r = 0 → Answers s (isrAccesses s.params r) ev rest →
      ∃ t, exec .opIsr s = .next t ∧
        Returned (workerIdle ((newTask s).mapHif fun h => { h with rxPend := true })) (taskOf s) (.ok .unit) ev rest t) ∧
    (sizeOf12 s.params r ≠ 0 → addr.toNat < 2 ^ 24 →
      (l0.toNat + 256 * l1.toNat + 4 < sizeOf12 s.params r →
        Answers s
          (isrAccesses s.params r ++
            [.read s.params.regHifRxBase addr, .readBlock (addr.setWidth 24) [group, op, l0, l1]]) ev rest →
        ∃ t, exec .opIsr s = .next t ∧
          Returned (workerIdle ((newTask s).mapHif fun h => { h with rxPend := true })) (taskOf s)
            (.err .operationFailed) ev rest t) ∧
      (sizeOf12 s.params r ≤ l0.toNat + 256 * l1.toNat + 4 → NobodyTakes s group op →
        Answers s
          (isrAccesses s.params r ++
            [.read s.params.regHifRxBase addr, .readBlock (addr.setWidth 24) [group, op, l0, l1]] ++
            rxDoneAccesses s.params true w) ev rest →
        ∃ t, exec .opIsr s = .next t ∧
          Returned (workerIdle (windowOpened addr r false (newTask s))) (taskOf s) (.ok .unit) ev rest t))

/-- A packet received of one of the 21 rows, its header in hand: where no packet is pending nothing but `RXDONE_PEND`
is set; a size that exceeds the declared length by more than four is corrupt; a packet whose group has no callback, or
whose opcode the socket callback does not handle, opens the RX window and is released by RX-done, with no waiter
touched and no event broadcast (R111, R211, R212, R214, R216, R217, R279). That such a row is the worker's round for
that packet, without the read of the header, is the model's reading of the table (log 10). Where a cited rule is a
decision of the spec's own (D28, D29, D30, D32), the statement follows it. -/
def Obligations.InboundPacketWithoutCallback : Prop :=
  ∀ (s : State) (i : Instr) (group op : Byte) (flag : Bool) (length : Half) (r addr w : Word) (ev : List BusEvent)
    (rest : List (Option Byte)),
    hifRow group op (.inbound flag length) = some i → WorkerReady s →
    (sizeOf12 s.params r = 0 → Answers s (isrAccesses s.params r) ev rest →
      ∃ t, exec i s = .next t ∧
        Returned (workerIdle ((newTask s).mapHif fun h => { h with rxPend := true })) (taskOf s) (.ok .unit) ev rest t) ∧
    (length.toNat + 4 < sizeOf12 s.params r →
      Answers s (isrAccesses s.params r ++ [.read s.params.regHifRxBase addr]) ev rest →
      ∃ t, exec i s = .next t ∧
        Returned (workerIdle ((newTask s).mapHif fun h => { h with rxPend := true })) (taskOf s)
          (.err .operationFailed) ev rest t) ∧
    (sizeOf12 s.params r ≠ 0 → sizeOf12 s.params r ≤ length.toNat + 4 → NobodyTakes s group op →
      Answers s
        (isrAccesses s.params r ++ [.read s.params.regHifRxBase addr] ++ rxDoneAccesses s.params true w) ev rest →
      ∃ t, exec i s = .next t ∧
        Returned (workerIdle (windowOpened addr r false (newTask s))) (taskOf s) (.ok .unit) ev rest t)

/-- A reply to Bind, Listen, Connect, Secure, Send or SendTo: the record is read from the RX window; the waiting entry
with its descriptor, session id and kind is filled (of a slot 0 to 10 in use, the one entry under that id, or, where
the reply has no id, the only entry; another id, another kind, or an entry filled already matches nothing), and the
event offered to the subscribers; without such an entry the reply is dropped silently. A packet too short for its
record, or whose record leaves the RX window, is read no further and dropped as well. RX-done is given in every case,
and nothing else changes. A record is read by its layout, each field little-endian at its offset (R109, R110, R211,
R215, R216, R270 to R273, R275, R276, R278). How many bytes a record has, and that a DNS name without a fixed width
takes the bytes from its offset on, is the model's choice (log 26); the row by itself is log 10. The packet of a DNS
reply is in `ResolutionReturnsTheAddress`. Where a cited rule is a decision of the spec's own (D28, D31, D32, D34,
D38, D44, D55), the statement follows it. -/
def Obligations.RepliesFillTheirEntry : Prop :=
  (∀ (k : Sockets) (sock : BitVec 8) (sid : Option Half) (kind : Kind) (m : Nat),
    (∀ j, ((k.slot j).replies.map (·.sid)).Nodup) →
    (matchReply k sock sid kind = some m ↔ ∃ e, Matches k sock sid kind e ∧ e.mail = m)) ∧
  (∀ (p : Params) (rec : RxRecord) (fields : List Bytes) (rep : Reply) (b : Bytes), ReplyRecord p rec fields rep →
    Sized (rxLayout p rec) fields (recSize p rec) ∧
      (Stand (rxLayout p rec) fields b → decRec p rec b = rep)) ∧
  (∀ (p : Params) (ip : Word) (b : Bytes), p.layouts.dnsReply.strWidth = none →
    Stand p.layouts.dnsReply [[], wordField ip] b →
    decRec p .dnsReply b = .dns (b.drop (p.layouts.dnsReply.offs.getD 0 0)) ip) ∧
  (∀ (s : State) (i : Instr) (op : Byte) (flag : Bool) (length : Half) (kind : Kind) (rec : RxRecord)
    (b : Bytes) (r addr w : Word) (ev : List BusEvent) (rest : List (Option Byte)),
    let size := recSize s.params rec
    let rep := decRec s.params rec b
    hifRow groupIp op (.inbound flag length) = some i → replyRecord op = some (kind, rec) →
    s.hif.cb[groupIp.toNat]'groupIp.isLt = some .socket → WorkerReady s → (s.hif.subs.map (·.id)).Nodup →
    sizeOf12 s.params r ≤ length.toNat + 4 →
    (b.length = size → 8 + size ≤ length.toNat → 8 + size ≤ sizeOf12 s.params r → addr.toNat + 8 < 2 ^ 24 →
      Answers s
        (isrAccesses s.params r ++ [.read s.params.regHifRxBase addr] ++
          .readBlock ((addr + 8).setWidth 24) b :: rxDoneAccesses s.params true w) ev rest →
      ∃ t, exec i s = .next t ∧
        match matchReply s.sock (replyKey rep).1 (replyKey rep).2 kind with
        | some m =>
          Returned
            (workerIdle (offered ⟨groupIp, op ||| (if flag then 0x80 else 0x00), .reply rep⟩
              ((windowOpened addr r false (newTask s)).mapSock fun k =>
                { k with mail := mailSet k.mail m (.filled rep) })))
            (taskOf s) (.ok .unit) ev rest t
        | none => Returned (workerIdle (windowOpened addr r false (newTask s))) (taskOf s) (.ok .unit) ev rest t) ∧
    (sizeOf12 s.params r ≠ 0 → (length.toNat < 8 + size ∨ sizeOf12 s.params r < 8 + size) →
      Answers s
        (isrAccesses s.params r ++ [.read s.params.regHifRxBase addr] ++ rxDoneAccesses s.params true w) ev rest →
      ∃ t, exec i s = .next t ∧
        Returned (workerIdle (windowOpened addr r false (newTask s))) (taskOf s) (.ok .unit) ev rest t))

/-- `Receive` outside the advertised window: validity, then length, then range is tested, and nothing crosses the bus;
the caller's span is free afterwards, the rest of memory is as before (R71, R218, R329; the span is log 6). Where a
cited rule is a decision of the spec's own (D33), the statement follows it. -/
def Obligations.ReceiveChecksTheWindow : Prop :=
  ∀ (s : State) (address : Word) (buf : Span) (done : Bool) (e : Err),
    Ready s → s.env.yields = [] → Memory.wf s.mem = true →
    (s.hif.rxValid = false ∧ e = .badMemoryAlloc ∨
      s.hif.rxValid = true ∧ s.hif.rxSize.toNat < buf.len ∧ e = .messageTooLong ∨
      s.hif.rxValid = true ∧ buf.len ≤ s.hif.rxSize.toNat ∧
        (address.toNat < s.hif.rxAddr.toNat ∨
          s.hif.rxAddr.toNat + s.hif.rxSize.toNat < address.toNat + buf.len) ∧ e = .badMemoryAlloc) →
    ∃ m n, Ends (.opHifReceive address buf done) s (.err e)
        (((newTask s).setMem m).mapEnv fun v => { v with free := n }) ∧
      Spared s.mem m buf

/-- `Receive` inside the window: the span holds the bytes read, and RX-done is given when the window's end is reached
or `done` is set, if it is still pending (R218, R219). Where a cited rule is a decision of the spec's own (D32, D33),
the statement follows it. -/
def Obligations.ReceiveReadsTheWindow : Prop :=
  ∀ (s : State) (address w : Word) (buf : Span) (done : Bool) (d : Bytes) (ev : List BusEvent) (rest : List (Option Byte)),
    Ready s → BusReady s → Memory.wf s.mem = true → inWindow s.hif address buf.len →
    address.toNat < 2 ^ 24 → d.length = buf.len →
    let due := (decide (address.toNat + buf.len = s.hif.rxAddr.toNat + s.hif.rxSize.toNat) || done) && s.hif.rxPend
    Answers s
      ((if d = [] then [] else [.readBlock (address.setWidth 24) d]) ++ rxDoneAccesses s.params due w) ev rest →
    ∃ t m, exec (.opHifReceive address buf done) s = .next t ∧
      Returned (((newTask s).setMem m).mapHif fun h => { h with rxPend := h.rxPend && !due }) (taskOf s) (.ok .unit) ev
        rest t ∧
      Filled s.mem m buf d

/-- `RegisterCallback` and `OpenEventChannel`: one entry of `CB` replaced, one empty queue appended to `SUBS`; nothing
else changes (R220, R221; that both run in `uninitialized` is log 12). A queue that has been closed gives its consumer
the event it still holds, then the end of the stream (R215, R221). What a registered collaborator's callback is handed
by `Isr`: the opcode byte as it was read, the payload's length and its address; the payload it returns is broadcast
under the packet's group and opcode byte (R211, R213, R215, R216; that what is handed over is recorded, and what the
callback does drawn, is log 21; `Isr` asked for by a request is log 16). Where a cited rule is a decision of the
spec's own (D28, D30, D31, D32, D34), the statement follows it. -/
def Obligations.Registrations : Prop :=
  (∀ (s : State) (g : Byte) (cb : Callback),
    (s.hif.state = .uninitialized ∨ s.hif.state = .ready) → initializing s = false → s.hif.lock = .free →
    s.env.yields = [] →
    Ends (.opRegisterCallback g cb) s (.ok .unit)
      ((newTask s).mapHif fun h => { h with cb := h.cb.set g.toNat (some cb) g.isLt }) ∧
    Ends .opOpenEventChannel s (.ok (.queue s.env.nextQueue))
      (((newTask s).mapHif fun h => { h with subs := h.subs ++ [⟨s.env.nextQueue, none⟩] }).mapEnv fun e =>
        { e with nextQueue := s.env.nextQueue + 1 })) ∧
  (∀ (s : State) (q : Nat) (content : Option Event),
    nextInput s = some (.consume q) → (∀ x ∈ s.hif.subs, x.id ≠ q) →
    s.env.closed.find? (fun x => x.id = q) = some ⟨q, content⟩ →
    ∃ t, step s = .next t ∧ t = (popInput s).mapEnv (fun _ => t.env) ∧
      t.env.delivered = s.env.delivered ++ [(q, content)] ∧
      t.env.closed.find? (fun x => x.id = q) = some ⟨q, none⟩) ∧
  (∀ (s : State) (r addr w : Word) (group op l0 l1 : Byte) (c : Nat) (ret : Option Bytes) (runs : List CollabRun)
      (ev : List BusEvent) (rest : List (Option Byte)),
    let length := l0.toNat + 256 * l1.toNat
    let called := (windowOpened addr r false (newTask s)).mapEnv fun e =>
      { e with
        collab := runs
        collabIx := e.collabIx + 1
        calls := e.calls ++ [⟨c, op, (length : Int) - 8, addr + 8⟩] }
    WorkerReady s → (s.hif.subs.map (·.id)).Nodup → s.hif.cb[group.toNat]'group.isLt = some (.collaborator c) →
    s.env.collab = ⟨[], ret⟩ :: runs → sizeOf12 s.params r ≠ 0 → sizeOf12 s.params r ≤ length + 4 →
    addr.toNat < 2 ^ 24 →
    Answers s
      (isrAccesses s.params r ++
        [.read s.params.regHifRxBase addr, .readBlock (addr.setWidth 24) [group, op, l0, l1]] ++
        rxDoneAccesses s.params true w) ev rest →
    ∃ t, exec .opIsr s = .next t ∧
      Returned
        (workerIdle
          (match ret with
            | some b => offered ⟨group, op, .bytes b⟩ called
            | none => called))
        (taskOf s) (.ok .unit) ev rest t)

/-! ### The interrupt and the worker -/

/-- A sample of the pin: a falling edge while `INTR_EN = 1` sets `GO`, whether it was set or not; nothing else happens
but that the level is remembered (R222, R326, R327, R328; the edge is the spec's own decision D47, and a sample of the
pin as an input of a step is log 1). Where a cited rule is a decision of the spec's own (D47), the statement follows
it. -/
def Obligations.FallingEdgePostsGo : Prop :=
  ∀ (s : State) (level : Bool), nextInput s = some (.pin level) →
    step s = .next (((popInput s).mapEnv fun e => { e with pin := level }).mapIrq fun q =>
      { q with
        irqPrev := level
        go := if q.irqPrev = true ∧ level = false ∧ q.intrEn = true then true else q.go })

/-- The worker between rounds stops on `STOP`, does nothing without a signal, and stays stopped. One signal, one
round: `GO` is taken, the chip woken, the RX-control register examined, the chip put to sleep again, and the worker
waits (R223, R330, R331); here for an interrupt behind which there is no packet (R217). Where a cited rule is a
decision of the spec's own (D48), the statement follows it. -/
def Obligations.OneSignalOneRound : Prop :=
  (∀ s : State, nextInput s = some .work →
      (s.irq.wseq = .stopped → step s = .next (popInput s)) ∧
      (s.irq.wseq = .wait → s.irq.stop = true → step s = .next ((popInput s).mapIrq fun q => { q with wseq := .stopped })) ∧
      (s.irq.wseq = .wait → s.irq.stop = false → s.irq.go = false → step s = .next (popInput s))) ∧
  (∀ (s : State) (wa wb r wb' wa' : Word) (acks : List Word) (ev : List BusEvent) (rest : List (Option Byte)),
      nextInput s = some .work → s.irq.wseq = .wait → s.irq.stop = false → s.irq.go = true → s.hif.lock = .free →
      BusReady s → s.hif.awake = false → acks.length ≤ 10 → LastOnly (acked s.params) acks → sizeOf12 s.params r = 0 →
      Answers s (wakeAccesses s.params wa wb acks ++ isrAccesses s.params r ++ sleepAccesses s.params wb' wa') ev rest →
      ∃ t, step s = .next t ∧
        BusDone
          ((workerIdle ((popInput s).mapIrq fun q => { q with go := false })).mapHif fun h => { h with rxPend := true })
          t ev rest)

/-! ### The socket multiplexer -/

/-- `Socket` without SSL creation: the lowest slot of the type's range that is neither locked nor in use becomes
`Allocated` with a fresh session id; no bus traffic, nothing else changes. With every slot of the range in use or
locked it ends in `ErrNoAvailableSocket` and changes nothing (R251, R252, R34). Where a cited rule is a decision of
the spec's own (D35, D36, D37, D49, D56, D62), the statement follows it. -/
def Obligations.SocketTakesTheLowestFreeSlot : Prop :=
  (∀ (s : State) (type : SockType) (ssl : SslFlags) (i : Fin 11),
      s.root.live = true → Ready s → s.env.yields = [] → s.sock.sidLock = .free →
      (type = .stream ∧ ssl.active = false ∧ i.val ≤ 6 ∨ type = .datagram ∧ 7 ≤ i.val) →
      (s.sock.slot i).inUse = false → (s.sock.slot i).lock = .free →
      (∀ j : Fin 11, j < i → (type = .datagram → 7 ≤ j.val) →
        (s.sock.slot j).inUse = true ∨ (s.sock.slot j).lock ≠ .free) →
      Ends (.opSocket type ssl) s (.ok (.slot i.val))
        ((newTask s).mapSock fun k =>
          { (k.setSlot i fun x =>
              { x with
                inUse := true
                desc := BitVec.ofNat 8 i.val
                sid := s.sock.sid + 1
                ssl := ssl
                txOffset := if type = .datagram then s.params.txOffsetUdp else s.params.txOffsetTcp
                rxRem := 0
                replies := []
                acceptq := none
                state := .allocated }) with
            sid := s.sock.sid + 1 })) ∧
  (∀ (s : State) (type : SockType) (ssl : SslFlags),
      s.root.live = true → Ready s → s.env.yields = [] →
      (∀ j : Fin 11, (j.val ≤ 6 ↔ type = .stream) → (s.sock.slot j).inUse = true ∨ (s.sock.slot j).lock ≠ .free) →
      Ends (.opSocket type ssl) s (.err .noAvailableSocket) (newTask s))

/-- `Socket` for a TLS-capable stream takes the lowest slot of 0 to 6 that is neither locked nor in use; the
SSL-create packet goes out first, group `GROUP_WIFI`, opcode 0x50; sent, the slot is marked in use; not sent, the slot
stays free and the call ends in `ErrSocketInvalid` (R251, R252). That the driver is still live then, and the slot's
lock the caller's, are premises: a `Reset` in between is log 22. Where a cited rule is a decision of the spec's own
(D35, D36, D37, D56, D62), the statement follows it. -/
def Obligations.SocketCreatesTlsFirst : Prop :=
  ∀ (s s1 : State) (ssl : SslFlags) (e : Err) (i : Fin 11),
    s.root.live = true → Ready s → s.env.yields = [] → s1.sock.sidLock = .free → ssl.active = true → i.val ≤ 6 →
    (s.sock.slot i).inUse = false → (s.sock.slot i).lock = .free →
    (∀ j : Fin 11, j < i → (s.sock.slot j).inUse = true ∨ (s.sock.slot j).lock ≠ .free) →
    (Runs (taskOf s) (hifSend s.params s.params.groupWifi 0x50 (encSslCreate s.params i) [] 0) (entered i s)
        (.ok ()) s1 →
      s1.root.live = true → (s1.sock.slot i).lock = .held (.caller (taskOf s)) →
      Ends (.opSocket .stream ssl) s (.ok (.slot i.val))
        (changed i (taskOf s)
          (fun x =>
            { x with
              inUse := true
              desc := BitVec.ofNat 8 i.val
              sid := s1.sock.sid + 1
              ssl := ssl
              txOffset := if ssl.delayHandshake then s.params.txOffsetTcp else s.params.txOffsetTls
              rxRem := 0
              replies := []
              acceptq := none
              state := .allocated })
          (s1.mapSock fun k => { k with sid := k.sid + 1 }))) ∧
    (Runs (taskOf s) (hifSend s.params s.params.groupWifi 0x50 (encSslCreate s.params i) [] 0) (entered i s)
        (.error e) s1 →
      Ends (.opSocket .stream ssl) s (.err .socketInvalid) (changed i (taskOf s) (fun x => x) s1))

/-- Every per-socket operation on an index out of range, or on a slot that is not in use, ends in `ErrSocketInvalid`
before any bus traffic, and changes nothing (R253); the span lent to `Recv` or `RecvFrom` is free afterwards (log 6).
Where a cited rule is a decision of the spec's own (D36, D38, D45), the statement follows it. -/
def Obligations.FreeSlotIsInvalid : Prop :=
  ∀ (s : State) (i : Int) (addr : SockAddr) (deadline : Word) (backlog option : Byte) (b value : Bytes) (buf : Span),
    s.root.live = true → Ready s → s.env.yields = [] →
    (i < 0 ∨ 10 < i ∨ ∃ k : Fin 11, i = k.val ∧ (s.sock.slot k).inUse = false ∧ (s.sock.slot k).lock = .free) →
    (∀ instr : Instr,
      (instr ∈ [.opBind i addr deadline, .opListen i backlog deadline, .opAccept i deadline,
          .opConnect i addr deadline, .opSecure i deadline, .opSendSocket i b deadline, .opSendTo i b addr deadline,
          .opShutdown i] ∨
        s.params.optValid.app (option, value) = .ok ∧ instr = .opSetsockopt i option value) →
      Ends instr s (.err .socketInvalid) (newTask s)) ∧
    (∀ instr ∈ [Instr.opRecv i buf deadline, .opRecvFrom i buf deadline],
      Ends instr s (.err .socketInvalid) (scrambleSpan buf (newTask s)))

/-- Insert before send, then wait: the request goes out with the entry and its waiting reply slot in place; the reply
ends it, and a packet that cannot be sent removes the entry and ends it in the kind's error (R251, R253, R254). A slot
that a `Reset` has freed meanwhile takes no entry (log 22). However the wait ends, the reply slot and the registry
entry are gone; without the deadline's end a reply slot that still waits keeps its waiter, and one that was completed
ends it in `ErrSocketInvalid` (R253, R286, R287). A request on a slot whose registry is empty, as it is for whoever
has just entered it, has its one entry there and leaves the registry empty, however it ends (R36, R287 b and e). The
record of each of the nine requests holds every field little-endian at its offset, where no two fields share a byte; a
`SockAddr` is eight bytes and is read back from them (R63, R109, R110); the layouts and the bits of the SSL flags are
parameters (log 26). Where a cited rule is a decision of the spec's own (D14, D35, D36, D38, D39, D40, D45, D51, D55),
the statement follows it. -/
def Obligations.RequestInsertsSendsAndWaits : Prop :=
  (∀ (id : Nat) (p : Params) (i : Fin 11) (kind : Kind) (pk : Packet) (deadline : Word) (s s1 s2 : State) (v : Val)
      (e : Err),
      s.sock.sidLock = .free → s.env.yields = [] → s.env.fired = false →
      (¬Holds i id s →
        Runs id (request p i kind pk deadline) s (.error .socketInvalid)
          (s.mapSock fun k => { k with sid := k.sid + 1 })) ∧
      (Holds i id s → Runs id (hifSend p pk.group pk.opcode (pk.control (s.sock.sid + 1)) pk.data pk.offset) (requested i kind s)
          (.ok ()) s1 →
        Runs id (Prog.call (.waitReply i s.env.nextMail (deadline != 0))) s1 v s2 →
        Runs id (request p i kind pk deadline) s v.toReply s2) ∧
      (Holds i id s → Runs id (hifSend p pk.group pk.opcode (pk.control (s.sock.sid + 1)) pk.data pk.offset)
          (requested i kind s) (.error e) s1 →
        Runs id (request p i kind pk deadline) s
          (.error (if kind = .send then .socketBufferFull else .socketInvalid))
          (s1.mapSock fun k => k.dropReply i s.env.nextMail))) ∧
  (∀ (ag : Agent) (i : Fin 11) (m : Nat) (bounded : Bool) (s : State),
    (∀ v t, perform (.waitReply i m bounded) ag s = (some v, t) →
      mailGet t.sock.mail m = none ∧ (∀ e ∈ (t.sock.slot i).replies, e.mail ≠ m)) ∧
    (mailGet s.sock.mail m = some .waiting → (bounded = false ∨ s.env.fired = false) →
      perform (.waitReply i m bounded) ag s = (none, s)) ∧
    (∀ r, mailGet s.sock.mail m = some (.filled r) →
      (perform (.waitReply i m bounded) ag s).1 = some (.reply (.ok r))) ∧
    (mailGet s.sock.mail m = some .waiting → bounded = true → s.env.fired = true →
      (perform (.waitReply i m bounded) ag s).1 = some (.reply (.error .socketTimeout))) ∧
    (mailGet s.sock.mail m = some .abandoned →
      (perform (.waitReply i m bounded) ag s).1 = some (.reply (.error .socketInvalid)))) ∧
  (∀ (id : Nat) (p : Params) (i : Fin 11) (kind : Kind) (pk : Packet) (deadline : Word) (s t : State)
      (r : Except Err Reply),
    Holds i id s → (s.sock.slot i).replies = [] →
    ((requested i kind s).sock.slot i).replies = [⟨s.sock.sid + 1, kind, s.env.nextMail⟩] ∧
    (Runs id (request p i kind pk deadline) s r t → (t.sock.slot i).replies = [])) ∧
  (∀ (p : Params) (l : Layout) (fields : List Bytes) (b : Bytes), RequestRecord p l fields b → Apart l fields →
    IsRecord l fields b) ∧
  (∀ (l : AddrLayout) (a : SockAddr), l.dec (l.enc a) = a ∧ AddrBytes l a (l.enc a)) ∧
  (∀ (bits : SslBits) (f : SslFlags) (k : Fin 8),
    (sslByte bits f).getLsbD k.val = true ↔
      f.other.getLsbD k.val = true ∨ f.active = true ∧ k = bits.active ∨ f.bypassVerify = true ∧ k = bits.bypassVerify ∨
        f.cacheSession = true ∧ k = bits.cacheSession ∨ f.delayHandshake = true ∧ k = bits.delayHandshake)

/-- `Bind`, `Listen`, `Connect`, `Secure`, `Send` and `SendTo` as a whole: the packet goes out, the interrupt comes
while the caller waits, the worker's round delivers the reply, and the operation succeeds: the slot is changed as its
rule says, the session id counted on, the reply slot gone, and besides what the round leaves nothing else differs
(R223, R251, R253 to R256, R258 to R261, R270 to R276, R108). Where a cited rule is a decision of the spec's own (D34,
D35, D36, D38, D39, D40, D42, D44, D45, D48, D56, D61, its general knowledge), the statement follows it. -/
def Obligations.SlotRequestsComplete : Prop :=
  ∀ (s : State) (k : Fin 11) (i : Instr) (kind : Kind) (pk : Packet) (rep : Reply) (v : Value) (f : Slot → Slot)
    (inputs : List Input) (a : SendWords) (b : RoundWords) (op : Byte) (record : Bytes) (ev : List BusEvent) (rec : RxRecord)
    (rest : List (Option Byte)),
    SlotReady k s → Awaiting s inputs → s.sock.sidLock = .free → (s.sock.slot k).replies = [] →
    (∀ e ∈ s.sock.mail, e.1 < s.env.nextMail) → SlotRequest s k i kind pk rep v f →
    GoodSend s.params (pk.control (s.sock.sid + 1)) pk.data pk.offset a → GoodRound s.params record b →
    replyRecord (op &&& 0x7F) = some (kind, rec) → record.length = recSize s.params rec →
    decRec s.params rec record = rep →
    (replyKey rep).1.toInt = k.val → ((replyKey rep).2 = none ∨ (replyKey rep).2 = some (s.sock.sid + 1)) →
    Answers s
      (sendAccesses s.params pk.group pk.opcode (pk.control (s.sock.sid + 1)) pk.data pk.offset a ++
        roundAccesses s.params op record b) ev rest →
    ∃ t, exec i s = .next t ∧
      Returned (roundDone op rep b inputs ((numbered k (newTask s)).mapSock fun q => q.setSlot k f)) (taskOf s) (.ok v)
        ev rest t

/-- `Setsockopt`, `Shutdown`, `GetHostByName`, `Hif.Init` and `Initialize` as a whole, before a device that answers:
what each changes and that nothing else differs (R183, R201 to R205, R264, R265, R266, R280, R285; the optional
write-back of transport init is log 17, the elements `Initialize` keeps are log 22). Where a cited rule is a decision
of the spec's own (D19, D41, D45, D50, D57, D58, D59, D61), the statement follows it. -/
def Obligations.SessionCallsComplete : Prop :=
  (∀ (s : State) (k : Fin 11) (option : Byte) (value : Bytes) (ev : List BusEvent) (a : SendWords) (rest : List (Option Byte)),
      SlotReady k s → SessionReady s → s.hif.awake = false → s.sock.sidLock = .free →
      s.params.optValid.app (option, value) = .ok →
      GoodSend s.params (encSetSockOpt s.params k option value (s.sock.sid + 1)) [] 0 a →
      Answers s
        (sendAccesses s.params groupIp (opcodeFor (s.sock.slot k) 0x4F 0x51)
          (encSetSockOpt s.params k option value (s.sock.sid + 1)) [] 0 a) ev rest →
      ∃ t, exec (.opSetsockopt k.val option value) s = .next t ∧
        Returned
          ((newTask s).mapSock fun q =>
            { (q.setSlot k fun x => { x with sid := s.sock.sid + 1 }) with sid := s.sock.sid + 1 })
          (taskOf s) (.ok .unit) ev rest t) ∧
  (∀ (s : State) (k : Fin 11) (ev : List BusEvent) (a : SendWords) (rest : List (Option Byte)),
      SlotReady k s → SessionReady s → s.hif.awake = false → s.sock.sidLock = .free → (s.sock.slot k).replies = [] →
      (s.sock.slot k).acceptWaiters = [] → GoodSend s.params (encClose s.params k (s.sock.sid + 1)) [] 0 a →
      Answers s
        (sendAccesses s.params groupIp (opcodeFor (s.sock.slot k) 0x49 0x4E) (encClose s.params k (s.sock.sid + 1)) [] 0
          a) ev rest →
      ∃ t, exec (.opShutdown k.val) s = .next t ∧
        Returned
          ((newTask s).mapSock fun q =>
            { (q.setSlot k fun x =>
                { x with
                  inUse := false, desc := 0xFF, ssl := .empty, rxRem := 0, acceptq := none, state := .free }) with
              sid := s.sock.sid + 1 })
          (taskOf s) (.ok .unit) ev rest t) ∧
  (∀ (s : State) (name got record : Bytes) (ev : List BusEvent) (ip deadline : Word) (inputs : List Input) (a : SendWords)
      (b : RoundWords) (op : Byte) (rest : List (Option Byte)),
      s.root.live = true → Awaiting s inputs → s.sock.dnsReply = none → (∀ e ∈ s.sock.mail, e.1 < s.env.nextMail) →
      GoodSend s.params (encDns s.params name) [] 0 a → GoodRound s.params record b → op &&& 0x7F = 0x4A →
      record.length = recSize s.params .dnsReply → decRec s.params .dnsReply record = .dns got ip →
      Answers s
        (sendAccesses s.params groupIp 0x4A (encDns s.params name) [] 0 a ++ roundAccesses s.params op record b) ev
        rest →
      ∃ t, exec (.opGetHostByName name deadline) s = .next t ∧
        Returned
          (roundDone op (.dns got ip) b inputs ((newTask s).mapEnv fun e => { e with nextMail := s.env.nextMail + 1 }))
          (taskOf s) (.ok (.word ip)) ev rest t) ∧
  (∀ (s : State) (chip efuse pinMux enable config : Word) (ev : List BusEvent) (rest : List (Option Byte)),
      (s.hif.state = .uninitialized ∨ s.hif.state = .shutdown) → initializing s = false → BusReady s →
      BootsAtOnce s chip efuse pinMux enable config ev rest →
      ∃ t, exec .opHifInit s = .next t ∧
        Returned
          (((newTask s).mapFr fun f => { f with crcEn := false }).mapHif fun h => { h with state := .ready })
          (taskOf s) (.ok .unit) ev rest t) ∧
  (∀ (s : State) (chip efuse pinMux enable config : Word) (ev : List BusEvent) (rest : List (Option Byte)),
    s.root.live = false → s.hif.state ≠ .bootstrapping → initializing s = false → Quiet s → s.env.yields = [] →
    s.fr.pktLimit ∈ legalLimits →
    BootsAtOnce s chip efuse pinMux enable config ev rest →
    ∃ t, exec .opInitialize s = .next t ∧
      Returned
        (((((resetAll (newTask s)).mapFr fun f => { f with crcEn := false }).mapHif fun h =>
            { h with state := .ready, cb := h.cb.set 1 (some .socket) }).mapIrq fun q =>
              { q with wseq := .wait, irqPrev := s.env.pin, intrEn := true }).mapRoot fun r => { r with live := true })
        (taskOf s) (.ok .unit) ev rest t)

/-- `Bind` and `Listen`: the packet of their opcode is sent; a reply of status 0 moves the slot to `Bound` or
`Listening`, any other status is the device's error and leaves the state; the slot lock is released (R254, R255, R256,
R108). The slot is the caller's still: a `Reset` in between is log 22. Where a cited rule is a decision of the spec's
own (D39, D40), the statement follows it. -/
def Obligations.BindAndListen : Prop :=
  ∀ (s s1 : State) (k : Fin 11) (addr : SockAddr) (backlog : Byte) (deadline : Word) (sock st : BitVec 8)
    (sid : Option Half), SlotReady k s →
    (Runs (taskOf s)
        (request s.params k .bind
          ⟨groupIp, opcodeFor (s.sock.slot k) 0x41 0x54, encBind s.params addr k, [], 0⟩ deadline)
        (entered k s) (.ok (.status sock st sid)) s1 →
      if st = 0 then
        Holds k (taskOf s) s1 →
          Ends (.opBind k.val addr deadline) s (.ok .unit) (changed k (taskOf s) (fun x => { x with state := .bound }) s1)
      else
        Ends (.opBind k.val addr deadline) s (.err (.socketError st.toInt)) (changed k (taskOf s) (fun x => x) s1)) ∧
    (Runs (taskOf s)
        (request s.params k .listen ⟨groupIp, 0x42, encListen s.params k backlog, [], 0⟩ deadline)
        (entered k s) (.ok (.status sock st sid)) s1 →
      if st = 0 then
        Holds k (taskOf s) s1 →
          Ends (.opListen k.val backlog deadline) s (.ok .unit)
            (changed k (taskOf s) (fun x => { x with state := .listening }) s1)
      else
        Ends (.opListen k.val backlog deadline) s (.err (.socketError st.toInt))
          (changed k (taskOf s) (fun x => x) s1))

/-- `Connect` and `Secure`: on `Error = 0` the offset is `ExtraData - 8`, and the slot is `Connected`, or its
handshake is no longer deferred; another error is the device's; an `ExtraData` below 8 is `ErrSocketInvalid`; `Secure`
on a slot that deferred no handshake is `ErrSocketInvalidArg` without bus traffic (R254, R258, R259, R108). The slot
is the caller's still: a `Reset` in between is log 22. Where a cited rule is a decision of the spec's own (D39, D40,
D56, D61, its general knowledge), the statement follows it. -/
def Obligations.ConnectAndSecure : Prop :=
  ∀ (s s1 : State) (k : Fin 11) (addr : SockAddr) (deadline : Word) (sock err : BitVec 8) (extra : Half)
    (sid : Option Half), SlotReady k s →
    (Runs (taskOf s)
        (request s.params k .connect
          ⟨groupIp, opcodeFor (s.sock.slot k) 0x44 0x4B, encConnect s.params addr k (s.sock.slot k).ssl, [], 0⟩
          deadline)
        (entered k s) (.ok (.connect sock err extra sid)) s1 →
      if err ≠ 0 then
        Ends (.opConnect k.val addr deadline) s (.err (.socketError err.toInt)) (changed k (taskOf s) (fun x => x) s1)
      else if extra.toNat < 8 then
        Ends (.opConnect k.val addr deadline) s (.err .socketInvalid) (changed k (taskOf s) (fun x => x) s1)
      else
        Holds k (taskOf s) s1 →
          Ends (.opConnect k.val addr deadline) s (.ok .unit)
            (changed k (taskOf s) (fun x => { x with txOffset := extra - 8, state := .connected }) s1)) ∧
    (¬((s.sock.slot k).ssl.active = true ∧ (s.sock.slot k).ssl.delayHandshake = true) →
      Ends (.opSecure k.val deadline) s (.err .socketInvalidArg) (newTask s)) ∧
    ((s.sock.slot k).ssl.active = true → (s.sock.slot k).ssl.delayHandshake = true →
      Runs (taskOf s)
        (request s.params k .connect
          ⟨groupIp, 0x56, encConnect s.params .zero k (s.sock.slot k).ssl, [], 0⟩ deadline)
        (entered k s) (.ok (.connect sock err extra sid)) s1 →
      if err ≠ 0 then
        Ends (.opSecure k.val deadline) s (.err (.socketError err.toInt)) (changed k (taskOf s) (fun x => x) s1)
      else if extra.toNat < 8 then
        Ends (.opSecure k.val deadline) s (.err .socketInvalid) (changed k (taskOf s) (fun x => x) s1)
      else
        Holds k (taskOf s) s1 →
          Ends (.opSecure k.val deadline) s (.ok .unit)
            (changed k (taskOf s)
              (fun x => { x with ssl := { x.ssl with delayHandshake := false }, txOffset := extra - 8 }) s1))

/-- `Send` and `SendTo`: the buffer is the packet's data, at the slot's offset; a count that is not negative is the
result, a negative one the device's error; the slot keeps its state (R254, R260, R261, R108). Where a cited rule is a
decision of the spec's own (D39, D40, D56), the statement follows it. -/
def Obligations.SendAndSendTo : Prop :=
  ∀ (s s1 : State) (k : Fin 11) (b : Bytes) (addr : SockAddr) (deadline : Word) (sock : BitVec 8) (n : BitVec 16)
    (sid : Option Half) (i : Instr) (op : Byte) (dest : SockAddr), SlotReady k s →
    (i = .opSendSocket k.val b deadline ∧ op = opcodeFor (s.sock.slot k) 0x45 0x4C ∧ dest = .zero ∨
      i = .opSendTo k.val b addr deadline ∧ op = 0x47 ∧ dest = addr) →
    Runs (taskOf s)
      (request s.params k .send
        ⟨groupIp, op, encSend s.params k b.length dest, b, (s.sock.slot k).txOffset.toNat⟩ deadline)
      (entered k s) (.ok (.send sock n sid)) s1 →
    Ends i s (if n.toInt < 0 then .err (.socketError n.toInt) else .ok (.count n.toNat))
      (changed k (taskOf s) (fun x => x) s1)

/-- `Recv` and `RecvFrom` with bytes resident: no request is sent; as many bytes as fit are pulled out of the slot's
window, which moves on by them, and the bytes stand in the caller's span; RX-done is given when the slot's window or
the advertised one is used up. An empty buffer pulls nothing and answers a count of 0 (what is checked and signalled
all the same is log 31). A pull that `Receive` fails, or refuses because the advertised window no longer covers the
bytes: nothing is resident any more, the slot is released, and the call ends in `ErrSocketInvalid` (R78, R218, R254,
R262, R263, R382; the caller's span is then log 6; that the slot is still the caller's is a premise, log 22). Where a
cited rule is a decision of the spec's own (D33, D39, D40, D43, D53, D60), the statement follows it. -/
def Obligations.RecvPullsResidentBytes : Prop :=
  (∀ (s : State) (k : Fin 11) (buf : Span) (deadline w : Word) (d : Bytes) (ev : List BusEvent) (rest : List (Option Byte)),
    SlotReady k s → BusReady s → Memory.wf s.mem = true →
    let x := s.sock.slot k
    let n := min buf.len x.rxRem.toNat
    x.rxRem ≠ 0 → inWindow s.hif x.rxAddr n → x.rxAddr.toNat < 2 ^ 24 → d.length = n →
    let due :=
      (decide (x.rxAddr.toNat + n = s.hif.rxAddr.toNat + s.hif.rxSize.toNat) || decide (n = x.rxRem.toNat)) &&
        s.hif.rxPend
    Answers s
      ((if d = [] then [] else [.readBlock (x.rxAddr.setWidth 24) d]) ++ rxDoneAccesses s.params due w) ev rest →
    ∀ (i : Instr) (v : Value),
      (i = .opRecv k.val buf deadline ∧ v = .count n ∨ i = .opRecvFrom k.val buf deadline ∧ v = .countFrom n x.rxFrom) →
      ∃ t m, exec i s = .next t ∧
        Returned
          ((((newTask s).setMem m).mapHif fun h => { h with rxPend := h.rxPend && !due }).mapSock fun q =>
            q.setSlot k fun y =>
              { y with rxAddr := y.rxAddr + BitVec.ofNat 32 n, rxRem := y.rxRem - BitVec.ofNat 16 n })
          (taskOf s) (.ok v) ev rest t ∧
        Filled s.mem m ⟨buf.base, n⟩ d) ∧
  (∀ (s s1 : State) (k : Fin 11) (buf : Span) (deadline : Word) (e : Err) (i : Instr), SlotReady k s →
    let x := s.sock.slot k
    let n := min buf.len x.rxRem.toNat
    x.rxRem ≠ 0 → (i = .opRecv k.val buf deadline ∨ i = .opRecvFrom k.val buf deadline) →
    (Runs (taskOf s) (receive s.params x.rxAddr n (decide (n = x.rxRem.toNat)) (some ⟨buf.base, n⟩)) (entered k s)
        (.error e) s1 →
      Holds k (taskOf s) s1 →
      Ends i s (.err .socketInvalid) (scrambleSpan buf (changed k (taskOf s) (fun y => { y with rxRem := 0 }) s1))) ∧
    (¬inWindow s.hif x.rxAddr n →
      Ends i s (.err .socketInvalid)
        (scrambleSpan buf ((newTask s).mapSock fun q => q.setSlot k fun y => { y with rxRem := 0 }))))

/-- `Recv` and `RecvFrom` with nothing resident ask the device: a negative count is its error, a count of 0 pulls
nothing, and a positive one goes on to the pull, whose failure is theirs (R254, R262, R263; the caller's span after an
error is log 6). The sender that `RecvFrom` answers beside a count of 0 is the one last recorded with the slot: the
model's choice, log 31. Where a cited rule is a decision of the spec's own (D39, D40, D43, D53), the statement follows
it. -/
def Obligations.RecvAsksTheDevice : Prop :=
  ∀ (s s1 s2 : State) (k : Fin 11) (buf : Span) (deadline : Word) (sock : BitVec 8) (n : BitVec 16) (addr : SockAddr)
    (off : Half) (sid : Option Half) (m : Nat) (sender : SockAddr) (i : Instr) (op : Byte)
    (v : Nat → SockAddr → Value) (e : Err), SlotReady k s → (s.sock.slot k).rxRem = 0 →
    (i = .opRecv k.val buf deadline ∧ op = opcodeFor (s.sock.slot k) 0x46 0x4D ∧ v = (fun c _ => .count c) ∨
      i = .opRecvFrom k.val buf deadline ∧ op = 0x48 ∧ v = fun c a => .countFrom c a) →
    Runs (taskOf s)
      (request s.params k .recv
        ⟨groupIp, op, encRecv s.params (s.params.deadlineToDevice.app deadline) k, [], 0⟩ deadline)
      (entered k s) (.ok (.recv addr n off sock sid)) s1 →
    (n = 0 → Ends i s (.ok (v 0 (s1.sock.slot k).rxFrom)) (changed k (taskOf s) (fun x => x) s1)) ∧
    (0 < n.toInt → Runs (taskOf s) (pullWindow s.params k buf) s1 (.ok (m, sender)) s2 →
      Ends i s (.ok (v m sender)) (changed k (taskOf s) (fun x => x) s2)) ∧
    (0 < n.toInt → Runs (taskOf s) (pullWindow s.params k buf) s1 (.error e) s2 →
      Ends i s (.err e) (scrambleSpan buf (changed k (taskOf s) (fun x => x) s2))) ∧
    (n.toInt < 0 →
      Ends i s (.err (.socketError n.toInt)) (scrambleSpan buf (changed k (taskOf s) (fun x => x) s1)))

/-- `Accept` of a record that is there: it is taken, and its descriptor and address are the result; a negative
descriptor is the device's error; nothing is sent and nothing else changes, whether the slot lock is held during the
wait or not. On a datagram slot, or an index that is no slot's, it ends in `ErrSocketInvalid` whatever the slot holds.
Where no record is there it waits, holding the slot lock or not, and its deadline, where it has one, ends it in
`ErrSocketTimeout` (R257; log 30; how a waiting task and its waiter are recorded is logs 22 and 23). Where a cited
rule is a decision of the spec's own (D42), the statement follows it. -/
def Obligations.AcceptTakesTheRecord : Prop :=
  (∀ (s : State) (i : Int) (deadline : Word), s.root.live = true → Ready s → (i < 0 ∨ 6 < i) →
    Ends (.opAccept i deadline) s (.err .socketInvalid) (newTask s)) ∧
  (∀ (s : State) (k : Fin 11) (deadline : Word), SlotReady k s → StateOk s → k.val ≤ 6 →
    (s.sock.slot k).acceptq = none → s.env.inbox = [] →
    let m := s.env.nextMail
    ∃ log, exec (.opAccept k.val deadline) s =
        .next (waiting (taskOf s) (.opAccept k.val deadline) log
          (((newTask s).mapSock fun q =>
            { (q.setSlot k fun x =>
                { x with
                  acceptWaiters := x.acceptWaiters ++ [m]
                  lock := if s.params.acceptHoldsSlotLock then .held (.caller (taskOf s)) else .free }) with
              mail := q.mail ++ [(m, .waiting)] }).mapEnv fun e => { e with nextMail := m + 1 })) ∧
      ∀ (v : State) (id : Nat), v.params = s.params → deadline ≠ 0 → nextInput v = some (.expire id) →
        findTask id v = some ⟨id, .opAccept k.val deadline, log⟩ → v.env.yields = [] →
        (v.sock.slot k).acceptq = none → mailGet v.sock.mail m = some .waiting →
        step v = .next (returnToCaller id (.err .socketTimeout) ((dropExpiry (resumed id v)).mapSock fun q =>
          { (q.setSlot k fun x =>
              { x with
                acceptWaiters := x.acceptWaiters.filter fun w => w ≠ m
                lock := if s.params.acceptHoldsSlotLock then x.lock.drop (.caller id) else x.lock }) with
            mail := mailDel q.mail m }))) ∧
  (∀ (s : State) (k : Fin 11) (deadline : Word) (r : AcceptRec), SlotReady k s → StateOk s → k.val ≤ 6 →
    (s.sock.slot k).acceptq = some r →
    Ends (.opAccept k.val deadline) s
      (if r.connDesc.toInt < 0 then .err (.socketError r.connDesc.toInt) else .ok (.accepted r.connDesc.toInt r.addr))
      (((newTask s).mapSock fun q => q.setSlot k fun x =>
          { x with
            acceptq := none
            acceptWaiters := x.acceptWaiters.filter fun w => w ≠ s.env.nextMail }).mapEnv fun e =>
        { e with nextMail := s.env.nextMail + 1 }))

/-- `Setsockopt`: a malformed option is rejected before anything else, whatever the index and the slot (R329); a good
one is sent with a fresh session id and no reply is awaited; a packet that cannot be sent is `ErrSocketInvalid` (R264,
R254, R108). Where a cited rule is a decision of the spec's own (D39, D40, D41), the statement follows it. -/
def Obligations.SetsockoptSendsTheOption : Prop :=
  (∀ (s : State) (i : Int) (option : Byte) (value : Bytes),
    s.root.live = true → Ready s →
    (s.params.optValid.app (option, value) = .badOption →
      Ends (.opSetsockopt i option value) s (.err .invalidParameter) (newTask s)) ∧
    (s.params.optValid.app (option, value) = .badValue →
      Ends (.opSetsockopt i option value) s (.err .socketInvalidArg) (newTask s))) ∧
  (∀ (s s1 : State) (k : Fin 11) (option : Byte) (value : Bytes) (r : Except Err Unit), SlotReady k s →
    s.params.optValid.app (option, value) = .ok → s.sock.sidLock = .free →
    Runs (taskOf s)
      (hifSend s.params groupIp (opcodeFor (s.sock.slot k) 0x4F 0x51)
        (encSetSockOpt s.params k option value (s.sock.sid + 1)) [] 0)
      ((entered k s).mapSock fun q =>
        { (q.setSlot k fun x => { x with sid := s.sock.sid + 1 }) with sid := s.sock.sid + 1 }) r s1 →
    Ends (.opSetsockopt k.val option value) s
      (match r with
        | .ok _ => .ok .unit
        | .error _ => .err .socketInvalid)
      (changed k (taskOf s) (fun x => x) s1))

/-- `Shutdown`: the descriptor is invalid before the close packet goes out; whether it can be sent or not, every
waiter of the slot is completed and the slot is free (R265, R108). The slot is the caller's still, and a reply that
was filled but not yet taken is dropped with its waiter: log 22. Where a cited rule is a decision of the spec's own
(D41, D45), the statement follows it. -/
def Obligations.ShutdownFreesTheSlot : Prop :=
  ∀ (s s1 : State) (k : Fin 11) (r : Except Err Unit), SlotReady k s → s.sock.sidLock = .free →
    Runs (taskOf s)
      (hifSend s.params groupIp (opcodeFor (s.sock.slot k) 0x49 0x4E)
        (encClose s.params k (s.sock.sid + 1)) [] 0)
      ((entered k s).mapSock fun q =>
        { (q.setSlot k fun x => { x with state := .closing, desc := 0xFF }) with sid := s.sock.sid + 1 }) r s1 →
    (s1.sock.slot k).lock = .held (.caller (taskOf s)) →
    ∃ u, Ends (.opShutdown k.val) s
        (match r with
          | .ok _ => .ok .unit
          | .error _ => .err .socketInvalid) u ∧
      u = s1.mapSock (fun _ => u.sock) ∧
      (u.sock.slot k).inUse = false ∧ (u.sock.slot k).desc = 0xFF ∧ (u.sock.slot k).state = .free ∧
      (u.sock.slot k).ssl = .empty ∧ (u.sock.slot k).rxRem = 0 ∧ (u.sock.slot k).replies = [] ∧
      (u.sock.slot k).acceptq = none ∧ (u.sock.slot k).acceptWaiters = [] ∧
      (u.sock.slot k).lock = .free ∧
      (∀ j, j ≠ k → u.sock.slot j = s1.sock.slot j) ∧ u.sock.sid = s1.sock.sid ∧
      (∀ m, (m ∈ (s1.sock.slot k).replies.map (·.mail) ∨ m ∈ (s1.sock.slot k).acceptWaiters) →
        mailGet s1.sock.mail m ≠ none → mailGet u.sock.mail m = some .abandoned)

/-- `GetHostByName`: the name is sent, the one DNS reply slot waited on, and the reply's address is the result. A name
that cannot be sent is `ErrSocketInvalid`, a deadline that passes first `ErrSocketTimeout`, and no waiter is left
then; a second resolution while one is outstanding is refused (R254, R266; an expiry is an input of the waiting task,
log 19). The packet received, opcode number 0x4A, as `Isr` runs it: while the DNS reply slot waits it is filled and
the event offered to the subscribers; a reply that comes late, or unasked, is dropped, and so is a packet too short
for its record, or whose record leaves the RX window, which is read no further; RX-done is given in every case (R211,
R215, R216, R270, R280; log 10 for the row by itself, log 26 for the record's size). Where a cited rule is a decision
of the spec's own (D28, D31, D32, D34, D38, D39, D40, D44, D61), the statement follows it. -/
def Obligations.ResolutionReturnsTheAddress : Prop :=
  (∀ (s s1 s2 : State) (name got : Bytes) (ip deadline : Word) (e : Err) (inputs : List Input),
      s.root.live = true → Ready s → s.env.yields = [] →
      let m := s.env.nextMail
      let asked := ((newTask s).mapSock fun k =>
        { k with dnsReply := some m, mail := k.mail ++ [(m, .waiting)] }).mapEnv fun e => { e with nextMail := m + 1 }
      let forgotten (u : State) := u.mapSock fun k =>
        { k with dnsReply := if k.dnsReply = some m then none else k.dnsReply, mail := mailDel k.mail m }
      (s.sock.dnsReply ≠ none → exec (.opGetHostByName name deadline) s = .refused .dnsBusy) ∧
      (s.sock.dnsReply = none →
        (Runs (taskOf s) (hifSend s.params groupIp 0x4A (encDns s.params name) [] 0) asked (.ok ()) s1 →
          (Runs (taskOf s) (Prog.call (.dnsWait m (deadline != 0))) s1 (.reply (.ok (.dns got ip))) s2 →
            Ends (.opGetHostByName name deadline) s (.ok (.word ip)) s2) ∧
          (deadline ≠ 0 → mailGet s1.sock.mail m = some .waiting → s1.env.inbox = .expire (taskOf s) :: inputs →
            Ends (.opGetHostByName name deadline) s (.err .socketTimeout)
              ((forgotten s1).mapEnv fun e => { e with inbox := inputs }))) ∧
        (Runs (taskOf s) (hifSend s.params groupIp 0x4A (encDns s.params name) [] 0) asked (.error e) s1 →
          Ends (.opGetHostByName name deadline) s (.err .socketInvalid) (forgotten s1)))) ∧
  (∀ (s : State) (i : Instr) (flag : Bool) (length : Half) (b : Bytes) (r base w : Word) (ev : List BusEvent)
    (rest : List (Option Byte)),
    let size := recSize s.params .dnsReply
    let rep := decRec s.params .dnsReply b
    let done := windowOpened base r false (newTask s)
    hifRow groupIp 0x4A (.inbound flag length) = some i → s.hif.cb[groupIp.toNat]'groupIp.isLt = some .socket →
    WorkerReady s → (s.hif.subs.map (·.id)).Nodup → sizeOf12 s.params r ≤ length.toNat + 4 →
    (b.length = size → 8 + size ≤ length.toNat → 8 + size ≤ sizeOf12 s.params r → base.toNat + 8 < 2 ^ 24 →
      Answers s
        (isrAccesses s.params r ++ [.read s.params.regHifRxBase base] ++
          .readBlock ((base + 8).setWidth 24) b :: rxDoneAccesses s.params true w) ev rest →
      (∀ m, s.sock.dnsReply = some m → mailGet s.sock.mail m = some .waiting →
        ∃ t, exec i s = .next t ∧
          Returned
            (workerIdle (offered ⟨groupIp, 0x4A ||| (if flag then 0x80 else 0x00), .reply rep⟩
              (done.mapSock fun k => { k with mail := mailSet k.mail m (.filled rep) })))
            (taskOf s) (.ok .unit) ev rest t) ∧
      ((∀ m, s.sock.dnsReply = some m → mailGet s.sock.mail m ≠ some .waiting) →
        ∃ t, exec i s = .next t ∧ Returned (workerIdle done) (taskOf s) (.ok .unit) ev rest t)) ∧
    (sizeOf12 s.params r ≠ 0 → (length.toNat < 8 + size ∨ sizeOf12 s.params r < 8 + size) →
      Answers s
        (isrAccesses s.params r ++ [.read s.params.regHifRxBase base] ++ rxDoneAccesses s.params true w) ev rest →
      ∃ t, exec i s = .next t ∧ Returned (workerIdle done) (taskOf s) (.ok .unit) ev rest t))

/-- A Recv reply that matches and carries bytes records the slot's receive window and fills its entry. Its record is
read without `done`: RX-done is given there only where the record's end is the window's, and is else still pending
when the callback ends; the callback answers whether `Isr` is to leave it so, which is `RECV_DEFERS_RXDONE` (R218,
R219, R277, R382; log 30). A reply that matches and carries none, or an error, fills its entry and releases the HIF
window; one that nobody waits for releases the HIF window and is dropped (R277, R278). That of the callback alone, as
the worker runs it; and of the packet received, opcode 0x46, 0x4D or 0x48, as `Isr` runs it: a reply taken is offered
to the subscribers, RX-done that the callback left pending is given by `Isr` unless the callback defers it, and a
packet too short for its record, or whose record leaves the window, is read no further and released (R211, R215, R216,
R270; log 10 for the row by itself). Where a cited rule is a decision of the spec's own (D28, D31, D32, D33, D34, D38,
D43, D44, D60), the statement follows it. -/
def Obligations.RecvReplyOpensTheWindow : Prop :=
  (∀ (s : State) (address w : Word) (length : Int) (b : Bytes) (ev : List BusEvent) (rest : List (Option Byte))
    (addr : SockAddr) (n : BitVec 16) (off : Half) (sock : BitVec 8) (sid : Option Half) (taken resident : Bool)
    (k : Sockets),
    let size := recSize s.params .recvReply
    let rep := Reply.recv addr n off sock sid
    let ends := decide (address.toNat + size = s.hif.rxAddr.toNat + s.hif.rxSize.toNat) && s.hif.rxPend
    let due := if resident then ends else s.hif.rxPend
    s.hif.state = .ready → BusReady s → s.env.fired = false → inWindow s.hif address size → address.toNat < 2 ^ 24 →
    b.length = size → (size : Int) ≤ length → decRec s.params .recvReply b = rep →
    RecvOutcome s.sock address addr n off sock sid taken resident k →
    Answers s (.readBlock (address.setWidth 24) b :: rxDoneAccesses s.params due w) ev rest →
    ∃ t, (cbRecv s.params length address).eval workerGo s =
        some ((if taken then some (.reply rep) else none, resident && s.params.recvDefersRxdone), t) ∧
      BusDone ((s.mapHif fun h => { h with rxPend := h.rxPend && !due }).mapSock fun _ => k) t ev rest) ∧
  (∀ (s : State) (i : Instr) (op : Byte) (flag : Bool) (length : Half) (b : Bytes) (r base w : Word)
    (ev : List BusEvent) (rest : List (Option Byte)) (addr : SockAddr) (n : BitVec 16) (off : Half) (sock : BitVec 8)
    (sid : Option Half) (taken resident : Bool) (k : Sockets),
    let size := recSize s.params .recvReply
    let rep := Reply.recv addr n off sock sid
    let given := !resident || decide (8 + size = sizeOf12 s.params r) || !s.params.recvDefersRxdone
    hifRow groupIp op (.inbound flag length) = some i → op ∈ [0x46, 0x4D, 0x48] →
    s.hif.cb[groupIp.toNat]'groupIp.isLt = some .socket → WorkerReady s → (s.hif.subs.map (·.id)).Nodup →
    sizeOf12 s.params r ≤ length.toNat + 4 →
    (b.length = size → 8 + size ≤ length.toNat → 8 + size ≤ sizeOf12 s.params r → base.toNat + 8 < 2 ^ 24 →
      decRec s.params .recvReply b = rep → RecvOutcome s.sock (base + 8) addr n off sock sid taken resident k →
      Answers s
        (isrAccesses s.params r ++ [.read s.params.regHifRxBase base] ++
          .readBlock ((base + 8).setWidth 24) b :: rxDoneAccesses s.params given w) ev rest →
      ∃ t, exec i s = .next t ∧
        Returned
          (workerIdle
            (let u := (windowOpened base r (!given) (newTask s)).mapSock fun _ => k
            if taken then offered ⟨groupIp, op ||| (if flag then 0x80 else 0x00), .reply rep⟩ u else u))
          (taskOf s) (.ok .unit) ev rest t) ∧
    (sizeOf12 s.params r ≠ 0 → (length.toNat < 8 + size ∨ sizeOf12 s.params r < 8 + size) →
      Answers s
        (isrAccesses s.params r ++ [.read s.params.regHifRxBase base] ++ rxDoneAccesses s.params true w) ev rest →
      ∃ t, exec i s = .next t ∧
        Returned (workerIdle (windowOpened base r false (newTask s))) (taskOf s) (.ok .unit) ev rest t))

/-- An inbound connection allocates the slot it names, with its parent's SSL flags and a fresh session id, and queues
the record with the parent; a record with a negative connected descriptor is queued and allocates nothing. An event
that names no slot as its parent but a listening one with room for a record, or a connected slot that is locked, in
use or none, or whose `extra` is below 8, changes nothing and is dropped (R37, R274; that the driver is live, where a
slot is allocated, is a premise: a `Reset` that has come in between is log 22). That of the callback alone, as the
worker runs it; and of the packet received, opcode 0x43, as `Isr` runs it: an event taken is offered to the
subscribers, RX-done is given, and a packet too short for its record, or whose record leaves the window, is read no
further and released (R211, R215, R216, R270; log 10 for the row by itself). Where a cited rule is a decision of the
spec's own (D28, D31, D32, D34, D38, D42, D44, D56), the statement follows it. -/
def Obligations.AcceptEventAllocatesTheSlot : Prop :=
  (∀ (s : State) (address w : Word) (length : Int) (b : Bytes) (ev : List BusEvent) (rest : List (Option Byte))
    (addr : SockAddr) (listenSock connSock : BitVec 8) (extra : Half) (taken : Bool) (k : Sockets),
    let size := recSize s.params .acceptReply
    let rep := Reply.accept addr listenSock connSock extra
    s.hif.state = .ready → BusReady s → s.env.fired = false → inWindow s.hif address size → address.toNat < 2 ^ 24 →
    b.length = size → (size : Int) ≤ length → decRec s.params .acceptReply b = rep →
    AcceptOutcome s addr listenSock connSock extra taken k →
    Answers s (.readBlock (address.setWidth 24) b :: rxDoneAccesses s.params s.hif.rxPend w) ev rest →
    ∃ t, (cbAccept s.params length address).eval workerGo s =
        some ((if taken then some (.reply rep) else none, false), t) ∧
      BusDone ((s.mapHif fun h => { h with rxPend := false }).mapSock fun _ => k) t ev rest) ∧
  (∀ (s : State) (i : Instr) (flag : Bool) (length : Half) (b : Bytes) (r base w : Word) (ev : List BusEvent)
    (rest : List (Option Byte)) (addr : SockAddr) (listenSock connSock : BitVec 8) (extra : Half) (taken : Bool)
    (k : Sockets),
    let size := recSize s.params .acceptReply
    let rep := Reply.accept addr listenSock connSock extra
    hifRow groupIp 0x43 (.inbound flag length) = some i → s.hif.cb[groupIp.toNat]'groupIp.isLt = some .socket →
    WorkerReady s → (s.hif.subs.map (·.id)).Nodup → sizeOf12 s.params r ≤ length.toNat + 4 →
    (b.length = size → 8 + size ≤ length.toNat → 8 + size ≤ sizeOf12 s.params r → base.toNat + 8 < 2 ^ 24 →
      decRec s.params .acceptReply b = rep → AcceptOutcome s addr listenSock connSock extra taken k →
      Answers s
        (isrAccesses s.params r ++ [.read s.params.regHifRxBase base] ++
          .readBlock ((base + 8).setWidth 24) b :: rxDoneAccesses s.params true w) ev rest →
      ∃ t, exec i s = .next t ∧
        Returned
          (workerIdle
            (let u := (windowOpened base r false (newTask s)).mapSock fun _ => k
            if taken then offered ⟨groupIp, 0x43 ||| (if flag then 0x80 else 0x00), .reply rep⟩ u else u))
          (taskOf s) (.ok .unit) ev rest t) ∧
    (sizeOf12 s.params r ≠ 0 → (length.toNat < 8 + size ∨ sizeOf12 s.params r < 8 + size) →
      Answers s
        (isrAccesses s.params r ++ [.read s.params.regHifRxBase base] ++ rxDoneAccesses s.params true w) ev rest →
      ∃ t, exec i s = .next t ∧
        Returned (workerIdle (windowOpened base r false (newTask s))) (taskOf s) (.ok .unit) ev rest t))

/-! ### The driver root -/

/-- `Initialize` that succeeds: from the power-on values (but `PKT_LIMIT`), `Hif.Init` runs; then the socket callback
is registered, the worker waits, the pin's level is taken and the interrupt enabled, and the driver is live. One that
fails in `Hif.Init` ends in its error, and the driver is not live. Where it starts from, every element has its
power-on value, but `PKT_LIMIT`, which is kept, and the elements R46 leaves unspecified (R46, R285; what those hold is
log 22). It starts once every lock is free and no round of the worker is in progress, and waits for that: the model's
choice, log 22. Where a cited rule is a decision of the spec's own (D35, D49, D50), the statement follows it. -/
def Obligations.InitializeBringsTheDriverUp : Prop :=
  (∀ s s1 : State,
      s.root.live = false → s.hif.state ≠ .bootstrapping → initializing s = false → Quiet s → s.env.yields = [] →
      s1.hif.lock = .free →
      Runs (taskOf s) (hifInit s.params) (resetAll (newTask s)) (.ok ()) s1 →
      Ends .opInitialize s (.ok .unit)
        (((s1.mapHif fun h => { h with cb := h.cb.set 1 (some .socket) }).mapIrq fun q =>
            { q with wseq := .wait, irqPrev := s1.env.pin, intrEn := true }).mapRoot fun r => { r with live := true })) ∧
  (∀ (s s1 : State) (e : Err),
    s.root.live = false → s.hif.state ≠ .bootstrapping → initializing s = false → Quiet s → s.env.yields = [] →
    Runs (taskOf s) (hifInit s.params) (resetAll (newTask s)) (.error e) s1 →
    Ends .opInitialize s (.err e) s1 ∧ s1.root.live = false) ∧
  (∀ s : State, Quiet s →
    let t := resetAll s
    t.fr = { s.fr with crcEn := true } ∧ t.tr.lock = .free ∧ t.tr.seq = .idle ∧
    t.hif = { State.reset.hif with rxAddr := s.hif.rxAddr, rxSize := s.hif.rxSize } ∧ t.irq = State.reset.irq ∧
    (∀ i : Fin 11,
      t.sock.slot i =
        { Slot.free with
          sid := (s.sock.slot i).sid
          txOffset := (s.sock.slot i).txOffset
          rxAddr := (s.sock.slot i).rxAddr
          rxFrom := (s.sock.slot i).rxFrom }) ∧
    t.sock.sid = 0 ∧ t.sock.sidLock = .free ∧ t.sock.dnsReply = none ∧ t.root.live = false ∧ t.mem = s.mem) ∧
  (∀ s : State,
    s.root.live = false → s.hif.state ≠ .bootstrapping → initializing s = false → ¬Quiet s → s.env.inbox = [] →
    exec .opInitialize s = .next (waiting (taskOf s) .opInitialize [] (newTask s)))

/-- `Reset`: interrupt off, worker told to stop, every slot free, every waiter completed, every queue closed and
emptied, no callback, session `shutdown`, driver not live; no bus traffic, no lock touched, `PKT_LIMIT` and `CRC_EN`
kept (R286, R372, R46). That the slots keep `sid`, `tx_offset`, `rx_addr` and `rx_from`, that `RX_ADDR` and `RX_SIZE`
stay, that a worker in the middle of a round finishes it, and that a reply not yet taken is dropped with its waiter,
is log 22. Where a cited rule is a decision of the spec's own (D35, D49, D51), the statement follows it. -/
def Obligations.ResetTearsDown : Prop :=
  ∀ s : State, s.root.live = true → s.hif.state ≠ .bootstrapping → initializing s = false →
    s.env.yields = [] →
    ∃ u, Ends .opReset s (.ok .unit) u ∧
      u.fr = s.fr ∧ u.tr = s.tr ∧ u.mem = s.mem ∧ u.params = s.params ∧ u.env.bus = s.env.bus ∧
      u.irq =
        { s.irq with
          intrEn := false
          stop := true
          go := false
          irqPrev := true
          wseq := if s.irq.wseq = .wait then .stopped else s.irq.wseq } ∧
      u.hif =
        { s.hif with
          state := .shutdown
          awake := false
          rxValid := false
          rxPend := false
          cb := Vector.replicate 256 none
          subs := [] } ∧
      u.env.closed = s.env.closed ++ s.hif.subs.map (fun q => { q with content := none }) ∧
      u.root = { s.root with live := false } ∧ u.sock.sid = 0 ∧ u.sock.sidLock = s.sock.sidLock ∧
      u.sock.dnsReply = none ∧
      (∀ i : Fin 11,
        u.sock.slot i =
          { Slot.free with
            sid := (s.sock.slot i).sid
            txOffset := (s.sock.slot i).txOffset
            rxAddr := (s.sock.slot i).rxAddr
            rxFrom := (s.sock.slot i).rxFrom
            lock := (s.sock.slot i).lock }) ∧
      (∀ m, mailGet s.sock.mail m ≠ none →
        (s.sock.dnsReply = some m ∨
          ∃ i, m ∈ (s.sock.slot i).replies.map (·.mail) ∨ m ∈ (s.sock.slot i).acceptWaiters) →
        mailGet u.sock.mail m = some .abandoned)
end

