-- ==== Sys2Proof/Laws/Memory.lean ====
section
/-!
SUPPORT. The callers' buffers: every memory operation keeps the canonical form; a read after a write to the same
address gives the byte written, and a write leaves every other address alone.
-/

namespace Sys2Proof.Machine

theorem memWfFrom_mono {lo lo' : Nat} (h : lo' ≤ lo) : ∀ m, memWfFrom lo m = true → memWfFrom lo' m = true
  | [], _ => rfl
  | (a, b) :: m, hw => by
    simp only [memWfFrom, Bool.and_eq_true, decide_eq_true_eq] at hw ⊢
    exact ⟨⟨le_trans h hw.1.1, hw.1.2⟩, hw.2⟩

/-- Writing one byte keeps the canonical form. -/
theorem memWfFrom_memWrite (x : Nat) (b : Byte) :
    ∀ (m : List Host.Cell) (lo : Nat), lo ≤ x → memWfFrom lo m = true → memWfFrom lo (memWrite m x b) = true
  | [], lo, hx, _ => by
    unfold memWrite
    split
    · rfl
    · rename_i hb
      simp [memWfFrom, hx, hb]
  | (a, c) :: m, lo, hx, hw => by
    simp only [memWfFrom, Bool.and_eq_true, decide_eq_true_eq] at hw
    obtain ⟨⟨hla, hc⟩, hm⟩ := hw
    unfold memWrite
    split
    · rename_i hxa
      split
      · simp [memWfFrom, hla, hc, hm]
      · rename_i hb
        simp only [memWfFrom, Bool.and_eq_true, decide_eq_true_eq]
        exact ⟨⟨hx, hb⟩, ⟨by omega, hc⟩, hm⟩
    · split
      · rename_i hxa
        subst hxa
        split
        · exact memWfFrom_mono (by omega) m hm
        · rename_i hb
          simp [memWfFrom, hx, hb, hm]
      · rename_i h1 h2
        simp only [memWfFrom, Bool.and_eq_true, decide_eq_true_eq]
        exact ⟨⟨hla, hc⟩, memWfFrom_memWrite x b m (a + 1) (by omega) hm⟩

theorem Memory.wf_memWrite {m : List Host.Cell} (x : Nat) (b : Byte) (h : Memory.wf m = true) :
    Memory.wf (memWrite m x b) = true :=
  memWfFrom_memWrite x b m 0 (Nat.zero_le _) h

/-- Writing a byte string keeps the canonical form. -/
theorem Memory.wf_memWriteBytes :
    ∀ (bs : Bytes) (m : List Host.Cell) (base : Nat), Memory.wf m = true → Memory.wf (memWriteBytes m base bs) = true
  | [], _, _, h => h
  | b :: bs, _, base, h => Memory.wf_memWriteBytes bs _ (base + 1) (Memory.wf_memWrite base b h)

/-- Below the lowest address of a canonical memory every byte is unwritten. -/
theorem memRead_of_lt : ∀ (m : List Host.Cell) (lo x : Nat), memWfFrom lo m = true → x < lo →
    memRead m x = unwrittenByte
  | [], _, _, _, _ => rfl
  | (a, b) :: m, lo, x, hw, hx => by
    simp only [memWfFrom, Bool.and_eq_true, decide_eq_true_eq] at hw
    have : a ≠ x := by omega
    simp only [memRead, this, if_false]
    exact memRead_of_lt m (a + 1) x hw.2 (by omega)

theorem memRead_memWrite_from (x : Nat) (b : Byte) (y : Nat) :
    ∀ (m : List Host.Cell) (lo : Nat), memWfFrom lo m = true →
      memRead (memWrite m x b) y = if y = x then b else memRead m y
  | [], lo, _ => by
    unfold memWrite
    split
    · rename_i hb
      subst hb
      simp [memRead]
    · simp only [memRead, eq_comm]
  | (a, c) :: m, lo, hw => by
    simp only [memWfFrom, Bool.and_eq_true, decide_eq_true_eq] at hw
    obtain ⟨⟨hla, hc⟩, hm⟩ := hw
    unfold memWrite
    split
    · rename_i hxa
      split
      · rename_i hb
        subst hb
        by_cases hy : y = x
        · subst hy
          have h1 : a ≠ y := by omega
          simp only [memRead, h1, if_false, if_true]
          exact memRead_of_lt m (a + 1) y hm (by omega)
        · simp [hy]
      · by_cases hy : y = x
        · subst hy; simp [memRead]
        · have : x ≠ y := fun h => hy h.symm
          simp [memRead, hy, this]
    · split
      · rename_i hxa
        subst hxa
        by_cases hy : y = x
        · subst hy
          split
          · rename_i hb
            subst hb
            simp only [if_true]
            exact memRead_of_lt m (y + 1) y hm (by omega)
          · simp [memRead]
        · have hxy : x ≠ y := fun h => hy h.symm
          split <;> simp [memRead, hxy]
      · rename_i h1 h2
        by_cases hay : a = y
        · subst hay
          have : a ≠ x := fun h => h2 h.symm
          simp [memRead, this]
        · simp only [memRead, hay, if_false]
          exact memRead_memWrite_from x b y m (a + 1) hm

/-- Reading after writing one byte. -/
theorem memRead_memWrite {m : List Host.Cell} (h : Memory.wf m = true) (x : Nat) (b : Byte) (y : Nat) :
    memRead (memWrite m x b) y = if y = x then b else memRead m y :=
  memRead_memWrite_from x b y m 0 h

/-- Writing a byte string leaves every address outside it alone. -/
theorem memRead_memWriteBytes_of_out :
    ∀ (bs : Bytes) (m : List Host.Cell) (base y : Nat), Memory.wf m = true → (y < base ∨ base + bs.length ≤ y) →
      memRead (memWriteBytes m base bs) y = memRead m y
  | [], _, _, _, _, _ => rfl
  | b :: bs, m, base, y, hw, hy => by
    simp only [List.length_cons] at hy
    have hne : y ≠ base := by omega
    rw [memWriteBytes, memRead_memWriteBytes_of_out bs _ (base + 1) y (Memory.wf_memWrite base b hw) (by omega),
      memRead_memWrite hw]
    simp [hne]

/-- Reading back a byte string that was written. -/
theorem memReadBytes_memWriteBytes :
    ∀ (bs : Bytes) (m : List Host.Cell) (base : Nat), Memory.wf m = true →
      memReadBytes (memWriteBytes m base bs) base bs.length = bs
  | [], _, _, _ => rfl
  | b :: bs, m, base, hw => by
    have hw' := Memory.wf_memWrite base b hw
    simp only [memWriteBytes, List.length_cons, memReadBytes]
    rw [memRead_memWriteBytes_of_out bs _ (base + 1) base hw' (by omega), memRead_memWrite hw,
      memReadBytes_memWriteBytes bs _ (base + 1) hw']
    simp

@[simp] theorem memReadBytes_length (m : List Host.Cell) : ∀ (n base : Nat), (memReadBytes m base n).length = n
  | 0, _ => rfl
  | n + 1, base => by simp [memReadBytes, memReadBytes_length m n (base + 1)]

/-- The first bytes of a span. -/
theorem memReadBytes_take (m : List Host.Cell) :
    ∀ (k n base : Nat), memReadBytes m base (min k n) = (memReadBytes m base n).take k
  | 0, n, base => by simp [memReadBytes]
  | k + 1, 0, base => rfl
  | k + 1, n + 1, base => by
    rw [Nat.add_min_add_right]
    simp [memReadBytes, memReadBytes_take m k n (base + 1)]

/-- A span without its first bytes. -/
theorem memReadBytes_drop (m : List Host.Cell) :
    ∀ (k n base : Nat), memReadBytes m (base + k) (n - k) = (memReadBytes m base n).drop k
  | 0, n, base => rfl
  | k + 1, 0, base => by simp [memReadBytes]
  | k + 1, n + 1, base => by
    have := memReadBytes_drop m k n (base + 1)
    simpa [memReadBytes, Nat.add_assoc, Nat.add_comm 1 k] using this

end Sys2Proof.Machine
end

