-- ==== Sys2Proof/Laws/State.lean ====
section
/-!
SUPPORT. One lemma per field per update of the state, and the same for the socket table, so that no proof unfolds a
record update.
-/

namespace Sys2Proof.Machine

/-! ### Updates of one unit -/

@[simp] theorem State.mapFr_fr (s : State) (f : Framer → Framer) : (s.mapFr f).fr = f s.fr := rfl
@[simp] theorem State.mapFr_tr (s : State) (f : Framer → Framer) : (s.mapFr f).tr = s.tr := rfl
@[simp] theorem State.mapFr_hif (s : State) (f : Framer → Framer) : (s.mapFr f).hif = s.hif := rfl
@[simp] theorem State.mapFr_irq (s : State) (f : Framer → Framer) : (s.mapFr f).irq = s.irq := rfl
@[simp] theorem State.mapFr_sock (s : State) (f : Framer → Framer) : (s.mapFr f).sock = s.sock := rfl
@[simp] theorem State.mapFr_root (s : State) (f : Framer → Framer) : (s.mapFr f).root = s.root := rfl
@[simp] theorem State.mapFr_mem (s : State) (f : Framer → Framer) : (s.mapFr f).mem = s.mem := rfl
@[simp] theorem State.mapFr_params (s : State) (f : Framer → Framer) : (s.mapFr f).params = s.params := rfl
@[simp] theorem State.mapFr_env (s : State) (f : Framer → Framer) : (s.mapFr f).env = s.env := rfl

@[simp] theorem State.mapTr_fr (s : State) (f : Transport → Transport) : (s.mapTr f).fr = s.fr := rfl
@[simp] theorem State.mapTr_tr (s : State) (f : Transport → Transport) : (s.mapTr f).tr = f s.tr := rfl
@[simp] theorem State.mapTr_hif (s : State) (f : Transport → Transport) : (s.mapTr f).hif = s.hif := rfl
@[simp] theorem State.mapTr_irq (s : State) (f : Transport → Transport) : (s.mapTr f).irq = s.irq := rfl
@[simp] theorem State.mapTr_sock (s : State) (f : Transport → Transport) : (s.mapTr f).sock = s.sock := rfl
@[simp] theorem State.mapTr_root (s : State) (f : Transport → Transport) : (s.mapTr f).root = s.root := rfl
@[simp] theorem State.mapTr_mem (s : State) (f : Transport → Transport) : (s.mapTr f).mem = s.mem := rfl
@[simp] theorem State.mapTr_params (s : State) (f : Transport → Transport) : (s.mapTr f).params = s.params := rfl
@[simp] theorem State.mapTr_env (s : State) (f : Transport → Transport) : (s.mapTr f).env = s.env := rfl

@[simp] theorem State.mapHif_fr (s : State) (f : Hif → Hif) : (s.mapHif f).fr = s.fr := rfl
@[simp] theorem State.mapHif_tr (s : State) (f : Hif → Hif) : (s.mapHif f).tr = s.tr := rfl
@[simp] theorem State.mapHif_hif (s : State) (f : Hif → Hif) : (s.mapHif f).hif = f s.hif := rfl
@[simp] theorem State.mapHif_irq (s : State) (f : Hif → Hif) : (s.mapHif f).irq = s.irq := rfl
@[simp] theorem State.mapHif_sock (s : State) (f : Hif → Hif) : (s.mapHif f).sock = s.sock := rfl
@[simp] theorem State.mapHif_root (s : State) (f : Hif → Hif) : (s.mapHif f).root = s.root := rfl
@[simp] theorem State.mapHif_mem (s : State) (f : Hif → Hif) : (s.mapHif f).mem = s.mem := rfl
@[simp] theorem State.mapHif_params (s : State) (f : Hif → Hif) : (s.mapHif f).params = s.params := rfl
@[simp] theorem State.mapHif_env (s : State) (f : Hif → Hif) : (s.mapHif f).env = s.env := rfl

@[simp] theorem State.mapIrq_fr (s : State) (f : Irq → Irq) : (s.mapIrq f).fr = s.fr := rfl
@[simp] theorem State.mapIrq_tr (s : State) (f : Irq → Irq) : (s.mapIrq f).tr = s.tr := rfl
@[simp] theorem State.mapIrq_hif (s : State) (f : Irq → Irq) : (s.mapIrq f).hif = s.hif := rfl
@[simp] theorem State.mapIrq_irq (s : State) (f : Irq → Irq) : (s.mapIrq f).irq = f s.irq := rfl
@[simp] theorem State.mapIrq_sock (s : State) (f : Irq → Irq) : (s.mapIrq f).sock = s.sock := rfl
@[simp] theorem State.mapIrq_root (s : State) (f : Irq → Irq) : (s.mapIrq f).root = s.root := rfl
@[simp] theorem State.mapIrq_mem (s : State) (f : Irq → Irq) : (s.mapIrq f).mem = s.mem := rfl
@[simp] theorem State.mapIrq_params (s : State) (f : Irq → Irq) : (s.mapIrq f).params = s.params := rfl
@[simp] theorem State.mapIrq_env (s : State) (f : Irq → Irq) : (s.mapIrq f).env = s.env := rfl

@[simp] theorem State.mapSock_fr (s : State) (f : Sockets → Sockets) : (s.mapSock f).fr = s.fr := rfl
@[simp] theorem State.mapSock_tr (s : State) (f : Sockets → Sockets) : (s.mapSock f).tr = s.tr := rfl
@[simp] theorem State.mapSock_hif (s : State) (f : Sockets → Sockets) : (s.mapSock f).hif = s.hif := rfl
@[simp] theorem State.mapSock_irq (s : State) (f : Sockets → Sockets) : (s.mapSock f).irq = s.irq := rfl
@[simp] theorem State.mapSock_sock (s : State) (f : Sockets → Sockets) : (s.mapSock f).sock = f s.sock := rfl
@[simp] theorem State.mapSock_root (s : State) (f : Sockets → Sockets) : (s.mapSock f).root = s.root := rfl
@[simp] theorem State.mapSock_mem (s : State) (f : Sockets → Sockets) : (s.mapSock f).mem = s.mem := rfl
@[simp] theorem State.mapSock_params (s : State) (f : Sockets → Sockets) : (s.mapSock f).params = s.params := rfl
@[simp] theorem State.mapSock_env (s : State) (f : Sockets → Sockets) : (s.mapSock f).env = s.env := rfl

@[simp] theorem State.mapRoot_fr (s : State) (f : Root → Root) : (s.mapRoot f).fr = s.fr := rfl
@[simp] theorem State.mapRoot_tr (s : State) (f : Root → Root) : (s.mapRoot f).tr = s.tr := rfl
@[simp] theorem State.mapRoot_hif (s : State) (f : Root → Root) : (s.mapRoot f).hif = s.hif := rfl
@[simp] theorem State.mapRoot_irq (s : State) (f : Root → Root) : (s.mapRoot f).irq = s.irq := rfl
@[simp] theorem State.mapRoot_sock (s : State) (f : Root → Root) : (s.mapRoot f).sock = s.sock := rfl
@[simp] theorem State.mapRoot_root (s : State) (f : Root → Root) : (s.mapRoot f).root = f s.root := rfl
@[simp] theorem State.mapRoot_mem (s : State) (f : Root → Root) : (s.mapRoot f).mem = s.mem := rfl
@[simp] theorem State.mapRoot_params (s : State) (f : Root → Root) : (s.mapRoot f).params = s.params := rfl
@[simp] theorem State.mapRoot_env (s : State) (f : Root → Root) : (s.mapRoot f).env = s.env := rfl

@[simp] theorem State.mapEnv_fr (s : State) (f : Env → Env) : (s.mapEnv f).fr = s.fr := rfl
@[simp] theorem State.mapEnv_tr (s : State) (f : Env → Env) : (s.mapEnv f).tr = s.tr := rfl
@[simp] theorem State.mapEnv_hif (s : State) (f : Env → Env) : (s.mapEnv f).hif = s.hif := rfl
@[simp] theorem State.mapEnv_irq (s : State) (f : Env → Env) : (s.mapEnv f).irq = s.irq := rfl
@[simp] theorem State.mapEnv_sock (s : State) (f : Env → Env) : (s.mapEnv f).sock = s.sock := rfl
@[simp] theorem State.mapEnv_root (s : State) (f : Env → Env) : (s.mapEnv f).root = s.root := rfl
@[simp] theorem State.mapEnv_mem (s : State) (f : Env → Env) : (s.mapEnv f).mem = s.mem := rfl
@[simp] theorem State.mapEnv_params (s : State) (f : Env → Env) : (s.mapEnv f).params = s.params := rfl
@[simp] theorem State.mapEnv_env (s : State) (f : Env → Env) : (s.mapEnv f).env = f s.env := rfl

@[simp] theorem State.setMem_fr (s : State) (m : List Host.Cell) : (s.setMem m).fr = s.fr := rfl
@[simp] theorem State.setMem_tr (s : State) (m : List Host.Cell) : (s.setMem m).tr = s.tr := rfl
@[simp] theorem State.setMem_hif (s : State) (m : List Host.Cell) : (s.setMem m).hif = s.hif := rfl
@[simp] theorem State.setMem_irq (s : State) (m : List Host.Cell) : (s.setMem m).irq = s.irq := rfl
@[simp] theorem State.setMem_sock (s : State) (m : List Host.Cell) : (s.setMem m).sock = s.sock := rfl
@[simp] theorem State.setMem_root (s : State) (m : List Host.Cell) : (s.setMem m).root = s.root := rfl
@[simp] theorem State.setMem_mem (s : State) (m : List Host.Cell) : (s.setMem m).mem = m := rfl
@[simp] theorem State.setMem_params (s : State) (m : List Host.Cell) : (s.setMem m).params = s.params := rfl
@[simp] theorem State.setMem_env (s : State) (m : List Host.Cell) : (s.setMem m).env = s.env := rfl

/-! ### The socket table -/

/-- A changed slot holds the changed value. -/
@[simp] theorem Sockets.slot_setSlot_self (k : Sockets) (i : Fin 11) (f : Slot → Slot) :
    (k.setSlot i f).slot i = f (k.slot i) := by
  simp [Sockets.setSlot, Sockets.slot]

/-- Every other slot is as before. -/
theorem Sockets.slot_setSlot_ne (k : Sockets) {i j : Fin 11} (f : Slot → Slot) (h : j ≠ i) :
    (k.setSlot i f).slot j = k.slot j := by
  have : i.val ≠ j.val := fun e => h (Fin.ext e.symm)
  simp [Sockets.setSlot, Sockets.slot, this]

/-- A slot of a changed table. -/
theorem Sockets.slot_setSlot (k : Sockets) (i j : Fin 11) (f : Slot → Slot) :
    (k.setSlot i f).slot j = if j = i then f (k.slot i) else k.slot j := by
  by_cases h : j = i
  · subst h; simp
  · simp [h, Sockets.slot_setSlot_ne k f h]

@[simp] theorem Sockets.setSlot_mail (k : Sockets) (i : Fin 11) (f : Slot → Slot) :
    (k.setSlot i f).mail = k.mail := rfl
@[simp] theorem Sockets.setSlot_sid (k : Sockets) (i : Fin 11) (f : Slot → Slot) :
    (k.setSlot i f).sid = k.sid := rfl
@[simp] theorem Sockets.setSlot_sidLock (k : Sockets) (i : Fin 11) (f : Slot → Slot) :
    (k.setSlot i f).sidLock = k.sidLock := rfl
@[simp] theorem Sockets.setSlot_dnsReply (k : Sockets) (i : Fin 11) (f : Slot → Slot) :
    (k.setSlot i f).dnsReply = k.dnsReply := rfl

/-- A slot after the reply slots were replaced. -/
@[simp] theorem Sockets.slot_withMail (k : Sockets) (m : List (Nat × Mail)) (i : Fin 11) :
    Sockets.slot { k with mail := m } i = k.slot i := rfl

/-- A slot after the session-id counter moved. -/
@[simp] theorem Sockets.slot_withSid (k : Sockets) (v : Half) (i : Fin 11) :
    Sockets.slot { k with sid := v } i = k.slot i := rfl

/-- Two tables with the same slots, reply slots, counter, lock and DNS waiter are the same. -/
theorem Sockets.ext_slots {k l : Sockets} (hs : ∀ i, k.slot i = l.slot i) (hm : k.mail = l.mail) (hi : k.sid = l.sid)
    (hl : k.sidLock = l.sidLock) (hd : k.dnsReply = l.dnsReply) : k = l := by
  obtain ⟨ks, km, ki, kl, kd⟩ := k
  obtain ⟨ls, lm, li, ll, ld⟩ := l
  simp only at hm hi hl hd
  subst hm hi hl hd
  congr 1
  ext1 i hi
  exact hs ⟨i, hi⟩

end Sys2Proof.Machine
end

