-- ==== Sys2Proof/Laws/Bus.lean ====
section
/-!
SUPPORT. The bus primitives and bus steps: what they can change, said once, and what they answer when the device's
script says what it answers.
-/

namespace Sys2Proof.Machine

/-- Two states that differ in the bus record and the device's script at most. -/
structure BusOnly (s t : State) : Prop where
  fr : t.fr = s.fr
  tr : t.tr = s.tr
  hif : t.hif = s.hif
  irq : t.irq = s.irq
  sock : t.sock = s.sock
  root : t.root = s.root
  mem : t.mem = s.mem
  params : t.params = s.params
  env : t.env = { s.env with miso := t.env.miso, xferIx := t.env.xferIx, bus := t.env.bus }

theorem BusOnly.refl (s : State) : BusOnly s s := ⟨rfl, rfl, rfl, rfl, rfl, rfl, rfl, rfl, rfl⟩

theorem BusOnly.trans {s t u : State} (h : BusOnly s t) (h' : BusOnly t u) : BusOnly s u :=
  ⟨h'.fr.trans h.fr, h'.tr.trans h.tr, h'.hif.trans h.hif, h'.irq.trans h.irq, h'.sock.trans h.sock,
    h'.root.trans h.root, h'.mem.trans h.mem, h'.params.trans h.params, by rw [h'.env, h.env]⟩

theorem xfer_busOnly (b : Byte) (s : State) : BusOnly s (xfer b s).2 :=
  ⟨rfl, rfl, rfl, rfl, rfl, rfl, rfl, rfl, rfl⟩

theorem chipSelect_busOnly (on : Bool) (s : State) : BusOnly s (chipSelect on s) :=
  ⟨rfl, rfl, rfl, rfl, rfl, rfl, rfl, rfl, rfl⟩

theorem passDelay_busOnly (d : Delay) (s : State) : BusOnly s (passDelay d s) :=
  ⟨rfl, rfl, rfl, rfl, rfl, rfl, rfl, rfl, rfl⟩

theorem xferBuf_busOnly : ∀ (tx : Bytes) (s : State), BusOnly s (xferBuf tx s).2
  | [], s => BusOnly.refl s
  | b :: bs, s => by
    have h1 := xfer_busOnly b s
    unfold xferBuf
    split
    · rename_i s1 h; rw [h] at h1; exact h1
    · rename_i r s1 h
      rw [h] at h1
      have h2 := xferBuf_busOnly bs s1
      split
      · rename_i s2 h'; rw [h'] at h2; exact h1.trans h2
      · rename_i rs s2 h'; rw [h'] at h2; exact h1.trans h2

theorem busStep_busOnly (tx : Bytes) (s : State) : BusOnly s (busStep tx s).2 :=
  ((chipSelect_busOnly true s).trans (xferBuf_busOnly tx _)).trans (chipSelect_busOnly false _)

theorem scanTag_busOnly : ∀ (n : Nat) (s : State), BusOnly s (scanTag n s).2
  | 0, s => BusOnly.refl s
  | n + 1, s => by
    have h1 := xfer_busOnly 0x00 s
    unfold scanTag
    split
    · rename_i s1 h; rw [h] at h1; exact h1
    · rename_i b s1 h
      rw [h] at h1
      split
      · exact h1
      · exact h1.trans (scanTag_busOnly n s1)

/-- What came back has the length of what was sent. -/
theorem xferBuf_length : ∀ (tx : Bytes) (s : State) (r : Bytes) (t : State),
    xferBuf tx s = (some r, t) → r.length = tx.length
  | [], s, r, t, h => by cases h; rfl
  | b :: bs, s, r, t, h => by
    unfold xferBuf at h
    split at h
    · cases h
    · split at h
      · cases h
      · rename_i h2
        cases h
        simp [xferBuf_length bs _ _ _ h2]

/-- A transfer that the script answers. -/
theorem xfer_script {s : State} {a : Option Byte} {rest : List (Option Byte)} (b : Byte) (h : s.env.miso = a :: rest) :
    xfer b s = (a, s.mapEnv fun e =>
      { e with miso := rest, xferIx := e.xferIx + 1, bus := e.bus ++ [.xfer b a] }) := by
  have hn : nextAnswer s.env = a := by simp [nextAnswer, h]
  simp only [xfer, hn, State.mapEnv, h, List.tail_cons]

/-! ### What the device answered -/

@[simp] theorem answersOf_nil : answersOf [] = [] := rfl
@[simp] theorem answersOf_append (l l' : List BusEvent) : answersOf (l ++ l') = answersOf l ++ answersOf l' :=
  List.filterMap_append
@[simp] theorem answersOf_xfer (b : Byte) (r : Option Byte) (l : List BusEvent) :
    answersOf (.xfer b r :: l) = r :: answersOf l := rfl
@[simp] theorem answersOf_csAssert (l : List BusEvent) : answersOf (.csAssert :: l) = answersOf l := rfl
@[simp] theorem answersOf_csRelease (l : List BusEvent) : answersOf (.csRelease :: l) = answersOf l := rfl
@[simp] theorem answersOf_delay (d : Delay) (l : List BusEvent) : answersOf (.delay d :: l) = answersOf l := rfl

theorem answersOf_xferEvents : ∀ tx rx : Bytes, rx.length = tx.length → answersOf (xferEvents tx rx) = rx.map some
  | [], rx, h => by
    have : rx = [] := List.eq_nil_of_length_eq_zero (by simpa using h)
    subst this
    rfl
  | b :: bs, [], h => by simp at h
  | b :: bs, r :: rs, h => by
    have := answersOf_xferEvents bs rs (by simpa using h)
    simp only [xferEvents, List.zipWith_cons_cons, answersOf_xfer, List.map_cons] at this ⊢
    rw [this]

theorem answersOf_stepEvents {tx rx : Bytes} (h : rx.length = tx.length) :
    answersOf (stepEvents tx rx) = rx.map some := by
  simp [stepEvents, answersOf_xferEvents tx rx h]

theorem answersOf_failedStep {tx rx : Bytes} (b : Byte) (h : rx.length = tx.length) :
    answersOf (failedStep tx rx b) = rx.map some ++ [none] := by
  simp [failedStep, answersOf_xferEvents tx rx h]

theorem xferEvents_append {tx rx : Bytes} (tx' rx' : Bytes) (h : rx.length = tx.length) :
    xferEvents (tx ++ tx') (rx ++ rx') = xferEvents tx rx ++ xferEvents tx' rx' :=
  List.zipWith_append h.symm

/-- Transfers that the script answers, none failing. -/
theorem xferBuf_script : ∀ (tx rx : Bytes) (rest : List (Option Byte)) (s : State), rx.length = tx.length →
    s.env.miso = rx.map some ++ rest →
    xferBuf tx s = (some rx, s.mapEnv fun e =>
      { e with miso := rest, xferIx := e.xferIx + tx.length, bus := e.bus ++ xferEvents tx rx })
  | [], rx, rest, s, hl, hm => by
    have : rx = [] := List.eq_nil_of_length_eq_zero (by simpa using hl)
    subst this
    simp only [List.map_nil, List.nil_append] at hm
    simp [xferBuf, State.mapEnv, xferEvents, ← hm]
  | b :: bs, [], rest, s, hl, hm => by simp at hl
  | b :: bs, r :: rs, rest, s, hl, hm => by
    simp only [List.length_cons, Nat.add_right_cancel_iff] at hl
    have h1 := xfer_script (s := s) b (a := some r) (rest := rs.map some ++ rest) (by simpa using hm)
    have h2 := xferBuf_script bs rs rest
      (s.mapEnv fun e =>
        { e with miso := rs.map some ++ rest, xferIx := e.xferIx + 1, bus := e.bus ++ [.xfer b (some r)] }) hl rfl
    simp only [xferBuf, h1, h2]
    simp [State.mapEnv, xferEvents, Nat.add_assoc, Nat.add_comm 1]

/-- A bus step that the script answers. -/
theorem busStep_script (tx rx : Bytes) (rest : List (Option Byte)) (s : State) (hl : rx.length = tx.length)
    (hm : s.env.miso = rx.map some ++ rest) :
    busStep tx s = (some rx, s.mapEnv fun e =>
      { e with
        miso := rest
        xferIx := e.xferIx + tx.length
        bus := e.bus ++ stepEvents tx rx }) := by
  have h := xferBuf_script tx rx rest (chipSelect true s) hl (by simpa [chipSelect] using hm)
  simp only [busStep, h]
  simp [chipSelect, State.mapEnv, stepEvents]

/-- Transfers of which one fails: those behind it are not made (log 18). -/
theorem xferBuf_fails : ∀ (tx rx : Bytes) (b : Byte) (tail : Bytes) (rest : List (Option Byte)) (s : State),
    rx.length = tx.length → s.env.miso = rx.map some ++ none :: rest →
    xferBuf (tx ++ b :: tail) s = (none, s.mapEnv fun e =>
      { e with
        miso := rest
        xferIx := e.xferIx + (tx.length + 1)
        bus := e.bus ++ (xferEvents tx rx ++ [.xfer b none]) })
  | [], rx, b, tail, rest, s, hl, hm => by
    have : rx = [] := List.eq_nil_of_length_eq_zero (by simpa using hl)
    subst this
    simp [xferBuf, xfer_script (s := s) b (a := none) (rest := rest) (by simpa using hm), xferEvents]
  | c :: bs, [], b, tail, rest, s, hl, hm => by simp at hl
  | c :: bs, r :: rs, b, tail, rest, s, hl, hm => by
    simp only [List.length_cons, Nat.add_right_cancel_iff] at hl
    have h1 := xfer_script (s := s) c (a := some r) (rest := rs.map some ++ none :: rest) (by simpa using hm)
    have h2 := xferBuf_fails bs rs b tail rest
      (s.mapEnv fun e =>
        { e with
          miso := rs.map some ++ none :: rest
          xferIx := e.xferIx + 1
          bus := e.bus ++ [.xfer c (some r)] }) hl rfl
    simp only [List.cons_append, xferBuf, h1, h2]
    simp [State.mapEnv, xferEvents, Nat.add_assoc, Nat.add_comm 1]

/-- A bus step of which one transfer fails (log 18). -/
theorem busStep_fails (tx rx : Bytes) (b : Byte) (tail : Bytes) (rest : List (Option Byte)) (s : State)
    (hl : rx.length = tx.length) (hm : s.env.miso = rx.map some ++ none :: rest) :
    busStep (tx ++ b :: tail) s = (none, s.mapEnv fun e =>
      { e with
        miso := rest
        xferIx := e.xferIx + (tx.length + 1)
        bus := e.bus ++ failedStep tx rx b }) := by
  have h := xferBuf_fails tx rx b tail rest (chipSelect true s) hl (by simpa [chipSelect] using hm)
  simp only [busStep, h]
  simp [chipSelect, State.mapEnv, failedStep]

/-- A tag scan that meets a start tag at once. -/
theorem scanTag_script {s : State} {b : Byte} {rest : List (Option Byte)} (n : Nat) (hb : b.extractLsb' 4 4 = 0xF)
    (hm : s.env.miso = some b :: rest) :
    scanTag (n + 1) s = (none, s.mapEnv fun e =>
      { e with miso := rest, xferIx := e.xferIx + 1, bus := e.bus ++ [.xfer 0x00 (some b)] }) := by
  simp only [scanTag, xfer_script (s := s) 0x00 hm, hb, if_true]

end Sys2Proof.Machine
end

