-- ==== Sys2Proof/Laws/Actions.lean ====
section
/-!
SUPPORT. The indivisible actions: what none of them changes, said once for all of them, and what each bus action
can change.
-/

namespace Sys2Proof.Machine

/-- What no action changes: the parameters, `PKT_LIMIT`, `WIFI_STATE`, the tasks, the inputs to come, the hand-over
choices, the results, what consumers took, the pin. -/
structure ActionFrame (s t : State) : Prop where
  params : t.params = s.params
  limit : t.fr.pktLimit = s.fr.pktLimit
  wifi : t.root.wifi = s.root.wifi
  tasks : t.env.tasks = s.env.tasks
  nextTask : t.env.nextTask = s.env.nextTask
  inbox : t.env.inbox = s.env.inbox
  yields : t.env.yields = s.env.yields
  fired : t.env.fired = s.env.fired
  results : t.env.results = s.env.results
  delivered : t.env.delivered = s.env.delivered
  pin : t.env.pin = s.env.pin

theorem ActionFrame.refl (s : State) : ActionFrame s s := ⟨rfl, rfl, rfl, rfl, rfl, rfl, rfl, rfl, rfl, rfl, rfl⟩

theorem ActionFrame.trans {s t u : State} (h : ActionFrame s t) (h' : ActionFrame t u) : ActionFrame s u :=
  ⟨h'.params.trans h.params, h'.limit.trans h.limit, h'.wifi.trans h.wifi, h'.tasks.trans h.tasks,
    h'.nextTask.trans h.nextTask, h'.inbox.trans h.inbox, h'.yields.trans h.yields, h'.fired.trans h.fired,
    h'.results.trans h.results, h'.delivered.trans h.delivered, h'.pin.trans h.pin⟩

theorem BusOnly.frame {s t : State} (h : BusOnly s t) : ActionFrame s t :=
  ⟨h.params, by rw [h.fr], by rw [h.root], by rw [h.env], by rw [h.env], by rw [h.env], by rw [h.env], by rw [h.env],
    by rw [h.env], by rw [h.env], by rw [h.env]⟩

theorem ActionFrame.mapTr (s : State) (f : Transport → Transport) : ActionFrame s (s.mapTr f) :=
  ⟨rfl, rfl, rfl, rfl, rfl, rfl, rfl, rfl, rfl, rfl, rfl⟩
theorem ActionFrame.mapHif (s : State) (f : Hif → Hif) : ActionFrame s (s.mapHif f) :=
  ⟨rfl, rfl, rfl, rfl, rfl, rfl, rfl, rfl, rfl, rfl, rfl⟩
theorem ActionFrame.mapIrq (s : State) (f : Irq → Irq) : ActionFrame s (s.mapIrq f) :=
  ⟨rfl, rfl, rfl, rfl, rfl, rfl, rfl, rfl, rfl, rfl, rfl⟩
theorem ActionFrame.mapSock (s : State) (f : Sockets → Sockets) : ActionFrame s (s.mapSock f) :=
  ⟨rfl, rfl, rfl, rfl, rfl, rfl, rfl, rfl, rfl, rfl, rfl⟩
theorem ActionFrame.setMem (s : State) (m : List Host.Cell) : ActionFrame s (s.setMem m) :=
  ⟨rfl, rfl, rfl, rfl, rfl, rfl, rfl, rfl, rfl, rfl, rfl⟩
theorem ActionFrame.mapFr (s : State) (f : Framer → Framer) (h : (f s.fr).pktLimit = s.fr.pktLimit) :
    ActionFrame s (s.mapFr f) :=
  ⟨rfl, h, rfl, rfl, rfl, rfl, rfl, rfl, rfl, rfl, rfl⟩

theorem buildFrame_frame (c : Cmd) (s : State) : ActionFrame s (buildFrame c s) :=
  ⟨rfl, rfl, rfl, rfl, rfl, rfl, rfl, rfl, rfl, rfl, rfl⟩

/-- A run of one chunk read: the bus, and the framer's chunk registers. -/
theorem readChunk_frame (s : State) : ActionFrame s (readChunk s).2 := by
  have h1 := scanTag_busOnly tagScanMax s
  unfold readChunk
  split
  · rename_i e s1 h; rw [h] at h1; exact h1.frame
  · rename_i s1 h
    rw [h] at h1
    have h2 := xferBuf_busOnly (filler (chunkSize s.fr)) s1
    split
    · rename_i s2 h'; rw [h'] at h2; exact (h1.trans h2).frame
    · rename_i d s2 h'
      rw [h'] at h2
      have h3 := xferBuf_busOnly (chunkCrc s.fr.crcEn) s2
      split
      · rename_i s3 h''; rw [h''] at h3; exact ((h1.trans h2).trans h3).frame
      · rename_i r s3 h''
        rw [h''] at h3
        dsimp only at h3 ⊢
        exact ((h1.trans h2).trans h3).frame.trans (by constructor <;> rfl)

/-- An assignment changes none of it. -/
theorem Put.apply_frame (u : Put) (s : State) : ActionFrame s (u.apply s) := by
  cases u <;> (constructor <;> rfl)

/-- No action changes what `ActionFrame` names. -/
theorem perform_frame (a : Action) (ag : Agent) (s : State) : ActionFrame s (perform a ag s).2 := by
  cases a with
  | acquire => simp only [perform, doAcquire]; split <;> (constructor <;> rfl)
  | put u => exact u.apply_frame s
  | lockT => simp only [perform, doLockT]; split <;> (constructor <;> rfl)
  | scanChunk =>
    have h := (chipSelect_busOnly true s).frame.trans (readChunk_frame (chipSelect true s))
    simp only [perform, doScanChunk]
    split
    · exact .refl s
    · split
      · rename_i e s1 h'; rw [h'] at h; exact h.trans (chipSelect_busOnly false s1).frame
      · rename_i d s1 h'; rw [h'] at h; exact h.trans (chipSelect_busOnly false s1).frame
  | offer id ev => simp only [perform, offerTo]; split <;> (constructor <;> rfl)
  | insertReply i sid kind => simp only [perform, doInsertReply]; split <;> (constructor <;> rfl)
  | updSlot i u => simp only [perform, doUpdSlot]; split <;> (constructor <;> rfl)
  | allocSlot i sid ssl off => simp only [perform, doAllocSlot]; split <;> (constructor <;> rfl)
  | beginClose i => simp only [perform, doBeginClose]; split <;> (constructor <;> rfl)
  | freeSlot i => simp only [perform, doFreeSlot]; split <;> (constructor <;> rfl)
  | acceptOpen i => simp only [perform, doAcceptOpen]; split <;> (constructor <;> rfl)
  | allocConn c p sid off => simp only [perform, doAllocConn]; split <;> (constructor <;> rfl)
  | cmdWr last =>
    have h := busStep_busOnly (frameBytes s.fr) s
    simp only [perform, doCmdWr]
    split
    · rename_i s1 h'; rw [h'] at h; exact h.frame
    · rename_i r s1 h'; rw [h'] at h; dsimp only at h ⊢; exact h.frame.trans (by constructor <;> rfl)
  | rspRd next =>
    have h := busStep_busOnly (filler 2) s
    simp only [perform, doRspRd]
    split
    · rename_i r0 r1 s1 h'
      rw [h'] at h
      dsimp only at h ⊢
      split
      · exact h.frame.trans (by constructor <;> rfl)
      · exact h.frame.trans (by constructor <;> rfl)
    · rename_i r s1 _ h'
      rw [h'] at h
      dsimp only at h ⊢
      exact h.frame
  | chunkRd =>
    have h := (chipSelect_busOnly true s).frame.trans (readChunk_frame (chipSelect true s))
    simp only [perform, doChunkRd]
    split
    · rename_i e s1 h'; rw [h'] at h; exact h.trans (chipSelect_busOnly false s1).frame
    · rename_i d s1 h'
      rw [h'] at h
      dsimp only at h ⊢
      have h2 := h.trans (chipSelect_busOnly false s1).frame
      split
      · exact h2.trans (by constructor <;> rfl)
      · exact h2
  | chunkWr src =>
    have h := busStep_busOnly
      (chunkBytes (tagSeq s.fr.dfIx s.fr.dfRem (chunkSize s.fr)) (nextPayload s.fr (padBlock (src.load s.mem)))
        s.fr.crcEn) s
    simp only [perform, doChunkWr]
    split
    · rename_i s1 h'; rw [h'] at h; exact h.frame
    · rename_i r s1 h'
      rw [h'] at h
      dsimp only at h ⊢
      have h2 := h.frame.trans (ActionFrame.mapFr s1 (chunkWritten (chunkSize s.fr)) rfl)
      split
      · exact h2.trans (by constructor <;> rfl)
      · exact h2
  | drspRd =>
    have h := busStep_busOnly (filler (drspLen s.params s.fr.crcEn)) s
    simp only [perform, doDrspRd]
    split
    · rename_i s1 h'; rw [h'] at h; exact h.frame
    · rename_i d s1 h'
      rw [h'] at h
      dsimp only at h ⊢
      split
      · exact h.frame.trans (by constructor <;> rfl)
      · exact h.frame.trans (by constructor <;> rfl)
  | recoverReset =>
    exact ((buildFrame_frame .reset s).trans (busStep_busOnly (frameBytes (buildFrame .reset s).fr) _).frame).trans (by constructor <;> rfl)
  | settle => exact (passDelay_busOnly .settle s).frame.trans (by constructor <;> rfl)
  | failed e =>
    simp only [perform, doFailed]
    split
    · split <;> (constructor <;> rfl)
    · (constructor <;> rfl)
  | tagChunk seq payload =>
    have h := busStep_busOnly (chunkBytes seq payload s.fr.crcEn) s
    simp only [perform, doTagChunk]
    split
    · rename_i s1 h'; rw [h'] at h; exact h.frame
    · rename_i r s1 h'; rw [h'] at h; dsimp only at h ⊢; exact h.frame.trans (by constructor <;> rfl)
  | delay d => exact (passDelay_busOnly d s).frame
  | lockS => simp only [perform, doLockS]; split <;> (constructor <;> rfl)
  | drawCollab call =>
    simp only [perform, doDrawCollab]; split <;> (constructor <;> rfl)
  | lockSlot i => simp only [perform, doLockSlot]; split <;> (constructor <;> rfl)
  | tryLock i => simp only [perform, doTryLock]; split <;> (constructor <;> rfl)
  | quiesce => simp only [perform, doQuiesce]; split <;> (constructor <;> rfl)
  | nextSid => simp only [perform, doNextSid]; split <;> (constructor <;> rfl)
  | waitReply i m b =>
    simp only [perform, doWaitReply]
    split
    · (constructor <;> rfl)
    · split
      · (constructor <;> rfl)
      · exact .refl s
    · (constructor <;> rfl)
    · (constructor <;> rfl)
  | acceptWait i m b =>
    simp only [perform, doAcceptWait]
    split
    · (constructor <;> rfl)
    · split
      · (constructor <;> rfl)
      · split
        · (constructor <;> rfl)
        · exact .refl s
  | acceptPeek i m b =>
    simp only [perform, doAcceptPeek]
    split
    · (constructor <;> rfl)
    · split
      · exact .refl s
      · split
        · (constructor <;> rfl)
        · exact .refl s
  | acceptTake i m =>
    simp only [perform, doAcceptTake]
    split
    · (constructor <;> rfl)
    · split
      · (constructor <;> rfl)
      · exact .refl s
  | dnsWait m b =>
    simp only [perform, doDnsWait]
    split
    · (constructor <;> rfl)
    · split
      · (constructor <;> rfl)
      · exact .refl s
    · (constructor <;> rfl)
    · (constructor <;> rfl)
  | dnsFill r =>
    simp only [perform, doDnsFill]
    split
    · exact .refl s
    · split
      · (constructor <;> rfl)
      · exact .refl s
  | _ => (constructor <;> rfl)

end Sys2Proof.Machine
end

