-- ==== Sys2Proof/Laws/Records.lean ====
section
/-!
SUPPORT. What the operations over socket records do: one lemma for the length and one for the bytes of a field laid
over a record, and the same of a list of fields.
-/

namespace Sys2Proof.Machine

/-! ### Fields laid over a record -/

theorem overlay_length (t : Bytes) (off : Nat) (b : Bytes) :
    (overlay t off b).length = max t.length (off + b.length) := by
  simp [overlay]; omega

/-- Inside the field the field's bytes, outside what was there, 0x00 past the end. -/
theorem overlay_getD (t : Bytes) (off : Nat) (b : Bytes) (x : Nat) :
    (overlay t off b).getD x 0x00 = if off ≤ x ∧ x < off + b.length then b.getD (x - off) 0x00 else t.getD x 0x00 := by
  have hl : ((t ++ List.replicate (off - t.length) 0x00).take off).length = off := by simp; omega
  simp only [overlay, List.getD_eq_getElem?_getD, List.append_assoc]
  rcases Nat.lt_or_ge x off with h | h
  · rw [if_neg (by omega), List.getElem?_append_left (by omega), List.getElem?_take_of_lt h]
    rcases Nat.lt_or_ge x t.length with ht | ht
    · rw [List.getElem?_append_left ht]
    · rw [List.getElem?_append_right ht, List.getElem?_replicate, List.getElem?_eq_none ht]
      split <;> rfl
  · rw [List.getElem?_append_right (by omega), hl]
    rcases Nat.lt_or_ge x (off + b.length) with hb | hb
    · rw [if_pos ⟨h, hb⟩, List.getElem?_append_left (by omega)]
    · rw [if_neg (by omega), List.getElem?_append_right (by omega), List.getElem?_drop]
      congr 2
      omega

/-- The first bytes of what stands at an offset. -/
theorem field_iff {b f : Bytes} {off : Nat} (h : off + f.length ≤ b.length) :
    (b.drop off).take f.length = f ↔ ∀ x, x < f.length → b.getD (off + x) 0x00 = f.getD x 0x00 := by
  constructor
  · intro e x hx
    have := congrArg (·.getD x 0x00) e
    simpa [List.getD_eq_getElem?_getD, List.getElem?_take_of_lt hx] using this
  · intro e
    refine List.ext_getElem (by simp; omega) fun x h1 h2 => ?_
    have hx := e x h2
    have h3 : off + x < b.length := by omega
    simpa [List.getD_eq_getElem?_getD, h2, h3] using hx

theorem overlays_cons (offs : List Nat) (k : Nat) (t f : Bytes) (fs : List Bytes) :
    overlays offs k t (f :: fs) = overlays offs (k + 1) (overlay t (offs.getD k 0) f) fs := rfl

/-- The record covers what it is laid over and every field, and no more. -/
theorem overlays_length (offs : List Nat) : ∀ (fs : List Bytes) (k : Nat) (t : Bytes),
    t.length ≤ (overlays offs k t fs).length ∧
    (∀ j f, fs[j]? = some f → offs.getD (k + j) 0 + f.length ≤ (overlays offs k t fs).length) ∧
    ((overlays offs k t fs).length = t.length ∨
      ∃ j f, fs[j]? = some f ∧ (overlays offs k t fs).length = offs.getD (k + j) 0 + f.length)
  | [], k, t => ⟨Nat.le_refl _, fun j f h => by simp at h, .inl rfl⟩
  | g :: fs, k, t => by
    obtain ⟨h1, h2, h3⟩ := overlays_length offs fs (k + 1) (overlay t (offs.getD k 0) g)
    rw [overlays_cons]
    rw [overlay_length] at h1
    refine ⟨by omega, fun j f hj => ?_, ?_⟩
    · cases j with
      | zero =>
        obtain rfl : g = f := by simpa using hj
        simpa using Nat.le_trans (Nat.le_max_right _ _) h1
      | succ j =>
        have := h2 j f (by simpa using hj)
        rwa [Nat.add_assoc, Nat.add_comm 1 j] at this
    · rcases h3 with h3 | ⟨j, f, hj, h3⟩
      · rw [overlay_length] at h3
        rcases Nat.le_total (offs.getD k 0 + g.length) t.length with hm | hm
        · exact .inl (by omega)
        · exact .inr ⟨0, g, rfl, by rw [show k + 0 = k from rfl]; omega⟩
      · exact .inr ⟨j + 1, f, by simpa using hj, by rw [h3, Nat.add_assoc, Nat.add_comm 1 j]⟩

/-- A byte of a record: of the last field that covers it, or what the fields are laid over. -/
theorem overlays_getD (offs : List Nat) : ∀ (fs : List Bytes) (k : Nat) (t : Bytes) (x : Nat),
    (∀ j f, fs[j]? = some f → offs.getD (k + j) 0 ≤ x → x < offs.getD (k + j) 0 + f.length →
      (∀ i g, j < i → fs[i]? = some g → x < offs.getD (k + i) 0 ∨ offs.getD (k + i) 0 + g.length ≤ x) →
      (overlays offs k t fs).getD x 0x00 = f.getD (x - offs.getD (k + j) 0) 0x00) ∧
    ((∀ j f, fs[j]? = some f → x < offs.getD (k + j) 0 ∨ offs.getD (k + j) 0 + f.length ≤ x) →
      (overlays offs k t fs).getD x 0x00 = t.getD x 0x00)
  | [], k, t, x => ⟨fun j f h => by simp at h, fun _ => rfl⟩
  | g :: fs, k, t, x => by
    obtain ⟨h1, h2⟩ := overlays_getD offs fs (k + 1) (overlay t (offs.getD k 0) g) x
    have ix (j : Nat) : k + 1 + j = k + (j + 1) := by omega
    simp only [ix] at h1 h2
    rw [overlays_cons]
    refine ⟨fun j f hj ha hb hc => ?_, fun hc => ?_⟩
    · cases j with
      | zero =>
        obtain rfl : g = f := by simpa using hj
        rw [h2 fun i q hq => hc (i + 1) q (by omega) (by simpa using hq), overlay_getD, if_pos ⟨ha, hb⟩]
        rfl
      | succ j => exact h1 j f (by simpa using hj) ha hb fun i q hi hq => hc (i + 1) q (by omega) (by simpa using hq)
    · have h0 := hc 0 g rfl
      rw [h2 fun i q hq => hc (i + 1) q (by simpa using hq), overlay_getD, if_neg (by rw [Nat.add_zero] at h0; omega)]

/-! ### Records -/

/-- The size of a record is that of its fields, whatever they hold. -/
theorem enc_sized (l : Layout) (fs : List Bytes) : Sized l fs (l.enc fs).length := by
  obtain ⟨h1, h2, h3⟩ := overlays_length l.offs fs 0 l.base
  simp only [Nat.zero_add] at h2 h3
  exact ⟨h1, h2, h3⟩

/-- A record of fields that share no byte. -/
theorem enc_isRecord (l : Layout) (fs : List Bytes) (h : Apart l fs) : IsRecord l fs (l.enc fs) := by
  have hs := enc_sized l fs
  refine ⟨fun k f hk => ?_, hs, fun x _ hx => ?_⟩
  · refine (field_iff (hs.within k f hk)).mpr fun x hx => ?_
    have := (overlays_getD l.offs fs 0 l.base (l.offs.getD k 0 + x)).1 k f hk
      (by rw [Nat.zero_add]; omega) (by rw [Nat.zero_add]; omega) fun i g hi hg => by
        rw [Nat.zero_add]
        have := h k i f g hi hk hg
        omega
    rw [Layout.enc, this, Nat.zero_add, Nat.add_sub_cancel_left]
  · exact (overlays_getD l.offs fs 0 l.base x).2 (by simpa only [Nat.zero_add] using hx)

end Sys2Proof.Machine
end

