-- ==== Sys2Proof/Laws/Program.lean ====
section
/-!
SUPPORT. Programs: sequencing, runs that end, and the one lemma about runs: whatever holds of the state through every
action and every hand-over holds through a run.
-/

namespace Sys2Proof.Machine

/-! ### Sequencing -/

@[simp] theorem Prog.bind_ret {α β : Type} (a : α) (f : α → Prog β) : (Prog.ret a).bind f = f a := rfl
@[simp] theorem Prog.bind_act {α β : Type} (a : Action) (k : Val → Prog α) (f : α → Prog β) :
    (Prog.act a k).bind f = .act a fun v => (k v).bind f := rfl
@[simp] theorem Prog.bind_mark {α β : Type} (p : Prog α) (f : α → Prog β) :
    (Prog.mark p).bind f = .mark (p.bind f) := rfl
@[simp] theorem Prog.bind_back {α β : Type} (f : α → Prog β) : (Prog.back : Prog α).bind f = .back := rfl
@[simp] theorem Prog.bind_refuse {α β : Type} (r : Refusal) (f : α → Prog β) :
    (Prog.refuse r : Prog α).bind f = .refuse r := rfl
@[simp] theorem Prog.bind_andThen {α β : Type} (a : Action) (p : Prog α) (f : α → Prog β) :
    (Prog.andThen a p).bind f = .andThen a (p.bind f) := rfl

theorem Prog.bind_assoc {α β γ : Type} (p : Prog α) (f : α → Prog β) (g : β → Prog γ) :
    (p.bind f).bind g = p.bind fun a => (f a).bind g := by
  induction p with
  | ret a => rfl
  | act a k ih => simp only [Prog.bind_act]; congr 1; funext v; exact ih v
  | mark p ih => simp only [Prog.bind_mark, ih]
  | back => rfl
  | refuse r => rfl

@[simp] theorem Prog.bind_puts {α β : Type} (l : List Put) (p : Prog α) (f : α → Prog β) :
    (Prog.puts l p).bind f = Prog.puts l (p.bind f) := by
  induction l with
  | nil => rfl
  | cons u us ih => simp only [Prog.puts, Prog.bind_andThen, ih]

@[simp] theorem Prog.tryBind_ok {α β : Type} (a : α) (f : α → Prog (Except Err β)) :
    (Prog.ret (.ok a)).tryBind f = f a := rfl
@[simp] theorem Prog.tryBind_error {α β : Type} (e : Err) (f : α → Prog (Except Err β)) :
    (Prog.ret (.error e)).tryBind f = raise e := rfl
@[simp] theorem Prog.tryBind_raise {α β : Type} (e : Err) (f : α → Prog (Except Err β)) :
    (raise e).tryBind f = raise e := rfl

/-! ### Runs that end -/

section
variable {go : Action → State → Option Val × State}

@[simp] theorem Prog.eval_ret {α : Type} (a : α) (s : State) : (Prog.ret a).eval go s = some (a, s) := rfl
@[simp] theorem Prog.eval_raise {α : Type} (e : Err) (s : State) :
    (raise e : Prog (Except Err α)).eval go s = some (.error e, s) := rfl
@[simp] theorem Prog.eval_mark {α : Type} (p : Prog α) (s : State) : (Prog.mark p).eval go s = p.eval go s := rfl
@[simp] theorem Prog.eval_back {α : Type} (s : State) : (Prog.back : Prog α).eval go s = none := rfl

/-- An action that is answered, the agent not handing over after it. -/
theorem Prog.eval_act {α : Type} {a : Action} {k : Val → Prog α} {s s1 : State} {v : Val}
    (h : go a s = (some v, s1)) (hy : (handOver s1).1 = false) :
    (Prog.act a k).eval go s = (k v).eval go (handOver s1).2 := by
  simp [Prog.eval, h, hy]

theorem Prog.eval_andThen {α : Type} {a : Action} {p : Prog α} {s s1 : State} {v : Val}
    (h : go a s = (some v, s1)) (hy : (handOver s1).1 = false) :
    (Prog.andThen a p).eval go s = p.eval go (handOver s1).2 := Prog.eval_act h hy

/-- Sequencing of runs that end. -/
theorem Prog.eval_bind {α β : Type} (p : Prog α) (f : α → Prog β) (s : State) :
    (p.bind f).eval go s = (p.eval go s).bind fun r => (f r.1).eval go r.2 := by
  induction p generalizing s with
  | ret a => rfl
  | act a k ih =>
    simp only [Prog.bind_act, Prog.eval]
    split
    · rfl
    · split
      · rfl
      · exact ih _ _
  | mark p ih => simpa using ih s
  | back => rfl
  | refuse r => rfl

theorem Prog.eval_bind_of {α β : Type} {p : Prog α} {f : α → Prog β} {s t : State} {a : α}
    (h : p.eval go s = some (a, t)) : (p.bind f).eval go s = (f a).eval go t := by
  rw [Prog.eval_bind, h]; rfl

theorem Prog.eval_tryBind_ok {α β : Type} {p : Prog (Except Err α)} {f : α → Prog (Except Err β)} {s t : State} {a : α}
    (h : p.eval go s = some (.ok a, t)) : (p.tryBind f).eval go s = (f a).eval go t := Prog.eval_bind_of h

theorem Prog.eval_tryBind_error {α β : Type} {p : Prog (Except Err α)} {f : α → Prog (Except Err β)} {s t : State}
    {e : Err} (h : p.eval go s = some (.error e, t)) : (p.tryBind f).eval go s = some (.error e, t) := by
  rw [Prog.tryBind, Prog.eval_bind_of h]; rfl

/-- A program that ends within the turn is run to its end. -/
theorem Prog.run_of_eval {α : Type} {p : Prog α} {s t : State} {a : α} (h : p.eval go s = some (a, t))
    (sofar head : List Val) : p.run go [] sofar head s = .done a t := by
  induction p generalizing s sofar head with
  | ret b => simp_all [Prog.run]
  | act b k ih =>
    simp only [Prog.eval] at h
    split at h
    · cases h
    · rename_i v s1 hgo
      split at h
      · cases h
      · rename_i hy
        simp only [Prog.run, hgo, hy]
        exact ih _ h _ _
  | mark p ih => exact ih h _ _
  | back => cases h
  | refuse r => cases h

/-- What holds of the state a run ends in; a refusal has none. -/
def RunRes.Keeps {α : Type} (I : State → Prop) : RunRes α → Prop
  | .done _ s => I s
  | .parked _ s => I s
  | .refused _ => True

/-- What holds of the state through every action and every hand-over holds through a run. -/
theorem Prog.run_keeps {α : Type} {I : State → Prop} (hgo : ∀ a s, I s → I (go a s).2)
    (hho : ∀ s, I s → I (handOver s).2) (p : Prog α) :
    ∀ (todo sofar head : List Val) (s : State), I s → (p.run go todo sofar head s).Keeps I := by
  induction p with
  | ret a => intro _ _ _ s hs; exact hs
  | act a k ih =>
    intro todo sofar head s hs
    cases todo with
    | cons v todo => exact ih v _ _ _ _ hs
    | nil =>
      have h1 := hgo a s hs
      simp only [Prog.run]
      split
      · rename_i s1 heq; rw [heq] at h1; exact h1
      · rename_i v s1 heq
        rw [heq] at h1
        split
        · exact hho _ h1
        · exact ih _ _ _ _ _ (hho _ h1)
  | mark p ih => intro todo sofar head s hs; exact ih _ _ _ _ hs
  | back => intro todo sofar head s hs; exact hs
  | refuse r => intro todo sofar head s _; trivial

end

/-- An operation whose program ends within its turn: the next state. -/
theorem startTask_of_eval {i : Instr} {p : Prog (Except Err Value)} {s t : State} {r : Except Err Value}
    (h : Runs (taskOf s) p (newTask s) r t) : startTask i p s = .next (returnToCaller (taskOf s) (toResult r) t) := by
  unfold Runs taskOf at h
  simp [startTask, Prog.run_of_eval h, settle, taskOf]

/-- Without hand-over choices no agent hands over. -/
theorem handOver_of_nil {s : State} (h : s.env.yields = []) : handOver s = (false, endAction s) := by
  simp [handOver, h]

@[simp] theorem handOver_snd (s : State) : (handOver s).2 = endAction s := rfl
@[simp] theorem endAction_fr (s : State) : (endAction s).fr = s.fr := rfl
@[simp] theorem endAction_tr (s : State) : (endAction s).tr = s.tr := rfl
@[simp] theorem endAction_hif (s : State) : (endAction s).hif = s.hif := rfl
@[simp] theorem endAction_irq (s : State) : (endAction s).irq = s.irq := rfl
@[simp] theorem endAction_sock (s : State) : (endAction s).sock = s.sock := rfl
@[simp] theorem endAction_root (s : State) : (endAction s).root = s.root := rfl
@[simp] theorem endAction_mem (s : State) : (endAction s).mem = s.mem := rfl
@[simp] theorem endAction_params (s : State) : (endAction s).params = s.params := rfl
@[simp] theorem endAction_env (s : State) :
    (endAction s).env = { s.env with yields := s.env.yields.tail, fired := false } := rfl

@[simp] theorem dropExpiry_fr (s : State) : (dropExpiry s).fr = s.fr := rfl
@[simp] theorem dropExpiry_tr (s : State) : (dropExpiry s).tr = s.tr := rfl
@[simp] theorem dropExpiry_hif (s : State) : (dropExpiry s).hif = s.hif := rfl
@[simp] theorem dropExpiry_irq (s : State) : (dropExpiry s).irq = s.irq := rfl
@[simp] theorem dropExpiry_sock (s : State) : (dropExpiry s).sock = s.sock := rfl
@[simp] theorem dropExpiry_root (s : State) : (dropExpiry s).root = s.root := rfl
@[simp] theorem dropExpiry_mem (s : State) : (dropExpiry s).mem = s.mem := rfl
@[simp] theorem dropExpiry_params (s : State) : (dropExpiry s).params = s.params := rfl
@[simp] theorem dropExpiry_env (s : State) : (dropExpiry s).env = { s.env with fired := false } := rfl

@[simp] theorem newTask_fr (s : State) : (newTask s).fr = s.fr := rfl
@[simp] theorem newTask_tr (s : State) : (newTask s).tr = s.tr := rfl
@[simp] theorem newTask_hif (s : State) : (newTask s).hif = s.hif := rfl
@[simp] theorem newTask_irq (s : State) : (newTask s).irq = s.irq := rfl
@[simp] theorem newTask_sock (s : State) : (newTask s).sock = s.sock := rfl
@[simp] theorem newTask_root (s : State) : (newTask s).root = s.root := rfl
@[simp] theorem newTask_mem (s : State) : (newTask s).mem = s.mem := rfl
@[simp] theorem newTask_params (s : State) : (newTask s).params = s.params := rfl
@[simp] theorem newTask_env (s : State) :
    (newTask s).env = { s.env with nextTask := s.env.nextTask + 1, fired := false } := rfl

@[simp] theorem returnToCaller_fr (id : Nat) (r : Result) (s : State) : (returnToCaller id r s).fr = s.fr := rfl
@[simp] theorem returnToCaller_tr (id : Nat) (r : Result) (s : State) : (returnToCaller id r s).tr = s.tr := rfl
@[simp] theorem returnToCaller_hif (id : Nat) (r : Result) (s : State) : (returnToCaller id r s).hif = s.hif := rfl
@[simp] theorem returnToCaller_irq (id : Nat) (r : Result) (s : State) : (returnToCaller id r s).irq = s.irq := rfl
@[simp] theorem returnToCaller_sock (id : Nat) (r : Result) (s : State) : (returnToCaller id r s).sock = s.sock := rfl
@[simp] theorem returnToCaller_root (id : Nat) (r : Result) (s : State) : (returnToCaller id r s).root = s.root := rfl
@[simp] theorem returnToCaller_mem (id : Nat) (r : Result) (s : State) : (returnToCaller id r s).mem = s.mem := rfl
@[simp] theorem returnToCaller_params (id : Nat) (r : Result) (s : State) :
    (returnToCaller id r s).params = s.params := rfl
@[simp] theorem returnToCaller_env (id : Nat) (r : Result) (s : State) :
    (returnToCaller id r s).env = { s.env with results := s.env.results ++ [(id, r)] } := rfl

end Sys2Proof.Machine
end

