-- ==== Sys2Proof/Laws/Moves.lean ====
section
/-!
SUPPORT. What a step can do, said once: every next state is reached by moves, but that of `setPacketSize`, which sets
`PKT_LIMIT`.
-/

namespace Sys2Proof.Machine

theorem Moves.of_move {s t : State} (h : Move s t) : Moves s t := Relation.ReflTransGen.single h

theorem Moves.trans {s t u : State} (h : Moves s t) (h' : Moves t u) : Moves s u := Relation.ReflTransGen.trans h h'

/-- What every move keeps is kept by moves. -/
theorem Moves.keeps {I : State → Prop} (hm : ∀ s t, Move s t → I s → I t) {s t : State} (h : Moves s t) (hs : I s) :
    I t := by
  induction h with
  | refl => exact hs
  | tail _ hmv ih => exact hm _ _ hmv ih

/-- A run is a sequence of moves, if its actions are. -/
theorem Prog.run_moves {α : Type} {go : Action → State → Option Val × State} (hgo : ∀ a s, Moves s (go a s).2)
    (p : Prog α) (todo sofar head : List Val) (s : State) : (p.run go todo sofar head s).Keeps (Moves s) :=
  Prog.run_keeps (I := fun t => Moves s t) (fun a t ht => ht.trans (hgo a t))
    (fun t ht => ht.trans (Moves.of_move (.handOver t))) p todo sofar head s Relation.ReflTransGen.refl

/-- A state reached by moves, where an outcome is a next state. -/
def OutcomeMoves (s : State) (o : Host.Outcome State Fault Refusal) : Prop := ∀ t, o = .next t → Moves s t

theorem OutcomeMoves.refused (s : State) (r : Refusal) : OutcomeMoves s (.refused r) := by
  intro t h; cases h

theorem OutcomeMoves.next {s t : State} (h : Moves s t) : OutcomeMoves s (.next t) := by
  intro u hu; cases hu; exact h

theorem OutcomeMoves.after {s t : State} {o : Host.Outcome State Fault Refusal} (h : Moves s t)
    (ho : OutcomeMoves t o) : OutcomeMoves s o := fun u hu => h.trans (ho u hu)

theorem OutcomeMoves.ite {s : State} {c : Prop} [Decidable c] {a b : Host.Outcome State Fault Refusal}
    (ha : OutcomeMoves s a) (hb : OutcomeMoves s b) : OutcomeMoves s (if c then a else b) := by
  split
  · exact ha
  · exact hb

/-! ### The worker -/

theorem jobResult_moves (job : WorkerJob) (r : Except Err Unit) (s : State) : Moves s (jobResult job r s) := by
  cases job with
  | round => exact Relation.ReflTransGen.refl
  | isr id => exact Moves.of_move (.ended id _ s)
  | packet id g op l => exact Moves.of_move (.ended id _ s)

theorem workerEnd_moves (r : Except Err Unit) (s : State) : Moves s (workerEnd r s) :=
  (jobResult_moves s.irq.wjob r s).trans (Moves.of_move (.sequence _ .round [] _))

theorem workerSettle_moves {s : State} {r : RunRes (Except Err Unit)} (h : r.Keeps (Moves s)) :
    OutcomeMoves s (workerSettle r) := by
  cases r with
  | done a t => exact .next (Moves.trans h (workerEnd_moves a t))
  | parked log t => exact .next (Moves.trans h (Moves.of_move (.sequence t.irq.wseq t.irq.wjob log t)))
  | refused r => exact .refused s r

theorem workerRun_moves (s : State) : OutcomeMoves s (workerRun s) :=
  workerSettle_moves (Prog.run_moves (fun a t => Moves.of_move (.action a .worker t)) _ _ _ _ s)

/-- A turn of the worker is a sequence of moves. -/
theorem workerTurn_moves (s : State) : OutcomeMoves s (workerTurn s) := by
  unfold workerTurn
  split
  · exact .next Relation.ReflTransGen.refl
  · split
    · exact .next (Moves.of_move (.sequence .stopped s.irq.wjob s.irq.wlog s))
    · split
      · exact .after (Moves.of_move (.takeGo s)) (workerRun_moves _)
      · exact .next Relation.ReflTransGen.refl
  · exact workerRun_moves s
  · exact workerRun_moves s
  · exact workerRun_moves s

/-! ### Callers -/

theorem serveInput_moves {id : Nat} {inp : Input} {s t : State} (h : serveInput id inp s = some t) : Moves s t := by
  cases inp with
  | request r => cases h
  | pin l => cases h; exact Moves.of_move (.pin l s)
  | work =>
    simp only [serveInput] at h
    split at h
    · rename_i s1 hw
      cases h
      exact workerTurn_moves s _ hw
    · cases h
    · cases h
  | resume n => cases h
  | expire n =>
    simp only [serveInput] at h
    split at h
    · cases h; exact Moves.of_move (.fired true s)
    · cases h
  | consume q => cases h; exact Moves.of_move (.consume q s)
  | store b bs => cases h; exact Moves.of_move (.store b bs s)

theorem dropExpiry_moves (s : State) : Moves s (dropExpiry s) := Moves.of_move (.fired false s)

theorem waitFor_moves (a : Action) (id : Nat) : ∀ (l : List Input) (s : State), Moves s (waitFor a id l s).2
  | [], s => Moves.of_move (.inbox [] s)
  | inp :: rest, s => by
    unfold waitFor
    split
    · exact Moves.of_move (.inbox (inp :: rest) s)
    · rename_i s1 h1
      have hm := serveInput_moves h1
      have hp : Moves s1 (perform a (.caller id) s1).2 := Moves.of_move (.action a (.caller id) s1)
      split
      · rename_i v s2 h2
        rw [h2] at hp
        exact (hm.trans hp).trans (Moves.of_move (.inbox rest s2))
      · rename_i s2 h2
        rw [h2] at hp
        exact ((hm.trans hp).trans (dropExpiry_moves s2)).trans (waitFor_moves a id rest _)

theorem callerGo_moves (id : Nat) (a : Action) (s : State) : Moves s (callerGo id a s).2 := by
  have hp : Moves s (perform a (.caller id) s).2 := Moves.of_move (.action a (.caller id) s)
  unfold callerGo
  split
  · rename_i v s1 h; rw [h] at hp; exact hp
  · rename_i s1 h; rw [h] at hp; exact (hp.trans (dropExpiry_moves s1)).trans (waitFor_moves a id _ _)

theorem settle_moves {s : State} {id : Nat} {i : Instr} {r : RunRes (Except Err Value)} (h : r.Keeps (Moves s)) :
    OutcomeMoves s (settle id i r) := by
  cases r with
  | done a t => exact .next (Moves.trans h (Moves.of_move (.ended id (toResult a) t)))
  | parked log t => exact .next (Moves.trans h (Moves.of_move (.tasks (t.env.tasks ++ [Task.mk id i log]) t)))
  | refused r => exact .refused s r

/-- What an operation's turn leaves is reached by moves. -/
theorem OutcomeMoves.startTask (s : State) (i : Instr) (p : Prog (Except Err Value)) :
    OutcomeMoves s (startTask i p s) :=
  .after (Moves.of_move (.newTask s)) (settle_moves (Prog.run_moves (callerGo_moves _) p _ _ _ _))

theorem goOn_moves (id : Nat) (b : Bool) (s : State) : OutcomeMoves s (goOn id b s) := by
  unfold goOn
  split
  · exact .next Relation.ReflTransGen.refl
  · refine .after ?_ (settle_moves (Prog.run_moves (callerGo_moves _) _ _ _ _ _))
    exact (Moves.of_move (.tasks (s.env.tasks.filter fun u => u.id ≠ id) s)).trans (Moves.of_move (.fired b _))

/-- Every input that is no request moves the state. -/
theorem takeInput_moves (inp : Input) (s : State) : OutcomeMoves s (takeInput inp s) := by
  cases inp with
  | request r => exact .next Relation.ReflTransGen.refl
  | pin l => exact .next (Moves.of_move (.pin l s))
  | work => exact workerTurn_moves s
  | resume n => exact goOn_moves n false s
  | expire n => exact goOn_moves n true s
  | consume q => exact .next (Moves.of_move (.consume q s))
  | store b bs => exact .next (Moves.of_move (.store b bs s))

theorem OutcomeMoves.whenReady {s : State} {k : Host.Outcome State Fault Refusal} (h : OutcomeMoves s k) :
    OutcomeMoves s (whenReady s k) := OutcomeMoves.ite h (.refused _ _)

theorem OutcomeMoves.whenLive {s : State} {k : Host.Outcome State Fault Refusal} (h : OutcomeMoves s k) :
    OutcomeMoves s (whenLive s k) := OutcomeMoves.ite (.whenReady h) (.refused _ _)

theorem OutcomeMoves.whenIn {s : State} {l : List HifState} {k : Host.Outcome State Fault Refusal}
    (h : OutcomeMoves s k) : OutcomeMoves s (whenIn s l k) := OutcomeMoves.ite h (.refused _ _)

theorem OutcomeMoves.whenAddr {s : State} {a : Word} {k : Host.Outcome State Fault Refusal} (h : OutcomeMoves s k) :
    OutcomeMoves s (whenAddr s a k) := OutcomeMoves.whenReady (.ite h (.refused _ _))

theorem OutcomeMoves.startJob (s : State) (job : Nat → WorkerJob) : OutcomeMoves s (startJob job s) :=
  .whenReady (.ite (.refused _ _) (.ite (.refused _ _)
    (.after ((Moves.of_move (.newTask s)).trans (Moves.of_move (.sequence .isr (job s.env.nextTask) [] _)))
      (workerRun_moves _))))

theorem OutcomeMoves.buildRow (s : State) (i : Instr) (c : Cmd) : OutcomeMoves s (buildRow i c s) :=
  .ite (.whenIn (.startTask _ _ _)) (.refused _ _)

theorem OutcomeMoves.tagRow (s : State) (i : Instr) (seq : BitVec 4) (b : Bytes) :
    OutcomeMoves s (tagRow i seq b s) := .whenReady (.ite (.refused _ _) (.startTask _ _ _))

theorem OutcomeMoves.hifRow (s : State) (i : Instr) (g op : Byte) (pk : HifPacket) :
    OutcomeMoves s (hifRowExec i g op pk s) := by
  cases pk with
  | outbound c d o => exact OutcomeMoves.whenReady (.startTask _ _ _)
  | inbound f l => exact OutcomeMoves.startJob s fun id => .packet id g (hifOpcodeByte op f) l

theorem undecoded_moves (e : DecodeError) (s : State) : OutcomeMoves s (undecoded e s) := by
  cases e with
  | notATag b => exact .next Relation.ReflTransGen.refl
  | unknownPacket g op l => exact .startJob s fun id => .packet id g op l
  | _ => exact .refused _ _

/-- The instructions whose meaning is not a sequence of moves: `setPacketSize` alone. -/
def isSetPacketSize (i : Instr) : Bool :=
  match i with
  | .opSetPacketSize _ => true
  | _ => false

/-- Every instruction but `setPacketSize` moves the state. -/
theorem exec_moves (i : Instr) (s : State) (h : isSetPacketSize i = false) : OutcomeMoves s (exec i s) := by
  cases i with
  | opSetPacketSize limit => cases h
  | opReadRegister a => exact .whenAddr (.startTask _ _ _)
  | opWriteRegister a v => exact .whenAddr (.startTask _ _ _)
  | opReadBlock a b => exact .whenAddr (.ite (.refused _ _) (.startTask _ _ _))
  | opWriteBlock a b => exact .whenAddr (.ite (.refused _ _) (.ite (.startTask _ _ _) (.refused _ _)))
  | opHifInit => exact .whenIn (.startTask _ _ _)
  | opIsr => exact .startJob s .isr
  | hifSslCreate g pk =>
    cases pk with
    | outbound c d o =>
      exact .ite (.hifRow s (.hifSslCreate g (.outbound c d o)) g 0x50 (.outbound c d o)) (.refused _ _)
    | inbound f l => exact .hifRow s (.hifSslCreate g (.inbound f l)) g 0x50 (.inbound f l)
  | opRegisterCallback g cb => exact .whenIn (.startTask _ _ _)
  | opOpenEventChannel => exact .whenIn (.startTask _ _ _)
  | opGetHostByName n d => exact .whenLive (.ite (.refused _ _) (.startTask _ _ _))
  | opInitialize => exact .ite (.refused _ _) (.whenIn (.startTask _ _ _))
  | opReset => exact .ite (.whenIn (.startTask _ _ _)) (.refused _ _)
  | tagAny q => exact .whenReady (.startTask _ _ _)
  | cmdDmaWrite a n => exact .buildRow s (.cmdDmaWrite a n) (.dmaWrite a n)
  | cmdDmaRead a n => exact .buildRow s (.cmdDmaRead a n) (.dmaRead a n)
  | cmdInternalWrite a d => exact .buildRow s (.cmdInternalWrite a d) (.internalWrite a d)
  | cmdInternalRead a => exact .buildRow s (.cmdInternalRead a) (.internalRead a)
  | cmdTerminate => exact .buildRow s .cmdTerminate .terminate
  | cmdRepeat => exact .buildRow s .cmdRepeat .repeatData
  | cmdExtWrite a n => exact .buildRow s (.cmdExtWrite a n) (.extWrite a n)
  | cmdExtRead a n => exact .buildRow s (.cmdExtRead a n) (.extRead a n)
  | cmdSingleWrite a d => exact .buildRow s (.cmdSingleWrite a d) (.singleWrite a d)
  | cmdSingleRead a => exact .buildRow s (.cmdSingleRead a) (.singleRead a)
  | cmdReset => exact .buildRow s .cmdReset .reset
  | _ =>
    first
      | exact OutcomeMoves.tagRow _ _ _ _
      | exact OutcomeMoves.hifRow _ _ _ _ _
      | exact OutcomeMoves.whenReady (.startTask _ _ _)
      | exact OutcomeMoves.whenLive (.startTask _ _ _)

/-- `setPacketSize`, where it answers a next state: the limit is legal, the session has not begun, and only `PKT_LIMIT`
changes, the call recorded (R184). -/
theorem exec_setPacketSize {limit : Nat} {s t : State} (h : exec (.opSetPacketSize limit) s = .next t) :
    limit ∈ legalLimits ∧ (s.hif.state = .uninitialized ∨ s.hif.state = .shutdown) ∧
      t = returnToCaller (taskOf s) (.ok .unit) ((newTask s).mapFr fun f => { f with pktLimit := limit }) := by
  simp only [exec, execSetPacketSize] at h
  split at h
  · cases h
  · rename_i hst
    split at h
    · cases h
    · split at h
      · rename_i hl
        cases h
        refine ⟨by simpa using hl, ?_, rfl⟩
        by_cases hu : s.hif.state = .uninitialized
        · exact Or.inl hu
        · refine Or.inr ?_
          by_contra hs
          exact hst ⟨hu, hs⟩
      · cases h

/-- What a step can do. -/
theorem step_cases {s t : State} (h : step s = .next t) :
    Moves s t ∨ ∃ limit, limit ∈ legalLimits ∧ (s.hif.state = .uninitialized ∨ s.hif.state = .shutdown) ∧
      t = returnToCaller (taskOf s) (.ok .unit) ((newTask (popInput s)).mapFr fun f => { f with pktLimit := limit }) := by
  have hpop : Moves s (popInput s) := Moves.of_move (.inbox s.env.inbox.tail s)
  unfold step at h
  split at h
  · cases h; exact Or.inl Relation.ReflTransGen.refl
  · split at h
    · rename_i i _
      by_cases hi : isSetPacketSize i = false
      · exact Or.inl (hpop.trans (exec_moves i _ hi t h))
      · cases i with
        | opSetPacketSize limit =>
          obtain ⟨hl, hst, rfl⟩ := exec_setPacketSize h
          exact Or.inr ⟨limit, hl, hst, rfl⟩
        | _ => simp [isSetPacketSize] at hi
    · rename_i e _
      exact Or.inl (hpop.trans (undecoded_moves e _ t h))
  · exact Or.inl (hpop.trans (takeInput_moves _ _ t h))

end Sys2Proof.Machine
end

