-- ==== Sys2Proof/Laws/Wire.lean ====
section
/-!
SUPPORT. What the register and block operations do when the device answers them well: one lemma for each, in the terms
of `OnWire` (Safety.lean), for a caller task and for the worker alike.
-/

namespace Sys2Proof.Machine

/-! ### What an agent does with an action that need not wait -/

/-- The way an agent acts, wherever its action can be done at once. -/
def Agrees (go : Action → State → Option Val × State) (ag : Agent) : Prop :=
  ∀ a s v t, perform a ag s = (some v, t) → go a s = (some v, t)

theorem callerGo_agrees (id : Nat) : Agrees (callerGo id) (.caller id) := by
  intro a s v t h
  unfold callerGo
  rw [h]

theorem workerGo_agrees : Agrees workerGo .worker := fun _ _ _ _ h => h

variable {go : Action → State → Option Val × State} {ag : Agent}

/-- An action that is done at once and after which the agent does not hand over. -/
theorem eval_at_once {α : Type} (hgo : Agrees go ag) {a : Action} {k : Val → Prog α} {s t : State} {v : Val}
    (hp : perform a ag s = (some v, t)) (hy : t.env.yields = []) :
    (Prog.act a k).eval go s = (k v).eval go (endAction t) := by
  have h := hgo a s v t hp
  simp only [Prog.eval, h, handOver, hy, List.headD_nil]
  rfl

/-! ### The bus used -/

/-- The bus used and nothing else: `ev` went over it, `rest` is left of the script. -/
structure Moved (s t : State) (ev : List BusEvent) (rest : List (Option Byte)) : Prop where
  only : BusOnly s t
  miso : t.env.miso = rest
  bus : t.env.bus = s.env.bus ++ ev

theorem Moved.trans {s t u : State} {ev ev' : List BusEvent} {r r' : List (Option Byte)} (h : Moved s t ev r)
    (h' : Moved t u ev' r') : Moved s u (ev ++ ev') r' :=
  ⟨h.only.trans h'.only, h'.miso, by rw [h'.bus, h.bus, List.append_assoc]⟩

theorem chipSelect_moved (on : Bool) (s : State) :
    Moved s (chipSelect on s) [if on then .csAssert else .csRelease] s.env.miso :=
  ⟨chipSelect_busOnly on s, rfl, by cases on <;> rfl⟩

theorem xferBuf_moved (tx rx : Bytes) (rest : List (Option Byte)) (s : State) (hl : rx.length = tx.length)
    (hm : s.env.miso = rx.map some ++ rest) : ∃ t, xferBuf tx s = (some rx, t) ∧ Moved s t (xferEvents tx rx) rest :=
  ⟨_, xferBuf_script tx rx rest s hl hm, ⟨rfl, rfl, rfl, rfl, rfl, rfl, rfl, rfl, rfl⟩, rfl, rfl⟩

theorem busStep_moved (tx rx : Bytes) (rest : List (Option Byte)) (s : State) (hl : rx.length = tx.length)
    (hm : s.env.miso = rx.map some ++ rest) : ∃ t, busStep tx s = (some rx, t) ∧ Moved s t (stepEvents tx rx) rest :=
  ⟨_, busStep_script tx rx rest s hl hm, ⟨rfl, rfl, rfl, rfl, rfl, rfl, rfl, rfl, rfl⟩, rfl, rfl⟩

theorem busStep_stopped (tx rx : Bytes) (b : Byte) (tail : Bytes) (rest : List (Option Byte)) (s : State)
    (hl : rx.length = tx.length) (hm : s.env.miso = rx.map some ++ none :: rest) :
    ∃ t, busStep (tx ++ b :: tail) s = (none, t) ∧ Moved s t (failedStep tx rx b) rest :=
  ⟨_, busStep_fails tx rx b tail rest s hl hm, ⟨rfl, rfl, rfl, rfl, rfl, rfl, rfl, rfl, rfl⟩, rfl, rfl⟩

theorem xferBuf_stopped (tx rx : Bytes) (b : Byte) (tail : Bytes) (rest : List (Option Byte)) (s : State)
    (hl : rx.length = tx.length) (hm : s.env.miso = rx.map some ++ none :: rest) :
    ∃ t, xferBuf (tx ++ b :: tail) s = (none, t) ∧ Moved s t (xferEvents tx rx ++ [.xfer b none]) rest :=
  ⟨_, xferBuf_fails tx rx b tail rest s hl hm, ⟨rfl, rfl, rfl, rfl, rfl, rfl, rfl, rfl, rfl⟩, rfl, rfl⟩

/-- What goes over the bus in between chip-select asserted and released, where a transfer fails. -/
theorem Moved.failed {s t : State} {tx rx : Bytes} {b : Byte} {rest : List (Option Byte)}
    (h : Moved (chipSelect true s) t (xferEvents tx rx ++ [.xfer b none]) rest) :
    Moved s (chipSelect false t) (failedStep tx rx b) rest := by
  have h3 := ((chipSelect_moved true s).trans h).trans (chipSelect_moved false t)
  rw [h.miso] at h3
  simpa [failedStep] using h3

/-- What goes over the bus in between chip-select asserted and released. -/
theorem Moved.step {s t : State} {tx rx : Bytes} {rest : List (Option Byte)}
    (h : Moved (chipSelect true s) t (xferEvents tx rx) rest) : Moved s (chipSelect false t) (stepEvents tx rx) rest := by
  have h3 := ((chipSelect_moved true s).trans h).trans (chipSelect_moved false t)
  rwa [h.miso] at h3

@[simp] theorem filler_length (n : Nat) : (filler n).length = n := List.length_replicate

theorem filler_add (m n : Nat) : filler (m + n) = filler m ++ filler n := (List.replicate_append_replicate).symm

/-- A tag scan over bytes that are no tag, then a tag. -/
theorem scanTag_moved : ∀ (noise : Bytes) (n : Nat) (b : Byte) (rest : List (Option Byte)) (s : State),
    noise.length < n → (∀ x ∈ noise, x.extractLsb' 4 4 ≠ 0xF#4) → b.extractLsb' 4 4 = 0xF#4 →
    s.env.miso = (noise ++ [b]).map some ++ rest →
    ∃ t, scanTag n s = (none, t) ∧ Moved s t (xferEvents (filler (noise.length + 1)) (noise ++ [b])) rest
  | [], 0, _, _, _, h, _, _, _ => by simp at h
  | [], n + 1, b, rest, s, _, _, hb, hm =>
    ⟨_, scanTag_script n hb hm, ⟨rfl, rfl, rfl, rfl, rfl, rfl, rfl, rfl, rfl⟩, rfl, rfl⟩
  | x :: noise, 0, _, _, _, h, _, _, _ => by simp at h
  | x :: noise, n + 1, b, rest, s, hl, ht, hb, hm => by
    have hx := xfer_script (s := s) (a := some x) (rest := (noise ++ [b]).map some ++ rest) 0x00 (by simpa using hm)
    obtain ⟨t, h1, h2⟩ := scanTag_moved noise n b rest
      (s.mapEnv fun e =>
        { e with
          miso := (noise ++ [b]).map some ++ rest
          xferIx := e.xferIx + 1
          bus := e.bus ++ [.xfer 0x00 (some x)] })
      (by simpa using hl) (fun y hy => ht y (by simp [hy])) hb rfl
    have hne : x.extractLsb' 4 4 ≠ 0xF#4 := ht x (by simp)
    refine ⟨t, by simp only [scanTag, hx]; exact (if_neg hne).trans h1, ?_⟩
    have h0 : Moved s (s.mapEnv fun e =>
        { e with
          miso := (noise ++ [b]).map some ++ rest
          xferIx := e.xferIx + 1
          bus := e.bus ++ [.xfer 0x00 (some x)] }) [.xfer 0x00 (some x)] ((noise ++ [b]).map some ++ rest) :=
      ⟨⟨rfl, rfl, rfl, rfl, rfl, rfl, rfl, rfl, rfl⟩, rfl, rfl⟩
    exact h0.trans h2

/-- A tag scan that finds no tag. -/
theorem scanTag_none : ∀ (bytes : Bytes) (rest : List (Option Byte)) (s : State),
    (∀ x ∈ bytes, x.extractLsb' 4 4 ≠ 0xF#4) → s.env.miso = bytes.map some ++ rest →
    ∃ t, scanTag bytes.length s = (some .noStartTag, t) ∧
      Moved s t (xferEvents (filler bytes.length) bytes) rest
  | [], rest, s, _, hm => ⟨s, rfl, BusOnly.refl s, by simpa using hm, by simp [xferEvents, filler]⟩
  | x :: bytes, rest, s, ht, hm => by
    have hx := xfer_script (s := s) (a := some x) (rest := bytes.map some ++ rest) 0x00 (by simpa using hm)
    obtain ⟨t, h1, h2⟩ := scanTag_none bytes rest
      (s.mapEnv fun e =>
        { e with
          miso := bytes.map some ++ rest
          xferIx := e.xferIx + 1
          bus := e.bus ++ [.xfer 0x00 (some x)] })
      (fun y hy => ht y (by simp [hy])) rfl
    have hne : x.extractLsb' 4 4 ≠ 0xF#4 := ht x (by simp)
    refine ⟨t, by simp only [List.length_cons, scanTag, hx]; exact (if_neg hne).trans h1, ?_⟩
    have h0 : Moved s (s.mapEnv fun e =>
        { e with
          miso := bytes.map some ++ rest
          xferIx := e.xferIx + 1
          bus := e.bus ++ [.xfer 0x00 (some x)] }) [.xfer 0x00 (some x)] (bytes.map some ++ rest) :=
      ⟨⟨rfl, rfl, rfl, rfl, rfl, rfl, rfl, rfl, rfl⟩, rfl, rfl⟩
    exact h0.trans h2

/-- A tag scan cut short by a transfer that fails (log 18). -/
theorem scanTag_stopped : ∀ (rx : Bytes) (n : Nat) (rest : List (Option Byte)) (s : State), rx.length < n →
    (∀ x ∈ rx, x.extractLsb' 4 4 ≠ 0xF#4) → s.env.miso = rx.map some ++ none :: rest →
    ∃ t, scanTag n s = (some .xfer, t) ∧ Moved s t (xferEvents (filler rx.length) rx ++ [.xfer 0x00 none]) rest
  | [], 0, _, _, h, _, _ => by simp at h
  | [], n + 1, rest, s, _, _, hm => by
    have hx := xfer_script (s := s) (a := none) (rest := rest) 0x00 (by simpa using hm)
    exact ⟨s.mapEnv fun e => { e with miso := rest, xferIx := e.xferIx + 1, bus := e.bus ++ [.xfer 0x00 none] },
      by simp only [scanTag, hx], ⟨rfl, rfl, rfl, rfl, rfl, rfl, rfl, rfl, rfl⟩, rfl, rfl⟩
  | x :: rx, 0, _, _, h, _, _ => by simp at h
  | x :: rx, n + 1, rest, s, hl, ht, hm => by
    have hx := xfer_script (s := s) (a := some x) (rest := rx.map some ++ none :: rest) 0x00 (by simpa using hm)
    obtain ⟨t, h1, h2⟩ := scanTag_stopped rx n rest
      (s.mapEnv fun e =>
        { e with
          miso := rx.map some ++ none :: rest
          xferIx := e.xferIx + 1
          bus := e.bus ++ [.xfer 0x00 (some x)] })
      (by simpa using hl) (fun y hy => ht y (by simp [hy])) rfl
    have hne : x.extractLsb' 4 4 ≠ 0xF#4 := ht x (by simp)
    refine ⟨t, by simp only [scanTag, hx]; exact (if_neg hne).trans h1, ?_⟩
    have h0 : Moved s (s.mapEnv fun e =>
        { e with
          miso := rx.map some ++ none :: rest
          xferIx := e.xferIx + 1
          bus := e.bus ++ [.xfer 0x00 (some x)] }) [.xfer 0x00 (some x)] (rx.map some ++ none :: rest) :=
      ⟨⟨rfl, rfl, rfl, rfl, rfl, rfl, rfl, rfl, rfl⟩, rfl, rfl⟩
    exact h0.trans h2

/-! ### The command frame -/

/-- The framer's command registers hold the frame of a command (R90, R92, R96). -/
theorem frameBytes_buildFrame (c : Cmd) (s : State) :
    frameBytes (buildFrame c s).fr = commandWire s.params s.fr.crcEn c := by
  cases c <;> cases h : s.fr.crcEn <;>
    simp [frameBytes, buildFrame, commandWire, Cmd.bytes, Cmd.operandBytes, be2, be3, be4, be2Clockless, h,
      List.getD]

theorem buildFrame_cf0 (c : Cmd) (s : State) : (buildFrame c s).fr.cf[0] = c.opcode := by
  simp [buildFrame, Cmd.bytes]

theorem buildFrame_crcEn (c : Cmd) (s : State) : (buildFrame c s).fr.crcEn = s.fr.crcEn := rfl

/-! ### An operation between the taking and the release of `T_LOCK` -/

/-- In attempt `k` of an operation: of `s`, only working registers, bus record and script differ; the lock is held. -/
structure Mid (ag : Agent) (s : State) (k : Nat) (t : State) (ev : List BusEvent) (rest : List (Option Byte)) : Prop where
  att : t.tr.att = k
  crcEn : t.fr.crcEn = s.fr.crcEn
  limit : t.fr.pktLimit = s.fr.pktLimit
  lock : t.tr.lock = .held ag
  lastErr : t.tr.lastErr = s.tr.lastErr
  hif : t.hif = s.hif
  irq : t.irq = s.irq
  sock : t.sock = s.sock
  root : t.root = s.root
  mem : t.mem = s.mem
  params : t.params = s.params
  yields : t.env.yields = []
  bus : t.env.bus = s.env.bus ++ ev
  miso : t.env.miso = rest
  env : t.env =
    { s.env with
      miso := t.env.miso, xferIx := t.env.xferIx, free := t.env.free, bus := t.env.bus, fired := t.env.fired }

/-- The bus used, then framer registers and the sequencer changed, then the end of the action. -/
theorem Mid.moved {s t u w : State} {k : Nat} {ev ev' : List BusEvent} {r r' : List (Option Byte)} (h : Mid ag s k t ev r)
    (hm : Moved t u ev' r') (hc : w.fr.crcEn = u.fr.crcEn) (hl : w.fr.pktLimit = u.fr.pktLimit)
    (hk : w.tr.lock = u.tr.lock) (he : w.tr.lastErr = u.tr.lastErr) (hhif : w.hif = u.hif) (hirq : w.irq = u.irq)
    (hsock : w.sock = u.sock) (hroot : w.root = u.root) (hmem : w.mem = u.mem) (hpar : w.params = u.params)
    (henv : w.env = { u.env with free := w.env.free }) (hatt : w.tr.att = u.tr.att := by rfl) :
    Mid ag s k (endAction w) (ev ++ ev') r' := by
  have h1 : u.env = { t.env with miso := u.env.miso, xferIx := u.env.xferIx, bus := u.env.bus } := hm.only.env
  have hwm : w.env.miso = u.env.miso := by rw [henv]
  have hwb : w.env.bus = u.env.bus := by rw [henv]
  have hey : (endAction w).env.yields = w.env.yields.tail := rfl
  have hwy : w.env.yields = [] := by rw [henv, h1]; exact h.yields
  exact
    { att := by rw [endAction_tr, hatt, hm.only.tr, h.att]
      crcEn := by rw [endAction_fr, hc, hm.only.fr, h.crcEn]
      limit := by rw [endAction_fr, hl, hm.only.fr, h.limit]
      lock := by rw [endAction_tr, hk, hm.only.tr, h.lock]
      lastErr := by rw [endAction_tr, he, hm.only.tr, h.lastErr]
      hif := by rw [endAction_hif, hhif, hm.only.hif, h.hif]
      irq := by rw [endAction_irq, hirq, hm.only.irq, h.irq]
      sock := by rw [endAction_sock, hsock, hm.only.sock, h.sock]
      root := by rw [endAction_root, hroot, hm.only.root, h.root]
      mem := by rw [endAction_mem, hmem, hm.only.mem, h.mem]
      params := by rw [endAction_params, hpar, hm.only.params, h.params]
      yields := by rw [hey, hwy]; rfl
      bus := by
        have : (endAction w).env.bus = w.env.bus := rfl
        rw [this, hwb, hm.bus, h.bus, List.append_assoc]
      miso := by
        have : (endAction w).env.miso = w.env.miso := rfl
        rw [this, hwm, hm.miso]
      env := by
        have hsy : s.env.yields = [] := by
          have := h.yields
          rw [h.env] at this
          exact this
        rw [endAction_env, henv, h1, h.env]
        simp [hsy] }

theorem Moved.refl (s : State) : Moved s s [] s.env.miso := ⟨BusOnly.refl s, rfl, by simp⟩

theorem Mid.yields_moved {s t u : State} {k : Nat} {ev ev' : List BusEvent} {r r' : List (Option Byte)} (h : Mid ag s k t ev r)
    (hm : Moved t u ev' r') : u.env.yields = [] := by rw [hm.only.env]; exact h.yields

/-- `T_LOCK` taken. -/
theorem mid_acquire (hgo : Agrees go ag) {s : State} (h : BusReady s) :
    ∃ t, (∀ {α : Type} (k : Val → Prog α), (Prog.act .acquire k).eval go s = (k .unit).eval go t) ∧
      Mid ag s 1 t [] s.env.miso := by
  refine ⟨endAction (s.mapTr fun t => { t with lock := .held ag, seq := .build, att := 1 }), ?_, ?_⟩
  · intro α k
    refine eval_at_once hgo ?_ h.yields
    simp [perform, doAcquire, h.lock, Lock.take]
  · constructor <;> simp [h.yields]

/-- The command frame built. -/
theorem mid_build (hgo : Agrees go ag) {s t : State} {k : Nat} {ev : List BusEvent} {rest : List (Option Byte)}
    (c : Cmd) (h : Mid ag s k t ev rest) :
    ∃ u, (∀ {α : Type} (p : Prog α), (Prog.andThen (.build c) p).eval go t = p.eval go u) ∧ Mid ag s k u ev rest ∧
      frameBytes u.fr = commandWire s.params s.fr.crcEn c ∧ u.fr.cf[0] = c.opcode := by
  let t1 := (buildFrame c t).mapTr fun r => { r with seq := .cmdWr }
  have hb : perform (.build c) ag t = (some .unit, t1) := rfl
  have m1 : Mid ag s k (endAction t1) (ev ++ []) rest :=
    Mid.moved (u := t) (w := t1) h ⟨BusOnly.refl t, h.miso, by simp⟩ rfl rfl rfl rfl rfl rfl rfl rfl rfl rfl rfl
  rw [List.append_nil] at m1
  have ht1 : t1.env.yields = [] := h.yields
  refine ⟨endAction t1, fun p => by rw [Prog.andThen, eval_at_once hgo hb ht1], m1, ?_, buildFrame_cf0 c t⟩
  have := frameBytes_buildFrame c t
  rw [h.crcEn, h.params] at this
  exact this

/-- The command frame built and sent. -/
theorem mid_command (hgo : Agrees go ag) {s t : State} {k : Nat} {ev : List BusEvent} {x : Bytes}
    {rest : List (Option Byte)} (c : Cmd) (last : Bool) (h : Mid ag s k t ev (x.map some ++ rest))
    (hx : x.length = (commandWire s.params s.fr.crcEn c).length) :
    ∃ u, (∀ {α : Type} (k : Val → Prog α),
        (Prog.andThen (.build c) (.act (.cmdWr last) k)).eval go t = (k (.err none)).eval go u) ∧
      Mid ag s k u (ev ++ stepEvents (commandWire s.params s.fr.crcEn c) x) rest ∧ u.fr.cf[0] = c.opcode := by
  obtain ⟨t1, e1, m1, hfb, h0⟩ := mid_build hgo c h
  obtain ⟨v, hv1, hv2⟩ := busStep_moved (frameBytes t1.fr) x rest t1 (by rw [hfb]; exact hx) m1.miso
  let v' := v.mapTr fun r => { r with seq := if last then .doneOk else .rspRd }
  have hc : perform (.cmdWr last) ag t1 = (some (.err none), v') := by
    simp only [perform, doCmdWr, hv1]; rfl
  refine ⟨endAction v', ?_, ?_, ?_⟩
  · intro α k
    rw [e1, eval_at_once hgo hc (show v.env.yields = [] from m1.yields_moved hv2)]
  · have := Mid.moved (w := v') m1 hv2 rfl rfl rfl rfl rfl rfl rfl rfl rfl rfl rfl
    rwa [hfb] at this
  · show v.fr.cf[0] = _
    rw [hv2.only.fr]
    exact h0

/-- The command frame built, and a transfer of it that fails (log 18). -/
theorem mid_command_fails (hgo : Agrees go ag) {s t : State} {k : Nat} {ev : List BusEvent} {tx rx tail : Bytes}
    {b : Byte} {rest : List (Option Byte)} (c : Cmd) (last : Bool)
    (h : Mid ag s k t ev (rx.map some ++ none :: rest)) (hc : commandWire s.params s.fr.crcEn c = tx ++ b :: tail)
    (hl : rx.length = tx.length) :
    ∃ u, (∀ {α : Type} (k : Val → Prog α),
        (Prog.andThen (.build c) (.act (.cmdWr last) k)).eval go t = (k (.err (some .xfer))).eval go u) ∧
      Mid ag s k u (ev ++ failedStep tx rx b) rest := by
  obtain ⟨t1, e1, m1, hfb, _⟩ := mid_build hgo c h
  obtain ⟨v, hv1, hv2⟩ := busStep_stopped tx rx b tail rest t1 hl m1.miso
  rw [← hc, ← hfb] at hv1
  have hp : perform (.cmdWr last) ag t1 = (some (.err (some .xfer)), v) := by simp only [perform, doCmdWr, hv1]
  refine ⟨endAction v, fun k => by rw [e1, eval_at_once hgo hp (m1.yields_moved hv2)], ?_⟩
  exact Mid.moved (w := v) m1 hv2 rfl rfl rfl rfl rfl rfl rfl rfl rfl rfl rfl

theorem checkRsp_good (c : Cmd) (hi : BitVec 4) : checkRsp c.opcode #v[c.opcode, hi ++ 0x0#4] = none := by
  have h : (hi ++ 0x0#4).extractLsb' 0 4 = 0#4 := by
    revert hi
    decide
  simp [checkRsp, h]

/-- A good response read and checked. -/
theorem mid_response (hgo : Agrees go ag) {s t : State} {k : Nat} {ev : List BusEvent} {rest : List (Option Byte)}
    (c : Cmd) (hi : BitVec 4) (next : TSeq) (h : Mid ag s k t ev ((goodRsp c hi).map some ++ rest))
    (hc : t.fr.cf[0] = c.opcode) :
    ∃ u, (∀ {α : Type} (k : Val → Prog α), (Prog.act (.rspRd next) k).eval go t = (k (.err none)).eval go u) ∧
      Mid ag s k u (ev ++ stepEvents (filler 2) (goodRsp c hi)) rest := by
  obtain ⟨v, hv1, hv2⟩ := busStep_moved (filler 2) (goodRsp c hi) rest t (by simp [goodRsp]) h.miso
  let v1 := v.mapFr fun f => { f with rsp := #v[c.opcode, hi ++ 0x0#4] }
  let v' := v1.mapTr fun r => { r with seq := next }
  have hvc : v1.fr.cf[0] = c.opcode := by
    show v.fr.cf[0] = _
    rw [hv2.only.fr, hc]
  have hp : perform (.rspRd next) ag t = (some (.err none), v') := by
    simp only [goodRsp] at hv1
    simp only [perform, doRspRd, hv1]
    have : checkRsp v1.fr.cf[0] v1.fr.rsp = none := by rw [hvc]; exact checkRsp_good c hi
    simp only [v1] at this
    rw [this]
  exact ⟨endAction v', fun k => eval_at_once hgo hp (show v.env.yields = [] from h.yields_moved hv2),
    Mid.moved (w := v') h hv2 rfl rfl rfl rfl rfl rfl rfl rfl rfl rfl rfl⟩

/-- `T_LOCK` released at the end. -/
theorem mid_release (hgo : Agrees go ag) {s t : State} {k : Nat} {ev : List BusEvent} {rest : List (Option Byte)}
    (h : Mid ag s k t ev rest) :
    ∃ u, (∀ {α : Type} (p : Prog α), (Prog.andThen .release p).eval go t = p.eval go u) ∧ BusDone s u ev rest ∧
      u.env.yields = [] ∧ u.fr = t.fr ∧ u.tr.att = k := by
  let v := t.mapTr fun r => { r with seq := .idle, lock := r.lock.drop ag }
  have hp : perform .release ag t = (some .unit, v) := rfl
  have m := Mid.moved (u := t) (w := v.mapTr fun r => { r with lock := .held ag }) (ev' := []) h
    ⟨BusOnly.refl t, h.miso, by simp⟩
    rfl rfl h.lock.symm rfl rfl rfl rfl rfl rfl rfl rfl
  refine ⟨endAction v, ?_, ?_, m.yields, rfl, h.att⟩
  · intro α p
    exact eval_at_once hgo hp h.yields
  · have hd : v.tr.lock = .free := by
      show Lock.drop t.tr.lock ag = _
      rw [h.lock]
      simp [Lock.drop]
    exact
      { crcEn := m.crcEn
        limit := m.limit
        lock := hd
        idle := rfl
        lastErr := m.lastErr
        hif := m.hif
        irq := m.irq
        sock := m.sock
        root := m.root
        mem := m.mem
        params := m.params
        bus := by simpa using m.bus
        env := by
          have h1 := m.env
          have h2 := m.miso
          exact h1.trans (by rw [h2]; rfl) }

/-! ### Data frames -/

theorem tag_high (seq : BitVec 4) : (0xF#4 ++ seq).extractLsb' 4 4 = 0xF#4 := by
  revert seq
  decide

/-- One chunk read. -/
theorem readChunk_moved {s : State} {d : Bytes} {ev : List BusEvent} {rest : List (Option Byte)}
    (hc : ChunkFrom s.fr.crcEn d ev) (hd : d.length = chunkSize s.fr) (hm : s.env.miso = answersOf ev ++ rest) :
    ∃ t, readChunk (chipSelect true s) =
        (.ok d, t.mapFr fun f => { f with dfRem := f.dfRem - d.length, dfIx := f.dfIx + 1 }) ∧
      Moved s (chipSelect false t) ev rest := by
  obtain ⟨noise, rx, seq, c0, c1, hn, ht, rfl⟩ := hc
  rw [answersOf_stepEvents (by simp)] at hm
  obtain ⟨t1, h1, m1⟩ := scanTag_moved noise tagScanMax (0xF#4 ++ seq)
    ((d ++ crcTail s.fr.crcEn c0 c1).map some ++ rest) (chipSelect true s) hn ht (tag_high seq)
    (by simpa [chipSelect] using hm)
  obtain ⟨t2, h2, m2⟩ := xferBuf_moved (filler (chunkSize s.fr)) d ((crcTail s.fr.crcEn c0 c1).map some ++ rest) t1
    (by simp [hd]) (by simpa using m1.miso)
  obtain ⟨t3, h3, m3⟩ := xferBuf_moved (chunkCrc s.fr.crcEn) (crcTail s.fr.crcEn c0 c1) rest t2
    (by cases s.fr.crcEn <;> rfl) m2.miso
  have hcs : (chipSelect true s).fr = s.fr := rfl
  refine ⟨t3, ?_, Moved.step ?_⟩
  · simp only [readChunk, hcs, h1, h2, h3]
  · have hf : chunkCrc s.fr.crcEn = filler (crcTail s.fr.crcEn c0 c1).length := by cases s.fr.crcEn <;> rfl
    have hm3 := (m1.trans m2).trans m3
    rw [hf, ← hd, ← xferEvents_append _ _ (by simp), ← filler_add, ← xferEvents_append _ _ (by simp; omega), ← filler_add]
      at hm3
    have hrx : noise ++ [0xF#4 ++ seq] ++ d ++ crcTail s.fr.crcEn c0 c1 =
        noise ++ (0xF#4 ++ seq) :: d ++ crcTail s.fr.crcEn c0 c1 := by simp
    have hlen : noise.length + 1 + d.length + (crcTail s.fr.crcEn c0 c1).length =
        (noise ++ (0xF#4 ++ seq) :: d ++ crcTail s.fr.crcEn c0 c1).length := by
      simp only [List.length_append, List.length_cons]; omega
    rwa [hrx, hlen] at hm3

/-- A chunk read that a transfer that fails cuts short, in the tag scan, the payload or the CRC bytes (log 18). -/
theorem readChunk_stopped {s : State} {noise d rx tail : Bytes} {y c0 c1 : Byte} {seq : BitVec 4}
    {rest : List (Option Byte)} (hd : d.length = chunkSize s.fr) (hn : noise.length < tagScanMax)
    (ht : ∀ b ∈ noise, b.extractLsb' 4 4 ≠ 0xF#4)
    (hc : noise ++ (0xF#4 ++ seq) :: d ++ crcTail s.fr.crcEn c0 c1 = rx ++ y :: tail)
    (hm : s.env.miso = rx.map some ++ none :: rest) :
    ∃ t, readChunk (chipSelect true s) = (.error .xfer, t) ∧
      Moved s (chipSelect false t) (failedStep (filler rx.length) rx 0x00) rest := by
  have scan : rx.length ≤ noise.length → (∀ b ∈ rx, b ∈ noise) → ∃ t, readChunk (chipSelect true s) = (.error .xfer, t) ∧
      Moved s (chipSelect false t) (failedStep (filler rx.length) rx 0x00) rest := by
    intro hle hmem
    obtain ⟨t, h1, h2⟩ := scanTag_stopped rx tagScanMax rest (chipSelect true s) (by omega)
      (fun b hb => ht b (hmem b hb)) (by simpa [chipSelect] using hm)
    exact ⟨t, by simp only [readChunk, h1], h2.failed⟩
  have hcs : (chipSelect true s).fr = s.fr := rfl
  rw [List.append_assoc, List.cons_append] at hc
  rcases List.append_eq_append_iff.mp hc with ⟨a, rfl, ha⟩ | ⟨a, rfl, _⟩
  swap
  · exact scan (by simp) fun b hb => by simp [hb]
  rcases a with _ | ⟨_, r⟩
  · exact scan (by simp) fun b hb => by simpa using hb
  obtain ⟨rfl, hr⟩ := List.cons.inj ha
  obtain ⟨t1, h1, m1⟩ := scanTag_moved noise tagScanMax (0xF#4 ++ seq) (r.map some ++ none :: rest) (chipSelect true s) hn
    ht (tag_high seq) (by simpa [chipSelect] using hm)
  -- the payload, cut short or whole
  have payload : ∀ (z : Byte) (w : Bytes), d = r ++ z :: w → ∃ t, readChunk (chipSelect true s) = (.error .xfer, t) ∧
      Moved s (chipSelect false t) (failedStep (filler (noise ++ (0xF#4 ++ seq) :: r).length) (noise ++ (0xF#4 ++ seq) :: r)
        0x00) rest := by
    intro z w hw
    have hf : filler (chunkSize s.fr) = filler r.length ++ 0x00 :: filler w.length := by
      rw [show (0x00 : Byte) :: filler w.length = filler (1 + w.length) by rw [filler_add]; rfl, ← filler_add, ← hd, hw]
      simp only [List.length_append, List.length_cons]
      congr 1
      omega
    obtain ⟨t2, h2, m2⟩ := xferBuf_stopped (filler r.length) r 0x00 (filler w.length) rest t1 (by simp)
      (by simpa using m1.miso)
    rw [← hf] at h2
    refine ⟨t2, by simp only [readChunk, hcs, h1, h2], Moved.failed ?_⟩
    have hm2 := m1.trans m2
    rw [← List.append_assoc, ← xferEvents_append _ _ (by simp), ← filler_add] at hm2
    simpa [Nat.add_assoc, Nat.add_comm 1] using hm2
  rcases List.append_eq_append_iff.mp hr with ⟨q, rfl, hq⟩ | ⟨q, hq, hq'⟩
  swap
  · cases q with
    | nil =>
      -- the payload is whole, the first CRC byte fails
      have hrd : d = r := by simpa using hq
      subst hrd
      have hq' : crcTail s.fr.crcEn c0 c1 = y :: tail := by simpa using hq'.symm
      obtain ⟨t2, h2, m2⟩ := xferBuf_moved (filler (chunkSize s.fr)) d (none :: rest) t1 (by simp [hd]) m1.miso
      have hk : chunkCrc s.fr.crcEn = filler 0 ++ 0x00 :: filler tail.length := by
        cases hcrc : s.fr.crcEn with
        | false => rw [hcrc] at hq'; simp [crcTail] at hq'
        | true =>
          rw [hcrc] at hq'
          simp only [crcTail, if_true, List.cons.injEq] at hq'
          rw [← hq'.2]
          rfl
      obtain ⟨t3, h3, m3⟩ := xferBuf_stopped (filler 0) [] 0x00 (filler tail.length) rest t2 rfl (by simpa using m2.miso)
      rw [← hk] at h3
      refine ⟨t3, by simp only [readChunk, hcs, h1, h2, h3], Moved.failed ?_⟩
      have hm3 := (m1.trans m2).trans m3
      rw [← hd, ← xferEvents_append _ _ (by simp), ← filler_add] at hm3
      simpa [xferEvents, Nat.add_assoc, Nat.add_comm 1] using hm3
    | cons z w =>
      have : z = y := by simpa using (List.cons.inj hq').1.symm
      exact payload z w hq
  · -- the payload is whole, a CRC byte fails
    obtain ⟨t2, h2, m2⟩ := xferBuf_moved (filler (chunkSize s.fr)) d (q.map some ++ none :: rest) t1 (by simp [hd])
      (by simpa using m1.miso)
    have hk : chunkCrc s.fr.crcEn = filler q.length ++ 0x00 :: filler tail.length := by
      have hl := congrArg List.length hq
      have : chunkCrc s.fr.crcEn = filler (crcTail s.fr.crcEn c0 c1).length := by cases s.fr.crcEn <;> rfl
      rw [this, hl, show (0x00 : Byte) :: filler tail.length = filler (1 + tail.length) by rw [filler_add]; rfl, ← filler_add]
      simp only [List.length_append, List.length_cons]
      congr 1
      omega
    obtain ⟨t3, h3, m3⟩ := xferBuf_stopped (filler q.length) q 0x00 (filler tail.length) rest t2 (by simp)
      (by simpa using m2.miso)
    rw [← hk] at h3
    refine ⟨t3, by simp only [readChunk, hcs, h1, h2, h3], Moved.failed ?_⟩
    have hm3 := (m1.trans m2).trans m3
    rw [← hd, ← List.append_assoc, ← xferEvents_append _ _ (by simp), ← filler_add, ← xferEvents_append _ _ (by simp; omega),
      ← filler_add] at hm3
    simpa [Nat.add_assoc, Nat.add_comm 1] using hm3

/-- A chunk of a data frame read; what is left of the frame says whether another follows. -/
theorem mid_chunk (hgo : Agrees go ag) {s t : State} {k : Nat} {d : Bytes} {ev0 ev : List BusEvent}
    {rest : List (Option Byte)} (hc : ChunkFrom s.fr.crcEn d ev) (h : Mid ag s k t ev0 (answersOf ev ++ rest))
    (hd : d.length = min t.fr.dfRem s.fr.pktLimit) :
    ∃ u, (∀ {α : Type} (f : Val → Prog α), (Prog.act .chunkRd f).eval go t =
        (f (.chunk none d (decide (t.fr.dfRem - d.length ≠ 0)))).eval go u) ∧
      Mid ag s k u (ev0 ++ ev) rest ∧ u.fr.dfRem = t.fr.dfRem - d.length := by
  obtain ⟨v, hv1, hv2⟩ := readChunk_moved (s := t) (d := d) (rest := rest) (by rw [h.crcEn]; exact hc)
    (by rw [chunkSize, h.limit]; exact hd) h.miso
  let v1 := chipSelect false (v.mapFr fun f => { f with dfRem := f.dfRem - d.length, dfIx := f.dfIx + 1 })
  have hrem : v1.fr.dfRem = t.fr.dfRem - d.length := by
    show (chipSelect false v).fr.dfRem - d.length = _
    rw [hv2.only.fr]
  by_cases h0 : t.fr.dfRem - d.length = 0
  · let w := v1.mapTr fun r => { r with seq := .doneOk }
    have hp : perform .chunkRd ag t = (some (.chunk none d (decide (t.fr.dfRem - d.length ≠ 0))), w) := by
      simp only [perform, doChunkRd, hv1]
      rw [h0]
      exact if_pos (hrem.trans h0)
    exact ⟨endAction w, fun f => eval_at_once hgo hp (show (chipSelect false v).env.yields = [] from h.yields_moved hv2),
      Mid.moved (w := w) h hv2 rfl rfl rfl rfl rfl rfl rfl rfl rfl rfl rfl, hrem⟩
  · have hp : perform .chunkRd ag t = (some (.chunk none d (decide (t.fr.dfRem - d.length ≠ 0))), v1) := by
      simp only [perform, doChunkRd, hv1]
      rw [decide_eq_true h0]
      exact if_neg (by show ¬ v1.fr.dfRem = 0; rw [hrem]; exact h0)
    exact ⟨endAction v1, fun f => eval_at_once hgo hp (show (chipSelect false v).env.yields = [] from h.yields_moved hv2),
      Mid.moved (w := v1) h hv2 rfl rfl rfl rfl rfl rfl rfl rfl rfl rfl rfl, hrem⟩

/-- The chunks of a data frame read. -/
theorem mid_readChunks (hgo : Agrees go ag) {s : State} {k : Nat} {d : Bytes} {ev : List BusEvent}
    (hL : 0 < s.fr.pktLimit) (hf : FrameFrom s.fr.crcEn s.fr.pktLimit d ev) :
    ∀ (n : Nat) (t : State) (ev0 : List BusEvent) (acc : Bytes) (rest : List (Option Byte)), d.length ≤ n →
      Mid ag s k t ev0 (answersOf ev ++ rest) → t.fr.dfRem = d.length →
      ∃ u, (readChunks n acc).eval go t = some (.ok (acc ++ d), u) ∧ Mid ag s k u (ev0 ++ ev) rest := by
  induction hf with
  | last d ev h0 hl hc =>
    intro n t ev0 acc rest hn h hr
    obtain ⟨n, rfl⟩ : ∃ m, n = m + 1 := ⟨n - 1, by omega⟩
    obtain ⟨u, e, m, _⟩ := mid_chunk hgo hc h (by rw [hr]; omega)
    refine ⟨u, ?_, m⟩
    rw [readChunks, e, hr, Nat.sub_self]
    rfl
  | more d rest' ev ev' hl hr' hc hf ih =>
    intro n t ev0 acc rest hn h hr
    rw [List.length_append] at hn hr
    obtain ⟨n, rfl⟩ : ∃ m, n = m + 1 := ⟨n - 1, by omega⟩
    rw [answersOf_append, List.append_assoc] at h
    obtain ⟨u, e, m, hrem⟩ := mid_chunk hgo hc h (by rw [hr]; omega)
    rw [hr, Nat.add_sub_cancel_left] at hrem
    obtain ⟨w, ew, mw⟩ := ih n u _ (acc ++ d) rest (by omega) m hrem
    refine ⟨w, ?_, by rw [← List.append_assoc]; exact mw⟩
    rw [readChunks, e, hr, Nat.add_sub_cancel_left, decide_eq_true (Nat.pos_iff_ne_zero.mp hr')]
    rw [← List.append_assoc]
    exact ew

/-- Chunks read in full, then one that ends in an error (R146). -/
theorem mid_readChunks_fails (hgo : Agrees go ag) {s : State} {k n m : Nat} {ev ev' : List BusEvent} {e : Err}
    {rest : List (Option Byte)} (hL : 0 < s.fr.pktLimit) (hf : ChunksFrom s.fr.crcEn s.fr.pktLimit n m ev)
    (hlast : ∀ (t : State), t.fr.crcEn = s.fr.crcEn → t.fr.pktLimit = s.fr.pktLimit → t.fr.dfRem = m →
      t.env.miso = answersOf ev' ++ rest →
      ∃ v, readChunk (chipSelect true t) = (.error e, v) ∧ Moved t (chipSelect false v) ev' rest) :
    ∀ (q : Nat) (t : State) (ev0 : List BusEvent) (acc : Bytes), n ≤ q →
      Mid ag s k t ev0 (answersOf ev ++ (answersOf ev' ++ rest)) → t.fr.dfRem = n →
      ∃ u, (readChunks q acc).eval go t = some (.error e, u) ∧ Mid ag s k u (ev0 ++ (ev ++ ev')) rest := by
  induction hf with
  | nil r h0 =>
    intro q t ev0 acc hn h hr
    obtain ⟨q, rfl⟩ : ∃ m, q = m + 1 := ⟨q - 1, by omega⟩
    obtain ⟨v, hv1, hv2⟩ := hlast t h.crcEn h.limit hr (by simpa using h.miso)
    have hp : perform .chunkRd ag t = (some (.chunk (some e) [] false), chipSelect false v) := by
      simp only [perform, doChunkRd, hv1]
    refine ⟨_, ?_, Mid.moved h hv2 rfl rfl rfl rfl rfl rfl rfl rfl rfl rfl rfl⟩
    rw [readChunks, eval_at_once hgo hp (h.yields_moved hv2)]
    rfl
  | more r m d ev1 ev2 hl hc hf ih =>
    intro q t ev0 acc hn h hr
    have hpos : 0 < r := by cases hf <;> omega
    obtain ⟨q, rfl⟩ : ∃ m, q = m + 1 := ⟨q - 1, by omega⟩
    rw [answersOf_append, List.append_assoc] at h
    obtain ⟨u, e1, m1, hrem⟩ := mid_chunk hgo hc h (by rw [hr]; omega)
    rw [hr, hl, Nat.add_sub_cancel_left] at hrem
    obtain ⟨w, ew, mw⟩ := ih hlast q u _ (acc ++ d) (by omega) m1 hrem
    refine ⟨w, ?_, by simpa [List.append_assoc] using mw⟩
    rw [readChunks, e1, hr, hl, Nat.add_sub_cancel_left, decide_eq_true (Nat.pos_iff_ne_zero.mp hpos)]
    exact ew

theorem chunkBytes_eq (seq : BitVec 4) (d : Bytes) (crcEn : Bool) :
    chunkBytes seq d crcEn = (0xF#4 ++ seq) :: d ++ crcTail crcEn 0x00 0x00 := by
  cases crcEn <;> rfl

/-- What goes out as the next chunk: the tag, and what comes next in the source (R142, R143). -/
theorem chunkBytes_wire {f : Framer} {b done left : Bytes} (hs : b = done ++ left) (hr : f.dfRem = left.length) :
    chunkBytes (tagSeq f.dfIx f.dfRem (chunkSize f)) (nextPayload f b) f.crcEn =
      chunkWire f.crcEn f.pktLimit f.dfIx left := by
  have h1 : b.length - f.dfRem = done.length := by rw [hs, hr]; simp
  have hp : nextPayload f b = left.take f.pktLimit := by
    rw [nextPayload, h1, hs, List.drop_left, chunkSize, hr, Nat.min_comm, ← List.take_take, List.take_length]
  have ht : (0xF#4 ++ tagSeq f.dfIx f.dfRem (chunkSize f) : Byte) =
      if left.length ≤ f.pktLimit then 0xF3 else if f.dfIx = 0 then 0xF1 else 0xF2 := by
    rw [tagSeq, chunkSize, hr]
    by_cases hle : left.length ≤ f.pktLimit
    · rw [if_pos hle, if_pos (by omega)]; rfl
    · rw [if_neg hle, if_neg (by omega)]; split <;> rfl
  rw [chunkBytes_eq, ht, hp, chunkWire]

theorem chunkWire_last {crcEn : Bool} {limit : Nat} {d : Bytes} (ix : Nat) (h : d.length ≤ limit) :
    chunkWire crcEn limit ix d = 0xF3 :: d ++ crcTail crcEn 0x00 0x00 := by
  rw [chunkWire, if_pos h, List.take_of_length_le h]

theorem chunkWire_more {crcEn : Bool} {limit : Nat} {d left : Bytes} (ix : Nat) (hd : d.length = limit)
    (h0 : 0 < left.length) :
    chunkWire crcEn limit ix (d ++ left) = (if ix = 0 then 0xF1 else 0xF2) :: d ++ crcTail crcEn 0x00 0x00 := by
  rw [chunkWire, if_neg (by simp; omega), ← hd, List.take_left]

/-- One chunk of a data frame written; what is left of the frame says whether another follows (R142). -/
theorem mid_chunkWr (hgo : Agrees go ag) {s t : State} {k : Nat} (src : Source) {done left y wire : Bytes}
    {ev0 : List BusEvent} {rest : List (Option Byte)} (h : Mid ag s k t ev0 (answersOf (stepEvents wire y) ++ rest))
    (hr : t.fr.dfRem = left.length) (hs : padBlock (src.load s.mem) = done ++ left)
    (hw : wire = chunkWire s.fr.crcEn s.fr.pktLimit t.fr.dfIx left) (hy : y.length = wire.length) :
    ∃ u, (∀ {α : Type} (f : Val → Prog α), (Prog.act (.chunkWr src) f).eval go t =
        (f (.chunk none [] (decide (s.fr.pktLimit < left.length)))).eval go u) ∧
      Mid ag s k u (ev0 ++ stepEvents wire y) rest ∧ u.fr.dfRem = left.length - s.fr.pktLimit ∧
      u.fr.dfIx = t.fr.dfIx + 1 := by
  have hwire : chunkBytes (tagSeq t.fr.dfIx t.fr.dfRem (chunkSize t.fr))
      (nextPayload t.fr (padBlock (src.load t.mem))) t.fr.crcEn = wire := by
    rw [chunkBytes_wire (by rw [h.mem]; exact hs) hr, h.crcEn, h.limit, hw]
  obtain ⟨v, hv1, hv2⟩ := busStep_moved
    (chunkBytes (tagSeq t.fr.dfIx t.fr.dfRem (chunkSize t.fr)) (nextPayload t.fr (padBlock (src.load t.mem)))
      t.fr.crcEn) y rest t (by rw [hwire]; exact hy) (by rw [← answersOf_stepEvents hy]; exact h.miso)
  let v1 := v.mapFr (chunkWritten (chunkSize t.fr))
  have hrem : v1.fr.dfRem = left.length - s.fr.pktLimit := by
    show v.fr.dfRem - chunkSize t.fr = _
    rw [hv2.only.fr, chunkSize, hr, h.limit]; omega
  have hix : v1.fr.dfIx = t.fr.dfIx + 1 := by
    show v.fr.dfIx + 1 = _
    rw [hv2.only.fr]
  have hvy : v.env.yields = [] := h.yields_moved hv2
  by_cases h0 : s.fr.pktLimit < left.length
  · have hp : perform (.chunkWr src) ag t = (some (.chunk none [] (decide (s.fr.pktLimit < left.length))), v1) := by
      simp only [perform, doChunkWr, hv1]
      rw [decide_eq_true h0]
      exact if_neg (by show ¬ v1.fr.dfRem = 0; omega)
    rw [hwire] at hv2
    exact ⟨endAction v1, fun f => eval_at_once hgo hp hvy,
      Mid.moved (w := v1) h hv2 rfl rfl rfl rfl rfl rfl rfl rfl rfl rfl rfl, hrem, hix⟩
  · let w := v1.mapTr fun r => { r with seq := .drspRd }
    have hp : perform (.chunkWr src) ag t = (some (.chunk none [] (decide (s.fr.pktLimit < left.length))), w) := by
      simp only [perform, doChunkWr, hv1]
      rw [decide_eq_false h0]
      exact if_pos (by show v1.fr.dfRem = 0; omega)
    rw [hwire] at hv2
    exact ⟨endAction w, fun f => eval_at_once hgo hp hvy,
      Mid.moved (w := w) h hv2 rfl rfl rfl rfl rfl rfl rfl rfl rfl rfl rfl, hrem, hix⟩

/-- The chunks of a data frame written. -/
theorem mid_writeChunks (hgo : Agrees go ag) {s : State} {k : Nat} (src : Source) (hL : 0 < s.fr.pktLimit) {ix : Nat}
    {d : Bytes} {ev : List BusEvent} (hf : FrameTo s.fr.crcEn s.fr.pktLimit ix d ev) :
    ∀ (n : Nat) (t : State) (ev0 : List BusEvent) (done : Bytes) (rest : List (Option Byte)), d.length ≤ n →
      Mid ag s k t ev0 (answersOf ev ++ rest) → t.fr.dfRem = d.length → padBlock (src.load s.mem) = done ++ d →
      t.fr.dfIx = ix →
      ∃ u, (writeChunks src n).eval go t = some (none, u) ∧ Mid ag s k u (ev0 ++ ev) rest := by
  induction hf with
  | last ix d y h0 hl hy =>
    intro n t ev0 done rest hn h hr hs hi
    obtain ⟨n, rfl⟩ : ∃ m, n = m + 1 := ⟨n - 1, by omega⟩
    obtain ⟨u, e, m, _⟩ := mid_chunkWr hgo src h hr hs (chunkWire_last _ hl).symm hy
    refine ⟨u, ?_, m⟩
    rw [writeChunks, e, decide_eq_false (by omega)]
    rfl
  | more ix d rest' y ev' hl hr' hy hf ih =>
    intro n t ev0 done rest hn h hr hs hi
    have hlen := List.length_append (as := d) (bs := rest')
    obtain ⟨n, rfl⟩ : ∃ m, n = m + 1 := ⟨n - 1, by omega⟩
    rw [answersOf_append, List.append_assoc] at h
    obtain ⟨u, e, m, hrem, hix⟩ := mid_chunkWr hgo src h hr hs (by rw [hi]; exact (chunkWire_more ix hl hr').symm) hy
    obtain ⟨w, hw1, hw2⟩ := ih n u _ (done ++ d) rest (by omega) m (by omega) (by rw [hs, List.append_assoc])
      (by rw [hix, hi])
    refine ⟨w, ?_, by rw [← List.append_assoc]; exact hw2⟩
    rw [writeChunks, e, decide_eq_true (by omega)]
    exact hw1

/-- Chunks written in full, then one that a transfer that fails cuts short (R142; log 18). -/
theorem mid_writeChunks_fails (hgo : Agrees go ag) {s : State} {k : Nat} (src : Source) (hL : 0 < s.fr.pktLimit)
    {ix jx : Nat} {b left tx rx tail : Bytes} {y : Byte} {ev : List BusEvent}
    (hf : ChunksTo s.fr.crcEn s.fr.pktLimit ix b jx left ev)
    (hc : chunkWire s.fr.crcEn s.fr.pktLimit jx left = tx ++ y :: tail) (hrx : rx.length = tx.length) :
    ∀ (n : Nat) (t : State) (ev0 : List BusEvent) (done : Bytes) (rest : List (Option Byte)), b.length ≤ n →
      Mid ag s k t ev0 (answersOf ev ++ (answersOf (failedStep tx rx y) ++ rest)) → t.fr.dfRem = b.length →
      padBlock (src.load s.mem) = done ++ b → t.fr.dfIx = ix →
      ∃ u, (writeChunks src n).eval go t = some (some .xfer, u) ∧
        Mid ag s k u (ev0 ++ (ev ++ failedStep tx rx y)) rest := by
  induction hf with
  | nil ix b h0 =>
    intro n t ev0 done rest hn h hr hs hi
    obtain ⟨n, rfl⟩ : ∃ m, n = m + 1 := ⟨n - 1, by omega⟩
    have hm : t.env.miso = rx.map some ++ none :: rest := by
      rw [h.miso, answersOf_failedStep y hrx]
      simp
    obtain ⟨v, hv1, hv2⟩ := busStep_stopped tx rx y tail rest t hrx hm
    have hp : perform (.chunkWr src) ag t = (some (.chunk (some .xfer) [] false), v) := by
      simp only [perform, doChunkWr]
      rw [chunkBytes_wire (by rw [h.mem]; exact hs) hr, h.crcEn, h.limit, hi, hc, hv1]
    refine ⟨endAction v, ?_, Mid.moved (w := v) h hv2 rfl rfl rfl rfl rfl rfl rfl rfl rfl rfl rfl⟩
    rw [writeChunks, eval_at_once hgo hp (h.yields_moved hv2)]
    rfl
  | more ix jx d b left y' ev' hl hy hf ih =>
    intro n t ev0 done rest hn h hr hs hi
    have hb : 0 < b.length := by
      cases hf with
      | nil _ _ h0 => exact h0
      | more _ _ d' => rw [List.length_append]; omega
    have hlen := List.length_append (as := d) (bs := b)
    obtain ⟨n, rfl⟩ : ∃ m, n = m + 1 := ⟨n - 1, by omega⟩
    rw [answersOf_append, List.append_assoc] at h
    obtain ⟨u, e, m, hrem, hix⟩ := mid_chunkWr hgo src h hr hs (by rw [hi]; exact (chunkWire_more ix hl hb).symm) hy
    obtain ⟨w, hw1, hw2⟩ := ih hc n u _ (done ++ d) rest (by omega) m (by omega) (by rw [hs, List.append_assoc])
      (by rw [hix, hi])
    refine ⟨w, ?_, by simpa [List.append_assoc] using hw2⟩
    rw [writeChunks, e, decide_eq_true (by omega)]
    exact hw1

/-- The trailer cut short by a transfer that fails (R150; log 18). -/
theorem mid_trailerCut (hgo : Agrees go ag) {s t : State} {k : Nat} {ev : List BusEvent} {rx : Bytes}
    {rest : List (Option Byte)} (h : Mid ag s k t ev (rx.map some ++ none :: rest))
    (hl : rx.length < drspLen s.params s.fr.crcEn) :
    ∃ u, (∀ {α : Type} (f : Val → Prog α), (Prog.act .drspRd f).eval go t = (f (.err (some .xfer))).eval go u) ∧
      Mid ag s k u (ev ++ failedStep (filler rx.length) rx 0x00) rest := by
  obtain ⟨q, hq⟩ : ∃ q, drspLen s.params s.fr.crcEn = rx.length + (1 + q) := ⟨_, (by omega :
    drspLen s.params s.fr.crcEn = rx.length + (1 + (drspLen s.params s.fr.crcEn - rx.length - 1)))⟩
  obtain ⟨v, hv1, hv2⟩ := busStep_stopped (filler rx.length) rx 0x00 (filler q) rest t (by simp) h.miso
  have hf : filler (drspLen t.params t.fr.crcEn) = filler rx.length ++ 0x00 :: filler q := by
    rw [h.params, h.crcEn, hq, filler_add, filler_add]
    rfl
  rw [← hf] at hv1
  have hp : perform .drspRd ag t = (some (.err (some .xfer)), v) := by simp only [perform, doDrspRd, hv1]
  exact ⟨_, fun f => eval_at_once hgo hp (h.yields_moved hv2),
    Mid.moved h hv2 rfl rfl rfl rfl rfl rfl rfl rfl rfl rfl rfl⟩

/-- The trailer after a written data frame, read and checked (R150). -/
theorem mid_trailer (hgo : Agrees go ag) {s t : State} {k : Nat} {ev : List BusEvent} {drsp : Bytes}
    {rest : List (Option Byte)} (h : Mid ag s k t ev (drsp.map some ++ rest))
    (hl : drsp.length = drspLen s.params s.fr.crcEn) :
    ∃ u, (∀ {α : Type} (f : Val → Prog α), (Prog.act .drspRd f).eval go t =
        (f (.err (if s.params.drspOk.app drsp then none else some (.dataRsp drsp)))).eval go u) ∧
      Mid ag s k u (ev ++ stepEvents (filler drsp.length) drsp) rest := by
  obtain ⟨v, hv1, hv2⟩ := busStep_moved (filler drsp.length) drsp rest t (by simp) h.miso
  rw [hl, ← h.params, ← h.crcEn] at hv1
  let w := v.mapFr fun f => { f with drsp := drsp }
  have hk : checkDrsp w.params drsp = if s.params.drspOk.app drsp then none else some (.dataRsp drsp) := by
    show checkDrsp v.params drsp = _
    rw [hv2.only.params, h.params, checkDrsp]
  have hy := h.yields_moved hv2
  cases hd : s.params.drspOk.app drsp with
  | true =>
    rw [hd] at hk
    have hp : perform .drspRd ag t = (some (.err none), w.mapTr fun r => { r with seq := .doneOk }) := by
      simp only [perform, doDrspRd, hv1]
      simp only [w] at hk
      rw [hk]
      rfl
    exact ⟨_, fun f => eval_at_once hgo hp hy, Mid.moved h hv2 rfl rfl rfl rfl rfl rfl rfl rfl rfl rfl rfl⟩
  | false =>
    rw [hd] at hk
    have hp : perform .drspRd ag t = (some (.err (some (.dataRsp drsp))), w) := by
      simp only [perform, doDrspRd, hv1]
      simp only [w] at hk
      rw [hk]
      rfl
    exact ⟨_, fun f => eval_at_once hgo hp hy, Mid.moved h hv2 rfl rfl rfl rfl rfl rfl rfl rfl rfl rfl rfl⟩

theorem legal_pos {n : Nat} (h : n ∈ legalLimits) : 0 < n := by
  simp only [legalLimits, List.mem_cons, List.not_mem_nil, or_false] at h
  omega

/-! ### Exchanges -/

theorem answersOf_commandEvents {p : Params} {crcEn : Bool} {c : Cmd} {x : Bytes} (hi : BitVec 4)
    (hx : x.length = (commandWire p crcEn c).length) :
    answersOf (commandEvents p crcEn c x hi) = x.map some ++ (goodRsp c hi).map some := by
  rw [commandEvents, answersOf_append, answersOf_stepEvents hx, answersOf_stepEvents (by simp [goodRsp])]

/-- The command frame and a good response; then the data phase (R171). -/
theorem exchange_head (hgo : Agrees go ag) {s t : State} {k : Nat} {ev : List BusEvent} {r : List (Option Byte)}
    (c : Cmd) (d : DataPhase) (x : Bytes) (hi : BitVec 4)
    (h : Mid ag s k t ev (answersOf (commandEvents s.params s.fr.crcEn c x hi) ++ r))
    (hx : x.length = (commandWire s.params s.fr.crcEn c).length) :
    ∃ u, (exchange c d).eval go t = (dataPhase d).eval go u ∧
      Mid ag s k u (ev ++ commandEvents s.params s.fr.crcEn c x hi) r := by
  rw [answersOf_commandEvents hi hx, List.append_assoc] at h
  obtain ⟨s2, e2, m2, hc⟩ := mid_command hgo c false h hx
  obtain ⟨s3, e3, m3⟩ := mid_response hgo c hi d.afterRsp m2 hc
  refine ⟨s3, ?_, by rw [commandEvents, ← List.append_assoc]; exact m3⟩
  rw [exchange, e2]
  simp only [Val.toErr]
  rw [e3]

/-- A good exchange without data frame (R171). -/
theorem exchange_absent (hgo : Agrees go ag) {s t : State} {k : Nat} {ev : List BusEvent} {r : List (Option Byte)}
    (c : Cmd) (x : Bytes) (hi : BitVec 4)
    (h : Mid ag s k t ev (answersOf (commandEvents s.params s.fr.crcEn c x hi) ++ r))
    (hx : x.length = (commandWire s.params s.fr.crcEn c).length) :
    ∃ u, (exchange c .absent).eval go t = some (.ok [], u) ∧
      Mid ag s k u (ev ++ commandEvents s.params s.fr.crcEn c x hi) r := exchange_head hgo c .absent x hi h hx

/-- The start of a data frame read (R146). -/
theorem mid_startRead (hgo : Agrees go ag) {s t : State} {k : Nat} {ev : List BusEvent} {r : List (Option Byte)}
    (n : Nat) (into : DataRef) (h : Mid ag s k t ev r) :
    ∃ u, (∀ {α : Type} (p : Prog α), (Prog.andThen (.startRead n into) p).eval go t = p.eval go u) ∧
      Mid ag s k u ev r ∧ u.fr.dfRem = n := by
  have hp : perform (.startRead n into) ag t =
      (some .unit, t.mapFr fun f => { f with dfSpan := into, dfRem := n, dfIx := 0 }) := rfl
  have m := Mid.moved (u := t) (w := t.mapFr fun f => { f with dfSpan := into, dfRem := n, dfIx := 0 }) (ev' := []) h
    ⟨BusOnly.refl t, h.miso, by simp⟩ rfl rfl rfl rfl rfl rfl rfl rfl rfl rfl rfl
  rw [List.append_nil] at m
  exact ⟨_, fun p => eval_at_once hgo hp h.yields, m, rfl⟩

/-- A good exchange that reads a data frame (R171). -/
theorem exchange_read (hgo : Agrees go ag) {s t : State} {k : Nat} {ev0 : List BusEvent} {r : List (Option Byte)}
    (c : Cmd) (d x : Bytes) (ev : List BusEvent) (hi : BitVec 4) (into : DataRef) (hL : 0 < s.fr.pktLimit)
    (h : Mid ag s k t ev0 (answersOf (commandEvents s.params s.fr.crcEn c x hi ++ ev) ++ r))
    (hx : x.length = (commandWire s.params s.fr.crcEn c).length) (hf : FrameFrom s.fr.crcEn s.fr.pktLimit d ev) :
    ∃ u, (exchange c (.read d.length into)).eval go t = some (.ok d, u) ∧
      Mid ag s k u (ev0 ++ (commandEvents s.params s.fr.crcEn c x hi ++ ev)) r := by
  rw [answersOf_append, List.append_assoc] at h
  obtain ⟨s3, e3, m3⟩ := exchange_head hgo c (.read d.length into) x hi h hx
  obtain ⟨s4, e4, m4, hrem⟩ := mid_startRead hgo d.length into m3
  obtain ⟨s5, e5, m5⟩ := mid_readChunks hgo hL hf d.length s4 _ [] r le_rfl m4 hrem
  exact ⟨s5, by rw [e3, dataPhase, e4, e5]; rfl, by rw [← List.append_assoc]; exact m5⟩

/-- An exchange whose data frame is read up to a chunk that ends in an error (R146, R171). -/
theorem exchange_readFails (hgo : Agrees go ag) {s t : State} {k n m : Nat} {ev0 : List BusEvent} {r : List (Option Byte)}
    {e : Err} (c : Cmd) (x : Bytes) (ev ev' : List BusEvent) (hi : BitVec 4) (into : DataRef) (hL : 0 < s.fr.pktLimit)
    (h : Mid ag s k t ev0 (answersOf (commandEvents s.params s.fr.crcEn c x hi ++ ev ++ ev') ++ r))
    (hx : x.length = (commandWire s.params s.fr.crcEn c).length) (hf : ChunksFrom s.fr.crcEn s.fr.pktLimit n m ev)
    (hlast : ∀ (t : State), t.fr.crcEn = s.fr.crcEn → t.fr.pktLimit = s.fr.pktLimit → t.fr.dfRem = m →
      t.env.miso = answersOf ev' ++ r →
      ∃ v, readChunk (chipSelect true t) = (.error e, v) ∧ Moved t (chipSelect false v) ev' r) :
    ∃ u, (exchange c (.read n into)).eval go t = some (.error e, u) ∧
      Mid ag s k u (ev0 ++ (commandEvents s.params s.fr.crcEn c x hi ++ ev ++ ev')) r := by
  rw [answersOf_append, answersOf_append, List.append_assoc, List.append_assoc] at h
  obtain ⟨s3, e3, m3⟩ := exchange_head hgo c (.read n into) x hi h hx
  obtain ⟨s4, e4, m4, hrem⟩ := mid_startRead hgo n into m3
  obtain ⟨s5, e5, m5⟩ := mid_readChunks_fails hgo hL hf hlast n s4 _ [] le_rfl m4 hrem
  exact ⟨s5, by rw [e3, dataPhase, e4, e5], by simpa [List.append_assoc] using m5⟩

/-- A chunk without start tag (R147). -/
theorem readChunk_noTag {t : State} {bytes : Bytes} {rest : List (Option Byte)} (hb : bytes.length = tagScanMax)
    (ht : ∀ x ∈ bytes, x.extractLsb' 4 4 ≠ 0xF#4) (hm : t.env.miso = bytes.map some ++ rest) :
    ∃ v, readChunk (chipSelect true t) = (.error .noStartTag, v) ∧
      Moved t (chipSelect false v) (stepEvents (filler tagScanMax) bytes) rest := by
  obtain ⟨v, hv1, hv2⟩ := scanTag_none bytes rest (chipSelect true t) ht (by simpa [chipSelect] using hm)
  rw [hb] at hv1 hv2
  exact ⟨v, by simp only [readChunk, hv1], Moved.step hv2⟩

/-- The start of a data frame written (R142). -/
theorem mid_startWrite (hgo : Agrees go ag) {s t : State} {k : Nat} {ev : List BusEvent} {r : List (Option Byte)}
    (src : Source) (h : Mid ag s k t ev r) :
    ∃ u, (∀ {α : Type} (p : Prog α), (Prog.andThen (.startWrite src) p).eval go t = p.eval go u) ∧
      Mid ag s k u ev r ∧ u.fr.dfRem = wireLen src.len ∧ u.fr.dfIx = 0 := by
  have hp : perform (.startWrite src) ag t =
      (some .unit, t.mapFr fun f => { f with dfSpan := src.ref, dfRem := wireLen src.len, dfIx := 0 }) := rfl
  have m := Mid.moved (u := t) (w := t.mapFr fun f => { f with dfSpan := src.ref, dfRem := wireLen src.len, dfIx := 0 })
    (ev' := []) h ⟨BusOnly.refl t, h.miso, by simp⟩ rfl rfl rfl rfl rfl rfl rfl rfl rfl rfl rfl
  rw [List.append_nil] at m
  exact ⟨_, fun p => eval_at_once hgo hp h.yields, m, rfl, rfl⟩

/-- An exchange that writes a data frame, up to its trailer (R142, R171). -/
theorem exchange_written (hgo : Agrees go ag) {s t : State} {k : Nat} {ev0 : List BusEvent} {r : List (Option Byte)}
    (c : Cmd) (src : Source) (d x drsp : Bytes) (ev : List BusEvent) (hi : BitVec 4) (hL : 0 < s.fr.pktLimit)
    (h : Mid ag s k t ev0 (answersOf (commandEvents s.params s.fr.crcEn c x hi ++ ev ++
      stepEvents (filler drsp.length) drsp) ++ r))
    (hsrc : padBlock (src.load s.mem) = d) (hlen : wireLen src.len = d.length)
    (hx : x.length = (commandWire s.params s.fr.crcEn c).length)
    (hf : FrameTo s.fr.crcEn s.fr.pktLimit 0 d ev) (hl : drsp.length = drspLen s.params s.fr.crcEn) :
    ∃ u, (exchange c (.write src)).eval go t =
        some (if s.params.drspOk.app drsp then .ok [] else .error (.dataRsp drsp), u) ∧
      Mid ag s k u (ev0 ++ (commandEvents s.params s.fr.crcEn c x hi ++ ev ++ stepEvents (filler drsp.length) drsp))
        r := by
  rw [answersOf_append, answersOf_append, answersOf_stepEvents (by simp), List.append_assoc, List.append_assoc] at h
  obtain ⟨s3, e3, m3⟩ := exchange_head hgo c (.write src) x hi h hx
  obtain ⟨s3', e3', m3', hrem, hix⟩ := mid_startWrite hgo src m3
  obtain ⟨s4, e4, m4⟩ := mid_writeChunks hgo src hL hf (wireLen src.len) s3' _ [] _ hlen.ge m3' (hrem.trans hlen) hsrc hix
  obtain ⟨s5, e5, m5⟩ := mid_trailer hgo m4 hl
  refine ⟨s5, ?_, by simpa [List.append_assoc] using m5⟩
  rw [e3]
  simp only [dataPhase]
  rw [e3', Prog.eval_bind_of e4, e5]
  cases s.params.drspOk.app drsp <;> rfl

/-- An exchange that writes a data frame up to a chunk that a transfer that fails cuts short (R142, R171; log 18). -/
theorem exchange_writeFails (hgo : Agrees go ag) {s t : State} {k jx : Nat} {ev0 : List BusEvent}
    {r : List (Option Byte)} {d x left tx rx tail : Bytes} {y : Byte} {ev : List BusEvent} (c : Cmd) (src : Source)
    (hi : BitVec 4) (hL : 0 < s.fr.pktLimit)
    (h : Mid ag s k t ev0 (answersOf (commandEvents s.params s.fr.crcEn c x hi ++ ev ++ failedStep tx rx y) ++ r))
    (hsrc : padBlock (src.load s.mem) = d) (hlen : wireLen src.len = d.length)
    (hx : x.length = (commandWire s.params s.fr.crcEn c).length)
    (hf : ChunksTo s.fr.crcEn s.fr.pktLimit 0 d jx left ev)
    (hc : chunkWire s.fr.crcEn s.fr.pktLimit jx left = tx ++ y :: tail) (hrx : rx.length = tx.length) :
    ∃ u, (exchange c (.write src)).eval go t = some (.error .xfer, u) ∧
      Mid ag s k u (ev0 ++ (commandEvents s.params s.fr.crcEn c x hi ++ ev ++ failedStep tx rx y)) r := by
  rw [answersOf_append, answersOf_append, List.append_assoc, List.append_assoc] at h
  obtain ⟨s3, e3, m3⟩ := exchange_head hgo c (.write src) x hi h hx
  obtain ⟨s4, e4, m4, hrem, hix⟩ := mid_startWrite hgo src m3
  obtain ⟨s5, e5, m5⟩ := mid_writeChunks_fails hgo src hL hf hc hrx (wireLen src.len) s4 _ [] _ hlen.ge m4
    (hrem.trans hlen) hsrc hix
  refine ⟨s5, ?_, by simpa [List.append_assoc] using m5⟩
  rw [e3, dataPhase, e4, Prog.eval_bind_of e5]
  rfl

/-- An exchange that writes a data frame, its trailer cut short by a transfer that fails (R150, R171; log 18). -/
theorem exchange_trailerCut (hgo : Agrees go ag) {s t : State} {k : Nat} {ev0 : List BusEvent} {r : List (Option Byte)}
    (c : Cmd) (src : Source) (d x rx : Bytes) (ev : List BusEvent) (hi : BitVec 4) (hL : 0 < s.fr.pktLimit)
    (h : Mid ag s k t ev0 (answersOf (commandEvents s.params s.fr.crcEn c x hi ++ ev ++
      failedStep (filler rx.length) rx 0x00) ++ r))
    (hsrc : padBlock (src.load s.mem) = d) (hlen : wireLen src.len = d.length)
    (hx : x.length = (commandWire s.params s.fr.crcEn c).length)
    (hf : FrameTo s.fr.crcEn s.fr.pktLimit 0 d ev) (hl : rx.length < drspLen s.params s.fr.crcEn) :
    ∃ u, (exchange c (.write src)).eval go t = some (.error .xfer, u) ∧
      Mid ag s k u (ev0 ++ (commandEvents s.params s.fr.crcEn c x hi ++ ev ++ failedStep (filler rx.length) rx 0x00))
        r := by
  rw [answersOf_append, answersOf_append, answersOf_failedStep _ (by simp), List.append_assoc, List.append_assoc,
    List.append_assoc] at h
  obtain ⟨s3, e3, m3⟩ := exchange_head hgo c (.write src) x hi h hx
  obtain ⟨s3', e3', m3', hrem, hix⟩ := mid_startWrite hgo src m3
  obtain ⟨s4, e4, m4⟩ := mid_writeChunks hgo src hL hf (wireLen src.len) s3' _ [] _ hlen.ge m3' (hrem.trans hlen) hsrc hix
  obtain ⟨s5, e5, m5⟩ := mid_trailerCut hgo m4 hl
  refine ⟨s5, ?_, by simpa [List.append_assoc] using m5⟩
  rw [e3]
  simp only [dataPhase]
  rw [e3', Prog.eval_bind_of e4, e5]
  rfl

/-- An attempt that succeeds ends the operation (R172). -/
theorem attempts_ok (hgo : Agrees go ag) {s t u : State} {k : Nat} {c : Cmd} {d : DataPhase} {b : Bytes}
    {ev : List BusEvent} {r : List (Option Byte)} (n : Nat) (h : (exchange c d).eval go t = some (.ok b, u))
    (m : Mid ag s k u ev r) :
    ∃ w, (attempts c d (n + 1)).eval go t = some (.ok b, w) ∧ BusDone s w ev r ∧ w.env.yields = [] ∧ w.tr.att = k := by
  obtain ⟨w, e, dn, y, _, ha⟩ := mid_release hgo m
  refine ⟨w, ?_, dn, y, ha⟩
  rw [attempts, Prog.eval_bind_of h]
  simp only
  rw [e]
  rfl

/-- An operation whose first attempt succeeds (R172, R175). -/
theorem runExchange_ok (hgo : Agrees go ag) {s : State} (hs : BusReady s) {c : Cmd} {d : DataPhase} {b : Bytes}
    {ev : List BusEvent} {r : List (Option Byte)}
    (h : ∀ t, Mid ag s 1 t [] s.env.miso → ∃ u, (exchange c d).eval go t = some (.ok b, u) ∧ Mid ag s 1 u ([] ++ ev) r) :
    ∃ u, (runExchange c d).eval go s = some (.ok b, u) ∧ BusDone s u ev r ∧ u.env.yields = [] := by
  obtain ⟨s1, e1, m1⟩ := mid_acquire hgo hs
  obtain ⟨s2, e2, m2⟩ := h s1 m1
  obtain ⟨w, ew, dn, y, _⟩ := attempts_ok hgo 9 e2 m2
  exact ⟨w, by rw [runExchange, Prog.andThen, e1]; exact ew, dn, y⟩

/-! ### The four operations -/

/-- After operations on the bus the next one can go ahead. -/
theorem BusDone.ready {s t : State} {ev : List BusEvent} {rest : List (Option Byte)} (hs : BusReady s)
    (h : BusDone s t ev rest) : BusReady t :=
  ⟨h.lock, h.idle, by rw [h.limit]; exact hs.limit, by rw [h.env]; exact hs.yields⟩

theorem BusDone.refl {s : State} (hs : BusReady s) : BusDone s s [] s.env.miso :=
  ⟨rfl, rfl, hs.lock, hs.idle, rfl, rfl, rfl, rfl, rfl, rfl, rfl, by simp, rfl⟩

theorem BusDone.trans {s t u : State} {ev ev' : List BusEvent} {r r' : List (Option Byte)} (h : BusDone s t ev r)
    (h' : BusDone t u ev' r') : BusDone s u (ev ++ ev') r' :=
  ⟨h'.crcEn.trans h.crcEn, h'.limit.trans h.limit, h'.lock, h'.idle, h'.lastErr.trans h.lastErr, h'.hif.trans h.hif,
    h'.irq.trans h.irq, h'.sock.trans h.sock, h'.root.trans h.root, h'.mem.trans h.mem, h'.params.trans h.params,
    by rw [h'.bus, h.bus, List.append_assoc], by rw [h'.env, h.env]⟩

theorem BusDone.miso {s t : State} {ev : List BusEvent} {rest : List (Option Byte)} (h : BusDone s t ev rest) :
    t.env.miso = rest := by rw [h.env]

theorem fromLe_word (v : Word) :
    BitVec.ofNat 32 (fromLe [v.extractLsb' 0 8, v.extractLsb' 8 8, v.extractLsb' 16 8, v.extractLsb' 24 8]) = v := by
  apply BitVec.eq_of_toNat_eq
  simp only [fromLe, BitVec.toNat_ofNat, BitVec.extractLsb'_toNat, Nat.shiftRight_eq_div_pow]
  have := v.isLt
  omega

/-- The first of several accesses, and those after it. -/
theorem Answers.cons {s : State} {x : Access} {xs : List Access} {ev : List BusEvent} {rest : List (Option Byte)}
    (h : Answers s (x :: xs) ev rest) :
    ∃ ev1 ev2, OnWire s.params s.fr.crcEn s.fr.pktLimit x ev1 ∧ ev = ev1 ++ ev2 ∧
      s.env.miso = answersOf ev1 ++ (answersOf ev2 ++ rest) ∧
      ∀ u, BusDone s u ev1 (answersOf ev2 ++ rest) → Answers u xs ev2 rest := by
  obtain ⟨hw, hm⟩ := h
  cases hw with
  | cons _ _ ev1 ev2 h1 h2 =>
    rw [answersOf_append, List.append_assoc] at hm
    exact ⟨ev1, ev2, h1, rfl, hm, fun u d => ⟨by rw [d.params, d.crcEn, d.limit]; exact h2, d.miso⟩⟩

/-- `readRegister` answered (R176). -/
theorem readReg_answered (hgo : Agrees go ag) {s : State} (hs : BusReady s) {a : Addr} {v : Word} {xs : List Access}
    {ev : List BusEvent} {rest : List (Option Byte)} (h : Answers s (.read a v :: xs) ev rest) :
    ∃ u ev1 ev2 mid, (readReg a).eval go s = some (.ok v, u) ∧ ev = ev1 ++ ev2 ∧ BusDone s u ev1 mid ∧ BusReady u ∧
      Answers u xs ev2 rest := by
  obtain ⟨_, ev2, h1, rfl, hm, htail⟩ := h.cons
  cases h1 with
  | read _ _ x hi ev1 hx hf =>
    obtain ⟨u, e, d, _⟩ := runExchange_ok hgo hs fun _ m =>
      exchange_read hgo _ _ x ev1 hi (.operand 4) (legal_pos hs.limit) (by rwa [hm] at m) hx hf
    refine ⟨u, _, ev2, _, ?_, rfl, d, d.ready hs, htail u d⟩
    have e' : (runExchange (Cmd.readRegister a) (.read 4 (.operand 4))).eval go s = some (.ok _, u) := e
    rw [readReg, Prog.eval_tryBind_ok e', Prog.eval_ret, fromLe_word]

/-- `writeRegister` answered (R177). -/
theorem writeReg_answered (hgo : Agrees go ag) {s : State} (hs : BusReady s) {a : Addr} {v : Word} {xs : List Access}
    {ev : List BusEvent} {rest : List (Option Byte)} (h : Answers s (.write a v :: xs) ev rest) :
    ∃ u ev1 ev2 mid, (writeReg a v).eval go s = some (.ok (), u) ∧ ev = ev1 ++ ev2 ∧ BusDone s u ev1 mid ∧
      BusReady u ∧ Answers u xs ev2 rest := by
  obtain ⟨_, ev2, h1, rfl, hm, htail⟩ := h.cons
  cases h1 with
  | write _ _ x hi hx =>
    obtain ⟨u, e, d, _⟩ := runExchange_ok hgo hs fun _ m => exchange_absent hgo _ x hi (by rwa [hm] at m) hx
    refine ⟨u, _, ev2, _, ?_, rfl, d, d.ready hs, htail u d⟩
    rw [writeReg, Prog.eval_tryBind_ok e, Prog.eval_ret]

/-- `readBlock` answered (R178, R181). -/
theorem readBlockAt_answered (hgo : Agrees go ag) {s : State} (hs : BusReady s) {a : Addr} {b : Bytes}
    {xs : List Access} {ev : List BusEvent} {rest : List (Option Byte)} (into : DataRef)
    (h : Answers s (.readBlock a b :: xs) ev rest) :
    ∃ u ev1 ev2 mid, (readBlockAt a b.length into).eval go s = some (.ok b, u) ∧ ev = ev1 ++ ev2 ∧
      BusDone s u ev1 mid ∧ BusReady u ∧ Answers u xs ev2 rest := by
  obtain ⟨_, ev2, h1, rfl, hm, htail⟩ := h.cons
  cases h1 with
  | readBlock _ _ d x hi ev1 h0 hb hd hp hx hf =>
    obtain ⟨u, e, dn, _⟩ := runExchange_ok hgo hs fun _ m =>
      exchange_read hgo _ _ x ev1 hi into (legal_pos hs.limit) (by rwa [hm] at m) hx hf
    refine ⟨u, _, ev2, _, ?_, rfl, dn, dn.ready hs, htail u dn⟩
    rw [readBlockAt, show wireLen b.length = d.length from hd.symm, Prog.eval_tryBind_ok e, Prog.eval_ret, ← hp]

@[simp] theorem Source.load_length (src : Source) (m : List Host.Cell) : (src.load m).length = src.len := by
  cases src <;> simp [Source.load, Source.len]

/-- The bytes of a written block that travel, and how many (R179, R181). -/
theorem padBlock_eq {src : Source} {m : List Host.Cell} {b d : Bytes} (h0 : 0 < b.length) (hsrc : src.load m = b)
    (hd : d = if b.length = 1 then b ++ [0x00] else b) : padBlock (src.load m) = d ∧ wireLen src.len = d.length := by
  constructor
  · rw [hsrc, hd, padBlock]
    split <;> split <;> first | rfl | omega
  · rw [← Source.load_length src m, hsrc, hd, wireLen]
    split <;> simp <;> omega

/-- One `writeBlock` of at most 2040 bytes answered (R179, R181). -/
theorem writePiece_answered (hgo : Agrees go ag) {s : State} (hs : BusReady s) {a : Addr} {b : Bytes}
    {xs : List Access} {ev : List BusEvent} {rest : List (Option Byte)} (src : Source) (hsrc : src.load s.mem = b)
    (h : Answers s (.writeBlock a b :: xs) ev rest) :
    ∃ u ev1 ev2 mid, (writePiece a.toNat src).eval go s = some (.ok (), u) ∧ ev = ev1 ++ ev2 ∧ BusDone s u ev1 mid ∧
      BusReady u ∧ Answers u xs ev2 rest := by
  obtain ⟨_, ev2, h1, rfl, hm, htail⟩ := h.cons
  cases h1 with
  | writeBlock _ _ d x drsp hi ev1 h0 hb hd hx hf hl hk =>
    obtain ⟨hpad, hlen⟩ := padBlock_eq h0 hsrc hd
    obtain ⟨u, e, dn, _⟩ := runExchange_ok (b := []) hgo hs fun _ m => by
      have := exchange_written hgo _ src d x drsp ev1 hi (legal_pos hs.limit) (by rwa [hm] at m) hpad hlen hx hf hl
      rwa [hk] at this
    refine ⟨u, _, ev2, _, ?_, rfl, dn, dn.ready hs, htail u dn⟩
    have ha : a.toNat < 2 ^ 24 := a.isLt
    rw [writePiece, if_pos ha, hlen, BitVec.ofNat_toNat, BitVec.setWidth_eq, Prog.eval_tryBind_ok e, Prog.eval_ret]

end Sys2Proof.Machine
end

