-- ==== Sys2Proof/Laws/Runs.lean ====
section
/-!
SUPPORT. Runs of a caller's program that end within the turn: one action at a time, sequencing, the end of the call,
and the pattern around a slot (R253).
-/

namespace Sys2Proof.Machine

/-! ### Hand-over choices -/

/-- Without hand-over choices there never are any. -/
theorem Moves.yields_nil {s t : State} (h : Moves s t) (hs : s.env.yields = []) : t.env.yields = [] := by
  refine Moves.keeps (I := fun s => s.env.yields = []) ?_ h hs
  intro s t hm hs
  cases hm with
  | action a ag s => rw [(perform_frame a ag s).yields]; exact hs
  | handOver s => simp [hs]
  | consume q s =>
    unfold consumeQueue
    split
    · exact hs
    · exact hs
    · split <;> exact hs
  | takeGo s => exact hs
  | _ => exact hs

/-- What holds of the state through every action and every hand-over holds where a run ends. -/
theorem Prog.eval_keeps {α : Type} {go : Action → State → Option Val × State} {I : State → Prop}
    (hgo : ∀ a s, I s → I (go a s).2) (hho : ∀ s, I s → I (handOver s).2) {p : Prog α} {s t : State} {r : α}
    (h : p.eval go s = some (r, t)) (hs : I s) : I t := by
  have := Prog.run_keeps hgo hho p [] [] [] s hs
  rw [Prog.run_of_eval h] at this
  exact this

variable {id : Nat}

theorem Runs.moves {α : Type} {p : Prog α} {s t : State} {r : α} (h : Runs id p s r t) : Moves s t :=
  Prog.eval_keeps (I := fun t => Moves s t) (fun a t ht => ht.trans (callerGo_moves id a t))
    (fun t ht => ht.trans (Moves.of_move (.handOver t))) h Relation.ReflTransGen.refl

theorem Runs.yields {α : Type} {p : Prog α} {s t : State} {r : α} (h : Runs id p s r t) (hs : s.env.yields = []) :
    t.env.yields = [] := h.moves.yields_nil hs

/-- The end of an action changes nothing where there is no hand-over choice and no expiry. -/
theorem endAction_eq {s : State} (hy : s.env.yields = []) (hf : s.env.fired = false) : endAction s = s := by
  obtain ⟨fr, tr, hif, irq, sock, root, mem, params, env⟩ := s
  obtain ⟨miso, xferIx, free, bus, pin, inbox, yields, fired, tasks, nextTask, nextMail, nextQueue, results, closed,
    delivered, collab, collabIx, calls⟩ := env
  simp only at hy hf
  subst hy
  subst hf
  rfl

/-! ### One action at a time -/

theorem Runs.ret {α : Type} (a : α) (s : State) : Runs id (.ret a) s a s := rfl

theorem Runs.raise {α : Type} (e : Err) (s : State) : Runs id (raise e : Prog (Except Err α)) s (.error e) s := rfl

/-- An action done at once. -/
theorem Runs.act {α : Type} {a : Action} {k : Val → Prog α} {s t u : State} {v : Val} {r : α}
    (hp : perform a (.caller id) s = (some v, t)) (hy : s.env.yields = []) (h : Runs id (k v) (endAction t) r u) :
    Runs id (.act a k) s r u := by
  have ht : t.env.yields = [] := by
    have := (perform_frame a (.caller id) s).yields
    rw [hp] at this
    rw [this, hy]
  unfold Runs
  rw [eval_at_once (callerGo_agrees id) hp ht]
  exact h

theorem Runs.andThen {α : Type} {a : Action} {p : Prog α} {s t u : State} {v : Val} {r : α}
    (hp : perform a (.caller id) s = (some v, t)) (hy : s.env.yields = []) (h : Runs id p (endAction t) r u) :
    Runs id (.andThen a p) s r u := Runs.act hp hy h

theorem Runs.bind {α β : Type} {p : Prog α} {f : α → Prog β} {s t u : State} {a : α} {b : β}
    (h : Runs id p s a t) (h' : Runs id (f a) t b u) : Runs id (p.bind f) s b u := by
  unfold Runs
  rw [Prog.eval_bind_of h]
  exact h'

theorem Runs.tryBind_ok {α β : Type} {p : Prog (Except Err α)} {f : α → Prog (Except Err β)} {s t u : State} {a : α}
    {b : Except Err β} (h : Runs id p s (.ok a) t) (h' : Runs id (f a) t b u) : Runs id (p.tryBind f) s b u :=
  Runs.bind h h'

theorem Runs.tryBind_error {α β : Type} {p : Prog (Except Err α)} {f : α → Prog (Except Err β)} {s t : State} {e : Err}
    (h : Runs id p s (.error e) t) : Runs id (p.tryBind f) s (.error e) t :=
  Runs.bind h (Runs.ret (Except.error e) t)

theorem Runs.noValue_ok {p : Prog (Except Err Unit)} {s t : State} (h : Runs id p s (.ok ()) t) :
    Runs id (noValue p) s (.ok .unit) t := Runs.tryBind_ok h (Runs.ret _ _)

theorem Runs.noValue_error {p : Prog (Except Err Unit)} {s t : State} {e : Err} (h : Runs id p s (.error e) t) :
    Runs id (noValue p) s (.error e) t := Runs.tryBind_error h

/-! ### Assignments -/

@[simp] theorem Put.apply_yields (u : Put) (s : State) : (u.apply s).env.yields = s.env.yields :=
  (u.apply_frame s).yields

@[simp] theorem Put.apply_fired (u : Put) (s : State) : (u.apply s).env.fired = s.env.fired :=
  (u.apply_frame s).fired

/-- Assignments one after another, by any agent. -/
theorem Prog.eval_puts {α : Type} {go : Action → State → Option Val × State} {ag : Agent} (hgo : Agrees go ag)
    (p : Prog α) : ∀ (l : List Put) (s : State), s.env.yields = [] → s.env.fired = false →
      (Prog.puts l p).eval go s = p.eval go (putAll l s)
  | [], _, _, _ => rfl
  | u :: us, s, hy, hf => by
    rw [Prog.puts, Prog.andThen, eval_at_once (t := u.apply s) hgo rfl (by simpa using hy),
      endAction_eq (by simpa using hy) (by simpa using hf)]
    exact Prog.eval_puts hgo p us _ (by simpa using hy) (by simpa using hf)

theorem Runs.puts {α : Type} {l : List Put} {p : Prog α} {s t : State} {r : α} (hy : s.env.yields = [])
    (hf : s.env.fired = false) (h : Runs id p (putAll l s) r t) : Runs id (.puts l p) s r t :=
  (Prog.eval_puts (callerGo_agrees id) p l s hy hf).trans h

/-! ### The end of a call -/

/-- A call whose program ends within its turn. -/
theorem Ends.of_runs {i : Instr} {p : Prog (Except Err Value)} {s t : State} {r : Except Err Value}
    (he : exec i s = startTask i p s) (h : Runs (taskOf s) p (newTask s) r t) : Ends i s (toResult r) t :=
  ⟨t.env.fired, by rw [he, startTask_of_eval h]; rfl⟩

/-! ### The state around the units -/

theorem whenReady_ready {s : State} (h : Ready s) (k : Host.Outcome State Fault Refusal) :
    whenReady s k = k := if_pos h

theorem whenLive_live {s : State} (hl : s.root.live = true) (h : Ready s)
    (k : Host.Outcome State Fault Refusal) : whenLive s k = k := by simp [whenLive, hl, whenReady_ready h]

/-! ### A slot entered and left (R253) -/

theorem slotIx_fin (k : Fin 11) : slotIx (k.val : Int) = some k := by
  have := k.isLt
  simp [slotIx]

/-- `enter(i)` of a slot in use (R253). -/
theorem Runs.enterSlot {k : Fin 11} {s t : State} {body : Prog (Except Err Value)} {r : Except Err Value}
    (hs : SlotReady k s) (h : Runs (taskOf s) body (entered k s) r t) :
    Runs (taskOf s) (Machine.enterSlot k body) (newTask s) r t := by
  have hy : (entered k s).env.yields = [] := hs.yields
  have he : perform (.lockSlot k) (.caller (taskOf s)) (newTask s) = (some .unit, entered k s) := by
    simp only [perform, doLockSlot, newTask_sock, hs.lock, Lock.take]
    rfl
  have hv : (entered k s).sock.valid k = true := by
    simp [entered, Sockets.valid, hs.inUse, hs.desc]
  refine Runs.andThen he hs.yields ?_
  rw [endAction_eq hy rfl]
  refine Runs.act (v := .flag ((entered k s).sock.valid k)) rfl hy ?_
  rw [endAction_eq hy rfl, hv]
  exact h

/-- `enter(i)`, a body that ends, `leave(i)`. -/
theorem Runs.perSlot {k : Fin 11} {s s1 : State} {body : Fin 11 → Prog (Except Err Value)} {r : Except Err Value}
    (hs : SlotReady k s) (h : Runs (taskOf s) (body k) (entered k s) r s1) :
    ∃ b, Runs (taskOf s) (Machine.perSlot k.val body) (newTask s) r
      ((changed k (taskOf s) (fun x => x) s1).mapEnv fun e => { e with fired := b }) := by
  have hy : (entered k s).env.yields = [] := hs.yields
  have hy1 := h.yields hy
  refine ⟨false, ?_⟩
  rw [Machine.perSlot, slotIx_fin]
  refine Runs.enterSlot hs (Runs.bind h (Runs.andThen (v := .unit) (t := changed k (taskOf s) (fun x => x) s1) rfl hy1 ?_))
  have hl : endAction (changed k (taskOf s) (fun x => x) s1) =
      (changed k (taskOf s) (fun x => x) s1).mapEnv fun e => { e with fired := false } := by
    have : (changed k (taskOf s) (fun x => x) s1).env.yields = [] := hy1
    simp [endAction, State.mapEnv, this]
  rw [hl]
  exact Runs.ret _ _

/-- A per-slot operation that ends. -/
theorem Ends.perSlot {i : Instr} {k : Fin 11} {s s1 : State} {body : Fin 11 → Prog (Except Err Value)}
    {r : Except Err Value} (he : exec i s = whenLive s (startTask i (Machine.perSlot k.val body) s)) (hs : SlotReady k s)
    (h : Runs (taskOf s) (body k) (entered k s) r s1) :
    Ends i s (toResult r) (changed k (taskOf s) (fun x => x) s1) := by
  obtain ⟨b, hr⟩ := Runs.perSlot hs h
  obtain ⟨b', hx⟩ := Ends.of_runs (he.trans (whenLive_live hs.live hs.ready _)) hr
  exact ⟨b', by rw [hx]; rfl⟩

/-- Reading a slot. -/
theorem Runs.getSlot {α : Type} {k : Fin 11} {f : Val → Prog α} {s u : State} {r : α} (hy : s.env.yields = [])
    (hf : s.env.fired = false) (h : Runs id (f (.slot (s.sock.slot k))) s r u) :
    Runs id (.act (.getSlot k) f) s r u :=
  Runs.act rfl hy (by rw [endAction_eq hy hf]; exact h)

@[simp] theorem entered_slot (k : Fin 11) (s : State) :
    (entered k s).sock.slot k = { s.sock.slot k with lock := .held (.caller (taskOf s)) } := by
  simp [entered]

end Sys2Proof.Machine
end

