-- ==== Sys2Proof/Laws/Serves.lean ====
section
/-!
SUPPORT. Programs that drive the bus, against a device that answers: `Serves` says what accesses a program makes, what
it answers and what it changes besides the bus; one lemma per way of building a program, then one per operation of the
session.
-/

namespace Sys2Proof.Machine

/-- A state update that does not look at what the bus operations change. -/
def Respects (g : State → State) : Prop :=
  ∀ (s t : State) (ev : List BusEvent) (rest : List (Option Byte)), BusDone s t ev rest → BusDone (g s) (g t) ev rest

/-- From `s`, the program makes the accesses `xs`, answers `r`, and changes what `g` changes, besides the bus. -/
def Serves (go : Action → State → Option Val × State) {α : Type} (p : Prog α) (xs : List Access) (r : α)
    (g : State → State) (s : State) : Prop :=
  BusReady s → ∀ (ys : List Access) (ev : List BusEvent) (rest : List (Option Byte)), Answers s (xs ++ ys) ev rest →
    ∃ u ev1 ev2 mid, p.eval go s = some (r, u) ∧ ev = ev1 ++ ev2 ∧ BusDone (g s) u ev1 mid ∧ BusReady u ∧
      Answers u ys ev2 rest

/-- What is left of a state by updates and bus operations. -/
def After (s u : State) : Prop := ∃ ev rest, BusDone s u ev rest

variable {go : Action → State → Option Val × State} {ag : Agent}

/-! ### Updates -/

theorem Respects.id : Respects fun s => s := fun _ _ _ _ h => h

theorem Respects.comp {g h : State → State} (hg : Respects g) (hh : Respects h) : Respects fun s => h (g s) :=
  fun _ _ _ _ hd => hh _ _ _ _ (hg _ _ _ _ hd)

theorem Respects.mapHif (f : Hif → Hif) : Respects fun s => s.mapHif f := fun _ _ _ _ h =>
  { h with hif := by simp [h.hif] }

theorem Respects.mapSock (f : Sockets → Sockets) : Respects fun s => s.mapSock f := fun _ _ _ _ h =>
  { h with sock := by simp [h.sock] }

theorem Respects.mapIrq (f : Irq → Irq) : Respects fun s => s.mapIrq f := fun _ _ _ _ h =>
  { h with irq := by simp [h.irq] }

theorem Respects.memory (f : List Host.Cell → List Host.Cell) : Respects fun s => s.setMem (f s.mem) := fun _ _ _ _ h =>
  { h with mem := by simp [h.mem] }

theorem Respects.crcEn (b : Bool) : Respects fun s => s.mapFr fun f => { f with crcEn := b } := fun _ _ _ _ h =>
  { h with crcEn := rfl, limit := h.limit }

/-! ### Building programs -/

theorem Serves.eval {α : Type} {p : Prog α} {xs : List Access} {r : α} {g : State → State} {s : State}
    (h : Serves go p xs r g s) (hs : BusReady s) {ev : List BusEvent} {rest : List (Option Byte)} (ha : Answers s xs ev rest) :
    ∃ u, p.eval go s = some (r, u) ∧ BusDone (g s) u ev rest := by
  obtain ⟨u, ev1, ev2, mid, e, rfl, d, _, hw, hm⟩ := h hs [] ev rest (by simpa using ha)
  cases hw
  have : mid = rest := by rw [← d.miso]; simpa using hm
  subst this
  exact ⟨u, e, by simpa using d⟩

/-- Only what `g` makes of `s` counts. -/
theorem Serves.congr {α : Type} {p : Prog α} {xs : List Access} {r : α} {g g' : State → State} {s : State}
    (h : Serves go p xs r g s) (hg : g s = g' s) : Serves go p xs r g' s := by
  intro hs ys ev rest ha
  rw [← hg]
  exact h hs ys ev rest ha

theorem Serves.ret {α : Type} (a : α) (s : State) : Serves go (.ret a) [] a (fun s => s) s := by
  intro hs ys ev rest ha
  exact ⟨s, [], ev, s.env.miso, rfl, rfl, BusDone.refl hs, hs, ha⟩

theorem Serves.raise {α : Type} (e : Err) (s : State) :
    Serves go (raise e : Prog (Except Err α)) [] (.error e) (fun s => s) s := Serves.ret _ s

theorem Serves.bind {α β : Type} {p : Prog α} {f : α → Prog β} {xs ys : List Access} {a : α} {b : β}
    {g h : State → State} {s : State} (hh : Respects h) (hp : Serves go p xs a g s)
    (hf : ∀ u, After (g s) u → Serves go (f a) ys b h u) : Serves go (p.bind f) (xs ++ ys) b (fun s => h (g s)) s := by
  intro hs zs ev rest ha
  rw [List.append_assoc] at ha
  obtain ⟨u, ev1, ev2, mid, e, rfl, d, hu, ha2⟩ := hp hs _ _ _ ha
  obtain ⟨w, ev3, ev4, mid', e', rfl, d', hw, ha4⟩ := hf u ⟨_, _, d⟩ hu _ _ _ ha2
  refine ⟨w, ev1 ++ ev3, ev4, mid', ?_, by rw [List.append_assoc], (hh _ _ _ _ d).trans d', hw, ha4⟩
  rw [Prog.eval_bind_of e, e']

theorem Serves.tryBind {α β : Type} {p : Prog (Except Err α)} {f : α → Prog (Except Err β)} {xs ys : List Access}
    {a : α} {b : Except Err β} {g h : State → State} {s : State} (hh : Respects h) (hp : Serves go p xs (.ok a) g s)
    (hf : ∀ u, After (g s) u → Serves go (f a) ys b h u) :
    Serves go (p.tryBind f) (xs ++ ys) b (fun s => h (g s)) s := Serves.bind hh hp hf

theorem Serves.tryBind_error {α β : Type} {p : Prog (Except Err α)} {f : α → Prog (Except Err β)} {xs : List Access}
    {e : Err} {g : State → State} {s : State} (hp : Serves go p xs (.error e) g s) :
    Serves go (p.tryBind f) xs (.error e) g s := by
  intro hs zs ev rest ha
  obtain ⟨u, ev1, ev2, mid, e', rfl, d, hu, ha2⟩ := hp hs zs ev rest ha
  exact ⟨u, ev1, ev2, mid, Prog.eval_tryBind_error e', rfl, d, hu, ha2⟩

/-- An action that moves no byte. -/
theorem Serves.act {α : Type} (hgo : Agrees go ag) {a : Action} {k : Val → Prog α} {xs : List Access} {r : α}
    {v : Val} {g h : State → State} {s t : State} (hh : Respects h) (hp : perform a ag s = (some v, t))
    (hd : BusReady s → BusDone (g s) t [] s.env.miso) (hc : (g s).fr.crcEn = s.fr.crcEn)
    (hf : ∀ u, After (g s) u → Serves go (k v) xs r h u) : Serves go (.act a k) xs r (fun s => h (g s)) s := by
  intro hs ys ev rest ha
  have fr := perform_frame a ag s
  rw [hp] at fr
  have hty : t.env.yields = [] := by rw [fr.yields, hs.yields]
  have d := hd hs
  have d' : BusDone (g s) (endAction t) [] s.env.miso := by
    refine ⟨d.crcEn, d.limit, d.lock, d.idle, d.lastErr, d.hif, d.irq, d.sock, d.root, d.mem, d.params, d.bus, ?_⟩
    have e := d.env
    rw [endAction_env, hty, List.tail_nil]
    rw [e] at hty ⊢
    simp only at hty ⊢
    rw [hty]
  have hl : (endAction t).fr.pktLimit = s.fr.pktLimit := fr.limit
  have hu : BusReady (endAction t) := ⟨d'.lock, d'.idle, by rw [hl]; exact hs.limit, by simp [hty]⟩
  have hpar : (endAction t).params = s.params := fr.params
  have hcrc : (endAction t).fr.crcEn = s.fr.crcEn := d'.crcEn.trans hc
  have ha' : Answers (endAction t) (xs ++ ys) ev rest := by
    obtain ⟨hw, hm⟩ := ha
    exact ⟨by rw [hpar, hcrc, hl]; exact hw, by rw [d'.miso]; exact hm⟩
  obtain ⟨w, ev1, ev2, mid, e, rfl, dw, hw, ha2⟩ := hf (endAction t) ⟨_, _, d'⟩ hu ys ev rest ha'
  refine ⟨w, ev1, ev2, mid, ?_, rfl, by simpa using (hh _ _ _ _ d').trans dw, hw, ha2⟩
  rw [eval_at_once hgo hp hty, e]

/-- An action that changes the state in no other way than `g`. -/
theorem Serves.update {α : Type} (hgo : Agrees go ag) {a : Action} {k : Val → Prog α} {xs : List Access} {r : α}
    {v : Val} {g h : State → State} {s : State} (hh : Respects h)
    (hp : perform a ag s = (some v, g s)) (hc : (g s).fr.crcEn = s.fr.crcEn)
    (hm : (g s).env.miso = s.env.miso) (hr : BusReady s → BusReady (g s))
    (hf : ∀ u, After (g s) u → Serves go (k v) xs r h u) : Serves go (.act a k) xs r (fun s => h (g s)) s := by
  refine Serves.act hgo hh hp (fun hs => ?_) hc hf
  have := BusDone.refl (hr hs)
  rwa [hm] at this

/-- An action that only looks. -/
theorem Serves.look {α : Type} (hgo : Agrees go ag) {a : Action} {k : Val → Prog α} {xs : List Access} {r : α}
    {v : Val} {h : State → State} {s : State} (hh : Respects h) (hp : perform a ag s = (some v, s))
    (hf : ∀ u, After s u → Serves go (k v) xs r h u) : Serves go (.act a k) xs r h s :=
  Serves.update (g := fun s => s) hgo hh hp rfl rfl (fun hs => hs) hf

/-- A delay. -/
theorem Serves.delay {α : Type} (hgo : Agrees go ag) {d : Delay} {p : Prog α} {xs : List Access} {r : α}
    {h : State → State} {s : State} (hh : Respects h) (hf : ∀ u, After s u → Serves go p xs r h u) :
    Serves go (.andThen (.delay d) p) (.delay d :: xs) r h s := by
  intro hs ys ev rest ha
  obtain ⟨_, ev2, h1, rfl, hm, htail⟩ := Answers.cons (xs := xs ++ ys) ha
  cases h1
  have hy : (passDelay d s).env.yields = [] := hs.yields
  have dn : BusDone s (endAction (passDelay d s)) [.delay d] (answersOf ev2 ++ rest) := by
    refine ⟨rfl, rfl, hs.lock, hs.idle, rfl, rfl, rfl, rfl, rfl, rfl, rfl, rfl, ?_⟩
    rw [endAction_env, hy, List.tail_nil, ← show s.env.miso = answersOf ev2 ++ rest from hm]
    simp [passDelay, hs.yields]
  obtain ⟨w, ev3, ev4, mid, e, rfl, dw, hw, ha2⟩ := hf _ ⟨_, _, dn⟩ (dn.ready hs) ys ev2 rest (htail _ dn)
  refine ⟨w, .delay d :: ev3, ev4, mid, ?_, rfl, (hh _ _ _ _ dn).trans dw, hw, ha2⟩
  rw [Prog.andThen, eval_at_once hgo (v := .unit) (t := passDelay d s) rfl hy, e]

theorem After.hif {s u : State} (h : After s u) : u.hif = s.hif := by obtain ⟨_, _, h⟩ := h; exact h.hif
theorem After.sock {s u : State} (h : After s u) : u.sock = s.sock := by obtain ⟨_, _, h⟩ := h; exact h.sock
theorem After.irq {s u : State} (h : After s u) : u.irq = s.irq := by obtain ⟨_, _, h⟩ := h; exact h.irq
theorem After.root {s u : State} (h : After s u) : u.root = s.root := by obtain ⟨_, _, h⟩ := h; exact h.root
theorem After.mem {s u : State} (h : After s u) : u.mem = s.mem := by obtain ⟨_, _, h⟩ := h; exact h.mem
theorem After.params {s u : State} (h : After s u) : u.params = s.params := by obtain ⟨_, _, h⟩ := h; exact h.params

theorem BusDone.initializing {s u : State} {ev : List BusEvent} {rest : List (Option Byte)} (h : BusDone s u ev rest) :
    initializing u = initializing s := by rw [Machine.initializing, h.env]; rfl

theorem BusDone.openFor {s u : State} {ev : List BusEvent} {rest : List (Option Byte)} (h : BusDone s u ev rest) (hs : Ready s) :
    Ready u := ⟨by rw [h.hif]; exact hs.1, h.initializing.trans hs.2⟩

theorem After.map {s u : State} {g : State → State} (h : After s u) (hg : Respects g) : After (g s) (g u) := by
  obtain ⟨ev, rest, h⟩ := h
  exact ⟨ev, rest, hg _ _ _ _ h⟩

theorem After.trans {s t u : State} (h : After s t) (h' : After t u) : After s u := by
  obtain ⟨_, _, h⟩ := h
  obtain ⟨_, _, h'⟩ := h'
  exact ⟨_, _, h.trans h'⟩

/-! ### The end of a call -/

theorem BusReady.newTask {s : State} (h : BusReady s) : BusReady (newTask s) := ⟨h.lock, h.idle, h.limit, h.yields⟩

/-- A call whose program is served. -/
theorem Returned.of_serves {i : Instr} {p : Prog (Except Err Value)} {s : State} {xs : List Access} {ev : List BusEvent}
    {rest : List (Option Byte)} {r : Except Err Value} {g : State → State} (he : exec i s = startTask i p s)
    (hs : BusReady s) (ha : Answers s xs ev rest) (h : Serves (callerGo (taskOf s)) p xs r g (newTask s)) :
    ∃ t, exec i s = .next t ∧ Returned (g (newTask s)) (taskOf s) (toResult r) ev rest t := by
  have ha' : Answers (newTask s) xs ev rest := ha
  obtain ⟨u, e, d⟩ := h.eval hs.newTask ha'
  exact ⟨_, by rw [he, startTask_of_eval e], u, d, rfl⟩

theorem noValue_serves_ok {p : Prog (Except Err Unit)} {xs : List Access} {g : State → State} {s : State}
    (h : Serves go p xs (.ok ()) g s) : Serves go (noValue p) xs (.ok .unit) g s := by
  have := Serves.tryBind (ys := []) (f := fun _ => Prog.ret (.ok Value.unit)) Respects.id h fun u _ => Serves.ret _ u
  rw [List.append_nil] at this
  exact this

theorem noValue_serves_error {p : Prog (Except Err Unit)} {xs : List Access} {g : State → State} {s : State} {e : Err}
    (h : Serves go p xs (.error e) g s) : Serves go (noValue p) xs (.error e) g s := Serves.tryBind_error h

/-! ### The operations of the transport -/

theorem readReg_serves (hgo : Agrees go ag) (a : Addr) (v : Word) (s : State) :
    Serves go (readReg a) [.read a v] (.ok v) (fun s => s) s := fun hs _ _ _ ha => readReg_answered hgo hs ha

theorem writeReg_serves (hgo : Agrees go ag) (a : Addr) (v : Word) (s : State) :
    Serves go (writeReg a v) [.write a v] (.ok ()) (fun s => s) s := fun hs _ _ _ ha => writeReg_answered hgo hs ha

theorem readBlockAt_serves (hgo : Agrees go ag) (a : Addr) (b : Bytes) (into : DataRef) (s : State) :
    Serves go (readBlockAt a b.length into) [.readBlock a b] (.ok b) (fun s => s) s :=
  fun hs _ _ _ ha => readBlockAt_answered hgo hs into ha

theorem devRead_serves (hgo : Agrees go ag) {a : Word} (h : a.toNat < 2 ^ 24) (b : Bytes) (into : DataRef)
    (s : State) : Serves go (devRead a b.length into) [.readBlock (a.setWidth 24) b] (.ok b) (fun s => s) s := by
  rw [devRead, if_pos h]
  exact readBlockAt_serves hgo _ b into s

theorem devReadSome_serves (hgo : Agrees go ag) {a : Word} (h : a.toNat < 2 ^ 24) (b : Bytes) (into : DataRef)
    (s : State) :
    Serves go (devReadSome a b.length into) (if b = [] then [] else [.readBlock (a.setWidth 24) b]) (.ok b)
      (fun s => s) s := by
  by_cases hb : b = []
  · subst hb
    exact Serves.ret _ s
  · rw [if_neg hb, devReadSome, if_neg (by simpa using hb)]
    exact devRead_serves hgo h b into s

theorem writePiece_serves (hgo : Agrees go ag) {a : Nat} (h : a < 2 ^ 24) (src : Source) (b : Bytes) (s : State)
    (hb : src.load s.mem = b) :
    Serves go (writePiece a src) [.writeBlock (BitVec.ofNat 24 a) b] (.ok ()) (fun s => s) s := by
  intro hs _ _ _ ha
  have hn : (BitVec.ofNat 24 a).toNat = a := by simp; omega
  have := writePiece_answered hgo hs src hb ha
  rwa [hn] at this

theorem Source.load_take (n : Nat) (src : Source) (m : List Host.Cell) :
    (src.take n).load m = (src.load m).take n := by
  cases src with
  | span sp => simp [Source.take, Source.load, memReadBytes_take]
  | value b => rfl

theorem Source.load_drop (n : Nat) (src : Source) (m : List Host.Cell) :
    (src.drop n).load m = (src.load m).drop n := by
  cases src with
  | span sp => simp [Source.drop, Source.load, memReadBytes_drop]
  | value b => rfl

/-- A block written in pieces (R179, R180). -/
theorem writePieces_serves (hgo : Agrees go ag) {a : Nat} {b : Bytes} {xs : List Access} (h : Pieces a b xs) :
    ∀ (n : Nat) (src : Source) (s : State), b.length ≤ n → src.load s.mem = b →
      Serves go (writePieces n a src) xs (.ok ()) (fun s => s) s := by
  induction h with
  | last a b h0 hb ha =>
    intro n src s hn hl
    obtain ⟨n, rfl⟩ : ∃ m, n = m + 1 := ⟨n - 1, by omega⟩
    have hlen : src.len = b.length := by rw [← hl, Source.load_length]
    rw [writePieces, if_neg (by omega)]
    refine Serves.tryBind (ys := []) Respects.id
      (writePiece_serves hgo ha _ b s (by rw [Source.load_take, hl, List.take_of_length_le hb])) fun u _ => ?_
    have hz : (src.drop busMtu).len = 0 := by
      rw [← Source.load_length _ s.mem, Source.load_drop, hl, List.length_drop]; omega
    cases n with
    | zero => exact Serves.ret _ u
    | succ n => rw [writePieces, if_pos hz]; exact Serves.ret _ u
  | more a d rest xs hd hr ha h ih =>
    intro n src s hn hl
    obtain ⟨n, rfl⟩ : ∃ m, n = m + 1 := ⟨n - 1, by simp at hn; omega⟩
    have hlen : src.len = d.length + rest.length := by rw [← Source.load_length src s.mem, hl, List.length_append]
    have hb : 0 < d.length := by rw [hd, busMtu]; omega
    rw [writePieces, if_neg (by omega)]
    refine Serves.tryBind (xs := [_]) Respects.id
      (writePiece_serves hgo ha _ d s (by rw [Source.load_take, hl, ← hd, List.take_left])) fun u hu => ?_
    exact ih n _ u (by simp at hn; omega) (by rw [Source.load_drop, hu.mem, hl, ← hd, List.drop_left])

/-- A block of at most `BUS_MTU` bytes written in one piece (R179). -/
theorem devWrite_serves (hgo : Agrees go ag) {a : Nat} {b : Bytes} (h0 : 0 < b.length) (hb : b.length ≤ busMtu)
    (ha : a < 2 ^ 24) (s : State) :
    Serves go (devWrite a (.value b)) [.writeBlock (BitVec.ofNat 24 a) b] (.ok ()) (fun s => s) s :=
  writePieces_serves hgo (.last a b h0 hb ha) _ _ s (Nat.le_refl _) rfl

theorem devWriteSome_serves (hgo : Agrees go ag) {a : Nat} {b : Bytes} (hb : b.length ≤ busMtu) (ha : a < 2 ^ 24)
    (s : State) : Serves go (devWriteSome a b) (writeSome a b) (.ok ()) (fun s => s) s := by
  by_cases h : b = []
  · subst h
    exact Serves.ret _ s
  · rw [writeSome, if_neg h, devWriteSome, if_neg (by simpa [List.isEmpty_iff] using h)]
    exact devWrite_serves hgo (List.length_pos_iff.mpr h) hb ha s

theorem setRegBit_serves (hgo : Agrees go ag) (a : Addr) (bit : Fin 32) (w : Word) (s : State) :
    Serves go (setRegBit a bit) (setBitAccesses a bit w) (.ok ()) (fun s => s) s :=
  Serves.tryBind (xs := [_]) Respects.id (readReg_serves hgo a w s) fun u _ => writeReg_serves hgo a _ u

theorem clearRegBit_serves (hgo : Agrees go ag) (a : Addr) (bit : Fin 32) (w : Word) (s : State) :
    Serves go (clearRegBit a bit) (clearBitAccesses a bit w) (.ok ()) (fun s => s) s :=
  Serves.tryBind (xs := [_]) Respects.id (readReg_serves hgo a w s) fun u _ => writeReg_serves hgo a _ u

/-! ### Wake and sleep (R206, R207) -/

/-- A field of the session set. -/
theorem Serves.setHif {α : Type} (hgo : Agrees go ag) {a : Action} {p : Prog α} {xs : List Access} {r : α}
    (f : Hif → Hif) {h : State → State} {s : State} (hh : Respects h)
    (hp : perform a ag s = (some .unit, s.mapHif f)) (hf : ∀ u, After (s.mapHif f) u → Serves go p xs r h u) :
    Serves go (.andThen a p) xs r (fun s => h (s.mapHif f)) s :=
  Serves.update hgo hh hp rfl rfl (fun hs => ⟨hs.lock, hs.idle, hs.limit, hs.yields⟩) hf

theorem ackAccesses_cons {p : Params} {x : Word} (hx : acked p x = false) (polls : List Word) :
    ackAccesses p (x :: polls) = .read p.regClkStatus x :: .delay .wakePoll :: ackAccesses p polls := by
  simp [ackAccesses, hx]

theorem wakePoll_acked (hgo : Agrees go ag) (p : Params) (w : Word) (hw : acked p w = true) :
    ∀ (before : List Word) (n : Nat) (s : State), (∀ x ∈ before, acked p x = false) → before.length + 1 ≤ n →
      Serves go (wakePoll p n) (ackAccesses p (before ++ [w])) (.ok ())
        (fun s => s.mapHif fun h => { h with awake := true }) s
  | [], n, s, _, hn => by
    obtain ⟨n, rfl⟩ : ∃ m, n = m + 1 := ⟨n - 1, by simp at hn; omega⟩
    have hw' : w.getLsbD p.bitClkEnAck.val = true := hw
    rw [show ackAccesses p ([] ++ [w]) = [.read p.regClkStatus w] ++ [] by simp [ackAccesses, hw]]
    refine Serves.tryBind (Respects.mapHif _) (readReg_serves hgo _ w s) fun u _ => ?_
    rw [hw', if_pos rfl]
    exact Serves.setHif hgo _ Respects.id rfl fun v _ => Serves.ret _ v
  | x :: before, n, s, hb, hn => by
    obtain ⟨n, rfl⟩ : ∃ m, n = m + 1 := ⟨n - 1, by simp at hn; omega⟩
    have hx : x.getLsbD p.bitClkEnAck.val = false := hb x (by simp)
    rw [List.cons_append, ackAccesses_cons (hb x (by simp))]
    refine Serves.tryBind (xs := [_]) (Respects.mapHif _) (readReg_serves hgo _ x s) fun u _ => ?_
    rw [hx, if_neg (by simp)]
    exact Serves.delay hgo (Respects.mapHif _) fun v _ =>
      wakePoll_acked hgo p w hw before n v (fun y hy => hb y (by simp [hy])) (by simp at hn; omega)

theorem wakePoll_silent (hgo : Agrees go ag) (p : Params) :
    ∀ (polls : List Word) (s : State), (∀ x ∈ polls, acked p x = false) →
      Serves go (wakePoll p polls.length) (ackAccesses p polls) (.error .wakeFailed) (fun s => s) s
  | [], s, _ => Serves.raise _ s
  | x :: polls, s, hb => by
    have hx : x.getLsbD p.bitClkEnAck.val = false := hb x (by simp)
    rw [ackAccesses_cons (hb x (by simp))]
    refine Serves.tryBind (xs := [_]) Respects.id (readReg_serves hgo _ x s) fun u _ => ?_
    rw [hx, if_neg (by simp)]
    exact Serves.delay hgo Respects.id fun v _ => wakePoll_silent hgo p polls v fun y hy => hb y (by simp [hy])

theorem chipWake_awake (hgo : Agrees go ag) (p : Params) {s : State} (h : s.hif.awake = true) :
    Serves go (chipWake p) [] (.ok ()) (fun s => s) s :=
  Serves.look hgo Respects.id rfl fun u hu => by
    show Serves go (if s.hif.awake then _ else _) _ _ _ u
    rw [h, if_pos rfl]
    exact Serves.ret _ u

theorem chipWake_asleep (hgo : Agrees go ag) (p : Params) {s : State} (h : s.hif.awake = false) (wa wb : Word)
    {polls : List Word} {r : Except Err Unit} {g : State → State} (hg : Respects g)
    (hp : ∀ u, Serves go (wakePoll p wakePolls) (ackAccesses p polls) r g u) :
    Serves go (chipWake p) (wakeAccesses p wa wb polls) r g s :=
  Serves.look hgo hg rfl fun u hu => by
    show Serves go (if s.hif.awake then _ else _) _ _ _ u
    rw [h, if_neg (by simp), wakeAccesses, List.append_assoc]
    exact Serves.tryBind hg (setRegBit_serves hgo _ _ wa u) fun v _ =>
      Serves.tryBind hg (setRegBit_serves hgo _ _ wb v) fun w _ =>
        Serves.delay hgo hg fun x _ => hp x

/-- `ChipWake`, the acknowledge given among ten polls (R206). -/
theorem chipWake_acked (hgo : Agrees go ag) (p : Params) {s : State} (h : s.hif.awake = false) (wa wb : Word)
    {polls : List Word} (hl : polls.length ≤ 10) (ho : LastOnly (acked p) polls) :
    Serves go (chipWake p) (wakeAccesses p wa wb polls) (.ok ())
      (fun s => s.mapHif fun h => { h with awake := true }) s := by
  obtain ⟨before, w, rfl, hb, hw⟩ := ho
  exact chipWake_asleep hgo p h wa wb (Respects.mapHif _) fun u =>
    wakePoll_acked hgo p w hw before _ u hb (by simpa [wakePolls] using hl)

/-- `ChipWake`, no acknowledge in ten polls (R206). -/
theorem chipWake_silent (hgo : Agrees go ag) (p : Params) {s : State} (h : s.hif.awake = false) (wa wb : Word)
    {polls : List Word} (hl : polls.length = 10) (ho : ∀ w ∈ polls, acked p w = false) :
    Serves go (chipWake p) (wakeAccesses p wa wb polls) (.error .wakeFailed) (fun s => s) s :=
  chipWake_asleep hgo p h wa wb Respects.id fun u => by
    have := wakePoll_silent hgo p polls u ho
    rwa [hl] at this

theorem chipSleep_asleep (hgo : Agrees go ag) (p : Params) {s : State} (h : s.hif.awake = false) :
    Serves go (chipSleep p) [] (.ok ()) (fun s => s) s :=
  Serves.look hgo Respects.id rfl fun u hu => by
    show Serves go (if s.hif.awake then _ else _) _ _ _ u
    rw [h, if_neg (by simp)]
    exact Serves.ret _ u

/-- `ChipSleep` of a chip that is awake (R207). -/
theorem chipSleep_awake (hgo : Agrees go ag) (p : Params) {s : State} (h : s.hif.awake = true) (wb wa : Word) :
    Serves go (chipSleep p) (sleepAccesses p wb wa) (.ok ()) (fun s => s.mapHif fun h => { h with awake := false }) s :=
  Serves.look hgo (Respects.mapHif _) rfl fun u hu => by
    show Serves go (if s.hif.awake then _ else _) _ _ _ u
    rw [h, if_pos rfl]
    exact Serves.tryBind (Respects.mapHif _) (clearRegBit_serves hgo _ _ wb u) fun v _ => by
      have := Serves.tryBind (ys := []) (f := fun _ => Prog.andThen (.put (.awake false)) (.ret (.ok ()))) (Respects.mapHif _)
        (clearRegBit_serves hgo p.regWakeA p.bitWakeA wa v) fun w _ =>
          Serves.setHif hgo (fun h => { h with awake := false }) Respects.id rfl fun x _ => Serves.ret _ x
      simpa using this

/-- A program under the session lock (R226). -/
theorem withSession_serves {α : Type} (hgo : Agrees go ag) {body : Prog α} {xs : List Access} {r : α}
    {g : State → State} {s : State} (hg : Respects g) (hl : s.hif.lock = .free)
    (hb : ∀ u, After (s.mapHif fun h => { h with lock := .held ag }) u → Serves go body xs r g u) :
    Serves go (withSession body) xs r
      (fun s => (g (s.mapHif fun h => { h with lock := .held ag })).mapHif fun h => { h with lock := h.lock.drop ag })
      s := by
  have hp : perform .lockS ag s = (some .unit, s.mapHif fun h => { h with lock := .held ag }) := by
    simp [perform, doLockS, hl, Lock.take]
  refine Serves.setHif (h := fun t => (g t).mapHif fun h => { h with lock := h.lock.drop ag }) hgo _
    (hg.comp (Respects.mapHif _)) hp fun u hu => ?_
  have := Serves.bind (ys := []) (f := fun r => Prog.andThen .unlockS (.ret r)) (Respects.mapHif _) (hb u hu)
    fun v _ => Serves.setHif hgo (fun h => { h with lock := h.lock.drop ag }) Respects.id rfl fun w _ => Serves.ret r w
  simpa using this

/-- A program that starts in `ready` only, in `ready` (R224). -/
theorem ifReady_serves {α : Type} (hgo : Agrees go ag) {body : Prog (Except Err α)} {xs : List Access}
    {r : Except Err α} {g : State → State} {s : State} (hg : Respects g) (hr : s.hif.state = .ready)
    (hb : ∀ u, After s u → Serves go body xs r g u) : Serves go (ifReady body) xs r g s := by
  refine Serves.look hgo hg rfl fun u hu => ?_
  show Serves go (if decide (s.hif.state = .ready) then body else _) _ _ _ u
  rw [if_pos (by simpa using hr)]
  exact hb u hu

/-! ### Send (R208 to R210) -/

theorem dmaAccesses_cons {p : Params} {x : Word} (hx : p.dmaPublished.app x = false) (k : Nat) (polls : List Word) :
    dmaAccesses p k (x :: polls) = [.read p.regHifDmaCtrl x] ++
      ((if k > hifDmaThrottle then [.delay .dmaThrottle] else []) ++ dmaAccesses p (k + 1) polls) := by
  simp [dmaAccesses, hx, hifDmaThrottle]

/-- A poll that finds no address published, and the polls after it. -/
theorem dmaPoll_again (hgo : Agrees go ag) (p : Params) {x : Word} (hx : p.dmaPublished.app x = false) {k n : Nat}
    {polls : List Word} {ys : List Access} {r : Except Err (Option Word)} {s : State}
    (h : ∀ u, Serves go (dmaPoll p (k + 1) n) (dmaAccesses p (k + 1) polls ++ ys) r (fun s => s) u) :
    Serves go (dmaPoll p k (n + 1)) (dmaAccesses p k (x :: polls) ++ ys) r (fun s => s) s := by
  rw [dmaAccesses_cons hx, List.append_assoc]
  refine Serves.tryBind (xs := [_]) Respects.id (readReg_serves hgo _ x s) fun u _ => ?_
  rw [hx, if_neg (by simp)]
  split
  · exact Serves.delay hgo Respects.id fun v _ => h v
  · exact h u

theorem dmaPoll_published (hgo : Agrees go ag) (p : Params) (w a : Word) (hw : p.dmaPublished.app w = true) :
    ∀ (before : List Word) (k n : Nat) (s : State), (∀ x ∈ before, p.dmaPublished.app x = false) →
      before.length + 1 ≤ n →
      Serves go (dmaPoll p k n) (dmaAccesses p k (before ++ [w]) ++ [.read p.regHifDmaAddr a]) (.ok (some a))
        (fun s => s) s
  | [], k, n, s, _, hn => by
    obtain ⟨n, rfl⟩ : ∃ m, n = m + 1 := ⟨n - 1, by simp at hn; omega⟩
    rw [show dmaAccesses p k ([] ++ [w]) = [.read p.regHifDmaCtrl w] by simp [dmaAccesses, hw]]
    refine Serves.tryBind Respects.id (readReg_serves hgo _ w s) fun u _ => ?_
    rw [hw, if_pos rfl]
    exact Serves.tryBind (xs := [_]) (ys := []) Respects.id (readReg_serves hgo _ a u) fun v _ => Serves.ret _ v
  | x :: before, k, n, s, hb, hn => by
    obtain ⟨n, rfl⟩ : ∃ m, n = m + 1 := ⟨n - 1, by simp at hn; omega⟩
    exact dmaPoll_again hgo p (hb x (by simp)) fun u =>
      dmaPoll_published hgo p w a hw before (k + 1) n u (fun y hy => hb y (by simp [hy])) (by simp at hn; omega)

theorem dmaPoll_silent (hgo : Agrees go ag) (p : Params) :
    ∀ (polls : List Word) (k : Nat) (s : State), (∀ x ∈ polls, p.dmaPublished.app x = false) →
      Serves go (dmaPoll p k polls.length) (dmaAccesses p k polls) (.ok none) (fun s => s) s
  | [], _, s, _ => Serves.ret _ s
  | x :: polls, k, s, hb => by
    have := dmaPoll_again (n := polls.length) (polls := polls) (ys := []) (s := s) hgo p (hb x (by simp)) (k := k)
      fun u => by
        rw [List.append_nil]
        exact dmaPoll_silent hgo p polls (k + 1) u fun y hy => hb y (by simp [hy])
    rwa [List.append_nil] at this

/-- The three block writes and the TX-ready write (R208, R210). -/
theorem sendPacket_serves (hgo : Agrees go ag) (p : Params) {dma : Word} {header control data : Bytes} {offset : Nat}
    (h8 : header.length = 8) (ht : hifTotal control data offset ≤ hifMaxPkt) (ha : dma.toNat + 8 + offset < 2 ^ 24)
    (s : State) :
    Serves go (sendPacket p dma header control data offset)
      ([.writeBlock (BitVec.ofNat 24 dma.toNat) header] ++ (writeSome (dma.toNat + 8) control ++
        (writeSome (dma.toNat + 8 + offset) data ++ [.write p.regHifTxReady (p.txReadyWord.app dma)])))
      (.ok ()) (fun s => s) s := by
  have hc : control.length ≤ busMtu ∧ data.length ≤ busMtu := by
    simp only [hifTotal, hifMaxPkt, hifHdrWire, busMtu] at *
    omega
  exact Serves.tryBind Respects.id (devWrite_serves hgo (by omega) (by rw [h8]; decide) (by omega) s) fun u _ =>
    Serves.tryBind Respects.id (devWriteSome_serves hgo hc.1 (by omega) u) fun v _ =>
      Serves.tryBind Respects.id (devWriteSome_serves hgo hc.2 ha v) fun w _ => writeReg_serves hgo _ _ w

theorem hifOpcodeByte_eq (opcode : Byte) (data : Bytes) :
    hifOpcodeByte opcode (!data.isEmpty) = (opcode &&& 0x7F) ||| (if data = [] then 0x00 else 0x80) := by
  cases data <;> rfl

/-- The accesses of a packet, as the body of `Send` makes them. -/
theorem packetAccesses_eq (p : Params) (group opcode : Byte) (control data : Bytes) (offset : Nat) (polls : List Word)
    (dma : Word) :
    packetAccesses p group opcode control data offset polls dma =
      let op : Byte := (opcode &&& 0x7F) ||| (if data = [] then 0x00 else 0x80)
      let total : Half := BitVec.ofNat 16 (hifTotal control data offset)
      [.write p.regHifTxCtrl (p.ctrlWord.app (group, op, total))] ++
        ((dmaAccesses p 1 polls ++ [.read p.regHifDmaAddr dma]) ++
          ([.writeBlock (BitVec.ofNat 24 dma.toNat) (hifHeader group op total)] ++ (writeSome (dma.toNat + 8) control ++
            (writeSome (dma.toNat + 8 + offset) data ++ [.write p.regHifTxReady (p.txReadyWord.app dma)])))) := by
  simp [packetAccesses, handoverAccesses, hifTotal, hifHdrWire, hifHeader, le2]

/-- The body of `Send` (R208), once the chip wakes. -/
theorem sendBody_serves (hgo : Agrees go ag) (p : Params) {group opcode : Byte} {control data : Bytes} {offset : Nat}
    {polls : List Word} {dma : Word} {ws : List Access} {s : State} (ht : hifTotal control data offset ≤ hifMaxPkt)
    (hw : Serves go (chipWake p) ws (.ok ()) (fun s => s.mapHif fun h => { h with awake := true }) s)
    (hn : polls.length ≤ p.hifDmaPolls) (ho : LastOnly p.dmaPublished.app polls) (h0 : dma ≠ 0)
    (ha : dma.toNat + 8 + offset < 2 ^ 24) :
    Serves go (sendBody p group opcode control data offset)
      (ws ++ packetAccesses p group opcode control data offset polls dma) (.ok ())
      (fun s => s.mapHif fun h => { h with awake := true }) s := by
  obtain ⟨before, w, rfl, hb, hw'⟩ := ho
  rw [packetAccesses_eq]
  refine Serves.tryBind Respects.id hw fun u _ => ?_
  rw [hifOpcodeByte_eq]
  refine Serves.tryBind (xs := [_]) Respects.id (writeReg_serves hgo _ _ u) fun v _ => ?_
  refine Serves.tryBind Respects.id (dmaPoll_published hgo p w dma hw' before 1 _ v hb (by simpa using hn)) fun x _ => ?_
  dsimp only
  rw [if_neg h0]
  exact sendPacket_serves hgo p rfl ht ha x

/-- `Send` once its body ends, whatever the body answers; the chip is put to sleep (R208). -/
theorem hifSend_serves (hgo : Agrees go ag) (p : Params) {group opcode : Byte} {control data : Bytes} {offset : Nat}
    {xs : List Access} {r : Except Err Unit} {s : State} (wb wa : Word) (hr : s.hif.state = .ready)
    (hl : s.hif.lock = .free)
    (ht : hifTotal control data offset ≤ hifMaxPkt)
    (hb : ∀ u, After (s.mapHif fun h => { h with lock := .held ag }) u →
      Serves go (sendBody p group opcode control data offset) xs r (fun s => s.mapHif fun h => { h with awake := true })
        u) :
    Serves go (hifSend p group opcode control data offset) (xs ++ sleepAccesses p wb wa) r
      (fun s => s.mapHif fun h => { h with awake := false }) s := by
  refine ifReady_serves hgo (Respects.mapHif _) hr fun s0 h0 => ?_
  have hl : s0.hif.lock = .free := by rw [h0.hif, hl]
  have hb : ∀ u, After (s0.mapHif fun h => { h with lock := .held ag }) u →
      Serves go (sendBody p group opcode control data offset) xs r (fun s => s.mapHif fun h => { h with awake := true })
        u := fun u hu => hb u ((h0.map (Respects.mapHif _)).trans hu)
  have hz := withSession_serves (body := if hifTotal control data offset > hifMaxPkt then raise .messageTooLong
      else (sendBody p group opcode control data offset).bind fun r => (chipSleep p).bind fun _ => .ret r)
    (xs := xs ++ sleepAccesses p wb wa) (r := r)
    (g := fun s => s.mapHif fun h => { h with awake := false }) hgo (Respects.mapHif _) hl fun u hu => by
    rw [if_neg (by omega)]
    have := Serves.bind (f := fun r => (chipSleep p).bind fun _ => .ret r)
      (h := fun s => s.mapHif fun h => { h with awake := false }) (Respects.mapHif _) (hb u hu) fun v hv => by
        have := Serves.bind (ys := []) (f := fun _ => Prog.ret r) Respects.id
          (chipSleep_awake hgo p (s := v) (by rw [hv.hif]; rfl) wb wa) fun w _ => Serves.ret r w
        simpa using this
    exact this.congr rfl
  refine Serves.congr hz ?_
  clear hz hb h0
  obtain ⟨fr, tr, hif, irq, sock, root, mem, params, env⟩ := s0
  obtain ⟨st, aw, lk, a, b, c, d, e, f⟩ := hif
  simp only at hl
  subst hl
  simp [State.mapHif, Lock.drop]

/-! ### Receive (R218, R219) -/

theorem rxDone_serves (hgo : Agrees go ag) (p : Params) (w : Word) (s : State) :
    Serves go (rxDone p) (setBitAccesses p.regHifRxCtrl p.bitRxDone w) (.ok ())
      (fun s => s.mapHif fun h => { h with rxPend := false }) s := by
  have := Serves.tryBind (ys := []) (f := fun _ => Prog.andThen (.put (.rxPend false)) (.ret (.ok ()))) (Respects.mapHif _)
    (setRegBit_serves hgo p.regHifRxCtrl p.bitRxDone w s) fun u _ =>
      Serves.setHif hgo (fun h => { h with rxPend := false }) Respects.id rfl fun v _ => Serves.ret _ v
  rw [List.append_nil] at this
  exact this

theorem rxDoneIfDue_serves (hgo : Agrees go ag) (p : Params) (w : Word) {address : Word} {n : Nat} {done due : Bool}
    {s : State} (hd : rxDoneDue s.hif address n done = due) :
    Serves go (rxDoneIfDue p address n done) (rxDoneAccesses p due w) (.ok ())
      (fun s => s.mapHif fun h => { h with rxPend := h.rxPend && !due }) s := by
  refine Serves.look hgo (Respects.mapHif _) rfl fun u hu => ?_
  show Serves go (if rxDoneDue s.hif address n done then _ else _) _ _ _ u
  rw [hd]
  cases due with
  | true => exact (rxDone_serves hgo p w u).congr (by simp)
  | false => exact (Serves.ret (go := go) _ u).congr (by simp [State.mapHif])

/-- The three tests of `Receive` passed (R218). -/
theorem rxChecked_serves {α : Type} (hgo : Agrees go ag) {address : Word} {n : Nat} {body : Prog (Except Err α)}
    {xs : List Access} {r : Except Err α} {g : State → State} {s : State} (hg : Respects g)
    (hw : inWindow s.hif address n) (hb : ∀ u, After s u → Serves go body xs r g u) :
    Serves go (rxChecked address n body) xs r g s := by
  obtain ⟨h1, h2, h3, h4⟩ := hw
  refine Serves.look hgo hg rfl fun u hu => ?_
  show Serves go (if s.hif.rxValid then _ else _) _ _ _ u
  rw [h1, if_pos rfl]
  refine Serves.look hgo hg rfl fun v hv => ?_
  show Serves go (if rxTooLong u.hif n then _ else _) _ _ _ v
  rw [hu.hif, if_neg (by simpa [rxTooLong] using h2)]
  refine Serves.look hgo hg rfl fun w hw => ?_
  show Serves go (if rxOutside v.hif address n then _ else _) _ _ _ w
  rw [hv.hif, hu.hif, if_neg (by simp only [rxOutside, Bool.or_eq_true, decide_eq_true_eq]; omega)]
  exact hb w ((hu.trans hv).trans hw)

/-- `Receive` inside the window, the bytes kept in the block (R218). -/
theorem receive_serves (hgo : Agrees go ag) (p : Params) (w : Word) {address : Word} {b : Bytes} {done due : Bool}
    {s : State} (hr : s.hif.state = .ready) (hw : inWindow s.hif address b.length) (ha : address.toNat < 2 ^ 24)
    (hd : rxDoneDue s.hif address b.length done = due) :
    Serves go (receive p address b.length done none)
      ((if b = [] then [] else [.readBlock (address.setWidth 24) b]) ++ rxDoneAccesses p due w) (.ok b)
      (fun s => s.mapHif fun h => { h with rxPend := h.rxPend && !due }) s := by
  refine ifReady_serves hgo (Respects.mapHif _) hr fun s0 h0 => ?_
  refine rxChecked_serves hgo (Respects.mapHif _) (by rw [h0.hif]; exact hw) fun u hu => ?_
  refine Serves.tryBind (Respects.mapHif _) (devReadSome_serves hgo ha b _ u) fun v hv => ?_
  have := Serves.tryBind (ys := []) (f := fun _ => Prog.ret (.ok b)) Respects.id
    (rxDoneIfDue_serves hgo p w (due := due) (s := v) (by rw [hv.hif, hu.hif, h0.hif]; exact hd)) fun x _ =>
      Serves.ret (go := go) (Except.ok b : Except Err Bytes) x
  simpa using this

/-- `Receive` inside the window into a lent span (R218). -/
theorem receive_into_serves (hgo : Agrees go ag) (p : Params) (w : Word) {address : Word} {b : Bytes}
    {done due : Bool} {s : State} (sp : Span) (hr : s.hif.state = .ready) (hw : inWindow s.hif address b.length)
    (ha : address.toNat < 2 ^ 24) (hd : rxDoneDue s.hif address b.length done = due) :
    Serves go (receive p address b.length done (some sp))
      ((if b = [] then [] else [.readBlock (address.setWidth 24) b]) ++ rxDoneAccesses p due w) (.ok b)
      (fun s => (fillSpan sp b s).mapHif fun h => { h with rxPend := h.rxPend && !due }) s := by
  have hfill : Respects (fillSpan sp b) :=
    Respects.memory fun m => memWriteBytes m sp.base (b.take sp.len)
  refine ifReady_serves hgo (hfill.comp (Respects.mapHif _)) hr fun s0 h0 => ?_
  refine rxChecked_serves hgo (hfill.comp (Respects.mapHif _)) (by rw [h0.hif]; exact hw) fun u hu => ?_
  refine Serves.tryBind (hfill.comp (Respects.mapHif _)) (devReadSome_serves hgo ha b _ u) fun v hv => ?_
  refine Serves.update (g := fillSpan sp b) (v := .unit)
    (h := fun s => s.mapHif fun h => { h with rxPend := h.rxPend && !due }) hgo (Respects.mapHif _) rfl rfl rfl
    (fun hs => ⟨hs.lock, hs.idle, hs.limit, hs.yields⟩) fun x hx => ?_
  have hx' : x.hif = s.hif := by
    rw [hx.hif]
    show v.hif = _
    rw [hv.hif, hu.hif, h0.hif]
  have := Serves.tryBind (ys := []) (f := fun _ => Prog.ret (.ok b)) Respects.id
    (rxDoneIfDue_serves hgo p w (due := due) (s := x) (by rw [hx']; exact hd))
    fun y _ => Serves.ret (go := go) (Except.ok b : Except Err Bytes) y
  simpa using this

/-! ### Rows of format HIF -/

theorem some_of_ite {c : Prop} [Decidable c] {a i : Instr} {x : Option Instr}
    (h : (if c then some a else x) = some i) : (c ∧ a = i) ∨ x = some i := by
  split at h
  · rename_i hc
    injection h with h
    exact .inl ⟨hc, h⟩
  · exact .inr h

/-- Every row of format HIF runs its packet; an SSL-create packet is sent to the group WIFI alone. -/
theorem exec_hifRow {group op : Byte} {pk : HifPacket} {i : Instr} (h : hifRow group op pk = some i) (s : State)
    (hg : op = 0x50 → group = s.params.groupWifi ∨ ∃ f l, pk = .inbound f l) :
    exec i s = hifRowExec i group op pk s := by
  unfold hifRow at h
  rcases some_of_ite h with ⟨rfl, rfl⟩ | h'
  · rcases hg rfl with rfl | ⟨f, l, rfl⟩
    · cases pk with
      | outbound c d o => exact if_pos rfl
      | inbound f l => rfl
    · rfl
  · clear h hg
    by_cases hg : group ≠ groupIp
    · rw [if_pos hg] at h'
      exact nomatch h'
    · rw [if_neg hg] at h'
      have hg : group = groupIp := by simpa using hg
      subst hg
      rename' h' => h
      iterate 20
        rcases some_of_ite h with ⟨rfl, rfl⟩ | h
        · rfl
      exact nomatch h

/-- `Hif.Send` and the rows sent by it run the same program. -/
theorem exec_outbound {group opcode : Byte} {control data : Bytes} {offset : Nat} {i : Instr} {s : State}
    (h : i = .opHifSend group opcode control data offset ∨
      hifRow group opcode (.outbound control data offset) = some i ∧ (opcode = 0x50 → group = s.params.groupWifi))
    (hr : Ready s) :
    exec i s = startTask i (noValue (hifSend s.params group opcode control data offset)) s := by
  rcases h with rfl | ⟨h, hg⟩
  · exact whenReady_ready hr _
  · rw [exec_hifRow h s fun ho => .inl (hg ho)]
    exact whenReady_ready hr _

/-- A packet received of any row is the worker's (R335; log 10). -/
theorem exec_inbound {group op : Byte} {flag : Bool} {length : Half} {i : Instr} {s : State}
    (h : hifRow group op (.inbound flag length) = some i) :
    exec i s = startJob (fun id => .packet id group (hifOpcodeByte op flag) length) s := by
  rw [exec_hifRow h s fun _ => .inr ⟨_, _, rfl⟩]
  rfl

end Sys2Proof.Machine
end

