-- ==== Sys2Proof/Laws/Session.lean ====
section
/-!
SUPPORT. The head of `Isr`, the dispatch of a packet, and the socket multiplexer's callback, against a device that
answers (spec/42_hif.md R211 to R219, spec/43_socket.md R270 to R280).
-/

namespace Sys2Proof.Machine

variable {go : Action → State → Option Val × State} {ag : Agent}

/-! ### Isr (R211, R212, R214, R216, R217) -/

theorem rxSizeField_toNat (p : Params) (r : Word) : (rxSizeField p r).toNat = sizeOf12 p r := by
  simp [rxSizeField, sizeOf12, BitVec.extractLsb'_toNat, Nat.shiftRight_eq_div_pow]

theorem ackRxIntr_serves (hgo : Agrees go ag) (p : Params) (r : Word) (s : State) :
    Serves go (ackRxIntr p r)
      (if r.getLsbD p.bitRxIntr.val then [.write p.regHifRxCtrl (r &&& ~~~(1#32 <<< p.bitRxIntr.val))] else [])
      (.ok ()) (fun s => s) s := by
  unfold ackRxIntr
  split
  · exact writeReg_serves hgo _ _ s
  · exact Serves.ret _ s

/-- `Isr` up to the test of the size, then the rest (R211). -/
theorem isrHead_serves (hgo : Agrees go ag) (p : Params) (given : Option Header) (r : Word) {xs : List Access}
    {v : Except Err (Option (Header × Word))} {g : State → State} {s : State} (hg : Respects g)
    (hf : ∀ u, After (s.mapHif fun h => { h with rxPend := true }) u →
      Serves go (isrWindow p given (rxSizeField p r)) xs v g u) :
    Serves go (isrHead p given) (isrAccesses p r ++ xs) v (fun s => g (s.mapHif fun h => { h with rxPend := true }))
      s := by
  rw [isrAccesses, List.cons_append]
  have hm : Respects fun s => g (s.mapHif fun h => { h with rxPend := true }) := (Respects.mapHif _).comp hg
  refine Serves.tryBind (xs := [_]) (h := fun s => g (s.mapHif fun h => { h with rxPend := true })) hm
    (readReg_serves hgo _ r s) fun u hu => ?_
  refine Serves.tryBind (h := fun s => g (s.mapHif fun h => { h with rxPend := true })) hm (ackRxIntr_serves hgo p r u)
    fun w hw => ?_
  exact Serves.setHif hgo (fun h => { h with rxPend := true }) hg rfl fun x hx =>
    hf x (((hu.trans hw).map (Respects.mapHif _)).trans hx)

/-- `Isr`: its locked head, then what follows it (R211, R213). -/
theorem isr_serves (hgo : Agrees go ag) (p : Params) (given : Option Header) (r : Word)
    {hd : Except Err (Option (Header × Word))} {xs ys : List Access} {v : Except Err Unit} {g h : State → State}
    {s : State} (hg : Respects g) (hh : Respects h) (hl : s.hif.lock = .free)
    (h1 : ∀ u, After (s.mapHif fun h => { h with lock := .held ag, rxPend := true }) u →
      Serves go (isrWindow p given (rxSizeField p r)) xs hd g u)
    (h2 : ∀ u,
      After ((g (s.mapHif fun h => { h with lock := .held ag, rxPend := true })).mapHif fun x =>
        { x with lock := x.lock.drop ag }) u →
      Serves go
        (match hd with
        | .ok x => isrRest p x
        | .error e => .ret (.error e)) ys v h u) :
    Serves go (isr p given) (isrAccesses p r ++ xs ++ ys) v
      (fun s => h ((g (s.mapHif fun h => { h with lock := .held ag, rxPend := true })).mapHif fun x =>
        { x with lock := x.lock.drop ag })) s := by
  have a := withSession_serves (g := fun s => g (s.mapHif fun h => { h with rxPend := true })) hgo
    ((Respects.mapHif _).comp hg) hl fun u hu => isrHead_serves hgo p given r hg fun v hv =>
      h1 v ((hu.map (Respects.mapHif fun h => { h with rxPend := true })).trans hv)
  refine (Serves.bind hh a fun u hu => ?_).congr rfl
  have := h2 u hu
  cases hd with
  | error e => exact this
  | ok v => exact this

/-- The header of a packet read out of the device, or in hand (R211; log 10). -/
theorem readHeader_serves (hgo : Agrees go ag) (given : Option Header) (hd : Header) (l0 l1 : Byte) {addr : Word}
    (hlen : hd.length = fromLe2 l0 l1) (hg : given = none ∨ given = some hd)
    (ha : given = none → addr.toNat < 2 ^ 24) (s : State) :
    Serves go (readHeader given addr)
      (if given = none then [.readBlock (addr.setWidth 24) [hd.group, hd.opcode, l0, l1]] else []) (.ok hd)
      (fun s => s) s := by
  rcases hg with rfl | rfl
  · rw [if_pos rfl]
    have := Serves.tryBind (ys := [])
      (f := fun h : Bytes =>
        (Prog.ret (.ok ⟨h.getD 0 0, h.getD 1 0, fromLe2 (h.getD 2 0) (h.getD 3 0)⟩) : Prog (Except Err Header)))
      Respects.id (devRead_serves hgo (ha rfl) [hd.group, hd.opcode, l0, l1] (.operand 4) s) fun u _ => Serves.ret _ u
    have e : hd = ⟨hd.group, hd.opcode, fromLe2 l0 l1⟩ := by rw [← hlen]
    rw [e]
    exact this
  · rw [if_neg (by simp)]
    exact Serves.ret _ s

theorem headerOk_iff (size : BitVec 12) (length : Half) :
    headerOk size length = decide (size.toNat ≤ length.toNat + 4) := by
  simp only [headerOk, rxSlack]
  congr 1
  apply propext
  omega

/-- The window an `Isr` records (R211). -/
def windowSet (addr : Word) (size : BitVec 12) (s : State) : State :=
  s.mapHif fun h => { h with rxAddr := addr, rxSize := size, rxValid := true }

theorem Respects.windowSet (addr : Word) (size : BitVec 12) : Respects (windowSet addr size) := Respects.mapHif _

/-- The three assignments of the window (R211). -/
theorem setWindow_serves {α : Type} (hgo : Agrees go ag) (addr : Word) (size : BitVec 12) (a : α) (s : State) :
    Serves go (.puts [.rxAddr addr, .rxSize size, .rxValid true] (.ret a)) [] a (windowSet addr size) s := by
  refine Serves.setHif (h := fun t => t.mapHif fun h => { h with rxSize := size, rxValid := true }) hgo
    (fun h => { h with rxAddr := addr }) (Respects.mapHif _) rfl fun u _ => ?_
  refine Serves.setHif (h := fun t => t.mapHif fun h => { h with rxValid := true }) hgo
    (fun h => { h with rxSize := size }) (Respects.mapHif _) rfl fun v _ => ?_
  exact Serves.setHif (h := fun t => t) hgo (fun h => { h with rxValid := true }) Respects.id rfl fun w _ =>
    Serves.ret _ w

/-- A pending packet whose header is good: its window is recorded (R211, R212). -/
theorem isrWindow_good (hgo : Agrees go ag) (p : Params) (given : Option Header) (hd : Header) (l0 l1 : Byte)
    {addr : Word} {size : BitVec 12} (hlen : hd.length = fromLe2 l0 l1) (hg : given = none ∨ given = some hd)
    (ha : given = none → addr.toNat < 2 ^ 24) (h0 : size ≠ 0) (hok : size.toNat ≤ hd.length.toNat + 4) (s : State) :
    Serves go (isrWindow p given size)
      (.read p.regHifRxBase addr ::
        if given = none then [.readBlock (addr.setWidth 24) [hd.group, hd.opcode, l0, l1]] else [])
      (.ok (some (hd, addr))) (windowSet addr size) s := by
  rw [isrWindow, if_neg h0]
  refine Serves.tryBind (xs := [_]) (Respects.windowSet _ _) (readReg_serves hgo _ addr s) fun u _ => ?_
  have := Serves.tryBind (ys := []) (f := fun h : Header =>
      if headerOk size h.length then
        Prog.puts [.rxAddr addr, .rxSize size, .rxValid true] (.ret (.ok (some (h, addr))))
      else (raise .operationFailed : Prog (Except Err (Option (Header × Word)))))
    (Respects.windowSet addr size) (readHeader_serves hgo given hd l0 l1 hlen hg ha u) fun v _ => by
      rw [headerOk_iff, if_pos (by simpa using hok)]
      exact setWindow_serves hgo addr size _ v
  rw [List.append_nil] at this
  exact this

/-- A pending packet whose header is rejected (R212). -/
theorem isrWindow_bad (hgo : Agrees go ag) (p : Params) (given : Option Header) (hd : Header) (l0 l1 : Byte)
    {addr : Word} {size : BitVec 12} (hlen : hd.length = fromLe2 l0 l1) (hg : given = none ∨ given = some hd)
    (ha : given = none → addr.toNat < 2 ^ 24) (h0 : size ≠ 0) (hbad : hd.length.toNat + 4 < size.toNat) (s : State) :
    Serves go (isrWindow p given size)
      (.read p.regHifRxBase addr ::
        if given = none then [.readBlock (addr.setWidth 24) [hd.group, hd.opcode, l0, l1]] else [])
      (.error .operationFailed) (fun s => s) s := by
  rw [isrWindow, if_neg h0]
  refine Serves.tryBind (xs := [_]) Respects.id (readReg_serves hgo _ addr s) fun u _ => ?_
  have := Serves.tryBind (ys := []) (f := fun h : Header =>
      if headerOk size h.length then
        Prog.puts [.rxAddr addr, .rxSize size, .rxValid true] (.ret (.ok (some (h, addr))))
      else (raise .operationFailed : Prog (Except Err (Option (Header × Word)))))
    Respects.id (readHeader_serves hgo given hd l0 l1 hlen hg ha u) fun v _ => by
      rw [headerOk_iff, if_neg (by simp; omega)]
      exact Serves.raise _ v
  rw [List.append_nil] at this
  exact this

theorem fromLe2_toNat (l0 l1 : Byte) : (fromLe2 l0 l1).toNat = l0.toNat + 256 * l1.toNat := by
  have h : (l1 ++ l0).toNat = l1.toNat <<< 8 ||| l0.toNat := BitVec.toNat_append l1 l0
  rw [fromLe2, h, ← Nat.shiftLeft_add_eq_or_of_lt l0.isLt, Nat.shiftLeft_eq]
  omega

/-- What follows the dispatch where nothing is broadcast and RX-done is not deferred (R216). -/
theorem isrFinish_serves (hgo : Agrees go ag) (p : Params) (group opcode : Byte) (w : Word) {s : State} {due : Bool}
    (hd : s.hif.rxPend = due) :
    Serves go (isrFinish p group opcode (none, false)) (rxDoneAccesses p due w) (.ok ())
      (fun s => s.mapHif fun h => { h with rxPend := false }) s := by
  refine Serves.look hgo (Respects.mapHif _) rfl fun u hu => ?_
  show Serves go (if s.hif.rxPend then _ else _) _ _ _ u
  rw [hd]
  cases due with
  | true => exact rxDone_serves hgo p w u
  | false =>
    have : u.hif.rxPend = false := by rw [hu.hif, hd]
    refine (Serves.ret (go := go) _ u).congr ?_
    obtain ⟨fr, tr, ⟨_, _, _, _, _, _, rp, _, _⟩, irq, sock, root, mem, params, env⟩ := u
    simp only at this
    subst this
    rfl

/-- Events offered to queues one after another. -/
def offerEach (ev : Event) (ids : List Nat) (s : State) : State := ids.foldl (fun t q => offerTo q ev t) s

theorem Respects.offerTo (q : Nat) (ev : Event) : Respects (offerTo q ev) := by
  intro s t ev rest h
  unfold Machine.offerTo
  rw [h.hif]
  split
  · exact h
  · exact Respects.mapHif _ _ _ _ _ h
  · rename_i old _
    have := Respects.mapHif (fun h => { h with subs := h.subs.filter fun x => x.id ≠ q }) _ _ _ _ h
    refine ⟨this.crcEn, this.limit, this.lock, this.idle, this.lastErr, this.hif, this.irq, this.sock, this.root,
      this.mem, this.params, this.bus, ?_⟩
    simp only [State.mapEnv_env, State.mapHif_env]
    rw [h.env]

theorem Respects.offerEach (ev : Event) : ∀ ids, Respects (offerEach ev ids)
  | [] => Respects.id
  | q :: ids => (Respects.offerTo q ev).comp (Respects.offerEach ev ids)

theorem find?_queue_mid {A B : List Queue} {q : Queue} (hA : ∀ x ∈ A, x.id ≠ q.id) :
    (A ++ q :: B).find? (fun x => x.id = q.id) = some q := by
  rw [List.find?_append, List.find?_eq_none.mpr (by simpa using hA)]
  simp

/-- Queues of distinct names offered an event one after another: each that is empty takes it, each that is full closes
(R215). -/
theorem offerEach_eq (ev : Event) :
    ∀ (B A : List Queue) (s : State), s.hif.subs = A ++ B → ((A ++ B).map (·.id)).Nodup →
      offerEach ev (B.map (·.id)) s =
        (s.mapHif fun h =>
          { h with subs := A ++ (B.filter fun q => q.content.isNone).map fun q => { q with content := some ev } }).mapEnv
          fun e => { e with closed := e.closed ++ B.filter fun q => q.content.isSome }
  | [], A, s, hs, _ => by
    obtain ⟨fr, tr, hif, irq, sock, root, mem, params, env⟩ := s
    simp only [List.append_nil] at hs
    simp [offerEach, State.mapHif, State.mapEnv, ← hs]
  | q :: B, A, s, hs, hn => by
    have hn' := hn
    simp only [List.map_append, List.map_cons] at hn
    rw [List.nodup_append] at hn
    obtain ⟨hA, hqB, hd⟩ := hn
    have hqB := List.nodup_cons.mp hqB
    have hA' : ∀ x ∈ A, x.id ≠ q.id := fun x hx => hd _ (List.mem_map_of_mem hx) _ (by simp)
    have hB' : ∀ x ∈ B, x.id ≠ q.id := fun x hx he => hqB.1 (he ▸ List.mem_map_of_mem hx)
    have hf := find?_queue_mid (B := B) hA'
    obtain ⟨n, c⟩ := q
    cases c with
    | none =>
      have e : Machine.offerTo n ev s = s.mapHif fun h => { h with subs := (A ++ [⟨n, some ev⟩]) ++ B } := by
        have mA : A.map (fun q => if q.id = n then (⟨n, some ev⟩ : Queue) else q) = A :=
          (List.map_congr_left fun x hx => if_neg (hA' x hx)).trans (List.map_id _)
        have mB : B.map (fun q => if q.id = n then (⟨n, some ev⟩ : Queue) else q) = B :=
          (List.map_congr_left fun x hx => if_neg (hB' x hx)).trans (List.map_id _)
        rw [Machine.offerTo, hs]
        simp only at hf
        rw [hf]
        simp [State.mapHif, hs, mA, mB]
      have := offerEach_eq ev B (A ++ [⟨n, some ev⟩]) (Machine.offerTo n ev s) (by rw [e]; rfl) (by simpa using hn')
      rw [List.map_cons, offerEach, List.foldl_cons]
      refine this.trans ?_
      rw [e]
      simp [State.mapHif, State.mapEnv]
    | some old =>
      have e : Machine.offerTo n ev s =
          (s.mapHif fun h => { h with subs := A ++ B }).mapEnv fun e =>
            { e with closed := e.closed ++ [⟨n, some old⟩] } := by
        have mA : A.filter (fun q => q.id ≠ n) = A := List.filter_eq_self.mpr (by simpa using hA')
        have mB : B.filter (fun q => q.id ≠ n) = B := List.filter_eq_self.mpr (by simpa using hB')
        rw [Machine.offerTo, hs]
        simp only at hf
        rw [hf]
        simp only [State.mapHif, State.mapEnv, hs, List.filter_append, mA]
        rw [List.filter_cons_of_neg (by simp), mB]
      have := offerEach_eq ev B A (Machine.offerTo n ev s) (by rw [e]; rfl)
        (by
          rw [List.map_append]
          exact List.nodup_append.mpr ⟨hA, hqB.2, fun a ha b hb => hd a ha b (List.mem_cons_of_mem _ hb)⟩)
      rw [List.map_cons, offerEach, List.foldl_cons]
      refine this.trans ?_
      rw [e]
      simp [State.mapHif, State.mapEnv]

/-- Every queue offered an event, one after another (R215). -/
theorem offerEach_all (ev : Event) {s : State} (hn : (s.hif.subs.map (·.id)).Nodup) :
    offerEach ev (s.hif.subs.map (·.id)) s = offered ev s := by
  rw [offerEach_eq ev s.hif.subs [] s rfl (by simpa using hn)]
  rfl

theorem offerAll_serves {α : Type} (hgo : Agrees go ag) (ev : Event) {p : Prog α} {xs : List Access} {r : α}
    {h : State → State} (hh : Respects h) :
    ∀ (ids : List Nat) (s : State), (∀ u, After (offerEach ev ids s) u → Serves go p xs r h u) →
      Serves go (offerAll ev ids p) xs r (fun t => h (offerEach ev ids t)) s
  | [], s, hf => fun hs => hf s ⟨_, _, BusDone.refl hs⟩ hs
  | q :: ids, s, hf => by
    have fr := perform_frame (.offer q ev) ag s
    have hb : (Machine.offerTo q ev s).fr = s.fr ∧ (Machine.offerTo q ev s).tr = s.tr ∧
        (Machine.offerTo q ev s).env.miso = s.env.miso := by
      unfold Machine.offerTo
      split <;> exact ⟨rfl, rfl, rfl⟩
    refine Serves.update (g := fun t => Machine.offerTo q ev t) (v := .unit) (h := fun t => h (offerEach ev ids t)) hgo
      ((Respects.offerEach ev ids).comp hh) rfl (by rw [hb.1]) hb.2.2
      (fun hs => ⟨by rw [hb.2.1]; exact hs.lock, by rw [hb.2.1]; exact hs.idle, by rw [hb.1]; exact hs.limit,
        fr.yields.trans hs.yields⟩) fun u hu => ?_
    exact offerAll_serves hgo ev hh ids u fun v hv => hf v ((hu.map (Respects.offerEach ev ids)).trans hv)

/-- An event offered to every queue there is (R215). -/
theorem broadcast_serves {α : Type} (hgo : Agrees go ag) (ev : Event) {p : Prog α} {xs : List Access} {r : α}
    {h : State → State} {s : State} (hh : Respects h) (hn : (s.hif.subs.map (·.id)).Nodup)
    (hf : ∀ u, After (offered ev s) u → Serves go p xs r h u) :
    Serves go (broadcast ev p) xs r (fun t => h (offered ev t)) s := by
  refine Serves.congr (g := fun t => h (offerEach ev (s.hif.subs.map (·.id)) t)) ?_
    (by simp only [offerEach_all ev hn])
  refine Serves.look hgo ((Respects.offerEach ev _).comp hh) rfl fun u hu => ?_
  exact offerAll_serves hgo ev hh _ u fun v hv => hf v (by
    rw [← offerEach_all ev hn]
    exact (hu.map (Respects.offerEach ev _)).trans hv)

theorem Respects.offered (ev : Event) : Respects (offered ev) := by
  intro s t ev rest h
  refine ⟨h.crcEn, h.limit, h.lock, h.idle, h.lastErr, ?_, h.irq, h.sock, h.root, h.mem, h.params, h.bus, ?_⟩
  · simp [Machine.offered, h.hif]
  · simp only [Machine.offered, State.mapEnv_env, State.mapHif_env]
    rw [h.hif, h.env]

/-- A payload is broadcast; RX-done has been given already (R215, R216). -/
theorem isrFinish_payload (hgo : Agrees go ag) (p : Params) (group opcode : Byte) (pl : Payload) {s : State}
    (hn : (s.hif.subs.map (·.id)).Nodup) (h : s.hif.rxPend = false) :
    Serves go (isrFinish p group opcode (some pl, false)) [] (.ok ()) (offered ⟨group, opcode, pl⟩) s := by
  refine broadcast_serves (h := fun t => t) hgo _ Respects.id hn fun u hu => ?_
  refine Serves.look hgo Respects.id rfl fun v _ => ?_
  show Serves _ (if u.hif.rxPend then _ else _) _ _ _ v
  have hu' : u.hif.rxPend = false := by rw [hu.hif]; exact h
  rw [hu', if_neg (by simp)]
  exact Serves.ret _ v

/-- A packet of a group without callback (R214). -/
theorem isrDispatch_nobody (hgo : Agrees go ag) (p : Params) (group opcode : Byte) (length : Half) (addr w : Word)
    {s : State} {due : Bool} (hc : s.hif.cb[group.toNat]'group.isLt = none) (hd : s.hif.rxPend = due) :
    Serves go (isrDispatch p group opcode length addr) (rxDoneAccesses p due w) (.ok ())
      (fun s => s.mapHif fun h => { h with rxPend := false }) s := by
  refine Serves.look hgo (Respects.mapHif _) rfl fun u hu => ?_
  show Serves go (match s.hif.cb[group.toNat]'group.isLt with | none => _ | some cb => _) _ _ _ u
  rw [hc]
  exact isrFinish_serves hgo p group opcode w (by rw [hu.hif, hd])

/-- The dispatch to a callback (R213). -/
theorem isrDispatch_serves (hgo : Agrees go ag) (p : Params) (group opcode : Byte) (length : Half) (addr : Word)
    {s : State} {cb : Callback} {xs : List Access} {r : Except Err Unit} {g : State → State} (hg : Respects g)
    (hc : s.hif.cb[group.toNat]'group.isLt = some cb)
    (hf : ∀ u, After s u →
      Serves go ((invokeCb p cb opcode ((length.toNat : Int) - 8) (addr + 8)).bind (isrFinish p group opcode)) xs r g
        u) :
    Serves go (isrDispatch p group opcode length addr) xs r g s := by
  refine Serves.look hgo hg rfl fun u hu => ?_
  show Serves go (match s.hif.cb[group.toNat]'group.isLt with | none => _ | some cb => _) _ _ _ u
  rw [hc]
  exact hf u hu

/-! ### The dispatch callback (R270 to R280) -/

/-- A record is not empty: it has a field of a byte at least (R109). -/
theorem recSize_pos (p : Params) (r : RxRecord) : 0 < recSize p r := by
  have key : ∀ (l : Layout) (a : Bytes) (rest : List Bytes), 0 < a.length → 0 < (l.enc (a :: rest)).length := by
    intro l a rest ha
    refine Nat.lt_of_lt_of_le ?_ (overlays_length l.offs rest 1 _).1
    rw [overlay_length]
    omega
  cases r with
  | dnsReply =>
    refine Nat.lt_of_lt_of_le ?_ (Nat.le_refl _)
    show 0 < (overlay (overlay _ _ _) _ (List.replicate 4 0x00)).length
    rw [overlay_length, List.length_replicate]
    omega
  | _ => exact key _ _ _ (by simp)

/-- A record fetched from the window (R270). -/
theorem fetch_serves (hgo : Agrees go ag) (p : Params) (rec : RxRecord) {length : Int} {address : Word}
    {done due : Bool} {b : Bytes} (w : Word) {s : State} (hr : s.hif.state = .ready) (hb : b.length = recSize p rec)
    (hl : (recSize p rec : Int) ≤ length) (hw : inWindow s.hif address (recSize p rec)) (ha : address.toNat < 2 ^ 24)
    (hd : rxDoneDue s.hif address (recSize p rec) done = due) :
    Serves go (fetch p rec length address done) (.readBlock (address.setWidth 24) b :: rxDoneAccesses p due w)
      (some (decRec p rec b)) (fun s => s.mapHif fun h => { h with rxPend := h.rxPend && !due }) s := by
  have h0 := recSize_pos p rec
  have hb0 : b ≠ [] := by rintro rfl; simp at hb; omega
  rw [fetch, if_neg (by omega), ← hb]
  have hr := receive_serves hgo p w (b := b) (due := due) (s := s) hr (by rw [hb]; exact hw) ha (by rw [hb]; exact hd)
  rw [if_neg hb0] at hr
  have := Serves.bind (ys := []) (f := fun r => match r with
    | .ok b => Prog.ret (some (decRec p rec b))
    | .error _ => .ret none) Respects.id hr fun u _ => Serves.ret _ u
  rw [List.append_nil] at this
  exact this

/-- A reply matched to its waiting entry, which is filled; or dropped (R271). -/
theorem cbMatch_serves (hgo : Agrees go ag) (sock : BitVec 8) (sid : Option Half) (kind : Kind) (rep : Reply)
    (s : State) :
    Serves go (cbMatch sock sid kind rep) []
      (match matchReply s.sock sock sid kind with
        | some _ => (some (.reply rep), false)
        | none => (none, false))
      (fun t =>
        match matchReply s.sock sock sid kind with
        | some m => t.mapSock fun k => fillMail k m rep
        | none => t) s := by
  have hg : Respects fun t : State =>
      match matchReply s.sock sock sid kind with
      | some m => t.mapSock fun k => fillMail k m rep
      | none => t := by
    cases matchReply s.sock sock sid kind with
    | some m => exact Respects.mapSock _
    | none => exact Respects.id
  refine Serves.look hgo hg rfl fun u hu => ?_
  show Serves go (match matchReply s.sock sock sid kind with | none => _ | some m => _) _ _ _ u
  cases matchReply s.sock sock sid kind with
  | none => exact Serves.ret _ u
  | some m =>
    exact Serves.update (g := fun t => t.mapSock fun k => fillMail k m rep) hgo Respects.id rfl rfl rfl
      (fun hs => ⟨hs.lock, hs.idle, hs.limit, hs.yields⟩) fun v _ => Serves.ret _ v

end Sys2Proof.Machine
end

