-- ==== Sys2Proof/Laws/Requests.lean ====
section
/-!
SUPPORT. A request and its reply against a device that answers: the socket callback on a reply, a round of the worker
while a caller waits, and the request as a whole (spec/43_socket.md R253, R270 to R280; spec/42_hif.md R223).
-/

namespace Sys2Proof.Machine

variable {go : Action → State → Option Val × State} {ag : Agent}

/-! ### The socket callback on a reply (R270 to R276, R280) -/

/-- A reply record to a request: fetched, matched, its entry filled (R270 to R276). -/
theorem sockCb_reply_serves (hgo : Agrees go ag) (p : Params) {op opByte : Byte} {kind : Kind} {rec : RxRecord}
    {length : Int} {address : Word} {b : Bytes} {due : Bool} (w : Word) {s : State} (hs : s.hif.state = .ready)
    (hop : opByte &&& 0x7F = op) (hr : replyRecord op = some (kind, rec)) (hb : b.length = recSize p rec)
    (hl : (recSize p rec : Int) ≤ length) (hw : inWindow s.hif address (recSize p rec)) (ha : address.toNat < 2 ^ 24)
    (hd : s.hif.rxPend = due) :
    Serves go (sockCb p opByte length address) (.readBlock (address.setWidth 24) b :: rxDoneAccesses p due w)
      (match matchReply s.sock (replyKey (decRec p rec b)).1 (replyKey (decRec p rec b)).2 kind with
        | some _ => (some (.reply (decRec p rec b)), false)
        | none => (none, false))
      (fun t =>
        match matchReply s.sock (replyKey (decRec p rec b)).1 (replyKey (decRec p rec b)).2 kind with
        | some m => (t.mapHif fun h => { h with rxPend := false }).mapSock fun k => fillMail k m (decRec p rec b)
        | none => t.mapHif fun h => { h with rxPend := false }) s := by
  have hdue : rxDoneDue s.hif address (recSize p rec) true = due := by simp [rxDoneDue, hd]
  have fin : ∀ (f : Option Reply → Prog CbAnswer),
      f (some (decRec p rec b)) =
        cbMatch (replyKey (decRec p rec b)).1 (replyKey (decRec p rec b)).2 kind (decRec p rec b) →
      Serves go ((fetch p rec length address true).bind f)
        (.readBlock (address.setWidth 24) b :: rxDoneAccesses p due w)
        (match matchReply s.sock (replyKey (decRec p rec b)).1 (replyKey (decRec p rec b)).2 kind with
          | some _ => (some (.reply (decRec p rec b)), false)
          | none => (none, false))
        (fun t =>
          match matchReply s.sock (replyKey (decRec p rec b)).1 (replyKey (decRec p rec b)).2 kind with
          | some m => (t.mapHif fun h => { h with rxPend := false }).mapSock fun k => fillMail k m (decRec p rec b)
          | none => t.mapHif fun h => { h with rxPend := false }) s := by
    intro f h2
    have hg : Respects fun t : State =>
        match matchReply s.sock (replyKey (decRec p rec b)).1 (replyKey (decRec p rec b)).2 kind with
        | some m => t.mapSock fun k => fillMail k m (decRec p rec b)
        | none => t := by
      split
      · exact Respects.mapSock _
      · exact Respects.id
    have := Serves.bind (ys := []) (f := f) hg (fetch_serves hgo p rec w hs hb hl hw ha hdue) fun v hv => by
      rw [h2]
      have := cbMatch_serves hgo (replyKey (decRec p rec b)).1 (replyKey (decRec p rec b)).2 kind (decRec p rec b) v
      rw [show v.sock = s.sock from hv.sock] at this
      exact this
    rw [List.append_nil] at this
    refine this.congr ?_
    have hx : (s.mapHif fun h => { h with rxPend := h.rxPend && !due }) = s.mapHif fun h => { h with rxPend := false } := by
      simp [State.mapHif, hd]
    rw [hx]
  subst hop
  unfold replyRecord at hr
  unfold sockCb
  dsimp only at hr ⊢
  generalize opByte &&& 0x7F = o at hr ⊢
  split at hr
  · rename_i h
    cases hr
    rw [if_pos h]
    exact fin _ rfl
  · rename_i hn1
    rw [if_neg hn1]
    split at hr
    · rename_i h
      cases hr
      rw [if_pos h]
      exact fin _ rfl
    · rename_i hn2
      rw [if_neg hn2]
      split at hr
      · rename_i h
        cases hr
        rw [if_neg (by rcases h with rfl | rfl | rfl <;> decide), if_pos h]
        exact fin _ rfl
      · rename_i hn3
        split at hr
        · rename_i h
          cases hr
          rw [if_neg (by rcases h with rfl | rfl | rfl <;> decide), if_neg hn3, if_pos h]
          exact fin _ rfl
        · cases hr

/-- A DNS reply while somebody waits for it (R280). -/
theorem sockCb_dns_serves (hgo : Agrees go ag) (p : Params) {opByte : Byte} {length : Int} {address : Word} {b : Bytes}
    {due : Bool} (w : Word) {s : State} {m : Nat} (hs : s.hif.state = .ready) (hop : opByte &&& 0x7F = 0x4A)
    (hb : b.length = recSize p .dnsReply) (hl : (recSize p .dnsReply : Int) ≤ length)
    (hw : inWindow s.hif address (recSize p .dnsReply)) (ha : address.toNat < 2 ^ 24) (hd : s.hif.rxPend = due)
    (hm : s.sock.dnsReply = some m) (hwait : mailGet s.sock.mail m = some .waiting) :
    Serves go (sockCb p opByte length address) (.readBlock (address.setWidth 24) b :: rxDoneAccesses p due w)
      (some (.reply (decRec p .dnsReply b)), false)
      (fun t => (t.mapHif fun h => { h with rxPend := false }).mapSock fun k =>
        fillMail k m (decRec p .dnsReply b)) s := by
  have hdue : rxDoneDue s.hif address (recSize p .dnsReply) true = due := by simp [rxDoneDue, hd]
  have hx : (s.mapHif fun h => { h with rxPend := h.rxPend && !due }) = s.mapHif fun h => { h with rxPend := false } := by
    simp [State.mapHif, hd]
  have he : sockCb p opByte length address = cbDns p length address := by
    unfold sockCb
    dsimp only
    rw [hop]
    rfl
  rw [he]
  have := Serves.bind (ys := [])
    (f := fun r => match r with
      | some (.dns name ip) =>
        Prog.act (.dnsFill (.dns name ip)) fun v => if v.toFlag then cbReply (.dns name ip) else cbNil
      | _ => cbNil)
    (h := fun t => t.mapSock fun k => fillMail k m (decRec p .dnsReply b))
    (b := (some (.reply (decRec p .dnsReply b)), false)) (Respects.mapSock _)
    (fetch_serves hgo p .dnsReply w hs hb hl hw ha hdue) fun v hv => by
      have hs : v.sock = s.sock := hv.sock
      have hp : perform (.dnsFill (decRec p .dnsReply b)) ag v =
          (some (.flag true), v.mapSock fun k => fillMail k m (decRec p .dnsReply b)) := by
        simp only [perform, doDnsFill, hs, hm, hwait, if_true]
      exact Serves.update (g := fun t => t.mapSock fun k => fillMail k m (decRec p .dnsReply b))
        (h := fun t => t) hgo Respects.id hp rfl rfl (fun hs => ⟨hs.lock, hs.idle, hs.limit, hs.yields⟩)
        fun x _ => Serves.ret _ x
  rw [List.append_nil] at this
  exact this.congr (by rw [hx])

/-! ### The worker's round (R223) -/

/-- A round for a packet of group IP whose callback answers with the record's reply and gives RX-done. -/
theorem workerRound_serves (p : Params) {op : Byte} {record : Bytes} {w : RoundWords} {rep : Reply}
    {f : Sockets → Sockets} {s : State} (hs : s.hif.lock = .free) (ha : s.hif.awake = false)
    (hq : (s.hif.subs.map (·.id)).Nodup)
    (hcb : s.hif.cb[groupIp.toNat]'groupIp.isLt = some .socket) (hg : GoodRound p record w)
    (hc : ∀ u : State,
      u.hif = { s.hif with
        awake := true, rxAddr := w.address, rxSize := BitVec.ofNat 12 (sizeOf12 p w.control), rxValid := true,
        rxPend := true } →
      u.sock = s.sock →
      Serves workerGo (sockCb p op (record.length : Int) (w.address + 8))
        (.readBlock ((w.address + 8).setWidth 24) record :: rxDoneAccesses p true w.done)
        (some (.reply rep), false) (fun t => (t.mapHif fun h => { h with rxPend := false }).mapSock f) u) :
    Serves workerGo (workerRound p) (roundAccesses p op record w) ()
      (fun t => offered ⟨groupIp, op, .reply rep⟩
        (((t.mapHif fun h =>
            { h with
              rxAddr := w.address
              rxSize := BitVec.ofNat 12 (sizeOf12 p w.control)
              rxValid := true
              rxPend := false }).mapSock f).mapIrq fun q => { q with wseq := .sleep })) s := by
  have ho := workerGo_agrees
  have hsize : sizeOf12 p w.control < 2 ^ 12 := Nat.mod_lt _ (by decide)
  have hsz : rxSizeField p w.control = BitVec.ofNat 12 (sizeOf12 p w.control) := by
    apply BitVec.eq_of_toNat_eq
    rw [rxSizeField_toNat]
    simp only [BitVec.toNat_ofNat]
    omega
  have hne : ¬rxSizeField p w.control = 0 := by
    intro h
    have := rxSizeField_toNat p w.control
    rw [h] at this
    have := hg.covers
    simp at *
    omega
  have hlen : (BitVec.ofNat 16 (8 + record.length)).toNat = 8 + record.length := by
    have := hg.covers
    simp only [BitVec.toNat_ofNat]
    omega
  have hfrom : fromLe2 ((BitVec.ofNat 16 (8 + record.length)).extractLsb' 0 8)
      ((BitVec.ofNat 16 (8 + record.length)).extractLsb' 8 8) = BitVec.ofNat 16 (8 + record.length) := by
    generalize BitVec.ofNat 16 (8 + record.length) = x
    unfold fromLe2
    ext i hi
    simp only [BitVec.getElem_append, BitVec.getElem_extractLsb']
    split
    · simp [BitVec.getLsbD_eq_getElem hi]
    · rename_i h
      rw [show 8 + (i - 8) = i by omega, BitVec.getLsbD_eq_getElem hi]
  -- the head of Isr and the dispatch
  have hisr : ∀ u : State, u.hif = { s.hif with awake := true } → u.sock = s.sock →
      Serves workerGo (isr p none)
        (isrAccesses p w.control ++
          [.read p.regHifRxBase w.address,
            .readBlock (w.address.setWidth 24) [groupIp, op, (BitVec.ofNat 16 (8 + record.length)).extractLsb' 0 8,
              (BitVec.ofNat 16 (8 + record.length)).extractLsb' 8 8]] ++
          (.readBlock ((w.address + 8).setWidth 24) record :: rxDoneAccesses p true w.done)) (.ok ())
        (fun t => offered ⟨groupIp, op, .reply rep⟩
          ((t.mapHif fun h =>
            { h with
              rxAddr := w.address
              rxSize := BitVec.ofNat 12 (sizeOf12 p w.control)
              rxValid := true
              rxPend := false }).mapSock f)) u := by
    intro u hu hus
    have hul : u.hif.lock = .free := by rw [hu]; exact hs
    refine Serves.congr (isr_serves (hd := .ok (some (⟨groupIp, op, BitVec.ofNat 16 (8 + record.length)⟩, w.address)))
      (g := windowSet w.address (rxSizeField p w.control))
      (h := fun t => offered ⟨groupIp, op, .reply rep⟩ ((t.mapHif fun h => { h with rxPend := false }).mapSock f))
      ho p none w.control (Respects.windowSet _ _)
      (((Respects.mapHif _).comp (Respects.mapSock _)).comp (Respects.offered _)) hul (fun v _ => ?_) (fun v hv => ?_)) ?_
    · exact isrWindow_good ho p none ⟨groupIp, op, BitVec.ofNat 16 (8 + record.length)⟩ _ _ hfrom.symm (.inl rfl)
        (fun _ => by have := hg.room; omega) hne
        (by rw [rxSizeField_toNat]; dsimp only; rw [hlen]; have := hg.slack; omega) v
    · have hvh : v.hif = { s.hif with
          awake := true, rxAddr := w.address, rxSize := BitVec.ofNat 12 (sizeOf12 p w.control), rxValid := true,
          rxPend := true } := by
        rw [hv.hif]
        simp [windowSet, hu, hsz, Lock.drop, hs]
      have hvs : v.sock = s.sock := by rw [hv.sock]; exact hus
      refine isrDispatch_serves ho p groupIp op _ _ (((Respects.mapHif _).comp (Respects.mapSock _)).comp
        (Respects.offered _)) (by rw [hvh]; exact hcb) fun x hx => ?_
      have hxh : x.hif = _ := hx.hif.trans hvh
      have hlen' : ((BitVec.ofNat 16 (8 + record.length)).toNat : Int) - 8 = record.length := by rw [hlen]; omega
      rw [hlen']
      have := Serves.bind (ys := []) (f := isrFinish p groupIp op) (h := offered ⟨groupIp, op, .reply rep⟩)
        (Respects.offered _) (hc x hxh (hx.sock.trans hvs)) fun y hy =>
          isrFinish_payload ho p groupIp op (.reply rep) (by rw [hy.hif]; simp [hxh, hq]) (by rw [hy.hif]; rfl)
      rw [List.append_nil] at this
      exact this
    · rw [hsz]
      obtain ⟨fr, tr, ⟨_, aw, lk, _, _, _, _, _, _⟩, irq, sock, root, mem, params, env⟩ := u
      simp only at hul
      subst hul
      simp [windowSet, State.mapHif, State.mapSock, Lock.drop]
  -- wake
  have hwake : Serves workerGo (withSession (chipWake p)) (wakeAccesses p w.wakeA w.wakeB w.acks) (.ok ())
      (fun t => t.mapHif fun h => { h with awake := true }) s := by
    refine Serves.congr (withSession_serves ho (g := fun t => t.mapHif fun h => { h with awake := true })
      (Respects.mapHif _) hs fun u hu => chipWake_acked ho p (by rw [hu.hif]; exact ha) _ _ hg.acks hg.awake) ?_
    obtain ⟨fr, tr, ⟨_, aw, lk, _, _, _, _, _, _⟩, irq, sock, root, mem, params, env⟩ := s
    simp only at hs
    subst hs
    simp [State.mapHif, Lock.drop]
  -- sleep
  have hsleep : ∀ u : State, u.hif.lock = .free → u.hif.awake = true →
      Serves workerGo ((withSession (chipSleep p)).bind fun _ => .ret ()) (sleepAccesses p w.sleepB w.sleepA) ()
        (fun t => t.mapHif fun h => { h with awake := false }) u := by
    intro u hul hua
    have := Serves.bind (ys := []) (f := fun _ => Prog.ret ()) Respects.id
      (withSession_serves ho (g := fun t => t.mapHif fun h => { h with awake := false }) (Respects.mapHif _) hul
        fun v hv => chipSleep_awake ho p (by rw [hv.hif]; exact hua) w.sleepB w.sleepA) fun v _ => Serves.ret () v
    rw [List.append_nil] at this
    refine this.congr ?_
    obtain ⟨fr, tr, ⟨_, aw, lk, _, _, _, _, _, _⟩, irq, sock, root, mem, params, env⟩ := u
    simp only at hul
    subst hul
    simp [State.mapHif, Lock.drop]
  have hset : ∀ {β : Type} (sq : WSeq) (q : Prog β) (xs : List Access) (r : β) (h : State → State) (u : State),
      Respects h → (∀ v, After (u.mapIrq fun q => { q with wseq := sq }) v → Serves workerGo q xs r h v) →
      Serves workerGo (.andThen (.put (.wSeq sq)) q) xs r (fun t => h (t.mapIrq fun q => { q with wseq := sq })) u :=
    fun sq q xs r h u hh hf => Serves.update (g := fun t => t.mapIrq fun q => { q with wseq := sq }) ho hh rfl rfl rfl
      (fun hs => ⟨hs.lock, hs.idle, hs.limit, hs.yields⟩) hf
  have hoff : Respects fun t : State => offered ⟨groupIp, op, .reply rep⟩
      ((t.mapHif fun h =>
        { h with
          rxAddr := w.address
          rxSize := BitVec.ofNat 12 (sizeOf12 p w.control)
          rxValid := true
          rxPend := false }).mapSock f) := ((Respects.mapHif _).comp (Respects.mapSock _)).comp (Respects.offered _)
  have htail : Respects fun t : State => (t.mapIrq fun q => { q with wseq := .sleep }).mapHif fun h =>
      { h with awake := false } := (Respects.mapIrq _).comp (Respects.mapHif _)
  rw [roundAccesses, List.append_assoc]
  refine Serves.congr (Serves.bind (h := fun t => ((offered ⟨groupIp, op, .reply rep⟩
      (((t.mapIrq fun q => { q with wseq := .isr }).mapHif fun h =>
        { h with
          rxAddr := w.address
          rxSize := BitVec.ofNat 12 (sizeOf12 p w.control)
          rxValid := true
          rxPend := false }).mapSock f)).mapIrq fun q => { q with wseq := .sleep }).mapHif fun h =>
            { h with awake := false })
    (((Respects.mapIrq _).comp hoff).comp htail) hwake fun u hu => ?_) ?_
  · refine hset .isr _ _ _ _ u (hoff.comp htail) fun v hv => ?_
    have hvh : v.hif = { s.hif with awake := true } := by rw [hv.hif]; exact hu.hif
    have hvs : v.sock = s.sock := by rw [hv.sock]; exact hu.sock
    refine Serves.bind htail (hisr v hvh hvs) fun x hx => ?_
    refine hset .sleep _ _ _ _ x (Respects.mapHif _) fun y hy => ?_
    have hyh : y.hif.lock = .free ∧ y.hif.awake = true := by
      rw [hy.hif]
      have : x.hif = _ := hx.hif
      simp only [State.mapIrq_hif]
      rw [this]
      simp [offered, hvh, hs]
    exact hsleep y hyh.1 hyh.2
  · obtain ⟨fr, tr, ⟨_, aw, lk, _, _, _, _, _, _⟩, irq, sock, root, mem, params, env⟩ := s
    simp only at hs ha
    subst hs
    subst ha
    simp [State.mapHif, State.mapSock, State.mapIrq, State.mapEnv, offered]

/-! ### A round while a caller waits (R253) -/

/-- Between the end of one action and the end of another there is no expiry. -/
theorem Prog.eval_fired {α : Type} {p : Prog α} {s t : State} {r : α} (h : p.eval go s = some (r, t))
    (hf : s.env.fired = false) : t.env.fired = false := by
  induction p generalizing s with
  | ret a => cases h; exact hf
  | mark p ih => exact ih h hf
  | back => cases h
  | refuse r => cases h
  | act a k ih =>
    simp only [Prog.eval] at h
    split at h
    · cases h
    · split at h
      · cases h
      · exact ih _ h rfl

/-- The state in which the worker's round begins: the falling edge sampled, the signal taken. -/
def roundStart (s : State) : State := takeGo (samplePin false s)

/-- Without an expiry there is none to drop. -/
theorem dropExpiry_eq {s : State} (h : s.env.fired = false) : dropExpiry s = s := by
  obtain ⟨fr, tr, hif, irq, sock, root, mem, params, env⟩ := s
  obtain ⟨miso, xferIx, free, bus, pin, inbox, yields, fired, tasks, nextTask, nextMail, nextQueue, results, closed,
    delivered, collab, collabIx, calls⟩ := env
  simp only at h
  subst h
  rfl

/-- An action that waits until the worker has delivered a reply. -/
theorem callerGo_round {a : Action} {id : Nat} {s : State} {inputs : List Input} {f d : Sockets → Sockets} {v : Val}
    {op : Byte} {record : Bytes} {w : RoundWords} {rep : Reply} {ys : List Access} {ev : List BusEvent}
    {rest : List (Option Byte)} (hs : Awaiting s inputs) (hfd : s.env.fired = false) (hg : GoodRound s.params record w)
    (h1 : ∀ u : State, u.sock = s.sock → u.env.fired = s.env.fired → perform a (.caller id) u = (none, u))
    (h2 : ∀ u : State, u.sock = f s.sock → perform a (.caller id) u = (some v, u.mapSock d))
    (hc : ∀ u : State,
      u.hif = { s.hif with
        awake := true, rxAddr := w.address, rxSize := BitVec.ofNat 12 (sizeOf12 s.params w.control), rxValid := true,
        rxPend := true } →
      u.sock = s.sock →
      Serves workerGo (sockCb s.params op (record.length : Int) (w.address + 8))
        (.readBlock ((w.address + 8).setWidth 24) record :: rxDoneAccesses s.params true w.done)
        (some (.reply rep), false) (fun t => (t.mapHif fun h => { h with rxPend := false }).mapSock f) u)
    (hA : Answers s (roundAccesses s.params op record w ++ ys) ev rest) :
    ∃ u ev1 ev2 mid, callerGo id a s = (some v, u) ∧ ev = ev1 ++ ev2 ∧
      BusDone ((roundDone op rep w inputs (s.mapSock f)).mapSock d) u ev1 mid ∧ BusReady u ∧ Answers u ys ev2 rest := by
  have hb : BusReady (roundStart s) :=
    ⟨hs.session.bus.lock, hs.session.bus.idle, hs.session.bus.limit, hs.session.bus.yields⟩
  have hA' : Answers (roundStart s) (roundAccesses s.params op record w ++ ys) ev rest := hA
  obtain ⟨t, ev1, ev2, mid, he, rfl, hd, ht, hA2⟩ :=
    workerRound_serves s.params (s := roundStart s) hs.session.lock hs.asleep hs.distinct hs.callback hg
      (fun u hu hus => hc u hu hus) hb ys ev rest hA'
  have hstop : t.irq.stop = false := by rw [hd.irq]; exact hs.going
  have hturn : workerTurn (samplePin false s) =
      .next (t.mapIrq fun q => { q with wseq := .wait, wjob := .round, wlog := [] }) := by
    have e1 : (samplePin false s).irq.wseq = .wait := hs.wseq
    have e2 : (samplePin false s).irq.stop = false := hs.going
    have e3 : (samplePin false s).irq.go = true := by simp [samplePin, hs.high, hs.enabled]
    have hend : ((workerRound s.params).bind fun _ => .ret (.ok ())).eval workerGo (roundStart s) =
        some ((.ok () : Except Err Unit), t) := by rw [Prog.eval_bind_of he]; rfl
    have hrun := Prog.run_of_eval hend [] []
    have hjob : t.irq.wjob = .round := by rw [hd.irq]; rfl
    simp only [workerTurn, e1, e2, e3, if_true]
    show workerSettle (((workerRound s.params).bind fun _ => .ret (.ok ())).run workerGo [] [] [] (roundStart s)) = _
    rw [hrun]
    simp [workerSettle, workerEnd, jobResult, hjob, State.mapIrq, hstop]
  have hts : t.sock = f s.sock := by rw [hd.sock]; simp [offered, roundStart, takeGo, samplePin]
  refine ⟨((t.mapIrq fun q => { q with wseq := .wait, wjob := .round, wlog := [] }).mapSock d).mapEnv fun e => { e with inbox := inputs },
    ev1, ev2, mid, ?_, rfl, ?_, ⟨ht.lock, ht.idle, ht.limit, ht.yields⟩, hA2⟩
  · have p1 := h1 s rfl rfl
    have p2 := h1 (samplePin false s) rfl rfl
    have p3 := h2 (t.mapIrq fun q => { q with wseq := .wait, wjob := .round, wlog := [] }) hts
    have d1 : dropExpiry s = s := dropExpiry_eq hfd
    have d2 : dropExpiry (samplePin false s) = samplePin false s := dropExpiry_eq hfd
    simp only [callerGo, p1, d1, hs.inbox, waitFor, serveInput, p2, d2, hturn, p3]
  · refine ⟨hd.crcEn, hd.limit, hd.lock, hd.idle, hd.lastErr, ?_, ?_, ?_, ?_, hd.mem, hd.params, hd.bus, ?_⟩
    · show t.hif = _
      rw [hd.hif]
      rfl
    · show ({ t.irq with wseq := .wait, wjob := .round, wlog := [] } : Irq) = _
      rw [hd.irq]
      rfl
    · show d t.sock = _
      rw [hts]
      rfl
    · exact hd.root
    · show ({ t.env with inbox := inputs } : Env) = _
      rw [hd.env]
      rfl

/-! ### A request (R253) -/

/-- `Send` of a packet from a sleeping chip (R208). -/
theorem hifSend_good (hgo : Agrees go ag) (p : Params) {group opcode : Byte} {control data : Bytes} {offset : Nat}
    {w : SendWords} {s : State} (hr : s.hif.state = .ready) (hl : s.hif.lock = .free) (ha : s.hif.awake = false)
    (hg : GoodSend p control data offset w) :
    Serves go (hifSend p group opcode control data offset) (sendAccesses p group opcode control data offset w) (.ok ())
      (fun t => t) s := by
  refine (hifSend_serves hgo p w.sleepB w.sleepA hr hl hg.fits fun u hu =>
    sendBody_serves hgo p hg.fits
      (chipWake_acked hgo p (by rw [hu.hif]; exact ha) w.wakeA w.wakeB hg.acks hg.awake) hg.polls hg.published hg.dma
      hg.room).congr ?_
  simp [State.mapHif, ← ha]

theorem mailGet_append_self {mail : List (Nat × Mail)} {m : Nat} {v : Mail} (h : ∀ e ∈ mail, e.1 < m) :
    mailGet (mail ++ [(m, v)]) m = some v := by
  have : mail.find? (fun e => e.1 = m) = none := by
    rw [List.find?_eq_none]
    intro e he
    have := h e he
    simp
    omega
  simp [mailGet, List.find?_append, this]

theorem mailSet_append_self {mail : List (Nat × Mail)} {m : Nat} {v w : Mail} (h : ∀ e ∈ mail, e.1 < m) :
    mailSet (mail ++ [(m, v)]) m w = mail ++ [(m, w)] := by
  have : mail.map (fun e => if e.1 = m then (e.1, w) else e) = mail := by
    conv_rhs => rw [← List.map_id mail]
    refine List.map_congr_left fun e he => ?_
    have := h e he
    rw [if_neg (by omega)]
    rfl
  simp [mailSet, this]

theorem mailDel_append_self {mail : List (Nat × Mail)} {m : Nat} {v : Mail} (h : ∀ e ∈ mail, e.1 < m) :
    mailDel (mail ++ [(m, v)]) m = mail := by
  have : mail.filter (fun e => e.1 ≠ m) = mail := by
    rw [List.filter_eq_self]
    intro e he
    have := h e he
    simp
    omega
  simp only [mailDel, List.filter_append, this]
  simp

theorem Sockets.setSlot_setSlot (k : Sockets) (i : Fin 11) (f g : Slot → Slot) :
    (k.setSlot i f).setSlot i g = k.setSlot i fun x => g (f x) := by
  simp [Sockets.setSlot]

theorem Respects.roundDone (op : Byte) (rep : Reply) (w : RoundWords) (inputs : List Input) :
    Respects (roundDone op rep w inputs) := by
  intro s t ev rest h
  unfold Machine.roundDone
  rw [h.params]
  refine Respects.offered _ _ _ _ _ ?_
  have := Respects.mapIrq (fun q => { q with go := false, wseq := .wait, irqPrev := false, wjob := .round, wlog := [] }) _ _ _ _
    (Respects.mapHif (fun h => { h with
      rxAddr := w.address
      rxSize := BitVec.ofNat 12 (sizeOf12 s.params w.control)
      rxValid := true
      rxPend := false }) _ _ _ _ h)
  exact { this with
    env := by
      simp only [State.mapEnv_env, State.mapIrq_env, State.mapHif_env]
      rw [h.env] }

/-- What bus operations leave of what a waiting caller needs. -/
theorem Awaiting.after {s u : State} {inputs : List Input} {ev : List BusEvent} {rest : List (Option Byte)}
    (h : Awaiting s inputs) (hd : BusDone s u ev rest) : Awaiting u inputs :=
  { session := ⟨hd.openFor h.session.ready, by rw [hd.hif]; exact h.session.lock, hd.ready h.session.bus⟩
    asleep := by rw [hd.hif]; exact h.asleep
    wseq := by rw [hd.irq]; exact h.wseq
    going := by rw [hd.irq]; exact h.going
    high := by rw [hd.irq]; exact h.high
    enabled := by rw [hd.irq]; exact h.enabled
    callback := by simp only [hd.hif]; exact h.callback
    distinct := by rw [hd.hif]; exact h.distinct
    inbox := by rw [hd.env]; exact h.inbox }

theorem requested_sock (k : Fin 11) (kind : Kind) (s : State) (hr : (s.sock.slot k).replies = []) :
    (requested k kind s).sock =
      { (s.sock.setSlot k fun x =>
          { x with sid := s.sock.sid + 1, replies := [⟨s.sock.sid + 1, kind, s.env.nextMail⟩] }) with
        sid := s.sock.sid + 1
        mail := s.sock.mail ++ [(s.env.nextMail, .waiting)] } := by
  have : (s.sock.setSlot k fun x =>
        { x with sid := s.sock.sid + 1, replies := [⟨s.sock.sid + 1, kind, s.env.nextMail⟩] }) =
      s.sock.setSlot k fun x =>
        { x with
          sid := s.sock.sid + 1
          replies := ⟨s.sock.sid + 1, kind, s.env.nextMail⟩ :: x.replies.filter fun e => e.sid ≠ s.sock.sid + 1 } := by
    have h : s.sock.slots[k.val].replies = [] := hr
    simp [Sockets.setSlot, h]
  rw [this]
  rfl

/-- A request whose reply comes with the next round of the worker (R251, R253). -/
theorem request_served {id : Nat} {s : State} {k : Fin 11} {kind : Kind} {pk : Packet} {deadline : Word}
    {inputs : List Input} {v : SendWords} {op : Byte} {record : Bytes} {w : RoundWords} {rec : RxRecord}
    {ev : List BusEvent} {rest : List (Option Byte)} (hs : Awaiting s inputs)
    (hf : s.env.fired = false) (hsl : s.sock.sidLock = .free) (hh : Holds k id s)
    (hn : (s.sock.slot k).replies = []) (hm : ∀ e ∈ s.sock.mail, e.1 < s.env.nextMail)
    (hv : GoodSend s.params (pk.control (s.sock.sid + 1)) pk.data pk.offset v)
    (hr : replyRecord (op &&& 0x7F) = some (kind, rec)) (hl : record.length = recSize s.params rec)
    (hw : GoodRound s.params record w) (hk : (replyKey (decRec s.params rec record)).1.toInt = k.val)
    (hi : (replyKey (decRec s.params rec record)).2 = none ∨ (replyKey (decRec s.params rec record)).2 = some (s.sock.sid + 1))
    (hA : Answers s
      (sendAccesses s.params pk.group pk.opcode (pk.control (s.sock.sid + 1)) pk.data pk.offset v ++
        roundAccesses s.params op record w) ev rest) :
    ∃ t, Runs id (request s.params k kind pk deadline) s (.ok (decRec s.params rec record)) t ∧
      BusDone (roundDone op (decRec s.params rec record) w inputs (numbered k s)) t ev rest := by
  obtain ⟨hu, hdesc, ho⟩ := hh
  have hy : s.env.yields = [] := hs.session.bus.yields
  have hsock := requested_sock k kind s hn
  have hq : Awaiting (requested k kind s) inputs := { hs with
    session := ⟨hs.session.ready, hs.session.lock, hs.session.bus.lock, hs.session.bus.idle, hs.session.bus.limit, hy⟩ }
  -- the packet
  have hA' : Answers (requested k kind s)
      (sendAccesses s.params pk.group pk.opcode (pk.control (s.sock.sid + 1)) pk.data pk.offset v ++
        roundAccesses s.params op record w) ev rest := hA
  obtain ⟨u, ev1, ev2, mid, he, rfl, hd, hub, hA2⟩ :=
    hifSend_good (callerGo_agrees id) s.params (group := pk.group) (opcode := pk.opcode) (s := requested k kind s)
      hq.session.ready.1 hq.session.lock hq.asleep hv hq.session.bus _ _ _ hA'
  have huf : u.env.fired = false := Prog.eval_fired he hf
  have hua : Awaiting u inputs := hq.after hd
  have hus : u.sock = (requested k kind s).sock := hd.sock
  have hup : u.params = s.params := hd.params
  have hwait : mailGet u.sock.mail s.env.nextMail = some .waiting := by
    rw [hus, hsock]
    exact mailGet_append_self hm
  have hmatch : matchReply u.sock (replyKey (decRec s.params rec record)).1 (replyKey (decRec s.params rec record)).2 kind = some s.env.nextMail := by
    have h1 : (u.sock.slot k).inUse = true := by
      rw [hus, hsock]
      simpa [Sockets.slot, Sockets.setSlot] using hu
    have h2 : (u.sock.slot k).replies = [⟨s.sock.sid + 1, kind, s.env.nextMail⟩] := by
      rw [hus, hsock]
      simp [Sockets.slot, Sockets.setSlot]
    simp only [matchReply, hk, slotIx_fin, h1, h2, Bool.true_eq_false, if_false]
    have hfind : findEntry [⟨s.sock.sid + 1, kind, s.env.nextMail⟩] (replyKey (decRec s.params rec record)).2 =
        some ⟨s.sock.sid + 1, kind, s.env.nextMail⟩ := by
      rcases hi with h | h <;> rw [h] <;> simp [findEntry]
    rw [hfind]
    simp [hwait]
  -- the wait
  have hrm : (w.address + 8).toNat = w.address.toNat + 8 := by
    rw [BitVec.toNat_add]
    have := hw.room
    simp
    omega
  have hcov : sizeOf12 s.params w.control < 2 ^ 12 := Nat.mod_lt _ (by decide)
  rw [← List.append_nil (roundAccesses _ _ _ _), ← hup] at hA2
  obtain ⟨t, ev3, ev4, mid', hgo, rfl, hd', hub', hA3⟩ := callerGo_round (id := id)
    (a := .waitReply k s.env.nextMail (deadline != 0)) (v := .reply (.ok (decRec s.params rec record)))
    (f := fun q => fillMail q s.env.nextMail (decRec s.params rec record)) (d := fun q => q.dropReply k s.env.nextMail)
    (rep := decRec s.params rec record) hua huf (by rw [hup]; exact hw)
    (fun x hx hxf => by
      simp only [perform, doWaitReply, hx, hwait, hxf, huf, Bool.and_false, Bool.false_eq_true, if_false])
    (fun x hx => by
      have : mailGet x.sock.mail s.env.nextMail = some (.filled (decRec s.params rec record)) := by
        rw [hx, fillMail, if_pos hwait, hus, hsock]
        show mailGet (mailSet (s.sock.mail ++ _) _ _) _ = _
        rw [mailSet_append_self hm, mailGet_append_self hm]
      simp only [perform, doWaitReply, this])
    (fun x hxh hxs => by
      rw [hup] at hxh ⊢
      have hxr : x.hif.state = .ready := by rw [hxh]; exact hua.session.ready.1
      have hin : inWindow x.hif (w.address + 8) (recSize s.params rec) := by
        rw [hxh, ← hl]
        have := hw.covers
        refine ⟨rfl, ?_, ?_, ?_⟩ <;> simp only [BitVec.toNat_ofNat, hrm] <;> omega
      have := sockCb_reply_serves workerGo_agrees s.params w.done (s := x) (due := true)
        (length := (record.length : Int)) (address := w.address + 8) hxr rfl hr hl
        (by rw [hl]) hin (by rw [hrm]; exact hw.room) (by rw [hxh])
      rw [hxs, hmatch] at this
      exact this)
    hA2
  obtain ⟨hnil, hmiso⟩ := hA3
  cases hnil
  have hrest : mid' = rest := by rw [← hd'.miso]; simpa using hmiso
  subst hrest
  have hty : t.env.yields = [] := hub'.yields
  refine ⟨endAction t, ?_, ?_⟩
  · have p1 : perform .nextSid (.caller id) s =
        (some (.num (s.sock.sid + 1).toNat), s.mapSock fun q => { q with sid := q.sid + 1 }) := by
      simp [perform, doNextSid, hsl]
    refine Runs.act p1 hy ?_
    rw [endAction_eq (s := s.mapSock fun q => { q with sid := q.sid + 1 }) hy hf]
    have hsid : BitVec.ofNat 16 (Val.num (s.sock.sid + 1).toNat).toNum = s.sock.sid + 1 := by
      apply BitVec.eq_of_toNat_eq
      rw [BitVec.toNat_ofNat]
      exact Nat.mod_eq_of_lt (BitVec.isLt _)
    dsimp only
    rw [hsid]
    have p2 : perform (.insertReply k (s.sock.sid + 1) kind) (.caller id) (s.mapSock fun q => { q with sid := q.sid + 1 }) =
        (some (.mail (some s.env.nextMail)), requested k kind s) := by
      have : (s.mapSock fun q => { q with sid := q.sid + 1 }).sock.owns (.caller id) k = true := by
        show (((s.sock.slot k).inUse && decide ((s.sock.slot k).desc = BitVec.ofNat 8 k.val)) &&
          decide ((s.sock.slot k).lock = .held (.caller id))) = true
        simp [hu, hdesc, ho]
      simp only [perform, doInsertReply, this, if_true]
      rfl
    refine Runs.act p2 hy ?_
    rw [endAction_eq (s := requested k kind s) hy hf]
    refine Runs.bind (show Runs id _ (requested k kind s) (.ok ()) u from he) ?_
    show (Prog.act (.waitReply k s.env.nextMail (deadline != 0)) fun u => .ret u.toReply).eval (callerGo id) u = _
    simp only [Prog.eval, hgo, handOver_of_nil hty, Bool.false_eq_true, if_false]
    rfl
  · have hX := (Respects.mapSock fun q => q.dropReply k s.env.nextMail) _ _ _ _
      (Respects.roundDone op (decRec s.params rec record) w inputs _ _ _ _
        ((Respects.mapSock fun q => fillMail q s.env.nextMail (decRec s.params rec record)) _ _ _ _ hd))
    have hfin := hX.trans hd'
    have heq : ((roundDone op (decRec s.params rec record) w inputs
        ((requested k kind s).mapSock fun q => fillMail q s.env.nextMail (decRec s.params rec record))).mapSock fun q =>
          q.dropReply k s.env.nextMail) = roundDone op (decRec s.params rec record) w inputs (numbered k s) := by
      have hS : (fillMail (requested k kind s).sock s.env.nextMail (decRec s.params rec record)).dropReply k s.env.nextMail =
          (numbered k s).sock := by
        rw [← hus, fillMail, if_pos hwait, hus, hsock]
        show Sockets.dropReply
          { (s.sock.setSlot k fun x =>
              { x with sid := s.sock.sid + 1, replies := [⟨s.sock.sid + 1, kind, s.env.nextMail⟩] }) with
            sid := s.sock.sid + 1
            mail := mailSet (s.sock.mail ++ [(s.env.nextMail, .waiting)]) s.env.nextMail (.filled (decRec s.params rec record)) }
          k s.env.nextMail = _
        rw [mailSet_append_self hm]
        have h : s.sock.slots[k.val].replies = [] := hn
        simp [Sockets.dropReply, Sockets.setSlot, numbered, mailDel_append_self hm, h]
      show ({ roundDone op (decRec s.params rec record) w inputs
        ((requested k kind s).mapSock fun q => fillMail q s.env.nextMail (decRec s.params rec record)) with sock := _ } : State) = _
      have : (roundDone op (decRec s.params rec record) w inputs
        ((requested k kind s).mapSock fun q => fillMail q s.env.nextMail (decRec s.params rec record))).sock =
          fillMail (requested k kind s).sock s.env.nextMail (decRec s.params rec record) := rfl
      rw [this]
      dsimp only
      rw [hS]
      rfl
    replace hfin : BusDone (roundDone op (decRec s.params rec record) w inputs (numbered k s)) t (ev1 ++ ev3) mid' := heq ▸ hfin
    simp only [List.append_nil]
    exact ⟨hfin.crcEn, hfin.limit, hfin.lock, hfin.idle, hfin.lastErr, hfin.hif, hfin.irq, hfin.sock, hfin.root,
      hfin.mem, hfin.params, hfin.bus, by
        have := hfin.env
        rw [endAction_env, hty, List.tail_nil]
        rw [this] at hty ⊢
        simp only at hty ⊢
        rw [hty]⟩

end Sys2Proof.Machine
end

