-- ==== Sys2Proof/Laws/Boot.lean ====
section
/-!
SUPPORT. `Hif.Init` against a device that is ready at once, and a resolution that is answered (spec/41_transport.md
R183; spec/42_hif.md R201 to R205; spec/43_socket.md R266).
-/

namespace Sys2Proof.Machine

variable {go : Action → State → Option Val × State} {ag : Agent}

/-! ### The boot handshake (R202 to R205) -/

/-- As `Serves.bind`, where no expiry is pending. -/
theorem Serves.bind_fired {α β : Type} {p : Prog α} {f : α → Prog β} {xs ys : List Access} {a : α} {b : β}
    {g h : State → State} {s : State} (hh : Respects h) (hs : s.env.fired = false) (hp : Serves go p xs a g s)
    (hf : ∀ u, After (g s) u → u.env.fired = false → Serves go (f a) ys b h u) :
    Serves go (p.bind f) (xs ++ ys) b (fun s => h (g s)) s := by
  intro hb zs ev rest ha
  rw [List.append_assoc] at ha
  obtain ⟨u, ev1, ev2, mid, e, rfl, d, hu, ha2⟩ := hp hb _ _ _ ha
  obtain ⟨w, ev3, ev4, mid', e', rfl, d', hw, ha4⟩ := hf u ⟨_, _, d⟩ (Prog.eval_fired e hs) hu _ _ _ ha2
  refine ⟨w, ev1 ++ ev3, ev4, mid', ?_, by rw [List.append_assoc], (hh _ _ _ _ d).trans d', hw, ha4⟩
  rw [Prog.eval_bind_of e, e']

theorem Serves.tryBind_fired {α β : Type} {p : Prog (Except Err α)} {f : α → Prog (Except Err β)} {xs ys : List Access}
    {a : α} {b : Except Err β} {g h : State → State} {s : State} (hh : Respects h) (hs : s.env.fired = false)
    (hp : Serves go p xs (.ok a) g s)
    (hf : ∀ u, After (g s) u → u.env.fired = false → Serves go (f a) ys b h u) :
    Serves go (p.tryBind f) (xs ++ ys) b (fun s => h (g s)) s := Serves.bind_fired hh hs hp hf

theorem Serves.mark {α : Type} {p : Prog α} {xs : List Access} {r : α} {g : State → State} {s : State}
    (h : Serves go p xs r g s) : Serves go (.mark p) xs r g s := h

/-- A poll for a magic that is there (R203, R204). -/
theorem pollMagic_serves (hgo : Agrees go ag) (a : Addr) (magic : Word) (e : Err) {s : State}
    (hs : s.env.fired = false) : Serves go (pollMagic a magic e) [.read a magic] (.ok ()) (fun s => s) s := by
  refine Serves.mark (Serves.look (v := .flag s.env.fired) hgo Respects.id rfl fun _ _ => ?_)
  rw [hs]
  refine Serves.tryBind (xs := [_]) (ys := []) Respects.id (readReg_serves hgo a magic _) fun v _ => ?_
  rw [if_pos rfl]
  exact Serves.ret _ v

/-- The efuse poll, the block loaded (R203). -/
theorem efusePoll_serves (hgo : Agrees go ag) (p : Params) {e : Word} (he : e.getLsbD p.bitEfuseLoaded.val = true)
    (s : State) : Serves go (efusePoll p) [.read p.regEfuseStatus e] (.ok ()) (fun s => s) s := by
  refine Serves.mark (Serves.tryBind (xs := [_]) (ys := []) Respects.id (readReg_serves hgo _ e s) fun v _ => ?_)
  rw [he, if_pos rfl]
  exact Serves.ret _ v

theorem waitForBootrom_serves (hgo : Agrees go ag) (p : Params) {e : Word}
    (he : e.getLsbD p.bitEfuseLoaded.val = true) {s : State} (hs : s.env.fired = false) :
    Serves go (waitForBootrom p)
      [.read p.regEfuseStatus e, .read p.regBootrom p.magicBootromDone, .write p.regVersionInfo p.versionInfoWord,
        .write p.regChipConfig p.chipConfigWord, .write p.regBootrom p.magicStartFirmware] (.ok ()) (fun s => s) s :=
  Serves.tryBind_fired (xs := [_]) Respects.id hs (efusePoll_serves hgo p he s) fun _ _ hu =>
    Serves.tryBind (xs := [_]) Respects.id (pollMagic_serves hgo _ _ _ hu) fun v _ =>
      Serves.tryBind (xs := [_]) Respects.id (writeReg_serves hgo _ _ v) fun w _ =>
        Serves.tryBind (xs := [_]) Respects.id (writeReg_serves hgo _ _ w) fun x _ => writeReg_serves hgo _ _ x

theorem waitForFirmwareStart_serves (hgo : Agrees go ag) (p : Params) {s : State} (hs : s.env.fired = false) :
    Serves go (waitForFirmwareStart p) [.read p.regFwState p.magicFwReady, .write p.regFwState 0x00000000] (.ok ())
      (fun s => s) s :=
  Serves.tryBind (xs := [_]) Respects.id (pollMagic_serves hgo _ _ _ hs) fun v _ => writeReg_serves hgo _ _ v

theorem enableInterrupts_serves (hgo : Agrees go ag) (p : Params) (w1 w2 : Word) (s : State) :
    Serves go (enableInterrupts p)
      (setBitAccesses p.regPinMux p.bitPinMux w1 ++ setBitAccesses p.regIntrEnable p.bitIntrEnable w2) (.ok ())
      (fun s => s) s :=
  Serves.tryBind Respects.id (setRegBit_serves hgo _ _ w1 s) fun u _ => setRegBit_serves hgo _ _ w2 u

theorem checkChipId_serves (hgo : Agrees go ag) (p : Params) {chip : Word} (hc : p.chipFamilyOk.app chip = true)
    (s : State) : Serves go (checkChipId p) [.read p.regChipId chip] (.ok ()) (fun s => s) s :=
  Serves.tryBind (xs := [_]) (ys := []) Respects.id (readReg_serves hgo _ chip s) fun u _ => by
    rw [hc, if_pos rfl]
    exact Serves.ret _ u

/-- A stage of `Init` that succeeds (R201). -/
theorem initStage_serves {stage rest : Prog (Except Err Unit)} {e : Err} {xs ys : List Access}
    {r : Except Err Unit} {h : State → State} {s : State} (hh : Respects h) (hs : s.env.fired = false)
    (hp : Serves go stage xs (.ok ()) (fun s => s) s)
    (hf : ∀ u, After s u → u.env.fired = false → Serves go rest ys r h u) :
    Serves go (initStage stage e rest) (xs ++ ys) r h s := Serves.bind_fired hh hs hp hf

/-! ### Transport init and `Hif.Init` (R183, R201) -/

/-- Transport init whose first probe succeeds (R183). -/
theorem transportInit_runs {id : Nat} {s : State} {w : Word} {ev : List BusEvent} {rest : List (Option Byte)}
    (hs : BusReady s)
    (hw : AllOnWire s.params true s.fr.pktLimit
      (.read s.params.regProtocolConfig w ::
        match s.params.initCfgWriteback with
        | none => []
        | some f => [.write s.params.regProtocolConfig (f.app (w, s.fr.pktLimit))]) ev)
    (hm : s.env.miso = answersOf ev ++ rest) :
    ∃ t, Runs id (transportInit s.params) s (.ok ()) t ∧
      BusDone (s.mapFr fun f => { f with crcEn := false }) t ev rest ∧ BusReady t := by
  have ho := callerGo_agrees id
  have hprobe : ∀ u : State, Serves (callerGo id) (probeConfig s.params) [.read s.params.regProtocolConfig w] (.ok w)
      (fun s => s) u := fun u => Serves.bind (xs := [_]) (ys := [])
        (f := fun r : Except Err Word => match r with
          | .ok w => Prog.ret (.ok w)
          | .error _ => .andThen (.put (.crcEn false)) (readReg s.params.regProtocolConfig)) Respects.id
        (readReg_serves ho _ w u) fun v _ => Serves.ret (go := callerGo id) (Except.ok w : Except Err Word) v
  have hcfg : ∀ u : State, u.fr.pktLimit = s.fr.pktLimit → Serves (callerGo id) (cfgWriteback s.params w)
      (match s.params.initCfgWriteback with
        | none => []
        | some f => [.write s.params.regProtocolConfig (f.app (w, s.fr.pktLimit))]) (.ok ()) (fun s => s) u := by
    intro u hu
    unfold cfgWriteback
    cases s.params.initCfgWriteback with
    | none => exact Serves.ret _ u
    | some f =>
      refine Serves.look (v := .num u.fr.pktLimit) ho Respects.id rfl fun v _ => ?_
      rw [hu]
      exact writeReg_serves ho _ _ v
  let s1 : State := endAction (s.mapFr fun f => { f with crcEn := true })
  have hb1 : BusReady s1 := ⟨hs.lock, hs.idle, hs.limit, by simp [s1, hs.yields]⟩
  have hA : Answers s1 (.read s.params.regProtocolConfig w ::
        match s.params.initCfgWriteback with
        | none => []
        | some f => [.write s.params.regProtocolConfig (f.app (w, s.fr.pktLimit))]) ev rest := ⟨hw, hm⟩
  obtain ⟨u, he, hd⟩ := (Serves.tryBind (f := cfgWriteback s.params) Respects.id (hprobe s1)
    fun u hu => hcfg u (by obtain ⟨_, _, h⟩ := hu; exact h.limit)).eval hb1 hA
  have huy : u.env.yields = [] := (hd.ready hb1).yields
  refine ⟨endAction (u.mapFr fun f => { f with crcEn := false }), ?_, ?_, ?_⟩
  · refine Runs.andThen (v := .unit) rfl hs.yields (Runs.bind (show Runs id _ s1 (.ok ()) u from he) ?_)
    exact Runs.andThen (v := .unit) rfl huy (Runs.ret _ _)
  · refine ⟨rfl, hd.limit, hd.lock, hd.idle, hd.lastErr, hd.hif, hd.irq, hd.sock, hd.root, hd.mem, hd.params,
      hd.bus, ?_⟩
    have e := hd.env
    have sy := hs.yields
    simp only [endAction_env, State.mapFr_env, huy, List.tail_nil]
    rw [e]
    simp [s1, sy]
  · exact ⟨hd.lock, hd.idle, by
      show u.fr.pktLimit ∈ legalLimits
      rw [hd.limit]; exact hs.limit, by simp [huy]⟩

/-- `Hif.Init` before a device that is ready at once (R201). -/
theorem hifInit_runs {id : Nat} {s : State} {chip efuse pinMux enable config : Word} {ev : List BusEvent}
    {rest : List (Option Byte)} (hs : BusReady s) (hf : s.env.fired = false)
    (hd : BootsAtOnce s chip efuse pinMux enable config ev rest) :
    ∃ t, Runs id (hifInit s.params) s (.ok ()) t ∧
      BusDone ((s.mapFr fun f => { f with crcEn := false }).mapHif fun h => { h with state := .ready }) t ev rest := by
  have ho := callerGo_agrees id
  obtain ⟨ev1, ev2, hw1, hw2, rfl, hm⟩ := hd.wire
  let s0 : State := s.mapHif fun h => { h with state := .bootstrapping }
  have hb0 : BusReady s0 := ⟨hs.lock, hs.idle, hs.limit, hs.yields⟩
  obtain ⟨u, hr, hdu, hbu⟩ := transportInit_runs (id := id) (s := s0) (rest := answersOf ev2 ++ rest) hb0 hw1
    (by show s.env.miso = _; rw [hm]; simp)
  have hfu : u.env.fired = false := Prog.eval_fired hr hf
  have hA : Answers u (bootAccesses s.params chip efuse pinMux enable) ev2 rest := by
    refine ⟨?_, hdu.miso⟩
    rw [hdu.params, hdu.crcEn, hdu.limit]
    exact hw2
  have hready : Respects fun t : State => t.mapHif fun h => { h with state := .ready } := Respects.mapHif _
  have hserve : Serves (callerGo id)
      (initStage (checkChipId s.params) .incompatibleVersion <|
        initStage (waitForBootrom s.params) .bootromFailed <|
          initStage (waitForFirmwareStart s.params) .firmwareFailed <|
            initStage (enableInterrupts s.params) .interruptsEnableFailed <|
              .andThen (.put (.hifState .ready)) (.ret (.ok ())))
      (bootAccesses s.params chip efuse pinMux enable) (.ok ())
      (fun t => t.mapHif fun h => { h with state := .ready }) u :=
    initStage_serves (xs := [_]) hready hfu (checkChipId_serves ho _ hd.family u) fun a _ ha =>
      initStage_serves (xs := [_, _, _, _, _]) hready ha (waitForBootrom_serves ho _ hd.loaded ha) fun b _ hb =>
        initStage_serves (xs := [_, _]) hready hb (waitForFirmwareStart_serves ho _ hb) fun c _ hc => by
          have := initStage_serves (ys := []) (e := .interruptsEnableFailed) hready hc
            (enableInterrupts_serves ho s.params pinMux enable c) fun d _ _ =>
              Serves.setHif (a := .put (.hifState .ready)) (p := .ret (Except.ok ())) ho (fun h => { h with state := .ready }) Respects.id rfl fun x _ =>
                Serves.ret (Except.ok () : Except Err Unit) x
          rw [List.append_nil] at this
          exact this
  obtain ⟨t, he, hdt⟩ := hserve.eval hbu hA
  refine ⟨t, ?_, ?_⟩
  · refine Runs.andThen (v := .unit) (t := s0) rfl hs.yields ?_
    rw [endAction_eq (s := s0) hs.yields hf]
    exact Runs.bind hr he
  · exact (hready _ _ _ _ hdu).trans hdt

/-! ### A resolution (R266, R280) -/

/-- `GetHostByName` whose reply comes with the next round of the worker. -/
theorem getHostByName_served {id : Nat} {s : State} {name : Bytes} {deadline : Word} {inputs : List Input}
    {v : SendWords} {op : Byte} {record got : Bytes} {ip : Word} {w : RoundWords} {ev : List BusEvent}
    {rest : List (Option Byte)} (hs : Awaiting s inputs) (hf : s.env.fired = false) (hn : s.sock.dnsReply = none)
    (hm : ∀ e ∈ s.sock.mail, e.1 < s.env.nextMail) (hv : GoodSend s.params (encDns s.params name) [] 0 v)
    (hop : op &&& 0x7F = 0x4A) (hl : record.length = recSize s.params .dnsReply)
    (hr : decRec s.params .dnsReply record = .dns got ip) (hw : GoodRound s.params record w)
    (hA : Answers s
      (sendAccesses s.params groupIp 0x4A (encDns s.params name) [] 0 v ++ roundAccesses s.params op record w) ev
      rest) :
    ∃ t, Runs id (getHostByNameOp s.params name deadline) s (.ok (.word ip)) t ∧
      BusDone (roundDone op (.dns got ip) w inputs (s.mapEnv fun e => { e with nextMail := s.env.nextMail + 1 })) t ev
        rest := by
  have hy : s.env.yields = [] := hs.session.bus.yields
  let q : State := (s.mapSock fun k =>
    { k with dnsReply := some s.env.nextMail, mail := k.mail ++ [(s.env.nextMail, .waiting)] }).mapEnv fun e =>
      { e with nextMail := s.env.nextMail + 1 }
  have hq : Awaiting q inputs := { hs with
    session := ⟨hs.session.ready, hs.session.lock, hs.session.bus.lock, hs.session.bus.idle, hs.session.bus.limit, hy⟩ }
  have hA' : Answers q
      (sendAccesses s.params groupIp 0x4A (encDns s.params name) [] 0 v ++ roundAccesses s.params op record w) ev
      rest := hA
  obtain ⟨u, ev1, ev2, mid, he, rfl, hd, hub, hA2⟩ :=
    hifSend_good (callerGo_agrees id) s.params (group := groupIp) (opcode := 0x4A) (s := q)
      hq.session.ready.1 hq.session.lock hq.asleep hv hq.session.bus _ _ _ hA'
  have huf : u.env.fired = false := Prog.eval_fired he hf
  have hua : Awaiting u inputs := hq.after hd
  have hus : u.sock = q.sock := hd.sock
  have hup : u.params = s.params := hd.params
  have hwait : mailGet u.sock.mail s.env.nextMail = some .waiting := by
    rw [hus]
    exact mailGet_append_self hm
  have hdns : u.sock.dnsReply = some s.env.nextMail := by rw [hus]; rfl
  have hrm : (w.address + 8).toNat = w.address.toNat + 8 := by
    rw [BitVec.toNat_add]
    have := hw.room
    simp
    omega
  have hcov : sizeOf12 s.params w.control < 2 ^ 12 := Nat.mod_lt _ (by decide)
  rw [← List.append_nil (roundAccesses _ _ _ _), ← hup] at hA2
  obtain ⟨t, ev3, ev4, mid', hgo, rfl, hd', hub', hA3⟩ := callerGo_round (id := id)
    (a := .dnsWait s.env.nextMail (deadline != 0)) (v := .reply (.ok (.dns got ip)))
    (f := fun k => fillMail k s.env.nextMail (.dns got ip)) (d := fun k => k.dropDns s.env.nextMail)
    (rep := .dns got ip) hua huf (by rw [hup]; exact hw)
    (fun x hx hxf => by
      simp only [perform, doDnsWait, hx, hwait, hxf, huf, Bool.and_false, Bool.false_eq_true, if_false])
    (fun x hx => by
      have : mailGet x.sock.mail s.env.nextMail = some (.filled (.dns got ip)) := by
        rw [hx, fillMail, if_pos hwait, hus]
        show mailGet (mailSet (s.sock.mail ++ _) _ _) _ = _
        rw [mailSet_append_self hm, mailGet_append_self hm]
      simp only [perform, doDnsWait, this])
    (fun x hxh hxs => by
      rw [hup] at hxh ⊢
      have hin : inWindow x.hif (w.address + 8) (recSize s.params .dnsReply) := by
        rw [hxh, ← hl]
        have := hw.covers
        refine ⟨rfl, ?_, ?_, ?_⟩ <;> simp only [BitVec.toNat_ofNat, hrm] <;> omega
      have := sockCb_dns_serves workerGo_agrees s.params w.done (s := x) (due := true)
        (length := (record.length : Int)) (address := w.address + 8) (b := record)
        (by rw [hxh]; exact hua.session.ready.1) hop hl (by rw [hl]) hin (by rw [hrm]; exact hw.room) (by rw [hxh])
        (by rw [hxs]; exact hdns) (by rw [hxs]; exact hwait)
      rw [hr] at this
      exact this)
    hA2
  obtain ⟨hnil, hmiso⟩ := hA3
  cases hnil
  have hrest : mid' = rest := by rw [← hd'.miso]; simpa using hmiso
  subst hrest
  have hty : t.env.yields = [] := hub'.yields
  refine ⟨endAction t, ?_, ?_⟩
  · refine Runs.act (v := .num s.env.nextMail) (t := q) rfl hy ?_
    rw [endAction_eq (s := q) hy hf]
    refine Runs.bind (show Runs id _ q (.ok ()) u from he) ?_
    show (Prog.act (.dnsWait s.env.nextMail (deadline != 0)) _).eval (callerGo id) u = _
    simp only [Prog.eval, hgo, handOver_of_nil hty, Bool.false_eq_true, if_false]
    rfl
  · have hX := (Respects.mapSock fun k => k.dropDns s.env.nextMail) _ _ _ _
      (Respects.roundDone op (.dns got ip) w inputs _ _ _ _
        ((Respects.mapSock fun k => fillMail k s.env.nextMail (.dns got ip)) _ _ _ _ hd))
    have hfin := hX.trans hd'
    have hS : (fillMail q.sock s.env.nextMail (.dns got ip)).dropDns s.env.nextMail = s.sock := by
      rw [← hus, fillMail, if_pos hwait, hus]
      show Sockets.dropDns
        { s.sock with
          dnsReply := some s.env.nextMail
          mail := mailSet (s.sock.mail ++ [(s.env.nextMail, .waiting)]) s.env.nextMail (.filled (.dns got ip)) }
        s.env.nextMail = _
      rw [mailSet_append_self hm]
      simp only [Sockets.dropDns, mailDel_append_self hm, if_true, ← hn]
    have heq : ((roundDone op (.dns got ip) w inputs
        (q.mapSock fun k => fillMail k s.env.nextMail (.dns got ip))).mapSock fun k => k.dropDns s.env.nextMail) =
        roundDone op (.dns got ip) w inputs (s.mapEnv fun e => { e with nextMail := s.env.nextMail + 1 }) := by
      show ({ roundDone op (.dns got ip) w inputs (q.mapSock fun k => fillMail k s.env.nextMail (.dns got ip)) with
        sock := (fillMail q.sock s.env.nextMail (.dns got ip)).dropDns s.env.nextMail } : State) = _
      rw [hS]
      rfl
    replace hfin : BusDone (roundDone op (.dns got ip) w inputs
      (s.mapEnv fun e => { e with nextMail := s.env.nextMail + 1 })) t (ev1 ++ ev3) mid' := heq ▸ hfin
    simp only [List.append_nil]
    exact ⟨hfin.crcEn, hfin.limit, hfin.lock, hfin.idle, hfin.lastErr, hfin.hif, hfin.irq, hfin.sock, hfin.root,
      hfin.mem, hfin.params, hfin.bus, by
        have := hfin.env
        rw [endAction_env, hty, List.tail_nil]
        rw [this] at hty ⊢
        simp only at hty ⊢
        rw [hty]⟩

end Sys2Proof.Machine
end

