-- ==== Sys2Proof/Laws/Down.lean ====
section
/-!
SUPPORT. A boot never brings the driver up by itself: while `Hif.Init` runs below `Initialize()`, the driver stays not
live and the worker stopped, whatever else goes on meanwhile (R285).
-/

namespace Sys2Proof.Machine

/-- All actions of a program meet `P`. -/
inductive Prog.Only {α : Type} (P : Action → Prop) : Prog α → Prop where
  | ret (a : α) : Prog.Only P (.ret a)
  | act (a : Action) (k : Val → Prog α) (ha : P a) (h : ∀ v, Prog.Only P (k v)) : Prog.Only P (.act a k)
  | mark (p : Prog α) (h : Prog.Only P p) : Prog.Only P (.mark p)
  | back : Prog.Only P .back
  | refuse (r : Refusal) : Prog.Only P (.refuse r)

variable {P : Action → Prop}

theorem Prog.Only.andThen {α : Type} {a : Action} {p : Prog α} (ha : P a) (h : p.Only P) :
    (Prog.andThen a p).Only P := .act a _ ha fun _ => h

theorem Prog.Only.raise {α : Type} (e : Err) : (Machine.raise e : Prog (Except Err α)).Only P := .ret _

theorem Prog.Only.bind {α β : Type} {p : Prog α} {f : α → Prog β} (hp : p.Only P) (hf : ∀ a, (f a).Only P) :
    (p.bind f).Only P := by
  induction hp with
  | ret a => exact hf a
  | act a k ha _ ih => exact .act a _ ha ih
  | mark p _ ih => exact .mark _ ih
  | back => exact .back
  | refuse r => exact .refuse r

theorem Prog.Only.tryBind {α β : Type} {p : Prog (Except Err α)} {f : α → Prog (Except Err β)} (hp : p.Only P)
    (hf : ∀ a, (f a).Only P) : (p.tryBind f).Only P :=
  Prog.Only.bind hp fun r => match r with
    | .ok a => hf a
    | .error _ => .ret _

/-- What each action of a program keeps, and every hand-over, holds where its run ends. -/
theorem Prog.Only.eval_keeps {α : Type} {go : Action → State → Option Val × State} {I : State → Prop}
    (hgo : ∀ a s, P a → I s → I (go a s).2) (hho : ∀ s, I s → I (handOver s).2) {p : Prog α} (hp : p.Only P)
    {s t : State} {r : α} (h : p.eval go s = some (r, t)) (hs : I s) : I t := by
  induction hp generalizing s with
  | ret a => cases h; exact hs
  | mark p _ ih => exact ih h hs
  | back => cases h
  | refuse r => cases h
  | act a k ha _ ih =>
    simp only [Prog.eval] at h
    have h1 := hgo a s ha hs
    split at h
    · cases h
    · rename_i v s1 hg
      rw [hg] at h1
      split at h
      · cases h
      · exact ih v h (hho _ h1)

/-! ### The actions of a boot -/

/-- The actions of `Hif.Init` (R183, R201 to R205). -/
inductive Boots : Action → Prop where
  | crcEn (b : Bool) : Boots (.put (.crcEn b))
  | hifState (st : HifState) : Boots (.put (.hifState st))
  | acquire : Boots .acquire
  | build (c : Cmd) : Boots (.build c)
  | cmdWr (last : Bool) : Boots (.cmdWr last)
  | rspRd (next : TSeq) : Boots (.rspRd next)
  | startRead (n : Nat) (into : DataRef) : Boots (.startRead n into)
  | chunkRd : Boots .chunkRd
  | failed (e : Err) : Boots (.failed e)
  | recoverReset : Boots .recoverReset
  | settle : Boots .settle
  | release : Boots .release
  | getPktLimit : Boots .getPktLimit
  | delay (d : Delay) : Boots (.delay d)
  | timedOut : Boots .timedOut

/-- The driver not live, the worker stopped. -/
def Down (s : State) : Prop := s.root.live = false ∧ s.irq.wseq = .stopped

/-- What leaves the driver root, interrupt and worker alone keeps the driver down. -/
theorem Down.of_eq {s t : State} (h : Down s) (hr : t.root = s.root) (hi : t.irq = s.irq) : Down t := by
  rw [Down, hr, hi]; exact h

theorem Down.busOnly {s t : State} (h : Down s) (hb : BusOnly s t) : Down t := h.of_eq hb.root hb.irq

theorem readChunk_down {s : State} (h : Down s) : Down (readChunk s).2 := by
  have h1 := h.busOnly (scanTag_busOnly tagScanMax s)
  unfold readChunk
  split
  · rename_i e s1 he; rw [he] at h1; exact h1
  · rename_i s1 he
    rw [he] at h1
    have h2 := h1.busOnly (xferBuf_busOnly (filler (chunkSize s.fr)) s1)
    split
    · rename_i s2 he2; rw [he2] at h2; exact h2
    · rename_i d s2 he2
      rw [he2] at h2
      have h3 := h2.busOnly (xferBuf_busOnly (chunkCrc s.fr.crcEn) s2)
      split
      · rename_i s3 he3; rw [he3] at h3; exact h3
      · rename_i r s3 he3; rw [he3] at h3; exact h3

theorem perform_down {a : Action} (ha : Boots a) (ag : Agent) {s : State} (h : Down s) : Down (perform a ag s).2 := by
  cases ha with
  | acquire => simp only [perform, doAcquire]; split <;> exact h
  | cmdWr last =>
    have h1 := h.busOnly (busStep_busOnly (frameBytes s.fr) s)
    simp only [perform, doCmdWr]
    split
    · rename_i s1 he; rw [he] at h1; exact h1
    · rename_i r s1 he; rw [he] at h1; exact h1
  | rspRd next =>
    have h1 := h.busOnly (busStep_busOnly (filler 2) s)
    simp only [perform, doRspRd]
    split
    · rename_i r0 r1 s1 he
      rw [he] at h1
      dsimp only at h1 ⊢
      split <;> exact h1
    · rename_i r s1 _ he; rw [he] at h1; exact h1
  | chunkRd =>
    have h1 := readChunk_down (h.busOnly (chipSelect_busOnly true s))
    simp only [perform, doChunkRd]
    split
    · rename_i e s1 he; rw [he] at h1; exact h1.busOnly (chipSelect_busOnly false s1)
    · rename_i d s1 he
      rw [he] at h1
      dsimp only at h1 ⊢
      have h2 := h1.busOnly (chipSelect_busOnly false s1)
      split <;> exact h2
  | failed e =>
    simp only [perform, doFailed]
    split
    · split <;> exact h
    · exact h
  | recoverReset =>
    have h1 : Down (buildFrame .reset s) := h
    exact (h1.busOnly (busStep_busOnly (frameBytes (buildFrame .reset s).fr) (buildFrame .reset s))).of_eq rfl rfl
  | _ => exact h

/-! ### Other agents' moves -/

theorem consumeQueue_down (q : Nat) {s : State} (h : Down s) : Down (consumeQueue q s) := by
  unfold consumeQueue
  split
  · exact h
  · exact h
  · split <;> exact h

theorem serveInput_down {id : Nat} {inp : Input} {s t : State} (h : Down s) (ht : serveInput id inp s = some t) :
    Down t := by
  cases inp with
  | work =>
    simp only [serveInput, workerTurn, h.2] at ht
    cases ht
    exact h
  | expire e =>
    simp only [serveInput] at ht
    split at ht
    · cases ht; exact h
    · cases ht
  | consume q => cases ht; exact consumeQueue_down q h
  | pin l => cases ht; exact h
  | store b bs => cases ht; exact h
  | request r => cases ht
  | resume t => cases ht

theorem waitFor_down {a : Action} (ha : Boots a) (id : Nat) :
    ∀ (l : List Input) {s : State}, Down s → Down (waitFor a id l s).2
  | [], _, h => h
  | inp :: rest, s, h => by
    simp only [waitFor]
    split
    · exact h
    · rename_i s1 he
      have h1 := perform_down ha (.caller id) (serveInput_down h he)
      split
      · rename_i v s2 hp; rw [hp] at h1; exact h1
      · rename_i s2 hp
        rw [hp] at h1
        exact waitFor_down ha id rest (s := dropExpiry s2) h1

theorem callerGo_down {a : Action} (ha : Boots a) (id : Nat) {s : State} (h : Down s) : Down (callerGo id a s).2 := by
  have h1 := perform_down ha (.caller id) h
  simp only [callerGo]
  split
  · rename_i v s1 hp; rw [hp] at h1; exact h1
  · rename_i s1 hp
    rw [hp] at h1
    exact waitFor_down ha id _ (s := dropExpiry s1) h1

/-! ### Only boot actions -/

theorem readChunks_boots : ∀ (n : Nat) (acc : Bytes), (readChunks n acc).Only Boots
  | 0, _ => .ret _
  | n + 1, acc => .act _ _ .chunkRd fun v => by
    split
    · exact .raise _
    · exact readChunks_boots n _
    · exact .ret _
    · exact .ret _

/-- The data phase of a register access. -/
theorem exchange_boots (c : Cmd) {d : DataPhase} (hd : (dataPhase d).Only Boots) : (exchange c d).Only Boots :=
  .andThen (.build c) <| .act _ _ (.cmdWr false) fun v => by
    split
    · exact .raise _
    · exact .act _ _ (.rspRd _) fun w => by
        split
        · exact .raise _
        · exact hd

theorem attempts_boots (c : Cmd) {d : DataPhase} (hd : (dataPhase d).Only Boots) :
    ∀ n : Nat, (attempts c d n).Only Boots
  | 0 => .andThen .release (.raise _)
  | n + 1 => (exchange_boots c hd).bind fun r => by
    split
    · exact .andThen .release (.ret _)
    · exact .act _ _ (.failed _) fun v => by
        split
        · exact .andThen .recoverReset (.andThen .settle (attempts_boots c hd n))
        · exact .andThen .release (.raise _)

theorem readReg_boots (a : Addr) : (readReg a).Only Boots :=
  .tryBind (.andThen .acquire (attempts_boots _ (d := .read 4 (.operand 4))
    (.andThen (.startRead _ _) (readChunks_boots _ _)) _)) fun _ => .ret _

theorem writeReg_boots (a : Addr) (v : Word) : (writeReg a v).Only Boots :=
  .tryBind (.andThen .acquire (attempts_boots _ (d := .absent) (.ret _) _)) fun _ => .ret _

theorem setRegBit_boots (a : Addr) (bit : Fin 32) : (setRegBit a bit).Only Boots :=
  .tryBind (readReg_boots a) fun _ => writeReg_boots _ _

theorem transportInit_boots (p : Params) : (transportInit p).Only Boots := by
  refine .andThen (.crcEn true) (.bind (.tryBind (.bind (readReg_boots _) fun r => ?_) fun w => ?_) fun r =>
    .andThen (.crcEn false) (.ret r))
  · split
    · exact .ret _
    · exact .andThen (.crcEn false) (readReg_boots _)
  · unfold cfgWriteback
    split
    · exact .ret _
    · exact .act _ _ .getPktLimit fun v => writeReg_boots _ _

theorem pollMagic_boots (a : Addr) (magic : Word) (e : Err) : (pollMagic a magic e).Only Boots :=
  .mark _ <| .act _ _ .timedOut fun v => by
    split
    · exact .raise _
    · exact .tryBind (readReg_boots a) fun w => by
        split
        · exact .ret _
        · exact .back

theorem efusePoll_boots (p : Params) : (efusePoll p).Only Boots :=
  .mark _ <| .tryBind (readReg_boots _) fun e => by
    split
    · exact .ret _
    · exact .andThen (.delay _) .back

theorem waitForBootrom_boots (p : Params) : (waitForBootrom p).Only Boots :=
  .tryBind (efusePoll_boots p) fun _ => .tryBind (pollMagic_boots _ _ _) fun _ =>
    .tryBind (writeReg_boots _ _) fun _ => .tryBind (writeReg_boots _ _) fun _ => writeReg_boots _ _

theorem initStage_boots {stage rest : Prog (Except Err Unit)} {e : Err} (hs : stage.Only Boots) (hr : rest.Only Boots) :
    (initStage stage e rest).Only Boots :=
  .bind hs fun r => by
    split
    · exact hr
    · exact .andThen (.hifState _) (.raise _)

theorem hifInit_boots (p : Params) : (hifInit p).Only Boots := by
  refine .andThen (.hifState _) (.bind (transportInit_boots p) fun r => ?_)
  split
  · exact .andThen (.hifState _) (.raise _)
  · refine initStage_boots (.tryBind (readReg_boots _) fun w => ?_) <|
      initStage_boots (waitForBootrom_boots p) <|
        initStage_boots (.tryBind (pollMagic_boots _ _ _) fun _ => writeReg_boots _ _) <|
          initStage_boots (.tryBind (setRegBit_boots _ _) fun _ => setRegBit_boots _ _) <|
            .andThen (.hifState _) (.ret _)
    split
    · exact .ret _
    · exact .raise _

/-- `Hif.Init` below `Initialize()` leaves the driver down, however it ends. -/
theorem Runs.hifInit_down {id : Nat} {p : Params} {s t : State} {r : Except Err Unit} (h : Runs id (hifInit p) s r t)
    (hs : Down s) : Down t :=
  (hifInit_boots p).eval_keeps (fun _ _ ha h => callerGo_down ha id h) (fun _ h => h) h hs

/-- Where `Initialize()` starts from, the driver is down. -/
theorem resetAll_down (s : State) : Down (resetAll s) := ⟨rfl, rfl⟩

end Sys2Proof.Machine
end

