-- ==== Sys2Proof/Laws/Retry.lean ====
section
/-!
SUPPORT. Attempts that fail (spec/41_transport.md R172, R173): what a bad response, a bad trailer and the recovery
between two attempts do, how an operation ends whose first attempt failed, and what a failed read leaves in the lent
span.
-/

namespace Sys2Proof.Machine

variable {go : Action → State → Option Val × State} {ag : Agent}

/-- A response that does not pass its check (R148). -/
theorem mid_badResponse (hgo : Agrees go ag) {s t : State} {k : Nat} {ev : List BusEvent} {r : List (Option Byte)}
    {e st op : Byte} {er : Err} (next : TSeq) (h : Mid ag s k t ev ([e, st].map some ++ r)) (hc : t.fr.cf[0] = op)
    (hb : checkRsp op #v[e, st] = some er) :
    ∃ u, (∀ {α : Type} (f : Val → Prog α), (Prog.act (.rspRd next) f).eval go t = (f (.err (some er))).eval go u) ∧
      Mid ag s k u (ev ++ stepEvents (filler 2) [e, st]) r := by
  obtain ⟨v, hv1, hv2⟩ := busStep_moved (filler 2) [e, st] r t (by simp) h.miso
  let v1 := v.mapFr fun f => { f with rsp := #v[e, st] }
  have hvc : v1.fr.cf[0] = op := by
    show v.fr.cf[0] = _
    rw [hv2.only.fr, hc]
  have hp : perform (.rspRd next) ag t = (some (.err (some er)), v1) := by
    simp only [perform, doRspRd, hv1]
    have : checkRsp v1.fr.cf[0] v1.fr.rsp = some er := by rw [hvc]; exact hb
    simp only [v1] at this
    rw [this]
  have hy := h.yields_moved hv2
  exact ⟨_, fun f => eval_at_once hgo hp hy, Mid.moved (w := v1) h hv2 rfl rfl rfl rfl rfl rfl rfl rfl rfl rfl rfl⟩

/-- An attempt whose response does not pass its check (R148, R171). -/
theorem exchange_badResponse (hgo : Agrees go ag) {s t : State} {k : Nat} {ev : List BusEvent} {x : Bytes}
    {r : List (Option Byte)} {e st : Byte} {er : Err} (c : Cmd) (d : DataPhase)
    (h : Mid ag s k t ev ((x ++ [e, st]).map some ++ r))
    (hx : x.length = (commandWire s.params s.fr.crcEn c).length) (hb : checkRsp c.opcode #v[e, st] = some er) :
    ∃ u, (exchange c d).eval go t = some (.error er, u) ∧
      Mid ag s k u (ev ++ (stepEvents (commandWire s.params s.fr.crcEn c) x ++ stepEvents (filler 2) [e, st])) r := by
  rw [List.map_append, List.append_assoc] at h
  obtain ⟨s2, e2, m2, hc⟩ := mid_command hgo c false h hx
  obtain ⟨s3, e3, m3⟩ := mid_badResponse hgo d.afterRsp m2 hc hb
  refine ⟨s3, ?_, by rw [← List.append_assoc]; exact m3⟩
  rw [exchange, e2]
  simp only [Val.toErr]
  rw [e3]
  rfl

/-- An attempt whose response is cut short by a transfer that fails (R170, R171; log 18). -/
theorem exchange_noResponse (hgo : Agrees go ag) {s t : State} {k : Nat} {ev : List BusEvent} {x rx : Bytes}
    {r : List (Option Byte)} (c : Cmd) (d : DataPhase) (h : Mid ag s k t ev (x.map some ++ (rx.map some ++ none :: r)))
    (hx : x.length = (commandWire s.params s.fr.crcEn c).length) (hr : rx.length < 2) :
    ∃ u, (exchange c d).eval go t = some (.error .xfer, u) ∧
      Mid ag s k u
        (ev ++ (stepEvents (commandWire s.params s.fr.crcEn c) x ++ failedStep (filler rx.length) rx 0x00)) r := by
  obtain ⟨s2, e2, m2, _⟩ := mid_command hgo c false h hx
  have hf : filler 2 = filler rx.length ++ 0x00 :: filler (1 - rx.length) := by
    rw [show (0x00 : Byte) :: filler (1 - rx.length) = filler (1 + (1 - rx.length)) by rw [filler_add]; rfl, ← filler_add]
    congr 1
    omega
  obtain ⟨v, hv1, hv2⟩ := busStep_stopped (filler rx.length) rx 0x00 (filler (1 - rx.length)) r s2 (by simp) m2.miso
  rw [← hf] at hv1
  have hp : perform (.rspRd d.afterRsp) ag s2 = (some (.err (some .xfer)), v) := by simp only [perform, doRspRd, hv1]
  refine ⟨endAction v, ?_, ?_⟩
  · rw [exchange, e2]
    simp only [Val.toErr]
    rw [eval_at_once hgo hp (m2.yields_moved hv2)]
    rfl
  · rw [← List.append_assoc]
    exact Mid.moved (w := v) m2 hv2 rfl rfl rfl rfl rfl rfl rfl rfl rfl rfl rfl

/-- The data phase of an exchange moves this data frame. -/
def DataPhase.Moves (m : List Host.Cell) : DataPhase → DataFrame → Prop
  | .absent, f => f = .absent
  | .read n _, f => f = .read n
  | .write src, f => f = .write (padBlock (src.load m)) ∧ wireLen src.len = (padBlock (src.load m)).length

/-- A failed attempt is one of an error that is retried (R172, R173). -/
theorem FailedAttempt.retried {p : Params} {crcEn : Bool} {limit : Nat} {c : Cmd} {f : DataFrame} {e : Err}
    {ev : List BusEvent} (h : FailedAttempt p crcEn limit c f e ev) : e.retried = true := by
  cases h <;> rfl

/-- A corrupt attempt is one of an error that is not (R173). -/
theorem CorruptAttempt.notRetried {p : Params} {crcEn : Bool} {limit : Nat} {c : Cmd} {f : DataFrame} {e : Err}
    {ev : List BusEvent} (h : CorruptAttempt p crcEn limit c f e ev) : e.retried = false := by
  cases h <;> rfl

theorem checkRsp_status (c : Cmd) {hi st : BitVec 4} (h : st ≠ 0) :
    checkRsp c.opcode #v[c.opcode, hi ++ st] = some (.dev st) := by
  have h0 : (hi ++ st).extractLsb' 0 4 = st := by
    revert hi st
    decide
  have h1 : ¬st = 0#4 := h
  simp [checkRsp, h0, h1]

theorem checkRsp_echo {c : Cmd} {e st : Byte} (h : e ≠ c.opcode) :
    checkRsp c.opcode #v[e, st] = some (.echoMismatch c.opcode e) := by
  simp [checkRsp, h]

/-- What an attempt does that fails with an error that is retried (R171, R172). -/
theorem exchange_fails (hgo : Agrees go ag) {s t : State} {k : Nat} {ev0 ev : List BusEvent} {r : List (Option Byte)}
    {c : Cmd} {d : DataPhase} {f : DataFrame} {e : Err} (hL : 0 < s.fr.pktLimit) (hw : d.Moves s.mem f)
    (hf : FailedAttempt s.params s.fr.crcEn s.fr.pktLimit c f e ev)
    (h : Mid ag s k t ev0 (answersOf ev ++ r)) :
    ∃ u, (exchange c d).eval go t = some (.error e, u) ∧ Mid ag s k u (ev0 ++ ev) r := by
  cases hf with
  | command tx rx tail b hc hr =>
    rw [answersOf_failedStep b hr, List.append_assoc] at h
    obtain ⟨u, e, m⟩ := mid_command_fails hgo c false h hc hr
    exact ⟨u, by rw [exchange, e]; rfl, m⟩
  | response x rx hx hr =>
    rw [answersOf_append, answersOf_stepEvents hx, answersOf_failedStep _ (by simp), List.append_assoc,
      List.append_assoc] at h
    exact exchange_noResponse hgo c d h hx hr
  | status x hi st hx hs =>
    rw [answersOf_append, answersOf_stepEvents hx, answersOf_stepEvents (by simp), ← List.map_append] at h
    exact exchange_badResponse hgo c d h hx (checkRsp_status c hs)
  | chunkRead n m x noise b rx tail y c0 c1 hi seq ev hf hx hs hd hn ht hc =>
    subst hf
    cases d with
    | absent => exact nomatch hw
    | write src => exact nomatch hw.1
    | read n' into =>
      obtain rfl : n = n' := DataFrame.read.inj hw
      refine exchange_readFails hgo c x ev _ hi into hL h hx hs fun v hv1 hv2 hv3 hv4 => ?_
      rw [answersOf_failedStep _ (by simp), List.append_assoc] at hv4
      exact readChunk_stopped (by rw [chunkSize, hv3, hv2]; exact hd) hn ht (by rw [hv1]; exact hc) hv4
  | chunkWritten jx x b left tx rx tail y hi ev hf hx hs hc hr =>
    subst hf
    cases d with
    | absent => exact nomatch hw
    | read n into => exact nomatch hw
    | write src =>
      obtain rfl := DataFrame.write.inj hw.1
      exact exchange_writeFails hgo c src hi hL h rfl hw.2 hx hs hc hr
  | trailerCut b x rx hi ev hf hx hw' hr =>
    subst hf
    cases d with
    | absent => exact nomatch hw
    | read n into => exact nomatch hw
    | write src =>
      obtain rfl := DataFrame.write.inj hw.1
      exact exchange_trailerCut hgo c src _ x rx ev hi hL h rfl hw.2 hx hw' hr
  | trailer b x drsp hi ev hf hx hw' hl hk =>
    subst hf
    cases d with
    | absent => exact nomatch hw
    | read n into => exact nomatch hw
    | write src =>
      obtain rfl := DataFrame.write.inj hw.1
      have := exchange_written hgo c src _ x drsp ev hi hL h rfl hw.2 hx hw' hl
      rwa [hk] at this

/-- What an attempt does that fails with an error that is not retried (R147, R148, R171). -/
theorem exchange_corrupt (hgo : Agrees go ag) {s t : State} {k : Nat} {ev0 ev : List BusEvent} {r : List (Option Byte)}
    {c : Cmd} {d : DataPhase} {f : DataFrame} {e : Err} (hL : 0 < s.fr.pktLimit) (hw : d.Moves s.mem f)
    (hf : CorruptAttempt s.params s.fr.crcEn s.fr.pktLimit c f e ev)
    (h : Mid ag s k t ev0 (answersOf ev ++ r)) :
    ∃ u, (exchange c d).eval go t = some (.error e, u) ∧ Mid ag s k u (ev0 ++ ev) r := by
  cases hf with
  | echo x e st hx he =>
    rw [answersOf_append, answersOf_stepEvents hx, answersOf_stepEvents (by simp), ← List.map_append] at h
    exact exchange_badResponse hgo c d h hx (checkRsp_echo he)
  | noTag n m x bytes hi ev hf hx hs hb ht =>
    subst hf
    cases d with
    | absent => exact nomatch hw
    | write src => exact nomatch hw.1
    | read n' into =>
      obtain rfl : n = n' := DataFrame.read.inj hw
      refine exchange_readFails hgo c x ev _ hi into hL h hx hs fun v _ _ _ hv4 => ?_
      rw [answersOf_stepEvents (by simp [hb])] at hv4
      exact readChunk_noTag hb ht hv4

/-- The last retried error set. -/
def withLastErr (e : Err) (s : State) : State := s.mapTr fun r => { r with lastErr := some e }

/-- The attempt counter moved on. -/
theorem Mid.failed {s t : State} {k : Nat} {ev : List BusEvent} {r : List (Option Byte)} (h : Mid ag s k t ev r)
    (e : Err) (seq : TSeq) :
    Mid ag (withLastErr e s) k (endAction (t.mapTr fun r => { r with lastErr := some e, seq := seq })) ev r :=
  { att := h.att, crcEn := h.crcEn, limit := h.limit, lock := h.lock, lastErr := rfl, hif := h.hif, irq := h.irq
    sock := h.sock, root := h.root, mem := h.mem, params := h.params
    yields := by show t.env.yields.tail = []; rw [h.yields]; rfl
    bus := h.bus, miso := h.miso
    env := by
      have hs : s.env.yields = [] := by have := h.yields; rw [h.env] at this; exact this
      rw [endAction_env]
      show { t.env with yields := t.env.yields.tail, fired := false } = _
      rw [h.env]
      simp [withLastErr, hs] }

/-- The frame of the recovery reset, sent whole or cut short (R172, R182). -/
theorem mid_recoverReset (hgo : Agrees go ag) {s t : State} {k : Nat} {ev ev' : List BusEvent} {r : List (Option Byte)}
    (h : Mid ag s k t ev (answersOf ev' ++ r)) (hr : Recovery s.params s.fr.crcEn ev') :
    ∃ u, (∀ {α : Type} (p : Prog α),
        (Prog.andThen .recoverReset (.andThen .settle p)).eval go t = p.eval go u) ∧ Mid ag s (k + 1) u (ev ++ ev') r := by
  let t2 := buildFrame .reset t
  have hfb : frameBytes t2.fr = commandWire s.params s.fr.crcEn .reset := by
    rw [frameBytes_buildFrame, h.crcEn, h.params]
  have m2 : Mid ag s k t2 ev (answersOf ev' ++ r) :=
    { att := h.att, crcEn := h.crcEn, limit := h.limit, lock := h.lock, lastErr := h.lastErr, hif := h.hif
      irq := h.irq, sock := h.sock, root := h.root, mem := h.mem, params := h.params, yields := h.yields
      bus := h.bus, miso := h.miso, env := by
        show { t.env with free := t2.env.free } = _
        rw [h.env]
        rfl }
  obtain ⟨ev1, rfl, o, v, hv1, hv2⟩ : ∃ ev1, ev' = ev1 ++ [.delay .settle] ∧
      ∃ o v, busStep (frameBytes t2.fr) t2 = (o, v) ∧ Moved t2 v ev1 r := by
    rw [hfb]
    cases hr with
    | sent y hy =>
      refine ⟨_, rfl, some y, busStep_moved _ y r t2 hy ?_⟩
      rw [m2.miso, answersOf_append, answersOf_stepEvents hy]
      simp
    | failed tx rx tail b hc hl =>
      refine ⟨_, rfl, none, ?_⟩
      rw [hc]
      refine busStep_stopped tx rx b tail r t2 hl ?_
      rw [m2.miso, answersOf_append, answersOf_failedStep b hl]
      simp
  let v' := v.mapTr fun r => { r with seq := .recoverSettle }
  have h2 : perform .recoverReset ag t = (some .unit, v') := by
    simp only [perform, doRecoverReset]
    rw [show busStep (frameBytes (buildFrame .reset t).fr) (buildFrame .reset t) = (o, v) from hv1]
  have m3 : Mid ag s k (endAction v') (ev ++ ev1) r :=
    Mid.moved (w := v') m2 hv2 rfl rfl rfl rfl rfl rfl rfl rfl rfl rfl rfl
  let z := (passDelay .settle (endAction v')).mapTr fun r => { r with att := r.att + 1, seq := .build }
  have h3 : perform .settle ag (endAction v') = (some .unit, z) := rfl
  refine ⟨endAction z, ?_, ?_⟩
  · intro α p
    have hvy : v.env.yields = [] := m2.yields_moved hv2
    rw [Prog.andThen, eval_at_once hgo h2 hvy, Prog.andThen, eval_at_once hgo h3 m3.yields]
  · have m4 : Mid ag s k (endAction (passDelay .settle (endAction v'))) ((ev ++ ev1) ++ [.delay .settle]) r :=
      Mid.moved (u := passDelay .settle (endAction v')) (w := passDelay .settle (endAction v')) m3
        ⟨passDelay_busOnly .settle _, m3.miso, rfl⟩ rfl rfl rfl rfl rfl rfl rfl rfl rfl rfl rfl
    rw [← List.append_assoc]
    exact
      { att := by show (endAction v').tr.att + 1 = _; rw [m3.att]
        crcEn := m4.crcEn, limit := m4.limit, lock := m4.lock, lastErr := m4.lastErr, hif := m4.hif, irq := m4.irq
        sock := m4.sock, root := m4.root, mem := m4.mem, params := m4.params, yields := m4.yields, bus := m4.bus
        miso := m4.miso, env := m4.env }

@[simp] theorem noted_nil (s : State) : noted [] s = s := rfl

theorem noted_cons (e : Err) (es : List Err) (s : State) : noted es (withLastErr e s) = noted (e :: es) s := by
  cases es with
  | nil => rfl
  | cons x xs => simp [noted, withLastErr, State.mapTr, List.getLast?_eq_some_getLast]

theorem noted_append (es es' : List Err) (s : State) : noted es' (noted es s) = noted (es ++ es') s := by
  simp [noted, State.mapTr, List.getLast?_append, Option.or_assoc]

theorem noted_concat (es : List Err) (e : Err) (s : State) : noted (es ++ [e]) s = withLastErr e s := by
  simp [noted, withLastErr]

/-- Attempts that fail one after another, below the tenth, and the attempt after them (R172, R173). -/
theorem attempts_failed (hgo : Agrees go ag) {c : Cmd} {d : DataPhase} {f : DataFrame} {p : Params}
    {crcEn : Bool} {limit : Nat} {errs : List Err} {ev : List BusEvent} (hL : 0 < limit)
    (hf : FailedAttempts p crcEn limit c f errs ev) :
    ∀ (n k : Nat) (s t : State) (ev0 : List BusEvent) (r : List (Option Byte)), s.params = p → s.fr.crcEn = crcEn →
      s.fr.pktLimit = limit → d.Moves s.mem f → Mid ag s k t ev0 (answersOf ev ++ r) →
      k + errs.length ≤ maxAttempts →
      ∃ u, (attempts c d (errs.length + n)).eval go t = (attempts c d n).eval go u ∧
        Mid ag (noted errs s) (k + errs.length) u (ev0 ++ ev) r := by
  induction hf with
  | nil =>
    intro n k s t ev0 r _ _ _ _ h _
    exact ⟨t, by simp, by simpa using h⟩
  | cons e es ev ev' ev'' h1 hr hs ih =>
    intro n k s t ev0 r hp hc hl hw h hk
    subst hp hc hl
    simp only [answersOf_append, List.append_assoc] at h
    rw [List.length_cons] at hk
    obtain ⟨s2, e2, m2⟩ := exchange_fails hgo hL hw h1 h
    have hd : perform (.failed e) ag s2 =
        (some (.flag true), s2.mapTr fun t => { t with lastErr := some e, seq := .recoverReset }) := by
      show doFailed e s2 = _
      rw [doFailed, if_pos h1.retried, if_pos (by rw [m2.att]; omega)]
    obtain ⟨s3, e3, m3⟩ := mid_recoverReset hgo (m2.failed e .recoverReset) hr
    obtain ⟨u, eu, mu⟩ := ih n (k + 1) (withLastErr e s) s3 _ r rfl rfl rfl hw m3 (by omega)
    refine ⟨u, ?_, ?_⟩
    · rw [List.length_cons, Nat.add_right_comm, attempts, Prog.eval_bind_of e2]
      simp only
      rw [eval_at_once hgo hd m2.yields]
      simp only [Val.toFlag]
      rw [if_pos trivial, e3]
      exact eu
    · rw [List.length_cons, ← noted_cons, ← Nat.add_assoc, Nat.add_right_comm]
      simpa [List.append_assoc] using mu

/-- Attempts that fail, nine at most, and the last attempt's exchange, whatever it answers (R172). -/
theorem attempts_last (hgo : Agrees go ag) {s : State} (hs : BusReady s) {c : Cmd} {d : DataPhase} {f : DataFrame}
    {errs : List Err} {ev : List BusEvent} {r : List (Option Byte)} (hw : d.Moves s.mem f)
    (hf : FailedAttempts s.params s.fr.crcEn s.fr.pktLimit c f errs ev) (hn : errs.length ≤ 9)
    (hm : s.env.miso = answersOf ev ++ r) :
    ∃ t, (runExchange c d).eval go s = (attempts c d (9 - errs.length + 1)).eval go t ∧
      Mid ag (noted errs s) (errs.length + 1) t ev r := by
  obtain ⟨s1, e1, m1⟩ := mid_acquire hgo hs
  rw [hm] at m1
  obtain ⟨s2, e2, m2⟩ := attempts_failed (d := d) hgo (legal_pos hs.limit) hf (9 - errs.length + 1) 1 s s1 [] _
    rfl rfl rfl hw m1 (by rw [maxAttempts]; omega)
  refine ⟨s2, ?_, by rw [Nat.add_comm]; simpa using m2⟩
  rw [runExchange, Prog.andThen, e1, show maxAttempts = errs.length + (9 - errs.length + 1) by rw [maxAttempts]; omega, e2]

/-- An operation that succeeds behind attempts that fail, nine at most (R172, R173). -/
theorem runExchange_retried (hgo : Agrees go ag) {s : State} (hs : BusReady s) {c : Cmd} {d : DataPhase}
    {f : DataFrame} {errs : List Err} {b : Bytes} {ev1 ev2 : List BusEvent} {r : List (Option Byte)}
    (hw : d.Moves s.mem f) (hf : FailedAttempts s.params s.fr.crcEn s.fr.pktLimit c f errs ev1)
    (hn : errs.length ≤ 9) (hm : s.env.miso = answersOf (ev1 ++ ev2) ++ r)
    (h : ∀ (t : State) (k : Nat) (ev : List BusEvent), Mid ag (noted errs s) k t ev (answersOf ev2 ++ r) →
      ∃ u, (exchange c d).eval go t = some (.ok b, u) ∧ Mid ag (noted errs s) k u (ev ++ ev2) r) :
    ∃ u, (runExchange c d).eval go s = some (.ok b, u) ∧ BusDone (noted errs s) u (ev1 ++ ev2) r ∧
      u.env.yields = [] ∧ u.tr.att = errs.length + 1 := by
  rw [answersOf_append, List.append_assoc] at hm
  obtain ⟨s2, e2, m2⟩ := attempts_last hgo hs hw hf hn hm
  obtain ⟨s3, e3, m3⟩ := h s2 _ _ m2
  obtain ⟨w, ew, dn, yw, ha⟩ := attempts_ok hgo _ e3 m3
  exact ⟨w, by rw [e2, ew], dn, yw, ha⟩

/-- An operation whose tenth attempt fails, as the nine before it (R172, R173). -/
theorem runExchange_exhausted (hgo : Agrees go ag) {s : State} (hs : BusReady s) {c : Cmd} {d : DataPhase}
    {f : DataFrame} {errs : List Err} {e : Err} {ev1 ev2 : List BusEvent} {r : List (Option Byte)}
    (hw : d.Moves s.mem f) (hf : FailedAttempts s.params s.fr.crcEn s.fr.pktLimit c f errs ev1)
    (hn : errs.length = 9) (h1 : FailedAttempt s.params s.fr.crcEn s.fr.pktLimit c f e ev2)
    (hm : s.env.miso = answersOf (ev1 ++ ev2) ++ r) :
    ∃ u, (runExchange c d).eval go s = some (.error e, u) ∧ BusDone (noted (errs ++ [e]) s) u (ev1 ++ ev2) r ∧
      u.env.yields = [] ∧ u.tr.att = 10 := by
  rw [answersOf_append, List.append_assoc] at hm
  obtain ⟨s2, e2, m2⟩ := attempts_last hgo hs hw hf (by omega) hm
  obtain ⟨s3, e3, m3⟩ := exchange_fails (s := noted errs s) hgo (legal_pos hs.limit) hw h1 m2
  have hd : perform (.failed e) ag s3 =
      (some (.flag false), s3.mapTr fun t => { t with lastErr := some e, seq := .doneErr }) := by
    show doFailed e s3 = _
    rw [doFailed, if_pos h1.retried, if_neg (by rw [m3.att, hn]; decide)]
  obtain ⟨w, ew, dn, yw, _, ha⟩ := mid_release hgo (m3.failed e .doneErr)
  refine ⟨w, ?_, ?_, yw, by rw [ha, hn]⟩
  · rw [e2, attempts, Prog.eval_bind_of e3]
    simp only
    rw [eval_at_once hgo hd m3.yields]
    exact ew _
  · rw [noted_concat]
    exact dn

/-- An operation one of whose attempts fails with an error that is not retried (R172, R173). -/
theorem runExchange_corrupt (hgo : Agrees go ag) {s : State} (hs : BusReady s) {c : Cmd} {d : DataPhase}
    {f : DataFrame} {errs : List Err} {e : Err} {ev1 ev2 : List BusEvent} {r : List (Option Byte)}
    (hw : d.Moves s.mem f) (hf : FailedAttempts s.params s.fr.crcEn s.fr.pktLimit c f errs ev1)
    (hn : errs.length ≤ 9) (h1 : CorruptAttempt s.params s.fr.crcEn s.fr.pktLimit c f e ev2)
    (hm : s.env.miso = answersOf (ev1 ++ ev2) ++ r) :
    ∃ u, (runExchange c d).eval go s = some (.error e, u) ∧ BusDone (noted errs s) u (ev1 ++ ev2) r ∧
      u.env.yields = [] ∧ u.tr.att = errs.length + 1 := by
  rw [answersOf_append, List.append_assoc] at hm
  obtain ⟨s2, e2, m2⟩ := attempts_last hgo hs hw hf hn hm
  obtain ⟨s3, e3, m3⟩ := exchange_corrupt (s := noted errs s) hgo (legal_pos hs.limit) hw h1 m2
  let w := s3.mapTr fun r => { r with seq := .doneErr }
  have hp : perform (.failed e) ag s3 = (some (.flag false), w) := by
    simp only [perform, doFailed, h1.notRetried]
    rfl
  have m4 := Mid.moved (u := s3) (w := w) (ev' := []) m3 (by have := Moved.refl s3; rwa [m3.miso] at this)
    rfl rfl rfl rfl rfl rfl rfl rfl rfl rfl rfl
  obtain ⟨v, ev, dn, yv, _, ha⟩ := mid_release hgo m4
  refine ⟨v, ?_, by simpa using dn, yv, ha⟩
  rw [e2, attempts, Prog.eval_bind_of e3]
  simp only
  rw [eval_at_once hgo hp m3.yields]
  simp only [Val.toFlag]
  exact ev _

/-- An operation that ends in an error: what its exchanges come to, whatever holds the data frame (R172, R173). -/
theorem Fails.exchange (hgo : Agrees go ag) {s : State} (hs : BusReady s) {x : Access} {e : Err} {errs : List Err}
    {ev : List BusEvent} {r : List (Option Byte)} (h : Fails s.params s.fr.crcEn s.fr.pktLimit x e errs ev)
    (hm : s.env.miso = answersOf ev ++ r) :
    ∃ c f, Carries x c f ∧ ∀ d : DataPhase, d.Moves s.mem f →
      ∃ u, (runExchange c d).eval go s = some (.error e, u) ∧ BusDone (noted errs s) u ev r := by
  cases h with
  | exhausted c f _ errs ev ev' hc hf hn h1 =>
    refine ⟨c, f, hc, fun d hd => ?_⟩
    obtain ⟨u, eu, du, _⟩ := runExchange_exhausted hgo hs hd hf hn h1 hm
    exact ⟨u, eu, du⟩
  | corrupt c f _ _ ev ev' hc hf hn h1 =>
    refine ⟨c, f, hc, fun d hd => ?_⟩
    obtain ⟨u, eu, du, _⟩ := runExchange_corrupt hgo hs hd hf hn h1 hm
    exact ⟨u, eu, du⟩

theorem noted_ready {s u : State} {errs : List Err} {ev : List BusEvent} {r : List (Option Byte)} (hs : BusReady s)
    (h : BusDone (noted errs s) u ev r) : BusReady u :=
  BusDone.ready (s := noted errs s) ⟨hs.lock, hs.idle, hs.limit, hs.yields⟩ h

/-- What `T_LAST_ERR` holds does not matter to operations on the bus. -/
theorem Respects.noted (errs : List Err) : Respects (noted errs) := fun _ _ _ _ h =>
  { h with lastErr := by simp [Machine.noted, h.lastErr] }

theorem BusDone.noted_trans {s t u : State} {es es' : List Err} {ev ev' : List BusEvent} {r r' : List (Option Byte)}
    (h : BusDone (noted es s) t ev r) (h' : BusDone (noted es' t) u ev' r') :
    BusDone (noted (es ++ es') s) u (ev ++ ev') r' := by
  rw [← noted_append]
  exact (Respects.noted es' _ _ _ _ h).trans h'

/-- The data of a piece that is written. -/
theorem moves_write {m : List Host.Cell} {src : Source} {b d : Bytes} (h0 : 0 < b.length) (hsrc : src.load m = b)
    (hd : d = if b.length = 1 then b ++ [0x00] else b) : (DataPhase.write src).Moves m (.write d) := by
  obtain ⟨h1, h2⟩ := padBlock_eq h0 hsrc hd
  exact ⟨by rw [h1], by rw [h1, h2]⟩

theorem readReg_fails (hgo : Agrees go ag) {s : State} (hs : BusReady s) {a : Addr} {v : Word} {e : Err}
    {errs : List Err} {ev : List BusEvent} {r : List (Option Byte)}
    (h : Fails s.params s.fr.crcEn s.fr.pktLimit (.read a v) e errs ev) (hm : s.env.miso = answersOf ev ++ r) :
    ∃ u, (readReg a).eval go s = some (.error e, u) ∧ BusDone (noted errs s) u ev r := by
  obtain ⟨c, f, hc, hx⟩ := h.exchange hgo hs hm
  cases hc
  obtain ⟨u, eu, du⟩ := hx (.read 4 (.operand 4)) rfl
  exact ⟨u, Prog.eval_tryBind_error eu, du⟩

theorem writeReg_fails (hgo : Agrees go ag) {s : State} (hs : BusReady s) {a : Addr} {v : Word} {e : Err}
    {errs : List Err} {ev : List BusEvent} {r : List (Option Byte)}
    (h : Fails s.params s.fr.crcEn s.fr.pktLimit (.write a v) e errs ev) (hm : s.env.miso = answersOf ev ++ r) :
    ∃ u, (writeReg a v).eval go s = some (.error e, u) ∧ BusDone (noted errs s) u ev r := by
  obtain ⟨c, f, hc, hx⟩ := h.exchange hgo hs hm
  cases hc
  obtain ⟨u, eu, du⟩ := hx .absent rfl
  exact ⟨u, Prog.eval_tryBind_error eu, du⟩

theorem readBlockAt_fails (hgo : Agrees go ag) {s : State} (hs : BusReady s) {a : Addr} {b : Bytes} {e : Err}
    {errs : List Err} {ev : List BusEvent} {r : List (Option Byte)} (into : DataRef)
    (h : Fails s.params s.fr.crcEn s.fr.pktLimit (.readBlock a b) e errs ev) (hm : s.env.miso = answersOf ev ++ r) :
    ∃ u, (readBlockAt a b.length into).eval go s = some (.error e, u) ∧ BusDone (noted errs s) u ev r := by
  obtain ⟨c, f, hc, hx⟩ := h.exchange hgo hs hm
  cases hc
  obtain ⟨u, eu, du⟩ := hx (.read (wireLen b.length) into) rfl
  exact ⟨u, Prog.eval_tryBind_error eu, du⟩

theorem writePiece_fails (hgo : Agrees go ag) {s : State} (hs : BusReady s) {a : Nat} (ha : a < 2 ^ 24) {b : Bytes}
    {e : Err} {errs : List Err} {ev : List BusEvent} {r : List (Option Byte)} {src : Source} (hb : src.load s.mem = b)
    (h : Fails s.params s.fr.crcEn s.fr.pktLimit (.writeBlock (BitVec.ofNat 24 a) b) e errs ev)
    (hm : s.env.miso = answersOf ev ++ r) :
    ∃ u, (writePiece a src).eval go s = some (.error e, u) ∧ BusDone (noted errs s) u ev r := by
  obtain ⟨c, f, hc, hx⟩ := h.exchange hgo hs hm
  cases hc with
  | writeBlock _ _ d h0 hl hd =>
    obtain ⟨u, eu, du⟩ := hx (.write src) (moves_write h0 hb hd)
    refine ⟨u, ?_, du⟩
    rw [writePiece, if_pos ha, (padBlock_eq h0 hb hd).2, Prog.eval_tryBind_error eu]

/-- One piece of a block written, behind attempts that fail (R172, R179). -/
theorem writePiece_succeeds (hgo : Agrees go ag) {s : State} (hs : BusReady s) {a : Nat} (ha : a < 2 ^ 24) {b : Bytes}
    {errs : List Err} {ev : List BusEvent} {r : List (Option Byte)} {src : Source} (hb : src.load s.mem = b)
    (h : Succeeds s.params s.fr.crcEn s.fr.pktLimit (.writeBlock (BitVec.ofNat 24 a) b) errs ev)
    (hm : s.env.miso = answersOf ev ++ r) :
    ∃ u, (writePiece a src).eval go s = some (.ok (), u) ∧ BusDone (noted errs s) u ev r ∧
      u.tr.att = errs.length + 1 := by
  obtain ⟨_, c, f, ev1, ev2, hc, hf, hn, hw⟩ := h
  cases hc with
  | writeBlock _ _ d h0 hl hd =>
    obtain ⟨hpad, hlen⟩ := padBlock_eq h0 hb hd
    cases hw with
    | writeBlock _ _ d' x drsp hi ev2 _ _ hd' hx hfr hl' hk =>
      obtain rfl : d = d' := hd.trans hd'.symm
      obtain ⟨u, eu, du, _, ha'⟩ := runExchange_retried (b := []) hgo hs (moves_write h0 hb hd) hf hn hm
        fun t k ev0 m => by
          have := exchange_written (s := noted errs s) hgo _ src d x drsp ev2 hi (legal_pos hs.limit) m hpad hlen hx hfr
            hl'
          have hk' : (noted errs s).params.drspOk.app drsp = true := hk
          rwa [hk'] at this
      refine ⟨u, ?_, du, ha'⟩
      rw [writePiece, if_pos ha, hlen, Prog.eval_tryBind_ok eu, Prog.eval_ret]

/-- Pieces of a block that succeed, then what comes of the rest of it, which a last or a failing piece decides (R180). -/
theorem writePieces_prefix (hgo : Agrees go ag) {p : Params} {crcEn : Bool} {limit : Nat} :
    ∀ (before after : List Access) (y : Access) (a : Nat) (b : Bytes) (errs : List Err) (ev : List BusEvent) (n : Nat)
      (src : Source) (s : State) (r : List (Option Byte)), Pieces a b (before ++ y :: after) →
      AllSucceed p crcEn limit before errs ev → b.length ≤ n → src.load s.mem = b → BusReady s → s.params = p →
      s.fr.crcEn = crcEn → s.fr.pktLimit = limit → s.env.miso = answersOf ev ++ r →
      ∃ u a' b' n' src', (writePieces n a src).eval go s = (writePieces n' a' src').eval go u ∧
        Pieces a' b' (y :: after) ∧ b'.length ≤ n' ∧ src'.load u.mem = b' ∧ BusDone (noted errs s) u ev r
  | [], after, y, a, b, errs, ev, n, src, s, r, hp, hs, hn, hl, hb, h1, h2, h3, hm => by
    cases hs
    have := BusDone.refl hb
    rw [hm] at this
    exact ⟨s, a, b, n, src, rfl, hp, hn, hl, by simpa using this⟩
  | x :: before, after, y, a, b, errs, ev, n, src, s, r, hp, hs, hn, hl, hb, h1, h2, h3, hm => by
    subst h1 h2 h3
    cases hs with
    | cons _ _ es es' ev1 ev2 hx hs =>
      rw [answersOf_append, List.append_assoc] at hm
      generalize hL : (x :: before) ++ y :: after = L at hp
      cases hp with
      | last => exact absurd (congrArg List.length hL) (by simp)
      | more _ d rest xs hd hr ha hp =>
        obtain ⟨rfl, rfl⟩ := List.cons.inj hL
        have hlen : src.len = d.length + rest.length := by rw [← Source.load_length src s.mem, hl, List.length_append]
        have hdl : 0 < d.length := by rw [hd, busMtu]; omega
        obtain ⟨n, rfl⟩ : ∃ m, n = m + 1 := ⟨n - 1, by simp at hn; omega⟩
        obtain ⟨u, eu, du, _⟩ := writePiece_succeeds hgo hb ha (src := src.take busMtu)
          (by rw [Source.load_take, hl, ← hd, List.take_left]) hx hm
        have hub := noted_ready hb du
        obtain ⟨w, a', b', n', src', ew, hp', hn', hl', dw⟩ := writePieces_prefix hgo before after y (a + busMtu) rest es' ev2 n
          (src.drop busMtu) u r hp (by rw [du.params, du.crcEn, du.limit]; exact hs) (by simp at hn; omega)
          (by rw [Source.load_drop, du.mem]; show List.drop busMtu (src.load s.mem) = _; rw [hl, ← hd, List.drop_left]) hub
          rfl rfl rfl du.miso
        refine ⟨w, a', b', n', src', ?_, hp', hn', hl', du.noted_trans dw⟩
        rw [writePieces, if_neg (by omega), Prog.eval_tryBind_ok eu, ew]

/-- A block whose piece behind those that succeed fails: the pieces after it are not sent (R180). -/
theorem writePieces_fails (hgo : Agrees go ag) {s : State} (hs : BusReady s) {before after : List Access} {x : Access}
    {a n : Nat} {b : Bytes} {src : Source} {e : Err} {errs errs' : List Err} {ev ev' : List BusEvent}
    {r : List (Option Byte)} (hp : Pieces a b (before ++ x :: after))
    (hb : AllSucceed s.params s.fr.crcEn s.fr.pktLimit before errs ev) (hn : b.length ≤ n) (hl : src.load s.mem = b)
    (hx : Fails s.params s.fr.crcEn s.fr.pktLimit x e errs' ev') (hm : s.env.miso = answersOf (ev ++ ev') ++ r) :
    ∃ u, (writePieces n a src).eval go s = some (.error e, u) ∧ BusDone (noted (errs ++ errs') s) u (ev ++ ev') r := by
  rw [answersOf_append, List.append_assoc] at hm
  obtain ⟨u, a', b', n', src', eu, hp', hn', hl', du⟩ := writePieces_prefix hgo before after x a b errs ev n src s _ hp hb hn
    hl hs rfl rfl rfl hm
  have hx' : Fails u.params u.fr.crcEn u.fr.pktLimit x e errs' ev' := by
    rw [du.params, du.crcEn, du.limit]; exact hx
  have first : ∀ (d : Bytes) (ha : a' < 2 ^ 24), x = .writeBlock (BitVec.ofNat 24 a') d → 0 < d.length →
      (src'.take busMtu).load u.mem = d → src'.len ≠ 0 →
      ∃ w, (writePieces n' a' src').eval go u = some (.error e, w) ∧ BusDone (noted errs' u) w ev' r := by
    intro d ha hxd h0 hd hne
    subst hxd
    obtain ⟨w, ew, dw⟩ := writePiece_fails hgo (noted_ready hs du) ha hd hx' du.miso
    obtain ⟨m, rfl⟩ : ∃ m, n' = m + 1 := ⟨n' - 1, by rw [← Source.load_length src' u.mem, hl'] at hne; omega⟩
    exact ⟨w, by rw [writePieces, if_neg hne, Prog.eval_tryBind_error ew], dw⟩
  have hlen := Source.load_length src' u.mem
  obtain ⟨w, ew, dw⟩ : ∃ w, (writePieces n' a' src').eval go u = some (.error e, w) ∧ BusDone (noted errs' u) w ev' r := by
    generalize hL : x :: after = L at hp'
    cases hp' with
    | last _ _ h0 hb' ha =>
      exact first b' ha (List.cons.inj hL).1 h0 (by rw [Source.load_take, hl', List.take_of_length_le hb'])
        (by rw [← hlen, hl']; omega)
    | more _ d rest xs hd hr ha hp =>
      exact first d ha (List.cons.inj hL).1 (by rw [hd, busMtu]; omega)
        (by rw [Source.load_take, hl', ← hd, List.take_left]) (by rw [← hlen, hl', List.length_append]; omega)
  exact ⟨w, by rw [eu, ew], du.noted_trans dw⟩

/-! ### What a failed read leaves in the lent span (R178, U7; log 6) -/

@[simp] theorem freeBytes_length : ∀ k n : Nat, (freeBytes k n).length = n
  | _, 0 => rfl
  | k, n + 1 => by simp [freeBytes, freeBytes_length (k + 1) n]

/-- Only the span's own bytes are free. -/
theorem scrambleSpan_spared {s : State} (h : Memory.wf s.mem = true) (sp : Span) :
    Spared s.mem (scrambleSpan sp s).mem sp where
  wf := Memory.wf_memWriteBytes _ _ _ h
  outside := fun x hx => memRead_memWriteBytes_of_out _ _ _ x h (by simpa using hx)

end Sys2Proof.Machine
end

