-- ==== Sys2Proof/Laws/Failing.lean ====
section
/-!
SUPPORT. Programs that drive the bus, against a device that fails one of their operations: the program ends there in the
operation's error. One lemma per way of building a program, then one per operation of the session (spec/42_hif.md R206 to
R208; spec/41_transport.md R172, R173).
-/

namespace Sys2Proof.Machine

variable {go : Action → State → Option Val × State} {ag : Agent}

/-- From `s`, behind the accesses `before` operation `x` fails, and the program ends in its error, having changed what `g`
changes, besides the bus. -/
def Stops (go : Action → State → Option Val × State) {α : Type} (p : Prog (Except Err α)) (before : List Access)
    (x : Access) (g : State → State) (s : State) : Prop :=
  BusReady s → ∀ (ev ev' : List BusEvent) (e : Err) (errs : List Err) (rest : List (Option Byte)),
    AllOnWire s.params s.fr.crcEn s.fr.pktLimit before ev → Fails s.params s.fr.crcEn s.fr.pktLimit x e errs ev' →
    s.env.miso = answersOf (ev ++ ev') ++ rest →
    ∃ u, p.eval go s = some (.error e, u) ∧ BusDone (noted errs (g s)) u (ev ++ ev') rest

/-- Whichever of these accesses fails, the program ends there, having changed nothing besides the bus. -/
def Breaks (go : Action → State → Option Val × State) {α : Type} (p : Prog (Except Err α)) (xs : List Access)
    (s : State) : Prop :=
  ∀ (before after : List Access) (x : Access), xs = before ++ x :: after → Stops go p before x (fun s => s) s

/-- An update that leaves what the wire looks like. -/
def KeepsWire (g : State → State) (s : State) : Prop :=
  (g s).params = s.params ∧ (g s).fr.crcEn = s.fr.crcEn ∧ (g s).fr.pktLimit = s.fr.pktLimit

/-! ### Building programs -/

/-- What comes first is served, then an operation fails. -/
theorem Stops.later {α β : Type} {p : Prog (Except Err α)} {f : α → Prog (Except Err β)} {xs before : List Access}
    {x : Access} {a : α} {g h : State → State} {s : State} (hh : Respects h) (hk : KeepsWire g s)
    (hp : Serves go p xs (.ok a) g s) (hf : ∀ u, After (g s) u → Stops go (f a) before x h u) :
    Stops go (p.tryBind f) (xs ++ before) x (fun s => h (g s)) s := by
  intro hs ev ev' e errs rest hw hx hm
  rw [answersOf_append, List.append_assoc] at hm
  obtain ⟨u, ev1, ev2, mid, eu, rfl, du, hu, hw2, hm2⟩ := hp hs before ev (answersOf ev' ++ rest) ⟨hw, hm⟩
  obtain ⟨w, ew, dw⟩ := hf u ⟨_, _, du⟩ hu ev2 ev' e errs rest hw2
    (by rw [du.params, du.crcEn, du.limit, hk.1, hk.2.1, hk.2.2]; exact hx)
    (by rw [answersOf_append, List.append_assoc]; exact hm2)
  refine ⟨w, by rw [Prog.eval_tryBind_ok eu, ew], ?_⟩
  rw [List.append_assoc]
  exact ((hh.comp (Respects.noted errs)) _ _ _ _ du).trans dw

/-- The first of two programs fails. -/
theorem Stops.now {α β : Type} {p : Prog (Except Err α)} {f : α → Prog (Except Err β)} {before : List Access}
    {x : Access} {g : State → State} {s : State} (hp : Stops go p before x g s) :
    Stops go (p.tryBind f) before x g s := by
  intro hs ev ev' e errs rest hw hx hm
  obtain ⟨u, eu, du⟩ := hp hs ev ev' e errs rest hw hx hm
  exact ⟨u, Prog.eval_tryBind_error eu, du⟩

/-- An action that moves no byte and changes what `g` changes, then a program that stops. -/
theorem Stops.update {α : Type} (hgo : Agrees go ag) {a : Action} {k : Val → Prog (Except Err α)} {before : List Access}
    {x : Access} {v : Val} {g h : State → State} {s : State} (hh : Respects h) (hk : KeepsWire g s)
    (hp : perform a ag s = (some v, g s)) (hm : (g s).env.miso = s.env.miso) (hr : BusReady s → BusReady (g s))
    (hf : ∀ u, After (g s) u → Stops go (k v) before x h u) : Stops go (.act a k) before x (fun s => h (g s)) s := by
  have hser : Serves go (Prog.act a fun w => .ret (.ok w : Except Err Val)) [] (.ok v) g s :=
    Serves.update (h := fun s => s) hgo Respects.id hp hk.2.1 hm hr fun u _ => Serves.ret _ u
  have := Stops.later (f := k) hh hk hser hf
  rw [List.nil_append] at this
  exact this

/-- An action that only looks, then a program that breaks. -/
theorem Breaks.look {α : Type} (hgo : Agrees go ag) {a : Action} {k : Val → Prog (Except Err α)} {xs : List Access}
    {v : Val} {s : State} (hp : perform a ag s = (some v, s)) (hf : ∀ u, After s u → Breaks go (k v) xs u) :
    Breaks go (.act a k) xs s := fun before after x hx =>
  Stops.update (g := fun s => s) hgo Respects.id ⟨rfl, rfl, rfl⟩ hp rfl (fun h => h) fun u hu => hf u hu before after x hx

theorem Breaks.nil {α : Type} (p : Prog (Except Err α)) (s : State) : Breaks go p [] s := fun before after x hx =>
  absurd (congrArg List.length hx) (by simp)

/-- One program after the other: an operation of the first fails, or one of the second. -/
theorem Breaks.tryBind {α β : Type} {p : Prog (Except Err α)} {f : α → Prog (Except Err β)} {xs ys : List Access}
    {a : α} {s : State} (hp : Serves go p xs (.ok a) (fun s => s) s) (hb : Breaks go p xs s)
    (hf : ∀ u, After s u → Breaks go (f a) ys u) : Breaks go (p.tryBind f) (xs ++ ys) s := by
  intro before after x hx
  have later : ∀ l, before = xs ++ l → ys = l ++ x :: after → Stops go (p.tryBind f) before x (fun s => s) s := by
    intro l h1 h2
    rw [h1]
    exact Stops.later Respects.id ⟨rfl, rfl, rfl⟩ hp fun u hu => hf u hu l after x h2
  rcases List.append_eq_append_iff.mp hx with ⟨l, h1, h2⟩ | ⟨l, h1, h2⟩
  · exact later l h1 h2
  · cases l with
    | nil => exact later [] (by simpa using h1.symm) (by simpa using h2.symm)
    | cons y l =>
      obtain ⟨rfl, -⟩ := List.cons.inj h2
      exact (hb before l x h1).now

/-- A delay does not fail. -/
theorem Breaks.delay {α : Type} (hgo : Agrees go ag) {d : Delay} {p : Prog (Except Err α)} {xs : List Access}
    {s : State} (hf : ∀ u, After s u → Breaks go p xs u) : Breaks go (.andThen (.delay d) p) (.delay d :: xs) s := by
  intro before after x hx
  cases before with
  | nil =>
    intro _ _ _ _ _ _ _ hx' _
    obtain ⟨rfl, -⟩ := List.cons.inj hx
    cases hx' with
    | exhausted c f _ _ _ _ hc => cases hc
    | corrupt c f _ _ _ _ hc => cases hc
  | cons y before =>
    obtain ⟨rfl, h2⟩ := List.cons.inj hx
    have hser : Serves go (Prog.andThen (.delay d) (.ret (.ok () : Except Err Unit))) [.delay d] (.ok ()) (fun s => s) s :=
      Serves.delay hgo Respects.id fun u _ => Serves.ret _ u
    exact Stops.later (f := fun _ => p) (xs := [.delay d]) Respects.id ⟨rfl, rfl, rfl⟩ hser fun u hu =>
      hf u hu before after x h2

/-! ### The operations of the transport -/

/-- A program of one access. -/
theorem Breaks.one {α : Type} {p : Prog (Except Err α)} {y : Access} {s : State}
    (h : BusReady s → ∀ (ev : List BusEvent) (e : Err) (errs : List Err) (rest : List (Option Byte)),
      Fails s.params s.fr.crcEn s.fr.pktLimit y e errs ev → s.env.miso = answersOf ev ++ rest →
      ∃ u, p.eval go s = some (.error e, u) ∧ BusDone (noted errs s) u ev rest) : Breaks go p [y] s := by
  intro before after x hx
  cases before with
  | nil =>
    obtain ⟨rfl, -⟩ := List.cons.inj hx
    intro hs ev ev' e errs rest hw hf hm
    cases hw
    exact h hs ev' e errs rest hf hm
  | cons z before => exact absurd (congrArg List.length hx) (by simp)

theorem readReg_breaks (hgo : Agrees go ag) (a : Addr) (v : Word) (s : State) : Breaks go (readReg a) [.read a v] s :=
  .one fun hs _ _ _ _ hf hm => readReg_fails hgo hs hf hm

theorem writeReg_breaks (hgo : Agrees go ag) (a : Addr) (v : Word) (s : State) :
    Breaks go (writeReg a v) [.write a v] s := .one fun hs _ _ _ _ hf hm => writeReg_fails hgo hs hf hm

theorem readBlockAt_breaks (hgo : Agrees go ag) (a : Addr) (b : Bytes) (into : DataRef) (s : State) :
    Breaks go (readBlockAt a b.length into) [.readBlock a b] s :=
  .one fun hs _ _ _ _ hf hm => readBlockAt_fails hgo hs into hf hm

/-- A block of at most `BUS_MTU` bytes written (R179). -/
theorem devWrite_breaks (hgo : Agrees go ag) {a : Nat} {b : Bytes} (h0 : 0 < b.length) (hb : b.length ≤ busMtu)
    (ha : a < 2 ^ 24) (s : State) :
    Breaks go (devWrite a (.value b)) [.writeBlock (BitVec.ofNat 24 a) b] s :=
  .one fun hs ev e errs rest hf hm => by
    have := writePieces_fails (before := []) (after := []) (errs := []) (ev := []) (src := .value b) hgo hs
      (.last a b h0 hb ha) .nil (Nat.le_refl _) rfl hf hm
    exact this

theorem devWriteSome_breaks (hgo : Agrees go ag) {a : Nat} {b : Bytes} (hb : b.length ≤ busMtu) (ha : a < 2 ^ 24)
    (s : State) : Breaks go (devWriteSome a b) (writeSome a b) s := by
  by_cases h : b = []
  · subst h
    exact Breaks.nil _ s
  · rw [writeSome, if_neg h, devWriteSome, if_neg (by simpa [List.isEmpty_iff] using h)]
    exact devWrite_breaks hgo (List.length_pos_iff.mpr h) hb ha s

theorem setRegBit_breaks (hgo : Agrees go ag) (a : Addr) (bit : Fin 32) (w : Word) (s : State) :
    Breaks go (setRegBit a bit) (setBitAccesses a bit w) s :=
  Breaks.tryBind (xs := [_]) (readReg_serves hgo a w s) (readReg_breaks hgo a w s) fun u _ => writeReg_breaks hgo a _ u

theorem clearRegBit_breaks (hgo : Agrees go ag) (a : Addr) (bit : Fin 32) (w : Word) (s : State) :
    Breaks go (clearRegBit a bit) (clearBitAccesses a bit w) s :=
  Breaks.tryBind (xs := [_]) (readReg_serves hgo a w s) (readReg_breaks hgo a w s) fun u _ => writeReg_breaks hgo a _ u

/-! ### Wake and sleep (R206, R207) -/

/-- The polls for the acknowledge, an operation of which fails; the last poll may find it or not. -/
theorem wakePoll_breaks (hgo : Agrees go ag) (p : Params) :
    ∀ (before : List Word) (w : Word) (n : Nat) (s : State), (∀ x ∈ before, acked p x = false) → before.length + 1 ≤ n →
      acked p w = true → Breaks go (wakePoll p n) (ackAccesses p (before ++ [w])) s
  | [], w, n, s, _, hn, hw => by
    obtain ⟨n, rfl⟩ : ∃ m, n = m + 1 := ⟨n - 1, by simp at hn; omega⟩
    have hw' : w.getLsbD p.bitClkEnAck.val = true := hw
    rw [show ackAccesses p ([] ++ [w]) = [.read p.regClkStatus w] ++ [] by simp [ackAccesses, hw]]
    exact Breaks.tryBind (readReg_serves hgo _ w s) (readReg_breaks hgo _ w s) fun u _ => Breaks.nil _ u
  | x :: before, w, n, s, hb, hn, hw => by
    obtain ⟨n, rfl⟩ : ∃ m, n = m + 1 := ⟨n - 1, by simp at hn; omega⟩
    have hx : x.getLsbD p.bitClkEnAck.val = false := hb x (by simp)
    rw [List.cons_append, ackAccesses_cons (hb x (by simp))]
    refine Breaks.tryBind (xs := [_]) (readReg_serves hgo _ x s) (readReg_breaks hgo _ x s) fun u _ => ?_
    rw [hx, if_neg (by simp)]
    exact Breaks.delay hgo fun v _ =>
      wakePoll_breaks hgo p before w n v (fun y hy => hb y (by simp [hy])) (by simp at hn; omega) hw

/-- `ChipWake` of a chip that is asleep (R206). -/
theorem chipWake_breaks (hgo : Agrees go ag) (p : Params) {s : State} (h : s.hif.awake = false) (wa wb : Word)
    {polls : List Word} (hl : polls.length ≤ 10) (ho : LastOnly (acked p) polls) :
    Breaks go (chipWake p) (wakeAccesses p wa wb polls) s := by
  obtain ⟨before, w, rfl, hb, hw⟩ := ho
  refine Breaks.look hgo rfl fun u hu => ?_
  show Breaks go (if s.hif.awake then _ else _) _ u
  rw [h, if_neg (by simp), wakeAccesses, List.append_assoc]
  exact Breaks.tryBind (setRegBit_serves hgo _ _ wa u) (setRegBit_breaks hgo _ _ wa u) fun v _ =>
    Breaks.tryBind (setRegBit_serves hgo _ _ wb v) (setRegBit_breaks hgo _ _ wb v) fun y _ =>
      Breaks.delay hgo fun z _ => wakePoll_breaks hgo p before w _ z hb (by simpa [wakePolls] using hl) hw

/-- `ChipSleep` of a chip that is awake (R207). -/
theorem chipSleep_breaks (hgo : Agrees go ag) (p : Params) {s : State} (h : s.hif.awake = true) (wb wa : Word) :
    Breaks go (chipSleep p) (sleepAccesses p wb wa) s := by
  refine Breaks.look hgo rfl fun u hu => ?_
  show Breaks go (if s.hif.awake then _ else _) _ u
  rw [h, if_pos rfl]
  refine Breaks.tryBind (clearRegBit_serves hgo _ _ wb u) (clearRegBit_breaks hgo _ _ wb u) fun v _ => ?_
  have := Breaks.tryBind (ys := []) (f := fun _ => Prog.andThen (.put (.awake false)) (.ret (.ok () : Except Err Unit)))
    (clearRegBit_serves hgo p.regWakeA p.bitWakeA wa v) (clearRegBit_breaks hgo p.regWakeA p.bitWakeA wa v) fun w _ =>
      Breaks.nil _ w
  simpa using this

/-- `ChipSleep` of a chip that is awake, whatever comes of it, its result ignored (R208). -/
theorem chipSleep_slept (hgo : Agrees go ag) {s : State} (hs : BusReady s) (h : s.hif.awake = true) {awake : Bool}
    {errs : List Err} {ev : List BusEvent} {rest : List (Option Byte)}
    (hx : Slept s.params s.fr.crcEn s.fr.pktLimit awake errs ev) (hm : s.env.miso = answersOf ev ++ rest) :
    ∃ r u, (chipSleep s.params).eval go s = some (r, u) ∧
      BusDone (noted errs (s.mapHif fun h => { h with awake := awake })) u ev rest := by
  cases hx with
  | asleep wb wa _ hw =>
    obtain ⟨u, eu, du⟩ := (chipSleep_awake hgo s.params h wb wa).eval hs ⟨hw, hm⟩
    exact ⟨_, u, eu, du⟩
  | failed wb wa before after x e _ ev ev' hsl hw hx =>
    obtain ⟨u, eu, du⟩ := chipSleep_breaks hgo s.params h wb wa before after x hsl hs ev ev' e errs rest hw hx hm
    refine ⟨_, u, eu, ?_⟩
    have : (s.mapHif fun h => { h with awake := true }) = s := by
      obtain ⟨_, _, ⟨_, aw, _, _, _, _, _, _, _⟩, _, _, _, _, _, _⟩ := s
      simp only at h
      subst h
      rfl
    rw [this]
    exact du

/-! ### Send (R208 to R210) -/

theorem dmaPoll_breaks (hgo : Agrees go ag) (p : Params) (w a : Word) (hw : p.dmaPublished.app w = true) :
    ∀ (before : List Word) (k n : Nat) (s : State), (∀ x ∈ before, p.dmaPublished.app x = false) →
      before.length + 1 ≤ n →
      Breaks go (dmaPoll p k n) (dmaAccesses p k (before ++ [w]) ++ [.read p.regHifDmaAddr a]) s
  | [], k, n, s, _, hn => by
    obtain ⟨n, rfl⟩ : ∃ m, n = m + 1 := ⟨n - 1, by simp at hn; omega⟩
    rw [show dmaAccesses p k ([] ++ [w]) = [.read p.regHifDmaCtrl w] by simp [dmaAccesses, hw]]
    refine Breaks.tryBind (readReg_serves hgo _ w s) (readReg_breaks hgo _ w s) fun u _ => ?_
    rw [hw, if_pos rfl]
    exact Breaks.tryBind (xs := [_]) (ys := []) (readReg_serves hgo _ a u) (readReg_breaks hgo _ a u) fun v _ =>
      Breaks.nil _ v
  | x :: before, k, n, s, hb, hn => by
    obtain ⟨n, rfl⟩ : ∃ m, n = m + 1 := ⟨n - 1, by simp at hn; omega⟩
    rw [List.cons_append, dmaAccesses_cons (hb x (by simp)), List.append_assoc]
    refine Breaks.tryBind (xs := [_]) (readReg_serves hgo _ x s) (readReg_breaks hgo _ x s) fun u _ => ?_
    rw [hb x (by simp), if_neg (by simp)]
    have go_on : ∀ v, Breaks go (dmaPoll p (k + 1) n) (dmaAccesses p (k + 1) (before ++ [w]) ++ [.read p.regHifDmaAddr a])
        v := fun v => dmaPoll_breaks hgo p w a hw before (k + 1) n v (fun y hy => hb y (by simp [hy])) (by simp at hn; omega)
    split
    · exact Breaks.delay hgo fun v _ => go_on v
    · exact go_on u

theorem sendPacket_breaks (hgo : Agrees go ag) (p : Params) {dma : Word} {header control data : Bytes} {offset : Nat}
    (h8 : header.length = 8) (ht : hifTotal control data offset ≤ hifMaxPkt) (ha : dma.toNat + 8 + offset < 2 ^ 24)
    (s : State) :
    Breaks go (sendPacket p dma header control data offset)
      ([.writeBlock (BitVec.ofNat 24 dma.toNat) header] ++ (writeSome (dma.toNat + 8) control ++
        (writeSome (dma.toNat + 8 + offset) data ++ [.write p.regHifTxReady (p.txReadyWord.app dma)]))) s := by
  have hc : control.length ≤ busMtu ∧ data.length ≤ busMtu := by
    simp only [hifTotal, hifMaxPkt, hifHdrWire, busMtu] at *
    omega
  have h8' : header.length ≤ busMtu := by rw [h8]; decide
  exact Breaks.tryBind (devWrite_serves hgo (by omega) h8' (by omega) s) (devWrite_breaks hgo (by omega) h8' (by omega) s)
    fun u _ => Breaks.tryBind (devWriteSome_serves hgo hc.1 (by omega) u) (devWriteSome_breaks hgo hc.1 (by omega) u)
      fun v _ => Breaks.tryBind (devWriteSome_serves hgo hc.2 ha v) (devWriteSome_breaks hgo hc.2 ha v)
        fun w _ => writeReg_breaks hgo _ _ w

/-- The body of `Send` behind the wake-up, one of its operations failing (R208). -/
theorem sendBody_stops (hgo : Agrees go ag) (p : Params) {group opcode : Byte} {control data : Bytes} {offset : Nat}
    {polls : List Word} {dma : Word} {ws before after : List Access} {x : Access} {s : State}
    (ht : hifTotal control data offset ≤ hifMaxPkt)
    (hw : Serves go (chipWake p) ws (.ok ()) (fun s => s.mapHif fun h => { h with awake := true }) s)
    (hn : polls.length ≤ p.hifDmaPolls) (ho : LastOnly p.dmaPublished.app polls) (h0 : dma ≠ 0)
    (ha : dma.toNat + 8 + offset < 2 ^ 24)
    (hx : packetAccesses p group opcode control data offset polls dma = before ++ x :: after) :
    Stops go (sendBody p group opcode control data offset) (ws ++ before) x
      (fun s => s.mapHif fun h => { h with awake := true }) s := by
  obtain ⟨polled, w, rfl, hb, hw'⟩ := ho
  rw [packetAccesses_eq] at hx
  refine Stops.later Respects.id ⟨rfl, rfl, rfl⟩ hw fun u _ => ?_
  rw [hifOpcodeByte_eq]
  refine Breaks.tryBind (xs := [_]) (writeReg_serves hgo _ _ u) (writeReg_breaks hgo _ _ u) (fun v _ => ?_) before after x hx
  have hd := dmaPoll_published hgo p w dma hw' polled 1 p.hifDmaPolls v hb (by simpa using hn)
  refine Breaks.tryBind hd (dmaPoll_breaks hgo p w dma hw' polled 1 _ v hb (by simpa using hn)) fun y _ => ?_
  dsimp only
  rw [if_neg h0]
  exact sendPacket_breaks hgo p rfl ht ha y

/-! ### Programs that go over the bus in one known way -/

/-- From `s`, the program answers `r` with `ev` going over the bus, and changes what `g` changes, besides the bus. -/
def Plays (go : Action → State → Option Val × State) {α : Type} (p : Prog α) (ev : List BusEvent) (r : α)
    (g : State → State) (s : State) : Prop :=
  BusReady s → ∀ rest : List (Option Byte), s.env.miso = answersOf ev ++ rest →
    ∃ u, p.eval go s = some (r, u) ∧ BusDone (g s) u ev rest ∧ BusReady u

theorem Serves.plays {α : Type} {p : Prog α} {xs : List Access} {r : α} {g : State → State} {s : State}
    {ev : List BusEvent} (h : Serves go p xs r g s) (hw : AllOnWire s.params s.fr.crcEn s.fr.pktLimit xs ev) :
    Plays go p ev r g s := by
  intro hs rest hm
  obtain ⟨u, ev1, ev2, mid, e, he, d, hu, hw2, hm2⟩ := h hs [] ev rest ⟨by simpa using hw, hm⟩
  cases hw2
  obtain rfl : ev1 = ev := by simpa using he.symm
  obtain rfl : mid = rest := by rw [← d.miso]; simpa using hm2
  exact ⟨u, e, d, hu⟩

theorem Stops.plays {α : Type} {p : Prog (Except Err α)} {before : List Access} {x : Access} {g : State → State}
    {s : State} {e : Err} {errs : List Err} {ev ev' : List BusEvent} (h : Stops go p before x g s)
    (hr : BusReady s → BusReady (g s)) (hw : AllOnWire s.params s.fr.crcEn s.fr.pktLimit before ev)
    (hx : Fails s.params s.fr.crcEn s.fr.pktLimit x e errs ev') :
    Plays go p (ev ++ ev') (.error e) (fun s => noted errs (g s)) s := by
  intro hs rest hm
  obtain ⟨u, eu, du⟩ := h hs ev ev' e errs rest hw hx hm
  exact ⟨u, eu, du, noted_ready (hr hs) du⟩

theorem Plays.bind {α β : Type} {p : Prog α} {f : α → Prog β} {ev ev' : List BusEvent} {a : α} {b : β}
    {g h : State → State} {s : State} (hh : Respects h) (hp : Plays go p ev a g s)
    (hf : ∀ u, After (g s) u → Plays go (f a) ev' b h u) : Plays go (p.bind f) (ev ++ ev') b (fun s => h (g s)) s := by
  intro hs rest hm
  rw [answersOf_append, List.append_assoc] at hm
  obtain ⟨u, eu, du, hu⟩ := hp hs _ hm
  obtain ⟨w, ew, dw, hw⟩ := hf u ⟨_, _, du⟩ hu rest du.miso
  exact ⟨w, by rw [Prog.eval_bind_of eu, ew], (hh _ _ _ _ du).trans dw, hw⟩

theorem Plays.congr {α : Type} {p : Prog α} {ev : List BusEvent} {r : α} {g g' : State → State} {s : State}
    (h : Plays go p ev r g s) (hg : g s = g' s) : Plays go p ev r g' s := by
  intro hs rest hm
  rw [← hg]
  exact h hs rest hm

theorem Plays.ret {α : Type} (a : α) (s : State) : Plays go (.ret a) [] a (fun s => s) s := fun hs rest hm =>
  ⟨s, rfl, by have := BusDone.refl hs; rwa [show s.env.miso = rest by simpa using hm] at this, hs⟩

/-- An action that changes what `g` changes and moves no byte. -/
theorem Plays.update {α : Type} (hgo : Agrees go ag) {a : Action} {k : Val → Prog α} {ev : List BusEvent} {r : α}
    {v : Val} {g h : State → State} {s : State} (hh : Respects h) (hc : (g s).fr.crcEn = s.fr.crcEn)
    (hp : perform a ag s = (some v, g s)) (hm : (g s).env.miso = s.env.miso) (hr : BusReady s → BusReady (g s))
    (hf : ∀ u, After (g s) u → Plays go (k v) ev r h u) : Plays go (.act a k) ev r (fun s => h (g s)) s := by
  have hser : Serves go (Prog.act a .ret) [] v g s :=
    Serves.update (h := fun s => s) hgo Respects.id hp hc hm hr fun u _ => Serves.ret _ u
  have := Plays.bind hh (hser.plays .nil) hf
  exact this

/-- `Send` whose body ends in whatever way, and the sleep behind it, whose result is ignored (R208). -/
theorem hifSend_plays (hgo : Agrees go ag) (p : Params) {group opcode : Byte} {control data : Bytes} {offset : Nat}
    {ev ev' : List BusEvent} {r : Except Err Unit} {g g' : State → State} {s : State} (hg : Respects g) (hg' : Respects g')
    (hr : s.hif.state = .ready) (hl : s.hif.lock = .free) (ht : hifTotal control data offset ≤ hifMaxPkt)
    (hb : ∀ u, After (s.mapHif fun h => { h with lock := .held ag }) u →
      Plays go (sendBody p group opcode control data offset) ev r g u)
    (hsl : ∀ u, After (g (s.mapHif fun h => { h with lock := .held ag })) u →
      Plays go ((chipSleep p).bind fun _ => .ret r) ev' r g' u) :
    Plays go (hifSend p group opcode control data offset) (ev ++ ev') r
      (fun s => (g' (g (s.mapHif fun h => { h with lock := .held ag }))).mapHif fun h =>
        { h with lock := h.lock.drop ag }) s := by
  have hgg : Respects fun s => g' (g s) := hg.comp hg'
  refine Plays.update (g := fun s => s)
    (h := fun s => (g' (g (s.mapHif fun h => { h with lock := .held ag }))).mapHif fun h =>
        { h with lock := h.lock.drop ag })
    hgo (((Respects.mapHif _).comp hgg).comp (Respects.mapHif _)) rfl rfl rfl (fun h => h)
    fun s0 h0 => ?_
  show Plays go (if decide (s.hif.state = .ready) then _ else _) _ _ _ s0
  rw [if_pos (by simpa using hr)]
  have hl0 : s0.hif.lock = .free := by rw [h0.hif, hl]
  have hp : perform .lockS ag s0 = (some .unit, s0.mapHif fun h => { h with lock := .held ag }) := by
    simp [perform, doLockS, hl0, Lock.take]
  refine Plays.update (g := fun s => s.mapHif fun h => { h with lock := .held ag })
    (h := fun s => (g' (g s)).mapHif fun h => { h with lock := h.lock.drop ag }) hgo
    (hgg.comp (Respects.mapHif _)) rfl hp rfl
    (fun hs => ⟨hs.lock, hs.idle, hs.limit, hs.yields⟩) fun s1 h1 => ?_
  have h01 : After (s.mapHif fun h => { h with lock := .held ag }) s1 := (h0.map (Respects.mapHif _)).trans h1
  have body : Plays go (if hifTotal control data offset > hifMaxPkt then raise .messageTooLong
      else (sendBody p group opcode control data offset).bind fun r => (chipSleep p).bind fun _ => .ret r)
      (ev ++ ev') r (fun s => g' (g s)) s1 := by
    rw [if_neg (by omega)]
    exact Plays.bind hg' (hb s1 h01) fun u hu => hsl u ((h01.map hg).trans hu)
  have := Plays.bind (ev' := []) (b := r) (f := fun r => Prog.andThen .unlockS (.ret r)) (Respects.mapHif _) body
    fun v _ => Plays.update (g := fun s => s.mapHif fun h => { h with lock := h.lock.drop ag }) (h := fun s => s) hgo
      Respects.id rfl rfl rfl (fun hs => ⟨hs.lock, hs.idle, hs.limit, hs.yields⟩) fun w _ => Plays.ret r w
  simpa using this

/-- What the sleep behind a `Send` comes to (R207, R208). -/
theorem chipSleep_plays {α : Type} (hgo : Agrees go ag) {s : State} (h : s.hif.awake = true) {awake : Bool}
    {errs : List Err} {ev : List BusEvent} (hx : Slept s.params s.fr.crcEn s.fr.pktLimit awake errs ev) (r : α) :
    Plays go ((chipSleep s.params).bind fun _ => .ret r) ev r
      (fun s => noted errs (s.mapHif fun h => { h with awake := awake })) s := by
  intro hs rest hm
  obtain ⟨r', u, eu, du⟩ := chipSleep_slept hgo hs h hx hm
  exact ⟨u, by rw [Prog.eval_bind_of eu]; rfl, du,
    noted_ready (s := s.mapHif fun h => { h with awake := awake }) ⟨hs.lock, hs.idle, hs.limit, hs.yields⟩ du⟩

theorem noValue_plays {p : Prog (Except Err Unit)} {ev : List BusEvent} {r : Except Err Unit} {g : State → State}
    {s : State} (h : Plays go p ev r g s) : Plays go (noValue p) ev (r.map fun _ => .unit) g s := by
  intro hs rest hm
  obtain ⟨u, e, d, hu⟩ := h hs rest hm
  refine ⟨u, ?_, d, hu⟩
  cases r with
  | ok v => exact Prog.eval_tryBind_ok e
  | error e' => exact Prog.eval_tryBind_error e

/-- An operation invoked by a caller whose program goes over the bus in one known way. -/
theorem Returned.of_plays {i : Instr} {p : Prog (Except Err Value)} {s : State} {ev : List BusEvent}
    {rest : List (Option Byte)} {r : Except Err Value} {g : State → State} (he : exec i s = startTask i p s)
    (hs : BusReady s) (hm : s.env.miso = answersOf ev ++ rest) (h : Plays (callerGo (taskOf s)) p ev r g (newTask s)) :
    ∃ t, exec i s = .next t ∧ Returned (g (newTask s)) (taskOf s) (toResult r) ev rest t := by
  obtain ⟨u, e, d, _⟩ := h hs.newTask rest hm
  exact ⟨_, by rw [he, startTask_of_eval e], u, d, rfl⟩

end Sys2Proof.Machine
end

