-- ==== Sys2Proof/Laws/Invariant.lean ====
section
/-!
SUPPORT. Every action keeps the invariant `StateOk`.
-/

namespace Sys2Proof.Machine

/-! ### Reply slots -/

theorem mailSet_names (mail : List (Nat × Mail)) (m : Nat) (v : Mail) :
    (mailSet mail m v).map (·.1) = mail.map (·.1) := by
  simp only [mailSet, List.map_map]
  congr 1
  funext e
  simp only [Function.comp]
  split <;> rfl

theorem mailAbandon_names (mail : List (Nat × Mail)) (m : Nat) :
    (mailAbandon mail m).map (·.1) = mail.map (·.1) := mailSet_names mail m .abandoned

theorem foldl_mailAbandon_names (l : List Nat) (mail : List (Nat × Mail)) :
    (l.foldl mailAbandon mail).map (·.1) = mail.map (·.1) := by
  induction l generalizing mail with
  | nil => rfl
  | cons m l ih => rw [List.foldl_cons, ih, mailAbandon_names]

/-- The names of reply slots, as a property of the list of names. -/
def MailOk (n : Nat) (mail : List (Nat × Mail)) : Prop := (∀ e ∈ mail.map (·.1), e < n) ∧ (mail.map (·.1)).Nodup

theorem MailOk.congr {n : Nat} {l l' : List (Nat × Mail)} (h : MailOk n l) (hn : l'.map (·.1) = l.map (·.1)) :
    MailOk n l' := by
  unfold MailOk at *
  rwa [hn]

theorem MailOk.del {n : Nat} {l : List (Nat × Mail)} (h : MailOk n l) (m : Nat) : MailOk n (mailDel l m) := by
  have hs : ((mailDel l m).map (·.1)).Sublist (l.map (·.1)) := List.Sublist.map _ List.filter_sublist
  exact ⟨fun e he => h.1 e (hs.subset he), h.2.sublist hs⟩

theorem MailOk.add {n : Nat} {l : List (Nat × Mail)} (h : MailOk n l) (v : Mail) : MailOk (n + 1) (l ++ [(n, v)]) := by
  unfold MailOk at *
  simp only [List.map_append, List.map_cons, List.map_nil]
  refine ⟨?_, ?_⟩
  · intro e he
    rcases List.mem_append.mp he with he | he
    · exact Nat.lt_succ_of_lt (h.1 e he)
    · have : e = n := by simpa using he
      omega
  · refine List.Nodup.append h.2 (by simp) ?_
    intro e he he'
    have : e = n := by simpa using he'
    have := h.1 e he
    omega

theorem SocketsOk.iff {n : Nat} {k : Sockets} :
    SocketsOk n k ↔ (∀ i : Fin 11, SlotOk i (k.slot i)) ∧ MailOk n k.mail ∧
      ∀ i : Fin 11, ∀ e ∈ (k.slot i).replies, e.mail < n := by
  constructor
  · intro h
    refine ⟨h.slots, ⟨?_, h.mailDistinct⟩, h.replyNames⟩
    intro e he
    obtain ⟨a, ha, rfl⟩ := List.mem_map.mp he
    exact h.mailNames a ha
  · intro h
    exact ⟨h.1, fun e he => h.2.1.1 e.1 (List.mem_map_of_mem he), h.2.1.2, h.2.2⟩

/-! ### Slots (R35, R287) -/

/-- A slot changed where neither its use nor its identity is, and nothing added to a free one. -/
theorem SlotOk.congr {i : Fin 11} {x y : Slot} (h : SlotOk i x) (hu : y.inUse = x.inUse := by rfl)
    (hd : y.desc = x.desc := by rfl) (hs : y.state = x.state := by rfl) (hl : y.ssl = x.ssl := by rfl)
    (hr : y.rxRem = x.rxRem := by rfl) (he : x.replies = [] → y.replies = [] := by exact id)
    (hq : x.acceptq = none → y.acceptq = none := by exact id)
    (hw : x.acceptWaiters = [] → y.acceptWaiters = [] := by exact id) : SlotOk i y where
  used hy := by rw [hs, hd]; exact h.used (hu ▸ hy)
  free hy := by
    obtain ⟨h1, h2, h3, h4, h5, h6, h7⟩ := h.free (hu ▸ hy)
    exact ⟨hs.trans h1, hd.trans h2, hl.trans h3, hr.trans h4, he h5, hq h6, hw h7⟩

/-- A slot in use, changed to one in use, under its own descriptor and not closing. -/
theorem SlotOk.inUse {i : Fin 11} {y : Slot} (hu : y.inUse = true) (hd : y.desc = BitVec.ofNat 8 i.val)
    (h1 : y.state ≠ .free) (h2 : y.state ≠ .closing) : SlotOk i y where
  used _ := ⟨h1, by rw [if_neg h2]; exact hd⟩
  free hy := by rw [hu] at hy; cases hy

/-- A descriptor of its own is not the descriptor of a free or closing slot. -/
theorem ownDesc (i : Fin 11) : BitVec.ofNat 8 i.val ≠ 0xFF := by revert i; decide

/-- A slot in use under its own descriptor is neither free nor closing. -/
theorem SlotOk.of_valid {i : Fin 11} {x : Slot} (h : SlotOk i x) (hu : x.inUse = true)
    (hd : x.desc = BitVec.ofNat 8 i.val) : x.state ≠ .free ∧ x.state ≠ .closing := by
  obtain ⟨h1, h2⟩ := h.used hu
  refine ⟨h1, fun hc => ownDesc i ?_⟩
  rw [if_pos hc, hd] at h2
  exact h2

/-- Who owns a slot finds it in use under its own descriptor. -/
theorem Sockets.owns_iff {k : Sockets} {ag : Agent} {i : Fin 11} :
    k.owns ag i = true ↔
      (k.slot i).inUse = true ∧ (k.slot i).desc = BitVec.ofNat 8 i.val ∧ (k.slot i).lock = .held ag := by
  simp [Sockets.owns, Sockets.valid, and_assoc]

/-- A change of a slot by its owner. -/
theorem SlotOk.updated {i : Fin 11} {x : Slot} (h : SlotOk i x) (hu : x.inUse = true)
    (hd : x.desc = BitVec.ofNat 8 i.val) (u : SlotUpd) : SlotOk i (u.apply x) := by
  obtain ⟨h1, h2⟩ := h.of_valid hu hd
  cases u <;> (refine SlotOk.inUse hu hd ?_ ?_ <;> first | assumption | exact SlotState.noConfusion)

/-- A slot changed so that its registry only shrinks. -/
theorem SocketsOk.setSlot {n : Nat} {k : Sockets} (h : SocketsOk n k) (i : Fin 11) (f : Slot → Slot)
    (hf : ∀ x, ∀ e ∈ (f x).replies, e ∈ x.replies) (hk : SlotOk i (f (k.slot i))) : SocketsOk n (k.setSlot i f) := by
  refine ⟨?_, h.mailNames, h.mailDistinct, ?_⟩
  · intro j
    rw [Sockets.slot_setSlot]
    split
    · rename_i hj; exact hj ▸ hk
    · exact h.slots j
  · intro j e he
    rw [Sockets.slot_setSlot] at he
    split at he
    · exact h.replyNames i e (hf _ e he)
    · exact h.replyNames j e he

theorem SocketsOk.withMail {n : Nat} {k : Sockets} (h : SocketsOk n k) (l : List (Nat × Mail)) (hl : MailOk n l) :
    SocketsOk n { k with mail := l } := by
  rw [SocketsOk.iff] at *
  exact ⟨h.1, hl, h.2.2⟩

theorem SocketsOk.mailOk {n : Nat} {k : Sockets} (h : SocketsOk n k) : MailOk n k.mail := (SocketsOk.iff.mp h).2.1

theorem SocketsOk.dropReply {n : Nat} {k : Sockets} (h : SocketsOk n k) (i : Fin 11) (m : Nat) :
    SocketsOk n (k.dropReply i m) :=
  (h.setSlot i (fun x => { x with replies := x.replies.filter fun e => e.mail ≠ m })
    (fun _ _ he => List.mem_of_mem_filter he)
    ((h.slots i).congr (he := fun hn => by simp [hn]))).withMail _ (h.mailOk.del m)

theorem SocketsOk.dropAccept {n : Nat} {k : Sockets} (h : SocketsOk n k) (i : Fin 11) (m : Nat) :
    SocketsOk n (k.dropAccept i m) :=
  (h.setSlot i (fun x => { x with acceptWaiters := x.acceptWaiters.filter fun w => w ≠ m })
    (fun _ _ he => he) ((h.slots i).congr (hw := fun hn => by simp [hn]))).withMail _ (h.mailOk.del m)

theorem SocketsOk.wakeSlot {n : Nat} {k : Sockets} (h : SocketsOk n k) (i : Fin 11) : SocketsOk n (k.wakeSlot i) :=
  h.withMail _ (h.mailOk.congr (foldl_mailAbandon_names _ _))

/-- A slot as freed. -/
theorem freed_ok (i : Fin 11) (x : Slot) : SlotOk i (freed x) :=
  ⟨fun h => (nomatch h), fun _ => ⟨rfl, rfl, rfl, rfl, rfl, rfl, rfl⟩⟩

theorem SocketsOk.freeSlot {n : Nat} {k : Sockets} (h : SocketsOk n k) (i : Fin 11) : SocketsOk n (k.freeSlot i) :=
  (h.wakeSlot i).setSlot i freed (fun _ e he => by simp [freed] at he) (freed_ok i _)

theorem SocketsOk.fillMail {n : Nat} {k : Sockets} (h : SocketsOk n k) (m : Nat) (r : Reply) :
    SocketsOk n (fillMail k m r) := by
  unfold Machine.fillMail
  split
  · exact h.withMail _ (h.mailOk.congr (mailSet_names _ _ _))
  · exact h

theorem SocketsOk.mono {n n' : Nat} {k : Sockets} (h : SocketsOk n k) (hn : n ≤ n') : SocketsOk n' k :=
  ⟨h.slots, fun e he => lt_of_lt_of_le (h.mailNames e he) hn, h.mailDistinct,
    fun i e he => lt_of_lt_of_le (h.replyNames i e he) hn⟩

theorem SocketsOk.add {n : Nat} {k : Sockets} (h : SocketsOk n k) (v : Mail) :
    SocketsOk (n + 1) { k with mail := k.mail ++ [(n, v)] } :=
  (h.mono (Nat.le_succ n)).withMail _ (h.mailOk.add v)

theorem SocketsOk.insert {n : Nat} {k : Sockets} (h : SocketsOk n k) (i : Fin 11) (sid : Half) (kind : Kind)
    (hu : (k.slot i).inUse = true) (hd : (k.slot i).desc = BitVec.ofNat 8 i.val) :
    SocketsOk (n + 1)
      { (k.setSlot i fun x =>
          { x with sid := sid, replies := ⟨sid, kind, n⟩ :: x.replies.filter fun e => e.sid ≠ sid }) with
        mail := k.mail ++ [(n, .waiting)] } := by
  refine ⟨fun j => ?_, (h.add .waiting).mailNames, (h.add .waiting).mailDistinct, ?_⟩
  · show SlotOk j ((k.setSlot i fun x =>
      { x with sid := sid, replies := ⟨sid, kind, n⟩ :: x.replies.filter fun e => e.sid ≠ sid }).slot j)
    rw [Sockets.slot_setSlot]
    split
    · rename_i hj
      subst hj
      obtain ⟨h1, h2⟩ := (h.slots j).of_valid hu hd
      exact SlotOk.inUse hu hd h1 h2
    · exact h.slots j
  intro j e he
  have he' : e ∈ ((k.setSlot i fun x =>
      { x with sid := sid, replies := ⟨sid, kind, n⟩ :: x.replies.filter fun e => e.sid ≠ sid }).slot j).replies := he
  rw [Sockets.slot_setSlot] at he'
  split at he'
  · rcases List.mem_cons.mp he' with rfl | he'
    · exact Nat.lt_succ_self n
    · exact Nat.lt_succ_of_lt (h.replyNames i e (List.mem_of_mem_filter he'))
  · exact Nat.lt_succ_of_lt (h.replyNames j e he')

/-! ### The invariant -/

/-- The invariant holds of a state whose memory, limit, sockets and queues are those of a state it holds of. -/
theorem StateOk.congr {s t : State} (h : StateOk s) (hm : t.mem = s.mem) (hl : t.fr.pktLimit = s.fr.pktLimit)
    (hs : t.sock = s.sock) (ho : t.hif.subs = s.hif.subs) (hc : t.env.closed = s.env.closed)
    (hn : t.env.nextMail = s.env.nextMail) (hq : t.env.nextQueue = s.env.nextQueue) : StateOk t :=
  ⟨by rw [hm]; exact h.memory, by rw [hl]; exact h.limit, by rw [hs, hn]; exact h.sockets,
    by rw [ho, hq]; exact h.openNames, by rw [ho]; exact h.openDistinct, by rw [hc, hq]; exact h.closedNames⟩

theorem StateOk.mapSock {s : State} (h : StateOk s) (f : Sockets → Sockets)
    (hf : SocketsOk s.env.nextMail (f s.sock)) : StateOk (s.mapSock f) :=
  ⟨h.memory, h.limit, hf, h.openNames, h.openDistinct, h.closedNames⟩

theorem StateOk.busOnly {s t : State} (h : StateOk s) (hb : BusOnly s t) : StateOk t :=
  h.congr hb.mem (by rw [hb.fr]) hb.sock (by rw [hb.hif]) (by rw [hb.env]) (by rw [hb.env]) (by rw [hb.env])

theorem StateOk.mapTr {s : State} (h : StateOk s) (f : Transport → Transport) : StateOk (s.mapTr f) :=
  ⟨h.memory, h.limit, h.sockets, h.openNames, h.openDistinct, h.closedNames⟩

theorem StateOk.mapFr {s : State} (h : StateOk s) (f : Framer → Framer) (hf : (f s.fr).pktLimit = s.fr.pktLimit) :
    StateOk (s.mapFr f) :=
  ⟨h.memory, by rw [State.mapFr_fr, hf]; exact h.limit, h.sockets, h.openNames, h.openDistinct, h.closedNames⟩

theorem StateOk.setMem {s : State} (h : StateOk s) (m : List Host.Cell) (hm : Memory.wf m = true) :
    StateOk (s.setMem m) :=
  ⟨hm, h.limit, h.sockets, h.openNames, h.openDistinct, h.closedNames⟩

theorem StateOk.buildFrame {s : State} (h : StateOk s) (c : Cmd) : StateOk (buildFrame c s) :=
  ⟨h.memory, h.limit, h.sockets, h.openNames, h.openDistinct, h.closedNames⟩

theorem StateOk.readChunk {s : State} (h : StateOk s) : StateOk (readChunk s).2 := by
  have h1 := scanTag_busOnly tagScanMax s
  unfold Machine.readChunk
  split
  · rename_i e s1 h'; rw [h'] at h1; exact h.busOnly h1
  · rename_i s1 h'
    rw [h'] at h1
    have h2 := xferBuf_busOnly (filler (chunkSize s.fr)) s1
    split
    · rename_i s2 h'; rw [h'] at h2; exact h.busOnly (h1.trans h2)
    · rename_i d s2 h'
      rw [h'] at h2
      have h3 := xferBuf_busOnly (chunkCrc s.fr.crcEn) s2
      split
      · rename_i s3 h''; rw [h''] at h3; exact h.busOnly ((h1.trans h2).trans h3)
      · rename_i r s3 h''
        rw [h''] at h3
        have h4 := h.busOnly ((h1.trans h2).trans h3)
        exact ⟨h4.memory, h4.limit, h4.sockets, h4.openNames, h4.openDistinct, h4.closedNames⟩

/-- The queues `Reset` and `Initialize` close are emptied, and keep their names. -/
theorem StateOk.closedAll {s : State} (h : StateOk s) :
    ∀ q ∈ s.env.closed ++ s.hif.subs.map (fun q => { q with content := none }), q.id < s.env.nextQueue := by
  intro q hq
  rcases List.mem_append.mp hq with hq | hq
  · exact h.closedNames q hq
  · obtain ⟨a, ha, rfl⟩ := List.mem_map.mp hq
    exact h.openNames a ha

/-! ### Every action -/

theorem StateOk.same {s t : State} (h : StateOk s) (hm : t.mem = s.mem := by rfl)
    (hl : t.fr.pktLimit = s.fr.pktLimit := by rfl) (hs : t.sock = s.sock := by rfl)
    (ho : t.hif.subs = s.hif.subs := by rfl) (hc : t.env.closed = s.env.closed := by rfl)
    (hn : t.env.nextMail = s.env.nextMail := by rfl) (hq : t.env.nextQueue = s.env.nextQueue := by rfl) : StateOk t :=
  h.congr hm hl hs ho hc hn hq

/-- A slot changed, its registry kept. -/
theorem StateOk.setSlot {s : State} (h : StateOk s) (i : Fin 11) (f : Slot → Slot)
    (hf : ∀ x, ∀ e ∈ (f x).replies, e ∈ x.replies) (hk : SlotOk i (f (s.sock.slot i))) :
    StateOk (s.mapSock fun k => k.setSlot i f) :=
  h.mapSock _ (h.sockets.setSlot i f hf hk)

/-- Only the lock of a slot changed. -/
theorem StateOk.setLock {s : State} (h : StateOk s) (i : Fin 11) (l : Lock → Lock) :
    StateOk (s.mapSock fun k => k.setSlot i fun x => { x with lock := l x.lock }) :=
  h.setSlot i _ (fun _ _ he => he) (h.sockets.slots i).congr

theorem SlotUpd.apply_replies (u : SlotUpd) (x : Slot) : (u.apply x).replies = x.replies := by cases u <;> rfl

/-- Every assignment keeps the invariant. -/
theorem StateOk.put {s : State} (h : StateOk s) (u : Put) : StateOk (u.apply s) := by
  cases u with
  | clearSubs => exact ⟨h.memory, h.limit, h.sockets, fun q hq => (nomatch hq), List.nodup_nil, h.closedAll⟩
  | slot i => exact h.mapSock (fun k => k.freeSlot i) (h.sockets.freeSlot i)
  | wake i => exact h.mapSock (fun k => k.wakeSlot i) (h.sockets.wakeSlot i)
  | sid v => exact h.mapSock (fun k => { k with sid := v }) ⟨h.sockets.slots, h.sockets.mailNames, h.sockets.mailDistinct, h.sockets.replyNames⟩
  | dns =>
    have hk := h.sockets.withMail _ (h.sockets.mailOk.congr (foldl_mailAbandon_names s.sock.dnsReply.toList _))
    exact h.mapSock
      (fun k => { k with dnsReply := none, mail := (k.dnsReply.toList).foldl mailAbandon k.mail })
      ⟨hk.slots, hk.mailNames, hk.mailDistinct, hk.replyNames⟩
  | _ => exact h.same

theorem StateOk.putAll {s : State} (h : StateOk s) : ∀ l : List Put, StateOk (putAll l s)
  | [] => h
  | u :: l => (h.put u).putAll l

/-- An event offered to one queue keeps the names apart. -/
theorem StateOk.offerTo {s : State} (h : StateOk s) (id : Nat) (ev : Event) : StateOk (offerTo id ev s) := by
  unfold Machine.offerTo
  split
  · exact h
  · have hm : (s.hif.subs.map fun q => if q.id = id then (⟨id, some ev⟩ : Queue) else q).map (·.id) =
        s.hif.subs.map (·.id) := by
      rw [List.map_map]
      refine List.map_congr_left fun q _ => ?_
      simp only [Function.comp]
      split
      · rename_i hq; exact hq.symm
      · rfl
    refine ⟨h.memory, h.limit, h.sockets, ?_, ?_, h.closedNames⟩
    · intro q hq
      have : q.id ∈ s.hif.subs.map (·.id) := hm ▸ List.mem_map_of_mem hq
      obtain ⟨a, ha, he⟩ := List.mem_map.mp this
      exact he ▸ h.openNames a ha
    · exact (congrArg List.Nodup hm).mpr h.openDistinct
  · rename_i x old hf
    have hx := List.mem_of_find?_eq_some hf
    have hid := List.find?_some hf
    refine ⟨h.memory, h.limit, h.sockets, fun q hq => h.openNames q (List.mem_of_mem_filter hq),
      h.openDistinct.sublist (List.Sublist.map _ List.filter_sublist), ?_⟩
    intro q hq
    rcases List.mem_append.mp hq with hq | hq
    · exact h.closedNames q hq
    · rw [List.mem_singleton.mp hq]
      have : x = id := by simpa using hid
      exact this ▸ h.openNames _ hx

/-- Every action keeps the invariant. -/
theorem perform_stateOk {s : State} (h : StateOk s) (a : Action) (ag : Agent) : StateOk (perform a ag s).2 := by
  cases a with
  | acquire => simp only [perform, doAcquire]; split <;> exact h.same
  | put u => exact h.put u
  | lockT => simp only [perform, doLockT]; split <;> exact h.same
  | scanChunk =>
    have h1 := (h.busOnly (chipSelect_busOnly true s)).readChunk
    simp only [perform, doScanChunk]
    split
    · exact h
    · split
      · rename_i e s1 h'; rw [h'] at h1; exact h1.busOnly (chipSelect_busOnly false s1)
      · rename_i d s1 h'; rw [h'] at h1; exact h1.busOnly (chipSelect_busOnly false s1)
  | build c => exact h.same
  | cmdWr last =>
    have hb := busStep_busOnly (frameBytes s.fr) s
    simp only [perform, doCmdWr]
    split
    · rename_i s1 h'; rw [h'] at hb; exact h.busOnly hb
    · rename_i r s1 h'; rw [h'] at hb; exact (h.busOnly hb).same
  | rspRd next =>
    have hb := busStep_busOnly (filler 2) s
    simp only [perform, doRspRd]
    split
    · rename_i r0 r1 s1 h'
      rw [h'] at hb
      split
      · exact (h.busOnly hb).same
      · exact (h.busOnly hb).same
    · rename_i r s1 _ h'; rw [h'] at hb; exact h.busOnly hb
  | chunkRd =>
    have h1 := (h.busOnly (chipSelect_busOnly true s)).readChunk
    simp only [perform, doChunkRd]
    split
    · rename_i e s1 h'; rw [h'] at h1; exact h1.busOnly (chipSelect_busOnly false s1)
    · rename_i d s1 h'
      rw [h'] at h1
      have h2 := h1.busOnly (chipSelect_busOnly false s1)
      split
      · exact h2.same
      · exact h2
  | chunkWr src =>
    have hb := busStep_busOnly
      (chunkBytes (tagSeq s.fr.dfIx s.fr.dfRem (chunkSize s.fr)) (nextPayload s.fr (padBlock (src.load s.mem)))
        s.fr.crcEn) s
    simp only [perform, doChunkWr]
    split
    · rename_i s1 h'; rw [h'] at hb; exact h.busOnly hb
    · rename_i r s1 h'
      rw [h'] at hb
      have h1 : StateOk s1 := h.busOnly hb
      split <;> exact h1.same
  | drspRd =>
    have hb := busStep_busOnly (filler (drspLen s.params s.fr.crcEn)) s
    simp only [perform, doDrspRd]
    split
    · rename_i s1 h'; rw [h'] at hb; exact h.busOnly hb
    · rename_i d s1 h'
      rw [h'] at hb
      have h1 : StateOk s1 := h.busOnly hb
      split <;> exact h1.same
  | recoverReset =>
    exact ((h.buildFrame .reset).busOnly (busStep_busOnly (frameBytes (Machine.buildFrame .reset s).fr) _)).same
  | failed e =>
    simp only [perform, doFailed]
    split
    · split <;> exact h.same
    · exact h.same
  | tagChunk seq payload =>
    have hb := busStep_busOnly (chunkBytes seq payload s.fr.crcEn) s
    simp only [perform, doTagChunk]
    split
    · rename_i s1 h'; rw [h'] at hb; exact h.busOnly hb
    · rename_i r s1 h'; rw [h'] at hb; exact (h.busOnly hb).same
  | lockS => simp only [perform, doLockS]; split <;> exact h.same
  | offer id ev => exact h.offerTo id ev
  | openQueue =>
    refine ⟨h.memory, h.limit, h.sockets, ?_, ?_, fun q hq => Nat.lt_succ_of_lt (h.closedNames q hq)⟩
    · intro q hq
      rcases List.mem_append.mp hq with hq | hq
      · exact Nat.lt_succ_of_lt (h.openNames q hq)
      · rw [List.mem_singleton.mp hq]
        exact Nat.lt_succ_self _
    · show ((s.hif.subs ++ [(⟨s.env.nextQueue, none⟩ : Queue)]).map (·.id)).Nodup
      rw [List.map_append]
      refine List.Nodup.append h.openDistinct (by simp) fun a ha hb => ?_
      obtain ⟨q, hq, rfl⟩ := List.mem_map.mp ha
      have := h.openNames q hq
      have : q.id = s.env.nextQueue := by simpa using hb
      omega
  | drawCollab call => simp only [perform, doDrawCollab]; split <;> exact h.same
  | fillSpan sp b => exact h.setMem _ (Memory.wf_memWriteBytes _ _ _ h.memory)
  | scrambleSpan sp => exact (h.setMem _ (Memory.wf_memWriteBytes _ _ _ h.memory)).same
  | lockSlot i =>
    simp only [perform, doLockSlot]
    split
    · exact h
    · exact h.setLock i fun _ => _
  | leave i => exact h.setLock i fun l => l.drop ag
  | nextSid =>
    simp only [perform, doNextSid]
    split
    · exact h
    · exact h.mapSock (fun k => { k with sid := k.sid + 1 })
        ⟨h.sockets.slots, h.sockets.mailNames, h.sockets.mailDistinct, h.sockets.replyNames⟩
  | insertReply i sid kind =>
    simp only [perform, doInsertReply]
    split
    · rename_i ho
      obtain ⟨hu, hd, -⟩ := Sockets.owns_iff.mp ho
      exact ⟨h.memory, h.limit, h.sockets.insert i sid kind hu hd, h.openNames, h.openDistinct, h.closedNames⟩
    · exact h
  | removeReply i m => exact h.mapSock (fun k => k.dropReply i m) (h.sockets.dropReply i m)
  | waitReply i m b =>
    have hd := h.mapSock (fun k => k.dropReply i m) (h.sockets.dropReply i m)
    simp only [perform, doWaitReply]
    split
    · exact hd
    · split
      · exact hd
      · exact h
    · exact hd
    · exact hd
  | updSlot i u =>
    simp only [perform, doUpdSlot]
    split
    · rename_i ho
      obtain ⟨hu, hd, -⟩ := Sockets.owns_iff.mp ho
      exact h.setSlot i u.apply (fun x e he => by rwa [SlotUpd.apply_replies] at he) ((h.sockets.slots i).updated hu hd u)
    · exact h
  | tryLock i =>
    simp only [perform, doTryLock]
    split
    · exact h
    · exact h.setLock i fun _ => _
  | allocSlot i sid ssl off =>
    simp only [perform, doAllocSlot]
    split
    · exact h.setSlot i (allocated i sid ssl off) (fun _ e he => by simp [allocated] at he)
        (SlotOk.inUse rfl rfl SlotState.noConfusion SlotState.noConfusion)
    · exact h
  | beginClose i =>
    simp only [perform, doBeginClose]
    split
    · rename_i ho
      obtain ⟨hu, -, -⟩ := Sockets.owns_iff.mp ho
      exact h.setSlot i (fun x => { x with state := .closing, desc := 0xFF }) (fun _ _ he => he)
        ⟨fun _ => ⟨SlotState.noConfusion, rfl⟩, fun hn => absurd (hu.symm.trans hn) Bool.noConfusion⟩
    · exact h
  | freeSlot i =>
    simp only [perform, doFreeSlot]
    split
    · exact h.mapSock (fun k => k.freeSlot i) (h.sockets.freeSlot i)
    · exact h
  | acceptOpen i =>
    simp only [perform, doAcceptOpen]
    split
    · rename_i ho
      obtain ⟨hu, hd, -⟩ := Sockets.owns_iff.mp ho
      obtain ⟨h1, h2⟩ := (h.sockets.slots i).of_valid hu hd
      have hs := (h.sockets.setSlot i (fun x => { x with acceptWaiters := x.acceptWaiters ++ [s.env.nextMail] })
        (fun _ _ he => he) (SlotOk.inUse hu hd h1 h2)).add .waiting
      exact ⟨h.memory, h.limit, hs, h.openNames, h.openDistinct, h.closedNames⟩
    · exact h
  | acceptWait i m b =>
    have hd := h.mapSock (fun k => k.dropAccept i m) (h.sockets.dropAccept i m)
    simp only [perform, doAcceptWait]
    split
    · exact hd
    · split
      · exact h.mapSock (fun k => (k.setSlot i takeAccept).dropAccept i m)
          ((h.sockets.setSlot i takeAccept (fun _ _ he => he)
            ((h.sockets.slots i).congr (hq := fun _ => rfl))).dropAccept i m)
      · split
        · exact hd
        · exact h
  | acceptPeek i m b =>
    have hd := h.mapSock (fun k => k.dropAccept i m) (h.sockets.dropAccept i m)
    simp only [perform, doAcceptPeek]
    split
    · exact hd
    · split
      · exact h
      · split
        · exact hd
        · exact h
  | quiesce =>
    simp only [perform, doQuiesce]
    split
    · exact h.same
    · exact h
  | acceptTake i m =>
    have hd := h.mapSock (fun k => k.dropAccept i m) (h.sockets.dropAccept i m)
    simp only [perform, doAcceptTake]
    split
    · exact hd
    · split
      · exact h.mapSock (fun k => (k.setSlot i takeAccept).dropAccept i m)
          ((h.sockets.setSlot i takeAccept (fun _ _ he => he)
            ((h.sockets.slots i).congr (hq := fun _ => rfl))).dropAccept i m)
      · exact h
  | fillMail m r => exact h.mapSock (fun k => Machine.fillMail k m r) (h.sockets.fillMail m r)
  | setRxwin i addr rem sender =>
    refine h.setSlot i (openWindow addr rem sender) (fun x e he => ?_) ?_
    · unfold openWindow at he
      split at he <;> exact he
    · unfold openWindow
      split
      · rename_i hu; exact ⟨(h.sockets.slots i).used, fun hn => absurd (hu.symm.trans hn) Bool.noConfusion⟩
      · exact h.sockets.slots i
  | allocConn c q sid off =>
    simp only [perform, doAllocConn]
    split
    · exact h.setSlot c (connAllocated c sid (s.sock.slot q).ssl off) (fun _ e he => by simp [connAllocated] at he)
        (SlotOk.inUse rfl rfl SlotState.noConfusion SlotState.noConfusion)
    · exact h
  | acceptPut q r =>
    refine h.setSlot q (acceptPut r) (fun x e he => ?_) ?_
    · unfold Machine.acceptPut at he
      split at he <;> exact he
    · unfold Machine.acceptPut
      split
      · rename_i hu
        have hu : (s.sock.slot q).inUse = true := (Bool.and_eq_true_iff.mp hu).1
        exact ⟨(h.sockets.slots q).used, fun hn => absurd (hu.symm.trans hn) Bool.noConfusion⟩
      · exact h.sockets.slots q
  | dnsOpen =>
    have hs := h.sockets.add .waiting
    exact ⟨h.memory, h.limit, ⟨hs.slots, hs.mailNames, hs.mailDistinct, hs.replyNames⟩, h.openNames, h.openDistinct, h.closedNames⟩
  | dnsWait m b =>
    have hs : SocketsOk s.env.nextMail (s.sock.dropDns m) :=
      ⟨h.sockets.slots, (h.sockets.withMail _ (h.sockets.mailOk.del m)).mailNames,
        (h.sockets.withMail _ (h.sockets.mailOk.del m)).mailDistinct, h.sockets.replyNames⟩
    have hd := h.mapSock (fun k => k.dropDns m) hs
    simp only [perform, doDnsWait]
    split
    · exact hd
    · split
      · exact hd
      · exact h
    · exact hd
    · exact hd
  | dnsClose m =>
    have hs := h.sockets.withMail _ (h.sockets.mailOk.del m)
    exact h.mapSock (fun k => k.dropDns m) ⟨hs.slots, hs.mailNames, hs.mailDistinct, h.sockets.replyNames⟩
  | dnsFill r =>
    simp only [perform, doDnsFill]
    split
    · exact h
    · split
      · exact h.mapSock (fun k => Machine.fillMail k _ r) (h.sockets.fillMail _ r)
      · exact h
  | _ => exact h.same

end Sys2Proof.Machine
end

