-- ==== Sys2Proof/Laws/Held.lean ====
section
/-!
SUPPORT. While a caller holds a slot's lock, the slot keeps its registry of waiting replies, whatever else goes on, until
the caller itself changes it (R253, R287 b).
-/

namespace Sys2Proof.Machine

/-- Slot `i` is held by caller `id`, its registry is `l`. -/
def Registered (i : Fin 11) (id : Nat) (l : List ReplyEntry) (s : State) : Prop :=
  (s.sock.slot i).lock = .held (.caller id) ∧ (s.sock.slot i).replies = l

/-- The actions that change no registry of a slot that another agent holds. -/
def Action.spares : Action → Bool
  | .put (.slot _) => false
  | .removeReply .. => false
  | .waitReply .. => false
  | _ => true

/-- Those of them that neither release a slot nor change its registry, whoever holds it. -/
def Action.keepsHeld : Action → Bool
  | .leave _ => false
  | .insertReply .. => false
  | .freeSlot _ => false
  | .allocSlot .. => false
  | .allocConn .. => false
  | a => a.spares

section
variable {i : Fin 11} {id : Nat} {l : List ReplyEntry}

theorem Registered.of_sock {s t : State} (h : Registered i id l s) (ht : t.sock = s.sock) : Registered i id l t := by
  rw [Registered, ht]; exact h

/-- A slot changed in neither its lock nor its registry. -/
theorem Registered.setSlot {s : State} (h : Registered i id l s) (j : Fin 11) (f : Slot → Slot)
    (hf : ∀ x, (f x).lock = x.lock ∧ (f x).replies = x.replies) :
    Registered i id l (s.mapSock fun k => k.setSlot j f) := by
  rw [Registered, State.mapSock_sock, Sockets.slot_setSlot]
  split
  · rename_i hj; subst hj; exact ⟨(hf _).1.trans h.1, (hf _).2.trans h.2⟩
  · exact h

/-- Another slot changed. -/
theorem Registered.setOther {s : State} (h : Registered i id l s) {j : Fin 11} (hj : i ≠ j) (f : Slot → Slot) :
    Registered i id l (s.mapSock fun k => k.setSlot j f) := by
  rw [Registered, State.mapSock_sock, Sockets.slot_setSlot_ne _ _ hj]; exact h

/-- The slot held by an agent that does not hold slot `i` is another one. -/
theorem Registered.other {s : State} (h : Registered i id l s) {ag : Agent} (ho : ag ≠ .caller id) {j : Fin 11}
    (hj : (s.sock.slot j).lock = .held ag) : i ≠ j := by
  rintro rfl
  rw [h.1] at hj
  exact ho (by injection hj with hj; exact hj.symm)

theorem Registered.dropAccept {s : State} (h : Registered i id l s) (j : Fin 11) (m : Nat) :
    Registered i id l (s.mapSock fun k => k.dropAccept j m) :=
  h.setSlot j (fun x => { x with acceptWaiters := x.acceptWaiters.filter fun w => w ≠ m }) fun _ => ⟨rfl, rfl⟩

theorem Registered.fillMail {s : State} (h : Registered i id l s) (m : Nat) (r : Reply) :
    Registered i id l (s.mapSock fun k => fillMail k m r) := by
  rw [Registered, State.mapSock_sock]
  unfold Machine.fillMail
  split <;> exact h

theorem readChunk_sock (s : State) : (readChunk s).2.sock = s.sock := by
  have h1 := (scanTag_busOnly tagScanMax s).sock
  unfold readChunk
  split
  · rename_i e s1 he; rw [he] at h1; exact h1
  · rename_i s1 he
    rw [he] at h1
    have h2 := (xferBuf_busOnly (filler (chunkSize s.fr)) s1).sock
    split
    · rename_i s2 he2; rw [he2] at h2; exact h2.trans h1
    · rename_i d s2 he2
      rw [he2] at h2
      have h3 := (xferBuf_busOnly (chunkCrc s.fr.crcEn) s2).sock
      split
      · rename_i s3 he3; rw [he3] at h3; exact h3.trans (h2.trans h1)
      · rename_i r s3 he3; rw [he3] at h3; exact h3.trans (h2.trans h1)

/-- An action of another agent, or one that touches no held slot, keeps the slot held and its registry as it is. -/
theorem perform_registered {a : Action} {ag : Agent} (hs : a.spares = true)
    (ho : ag ≠ .caller id ∨ a.keepsHeld = true) {s : State} (h : Registered i id l s) :
    Registered i id l (perform a ag s).2 := by
  cases a with
  | put u =>
    cases u with
    | slot j => cases hs
    | _ => exact h
  | removeReply j m => cases hs
  | waitReply j m b => cases hs
  | acquire => simp only [perform, doAcquire]; split <;> exact h
  | lockT => simp only [perform, doLockT]; split <;> exact h
  | cmdWr last =>
    have h1 := (busStep_busOnly (frameBytes s.fr) s).sock
    simp only [perform, doCmdWr]
    split
    · rename_i s1 he; rw [he] at h1; exact h.of_sock h1
    · rename_i r s1 he; rw [he] at h1; exact h.of_sock h1
  | rspRd next =>
    have h1 := (busStep_busOnly (filler 2) s).sock
    simp only [perform, doRspRd]
    split
    · rename_i r0 r1 s1 he; rw [he] at h1; dsimp only at h1 ⊢; split <;> exact h.of_sock h1
    · rename_i r s1 _ he; rw [he] at h1; exact h.of_sock h1
  | chunkRd =>
    have h1 := readChunk_sock (chipSelect true s)
    simp only [perform, doChunkRd]
    split
    · rename_i e s1 he; rw [he] at h1; exact h.of_sock h1
    · rename_i d s1 he; rw [he] at h1; dsimp only at h1 ⊢; split <;> exact h.of_sock h1
  | chunkWr src =>
    have h1 := (busStep_busOnly
      (chunkBytes (tagSeq s.fr.dfIx s.fr.dfRem (chunkSize s.fr)) (nextPayload s.fr (padBlock (src.load s.mem)))
        s.fr.crcEn) s).sock
    simp only [perform, doChunkWr]
    split
    · rename_i s1 he; rw [he] at h1; exact h.of_sock h1
    · rename_i r s1 he; rw [he] at h1; dsimp only at h1 ⊢; split <;> exact h.of_sock h1
  | drspRd =>
    have h1 := (busStep_busOnly (filler (drspLen s.params s.fr.crcEn)) s).sock
    simp only [perform, doDrspRd]
    split
    · rename_i s1 he; rw [he] at h1; exact h.of_sock h1
    · rename_i d s1 he; rw [he] at h1; dsimp only at h1 ⊢; split <;> exact h.of_sock h1
  | failed e =>
    simp only [perform, doFailed]
    split
    · split <;> exact h
    · exact h
  | recoverReset =>
    exact h.of_sock (busStep_busOnly (frameBytes (buildFrame .reset s).fr) (buildFrame .reset s)).sock
  | tagChunk seq payload =>
    have h1 := (busStep_busOnly (chunkBytes seq payload s.fr.crcEn) s).sock
    simp only [perform, doTagChunk]
    split
    · rename_i s1 he; rw [he] at h1; exact h.of_sock h1
    · rename_i r s1 he; rw [he] at h1; exact h.of_sock h1
  | scanChunk =>
    have h1 := readChunk_sock (chipSelect true s)
    simp only [perform, doScanChunk]
    split
    · exact h
    · split
      · rename_i e s1 he; rw [he] at h1; exact h.of_sock h1
      · rename_i d s1 he; rw [he] at h1; exact h.of_sock h1
  | lockS => simp only [perform, doLockS]; split <;> exact h
  | offer q ev => simp only [perform, offerTo]; split <;> exact h
  | drawCollab call => simp only [perform, doDrawCollab]; split <;> exact h
  | lockSlot j =>
    simp only [perform, doLockSlot]
    split
    · exact h
    · rename_i lk hl
      refine h.setOther ?_ _
      rintro rfl
      rw [h.1] at hl
      cases hl
  | tryLock j =>
    simp only [perform, doTryLock]
    split
    · exact h
    · rename_i lk hl
      refine h.setOther ?_ _
      rintro rfl
      rw [h.1] at hl
      cases hl
  | leave j =>
    rcases ho with ho | ho
    · simp only [perform, doLeave]
      rw [Registered, State.mapSock_sock, Sockets.slot_setSlot]
      split
      · rename_i hj
        subst hj
        refine ⟨?_, h.2⟩
        show Lock.drop (s.sock.slot i).lock ag = _
        rw [h.1, Lock.drop, if_neg]
        exact fun hl => ho (by injection hl with hl; exact hl.symm)
      · exact h
    · cases ho
  | nextSid => simp only [perform, doNextSid]; split <;> exact h
  | insertReply j sid kind =>
    rcases ho with ho | ho
    · simp only [perform, doInsertReply]
      split
      · rename_i hj
        have hn := h.other ho (Sockets.owns_iff.mp hj).2.2
        exact h.setOther hn fun x =>
          { x with sid := sid, replies := ⟨sid, kind, s.env.nextMail⟩ :: x.replies.filter fun e => e.sid ≠ sid }
      · exact h
    · cases ho
  | updSlot j u =>
    simp only [perform, doUpdSlot]
    split
    · exact h.setSlot j u.apply fun x => by cases u <;> exact ⟨rfl, rfl⟩
    · exact h
  | allocSlot j sid ssl off =>
    rcases ho with ho | ho
    · simp only [perform, doAllocSlot]
      split
      · rename_i hj
        simp only [mayAllocate, Bool.and_eq_true, decide_eq_true_eq] at hj
        exact h.setOther (h.other ho hj.2) _
      · exact h
    · cases ho
  | beginClose j =>
    simp only [perform, doBeginClose]
    split
    · exact h.setSlot j _ fun x => ⟨rfl, rfl⟩
    · exact h
  | freeSlot j =>
    rcases ho with ho | ho
    · simp only [perform, doFreeSlot]
      split
      · rename_i hj
        exact (h.setOther (h.other ho hj) freed :)
      · exact h
    · cases ho
  | acceptOpen j =>
    simp only [perform, doAcceptOpen]
    split
    · exact h.setSlot j (fun x => { x with acceptWaiters := x.acceptWaiters ++ [s.env.nextMail] }) fun x => ⟨rfl, rfl⟩
    · exact h
  | acceptWait j m b =>
    simp only [perform, doAcceptWait]
    split
    · exact h.dropAccept j m
    · split
      · exact (h.setSlot j takeAccept fun x => ⟨rfl, rfl⟩).dropAccept j m
      · split
        · exact h.dropAccept j m
        · exact h
  | acceptPeek j m b =>
    simp only [perform, doAcceptPeek]
    split
    · exact h.dropAccept j m
    · split
      · exact h
      · split
        · exact h.dropAccept j m
        · exact h
  | acceptTake j m =>
    simp only [perform, doAcceptTake]
    split
    · exact h.dropAccept j m
    · split
      · exact (h.setSlot j takeAccept fun x => ⟨rfl, rfl⟩).dropAccept j m
      · exact h
  | fillMail m r => exact h.fillMail m r
  | setRxwin j a r f =>
    exact h.setSlot j _ fun x => by unfold openWindow; split <;> exact ⟨rfl, rfl⟩
  | allocConn c p sid off =>
    rcases ho with ho | ho
    · simp only [perform, doAllocConn]
      split
      · rename_i hj
        simp only [mayAllocate, Bool.and_eq_true, decide_eq_true_eq] at hj
        exact h.setOther (h.other ho hj.2) _
      · exact h
    · cases ho
  | acceptPut p r =>
    exact h.setSlot p _ fun x => by unfold acceptPut; split <;> exact ⟨rfl, rfl⟩
  | dnsWait m b =>
    simp only [perform, doDnsWait]
    split
    · exact h
    · split <;> exact h
    · exact h
    · exact h
  | dnsFill r =>
    simp only [perform, doDnsFill]
    split
    · exact h
    · split
      · exact h.fillMail _ r
      · exact h
  | quiesce => simp only [perform, doQuiesce]; split <;> exact h
  | _ => exact h

end

/-! ### Programs that spare what others hold -/

/-- Changes no registry of a slot that another agent holds. -/
def Spares (a : Action) : Prop := a.spares = true

/-- Neither releases a slot nor changes a registry. -/
def KeepsHeld (a : Action) : Prop := a.keepsHeld = true

theorem KeepsHeld.spares {a : Action} (h : KeepsHeld a) : Spares a := by
  cases a <;> first | exact h | cases h

theorem Prog.Only.mono {α : Type} {P Q : Action → Prop} (hPQ : ∀ a, P a → Q a) {p : Prog α} (h : p.Only P) :
    p.Only Q := by
  induction h with
  | ret a => exact .ret a
  | act a k ha _ ih => exact .act a k (hPQ a ha) ih
  | mark p _ ih => exact .mark p ih
  | back => exact .back
  | refuse r => exact .refuse r

theorem Boots.keepsHeld {a : Action} (h : Boots a) : KeepsHeld a := by cases h <;> rfl

theorem readReg_keepsHeld (a : Addr) : (readReg a).Only KeepsHeld := (readReg_boots a).mono fun _ => Boots.keepsHeld

theorem writeReg_keepsHeld (a : Addr) (v : Word) : (writeReg a v).Only KeepsHeld :=
  (writeReg_boots a v).mono fun _ => Boots.keepsHeld

theorem setRegBit_keepsHeld (a : Addr) (b : Fin 32) : (setRegBit a b).Only KeepsHeld :=
  (setRegBit_boots a b).mono fun _ => Boots.keepsHeld

theorem clearRegBit_keepsHeld (a : Addr) (b : Fin 32) : (clearRegBit a b).Only KeepsHeld :=
  .tryBind (readReg_keepsHeld a) fun _ => writeReg_keepsHeld _ _

theorem writeChunks_keepsHeld (src : Source) : ∀ n : Nat, (writeChunks src n).Only KeepsHeld
  | 0 => .ret _
  | n + 1 => .act _ _ rfl fun v => by
    split
    · exact .ret _
    · exact writeChunks_keepsHeld src n
    · exact .ret _

theorem dataPhase_keepsHeld (d : DataPhase) : (dataPhase d).Only KeepsHeld := by
  cases d with
  | absent => exact .ret _
  | read n into => exact .andThen rfl ((readChunks_boots _ _).mono fun _ => Boots.keepsHeld)
  | write src =>
    refine .andThen rfl (.bind (writeChunks_keepsHeld _ _) fun r => ?_)
    split
    · exact .raise _
    · refine .act _ _ rfl fun v => ?_
      split
      · exact .raise _
      · exact .ret _

theorem attempts_keepsHeld (c : Cmd) (d : DataPhase) : ∀ n : Nat, (attempts c d n).Only KeepsHeld
  | 0 => .andThen rfl (.raise _)
  | n + 1 => by
    refine .bind (.andThen rfl (.act _ _ rfl fun v => ?_)) fun r => ?_
    · split
      · exact .raise _
      · refine .act _ _ rfl fun w => ?_
        split
        · exact .raise _
        · exact dataPhase_keepsHeld d
    · split
      · exact .andThen rfl (.ret _)
      · refine .act _ _ rfl fun v => ?_
        split
        · exact .andThen rfl (.andThen rfl (attempts_keepsHeld c d n))
        · exact .andThen rfl (.raise _)

theorem runExchange_keepsHeld (c : Cmd) (d : DataPhase) : (runExchange c d).Only KeepsHeld :=
  .andThen rfl (attempts_keepsHeld c d _)

theorem devRead_keepsHeld (a : Word) (n : Nat) (into : DataRef) : (devRead a n into).Only KeepsHeld := by
  unfold devRead
  split
  · exact .tryBind (runExchange_keepsHeld _ _) fun _ => .ret _
  · exact .refuse _

theorem writePieces_keepsHeld : ∀ (n a : Nat) (src : Source), (writePieces n a src).Only KeepsHeld
  | 0, _, _ => .ret _
  | n + 1, a, src => by
    unfold writePieces
    split
    · exact .ret _
    · refine .tryBind ?_ fun _ => writePieces_keepsHeld n _ _
      unfold writePiece
      split
      · exact .tryBind (runExchange_keepsHeld _ _) fun _ => .ret _
      · exact .refuse _

theorem devWriteSome_keepsHeld (a : Nat) (v : Bytes) : (devWriteSome a v).Only KeepsHeld := by
  unfold devWriteSome
  split
  · exact .ret _
  · exact writePieces_keepsHeld _ _ _

theorem withSession_keepsHeld {α : Type} {body : Prog α} (h : body.Only KeepsHeld) :
    (withSession body).Only KeepsHeld :=
  .andThen rfl (.bind h fun _ => .andThen rfl (.ret _))

theorem wakePoll_keepsHeld (p : Params) : ∀ n : Nat, (wakePoll p n).Only KeepsHeld
  | 0 => .raise _
  | n + 1 => .tryBind (readReg_keepsHeld _) fun c => by
    split
    · exact .andThen rfl (.ret _)
    · exact .andThen rfl (wakePoll_keepsHeld p n)

theorem chipWake_keepsHeld (p : Params) : (chipWake p).Only KeepsHeld := .act _ _ rfl fun v => by
  split
  · exact .ret _
  · exact .tryBind (setRegBit_keepsHeld _ _) fun _ => .tryBind (setRegBit_keepsHeld _ _) fun _ =>
      .andThen rfl (wakePoll_keepsHeld p _)

theorem chipSleep_keepsHeld (p : Params) : (chipSleep p).Only KeepsHeld := .act _ _ rfl fun v => by
  split
  · exact .tryBind (clearRegBit_keepsHeld _ _) fun _ => .tryBind (clearRegBit_keepsHeld _ _) fun _ =>
      .andThen rfl (.ret _)
  · exact .ret _

theorem dmaPoll_keepsHeld (p : Params) : ∀ n k : Nat, (dmaPoll p k n).Only KeepsHeld
  | 0, _ => .ret _
  | n + 1, k => .tryBind (readReg_keepsHeld _) fun w => by
    split
    · exact .tryBind (readReg_keepsHeld _) fun _ => .ret _
    · split
      · exact .andThen rfl (dmaPoll_keepsHeld p n _)
      · exact dmaPoll_keepsHeld p n _

theorem ifReady_keepsHeld {α : Type} {body : Prog (Except Err α)} (h : body.Only KeepsHeld) :
    (ifReady body).Only KeepsHeld := .act _ _ rfl fun v => by
  split
  · exact h
  · exact .raise _

theorem hifSend_keepsHeld (p : Params) (g op : Byte) (c d : Bytes) (off : Nat) :
    (hifSend p g op c d off).Only KeepsHeld := by
  refine ifReady_keepsHeld (withSession_keepsHeld ?_)
  split
  · exact .raise _
  · refine .bind (.tryBind (chipWake_keepsHeld p) fun _ => .tryBind (writeReg_keepsHeld _ _) fun _ =>
      .tryBind (dmaPoll_keepsHeld p _ _) fun dma => ?_) fun _ => .bind (chipSleep_keepsHeld p) fun _ => .ret _
    split
    · exact .raise _
    · split
      · exact .raise _
      · exact .tryBind (writePieces_keepsHeld _ _ _) fun _ => .tryBind (devWriteSome_keepsHeld _ _) fun _ =>
          .tryBind (devWriteSome_keepsHeld _ _) fun _ => writeReg_keepsHeld _ _

theorem rxDone_keepsHeld (p : Params) : (rxDone p).Only KeepsHeld :=
  .tryBind (setRegBit_keepsHeld _ _) fun _ => .andThen rfl (.ret _)

theorem receive_keepsHeld (p : Params) (a : Word) (n : Nat) (done : Bool) (into : Option Span) :
    (receive p a n done into).Only KeepsHeld := by
  have hd : (rxDoneIfDue p a n done).Only KeepsHeld := .act _ _ rfl fun v => by
    split
    · exact rxDone_keepsHeld p
    · exact .ret _
  refine ifReady_keepsHeld (.act _ _ rfl fun v => ?_)
  split
  · refine .act _ _ rfl fun w => ?_
    split
    · exact .raise _
    · refine .act _ _ rfl fun u => ?_
      split
      · exact .raise _
      · refine .tryBind ?_ fun b => ?_
        · unfold devReadSome
          split
          · exact .ret _
          · exact devRead_keepsHeld _ _ _
        · split
          · exact .tryBind hd fun _ => .ret _
          · exact .andThen rfl (.tryBind hd fun _ => .ret _)
  · exact .raise _

/-! ### The worker's programs -/

theorem fetch_spares (p : Params) (r : RxRecord) (length : Int) (a : Word) (done : Bool) :
    (fetch p r length a done).Only Spares := by
  unfold fetch
  split
  · exact .ret _
  · refine .bind ((receive_keepsHeld p _ _ _ _).mono fun _ => KeepsHeld.spares) fun x => ?_
    split <;> exact .ret _

theorem cbMatch_spares (sock : BitVec 8) (sid : Option Half) (kind : Kind) (rep : Reply) :
    (cbMatch sock sid kind rep).Only Spares := .act _ _ rfl fun v => by
  split
  · exact .ret _
  · exact .andThen rfl (.ret _)

theorem cbAcceptPut_spares (i : Fin 11) (addr : SockAddr) (l c : BitVec 8) (x : Half) :
    (cbAcceptPut i addr l c x).Only Spares := .andThen rfl (.ret _)

theorem cbAcceptConn_spares (i : Fin 11) (addr : SockAddr) (l c : BitVec 8) (x : Half) :
    (cbAcceptConn i addr l c x).Only Spares := by
  unfold cbAcceptConn
  split
  · exact cbAcceptPut_spares ..
  · split
    · exact .ret _
    · refine .act _ _ rfl fun v => ?_
      split
      · refine .act _ _ rfl fun u => ?_
        split
        · exact .andThen rfl (.ret _)
        · exact .act _ _ rfl fun w => .andThen rfl (.andThen rfl (cbAcceptPut_spares ..))
      · exact .ret _

theorem cbRecvMatched_spares (p : Params) (a : Word) (addr : SockAddr) (count : BitVec 16) (off : Half) (sock : BitVec 8)
    (sid : Option Half) (m : Option Nat) : (cbRecvMatched p a addr count off sock sid m).Only Spares := by
  have hr := fun n done => (receive_keepsHeld p a n done none).mono fun _ => KeepsHeld.spares
  unfold cbRecvMatched
  dsimp only
  split
  · split
    · exact .andThen rfl (.andThen rfl (.ret _))
    · exact .bind (hr _ _) fun _ => .andThen rfl (.ret _)
  · exact .bind (hr _ _) fun _ => .ret _

theorem sockCb_spares (p : Params) (op : Byte) (length : Int) (a : Word) : (sockCb p op length a).Only Spares := by
  have hs : ∀ kind rec, (cbStatus p kind rec length a).Only Spares := fun kind rec =>
    .bind (fetch_spares ..) fun r => by split <;> first | exact cbMatch_spares .. | exact .ret _
  unfold sockCb
  dsimp only
  split
  · exact hs _ _
  split
  · exact hs _ _
  split
  · refine .bind (fetch_spares ..) fun r => ?_
    split
    · split
      · exact .ret _
      · refine .act _ _ rfl fun v => ?_
        split
        · exact cbAcceptConn_spares ..
        · exact .ret _
    · exact .ret _
  split
  · exact .bind (fetch_spares ..) fun r => by split <;> first | exact cbMatch_spares .. | exact .ret _
  split
  · exact .bind (fetch_spares ..) fun r => by split <;> first | exact cbMatch_spares .. | exact .ret _
  split
  · refine .bind (fetch_spares ..) fun r => ?_
    split
    · exact .act _ _ rfl fun v => cbRecvMatched_spares ..
    · exact .ret _
  split
  · refine .bind (fetch_spares ..) fun r => ?_
    split
    · refine .act _ _ rfl fun v => ?_
      split <;> exact .ret _
    · exact .ret _
  · exact .ret _

theorem collabReceives_spares (p : Params) : ∀ l : List (Word × Span × Bool), (collabReceives p l).Only Spares
  | [] => .ret _
  | (a, sp, done) :: rest => .bind ((receive_keepsHeld ..).mono fun _ => KeepsHeld.spares) fun r => by
    split
    · exact collabReceives_spares p rest
    · exact .andThen rfl (collabReceives_spares p rest)

theorem offerAll_spares {α : Type} {ev : Event} {p : Prog α} (h : p.Only Spares) :
    ∀ l : List Nat, (offerAll ev l p).Only Spares
  | [] => h
  | _ :: l => .andThen rfl (offerAll_spares h l)

theorem isrFinish_spares (p : Params) (g op : Byte) (a : CbAnswer) : (isrFinish p g op a).Only Spares := by
  have hl : (if a.2 then Prog.ret (Except.ok ()) else
      .act .getRxPend fun v => if v.toFlag then rxDone p else .ret (.ok ()) :
        Prog (Except Err Unit)).Only Spares := by
    split
    · exact .ret _
    · refine .act _ _ rfl fun v => ?_
      split
      · exact (rxDone_keepsHeld p).mono fun _ => KeepsHeld.spares
      · exact .ret _
  unfold isrFinish
  dsimp only
  split
  · exact hl
  · exact .act _ _ rfl fun v => offerAll_spares hl _

theorem isr_spares (p : Params) (given : Option Header) : (isr p given).Only Spares := by
  refine .tryBind ((withSession_keepsHeld ?_).mono fun _ => KeepsHeld.spares) fun x => ?_
  · refine .tryBind (readReg_keepsHeld _) fun r => .tryBind ?_ fun _ => .andThen rfl ?_
    · unfold ackRxIntr
      split
      · exact writeReg_keepsHeld _ _
      · exact .ret _
    · unfold isrWindow
      split
      · exact .ret _
      · refine .tryBind (readReg_keepsHeld _) fun a => .tryBind ?_ fun h => ?_
        · unfold readHeader
          split
          · exact .ret _
          · exact .tryBind (devRead_keepsHeld _ _ _) fun _ => .ret _
        · split
          · exact .andThen rfl (.andThen rfl (.andThen rfl (.ret _)))
          · exact .raise _
  · cases x with
    | none => exact .ret _
    | some w =>
      refine .act _ _ rfl fun v => ?_
      split
      · exact isrFinish_spares ..
      · refine .bind ?_ fun a => isrFinish_spares ..
        rename_i cb _
        cases cb with
        | socket => exact sockCb_spares ..
        | collaborator c => exact .act _ _ rfl fun v => .bind (collabReceives_spares _ _) fun _ => .ret _

theorem workerProg_spares (p : Params) (job : WorkerJob) : (workerProg p job).Only Spares := by
  cases job with
  | round =>
    refine .bind (.bind ((withSession_keepsHeld (chipWake_keepsHeld p)).mono fun _ => KeepsHeld.spares) fun r =>
      .andThen rfl (.bind ?_ fun _ => .andThen rfl (.bind
        ((withSession_keepsHeld (chipSleep_keepsHeld p)).mono fun _ => KeepsHeld.spares) fun _ => .ret _))) fun _ => .ret _
    cases r with
    | ok _ => exact isr_spares p none
    | error e => exact .raise e
  | isr n => exact isr_spares p none
  | packet n g op l => exact isr_spares p _

/-! ### Around a waiting caller -/

/-- What each action of a program keeps, and every hand-over, holds where its run ends or stops. -/
theorem Prog.Only.run_keeps {α : Type} {P : Action → Prop} {go : Action → State → Option Val × State} {I : State → Prop}
    (hgo : ∀ a s, P a → I s → I (go a s).2) (hho : ∀ s, I s → I (handOver s).2) {p : Prog α} (hp : p.Only P) :
    ∀ (todo sofar head : List Val) (s : State), I s → (p.run go todo sofar head s).Keeps I := by
  induction hp with
  | ret a => intro _ _ _ s hs; exact hs
  | act a k ha _ ih =>
    intro todo sofar head s hs
    cases todo with
    | cons v todo => exact ih v _ _ _ _ hs
    | nil =>
      have h1 := hgo a s ha hs
      simp only [Prog.run]
      split
      · rename_i s1 heq; rw [heq] at h1; exact h1
      · rename_i v s1 heq
        rw [heq] at h1
        split
        · exact hho _ h1
        · exact ih _ _ _ _ _ (hho _ h1)
  | mark p _ ih => intro todo sofar head s hs; exact ih _ _ _ _ hs
  | back => intro todo sofar head s hs; exact hs
  | refuse r => intro todo sofar head s _; trivial

section
variable {i : Fin 11} {id : Nat} {l : List ReplyEntry}

theorem workerRun_registered {s t : State} (h : Registered i id l s) (ht : workerRun s = .next t) :
    Registered i id l t := by
  have hk := (workerProg_spares s.params s.irq.wjob).run_keeps (I := Registered i id l)
    (fun a u ha hu => perform_registered (ag := .worker) ha (.inl nofun) hu) (fun u hu => hu) s.irq.wlog [] [] s h
  revert hk ht
  unfold workerRun
  cases (workerProg s.params s.irq.wjob).run (fun a t => perform a .worker t) s.irq.wlog [] [] s with
  | done r u =>
    intro ht hk
    cases ht
    refine Registered.of_sock (s := u) hk ?_
    unfold workerEnd
    cases u.irq.wjob <;> rfl
  | parked log u => intro ht hk; cases ht; exact hk
  | refused r => intro ht; cases ht

theorem workerTurn_registered {s t : State} (h : Registered i id l s) (ht : workerTurn s = .next t) :
    Registered i id l t := by
  unfold workerTurn at ht
  split at ht
  · cases ht; exact h
  · split at ht
    · cases ht; exact h
    · split at ht
      · exact workerRun_registered (s := takeGo s) h ht
      · cases ht; exact h
  all_goals exact workerRun_registered h ht

theorem serveInput_registered {s t : State} (h : Registered i id l s) {inp : Input}
    (ht : serveInput id inp s = some t) : Registered i id l t := by
  cases inp with
  | work =>
    simp only [serveInput] at ht
    split at ht
    · rename_i s1 he; cases ht; exact workerTurn_registered h he
    · cases ht
    · cases ht
  | expire e =>
    simp only [serveInput] at ht
    split at ht
    · cases ht; exact h
    · cases ht
  | consume q =>
    cases ht
    refine h.of_sock ?_
    unfold consumeQueue
    split
    · rfl
    · rfl
    · split <;> rfl
  | pin v => cases ht; exact h
  | store b bs => cases ht; exact h
  | request r => cases ht
  | resume t => cases ht

/-- What a caller that holds a slot waits for, its own action in the end apart, changes nothing in the slot's
registry. -/
theorem waitFor_registered {a : Action} (ha : KeepsHeld a) :
    ∀ (inputs : List Input) {s : State}, Registered i id l s → Registered i id l (waitFor a id inputs s).2
  | [], _, h => h
  | inp :: rest, s, h => by
    simp only [waitFor]
    split
    · exact h
    · rename_i s1 he
      have h1 := perform_registered (ag := .caller id) ha.spares (.inr ha) (serveInput_registered h he)
      split
      · rename_i v s2 hp; rw [hp] at h1; exact h1
      · rename_i s2 hp
        rw [hp] at h1
        exact waitFor_registered ha rest (s := dropExpiry s2) h1

theorem callerGo_registered {a : Action} (ha : KeepsHeld a) {s : State} (h : Registered i id l s) :
    Registered i id l (callerGo id a s).2 := by
  have h1 := perform_registered (ag := .caller id) ha.spares (.inr ha) h
  simp only [callerGo]
  split
  · rename_i v s1 hp; rw [hp] at h1; exact h1
  · rename_i s1 hp
    rw [hp] at h1
    exact waitFor_registered ha _ (s := dropExpiry s1) h1

/-- A packet sent by the caller that holds a slot: the slot stays held, and its registry as it is, whatever goes on
meanwhile (R208, R253). -/
theorem Runs.hifSend_registered {p : Params} {g op : Byte} {c d : Bytes} {off : Nat} {s t : State} {r : Except Err Unit}
    (h : Runs id (hifSend p g op c d off) s r t) (hs : Registered i id l s) : Registered i id l t :=
  (hifSend_keepsHeld p g op c d off).eval_keeps (fun _ _ ha h => callerGo_registered ha h) (fun _ h => h) h hs

end

end Sys2Proof.Machine
end

