-- ==== Sys2Proof/Laws/Inbound.lean ====
section
/-!
SUPPORT. A packet received of one of the rows, as the worker runs it: what follows the callback, and the round as a
whole, whatever the callback answers (spec/42_hif.md R211 to R219; spec/60_exceptions.md R382; logs 10, 16).
-/

namespace Sys2Proof.Machine

variable {go : Action → State → Option Val × State} {ag : Agent}

/-- An event offered, where the callback answered with a payload (R211, R215). -/
def offeredFor (group opcode : Byte) (pl : Option Payload) (s : State) : State :=
  match pl with
  | none => s
  | some x => offered ⟨group, opcode, x⟩ s

theorem Respects.offeredFor (group opcode : Byte) (pl : Option Payload) : Respects (offeredFor group opcode pl) := by
  cases pl with
  | none => exact Respects.id
  | some x => exact Respects.offered _

/-- What follows the callback: the payload is broadcast, and RX-done given where it is pending and not deferred (R211,
R215, R216, R382). -/
theorem isrFinish_any (hgo : Agrees go ag) (p : Params) (group opcode : Byte) (pl : Option Payload) (defer : Bool)
    (w : Word) {s : State} {pend : Bool} (hn : (s.hif.subs.map (·.id)).Nodup) (hp : s.hif.rxPend = pend) :
    Serves go (isrFinish p group opcode (pl, defer)) (rxDoneAccesses p (pend && !defer) w) (.ok ())
      (fun t => (offeredFor group opcode pl t).mapHif fun h => { h with rxPend := pend && defer }) s := by
  have last : ∀ u : State, u.hif.rxPend = pend →
      Serves go (if defer then Prog.ret (.ok ())
          else .act .getRxPend fun v => if v.toFlag then rxDone p else .ret (.ok ()))
        (rxDoneAccesses p (pend && !defer) w) (.ok ()) (fun t => t.mapHif fun h => { h with rxPend := pend && defer })
        u := by
    intro u hu
    have stay : ∀ x : State, x.hif.rxPend = (pend && defer) →
        (x.mapHif fun h => { h with rxPend := pend && defer }) = x := by
      intro x hx
      obtain ⟨_, _, ⟨_, _, _, _, _, _, rp, _, _⟩, _, _, _, _, _, _⟩ := x
      simp only at hx
      subst hx
      rfl
    cases defer with
    | true =>
      simp only [if_true, Bool.not_true, Bool.and_false]
      exact (Serves.ret (go := go) _ u).congr (stay u (by simpa using hu)).symm
    | false =>
      simp only [Bool.false_eq_true, if_false, Bool.not_false, Bool.and_true, Bool.and_false]
      refine Serves.look hgo (Respects.mapHif _) rfl fun v hv => ?_
      show Serves go (if u.hif.rxPend then _ else _) _ _ _ v
      rw [hu]
      cases pend with
      | true => exact rxDone_serves hgo p w v
      | false => exact (Serves.ret (go := go) _ v).congr (stay v (by rw [hv.hif]; simpa using hu)).symm
  cases pl with
  | none => exact last s hp
  | some x =>
    refine broadcast_serves (h := fun t => t.mapHif fun h => { h with rxPend := pend && defer }) hgo _
      (Respects.mapHif _) hn fun u hu => last u ?_
    rw [hu.hif]
    exact hp

/-- A packet of group IP received by itself, whatever the callback answers and does: the window is recorded, the payload
broadcast, RX-done given where it is still pending and not deferred (R211, R215, R216, R382; log 10). -/
theorem inbound_returned {s : State} {i : Instr} {op : Byte} {flag : Bool} {length : Half} {r base w : Word}
    {xs : List Access} {pl : Option Payload} {pend defer : Bool} {f : Sockets → Sockets} {ev : List BusEvent}
    {rest : List (Option Byte)} (hi : hifRow groupIp op (.inbound flag length) = some i)
    (hcb : s.hif.cb[groupIp.toNat]'groupIp.isLt = some .socket) (hs : WorkerReady s)
    (hn : (s.hif.subs.map (·.id)).Nodup) (h0 : sizeOf12 s.params r ≠ 0) (hl : sizeOf12 s.params r ≤ length.toNat + 4)
    (hc : ∀ u : State, u.hif = (windowOpened base r true (newTask s)).hif → u.sock = s.sock → u.root = s.root →
      Serves workerGo (sockCb s.params (hifOpcodeByte op flag) ((length.toNat : Int) - 8) (base + 8)) xs (pl, defer)
        (fun t => (t.mapHif fun h => { h with rxPend := pend }).mapSock f) u)
    (ha : Answers s
      (isrAccesses s.params r ++ [.read s.params.regHifRxBase base] ++
        (xs ++ rxDoneAccesses s.params (pend && !defer) w)) ev rest) :
    ∃ t, exec i s = .next t ∧
      Returned
        (workerIdle (offeredFor groupIp (hifOpcodeByte op flag) pl
          ((windowOpened base r (pend && defer) (newTask s)).mapSock f)))
        (taskOf s) (.ok .unit) ev rest t := by
  have ho := workerGo_agrees
  have hsz : rxSizeField s.params r = BitVec.ofNat 12 (sizeOf12 s.params r) := by
    apply BitVec.eq_of_toNat_eq
    rw [rxSizeField_toNat]
    have : sizeOf12 s.params r < 2 ^ 12 := Nat.mod_lt _ (by decide)
    simp only [BitVec.toNat_ofNat]
    omega
  have hne : rxSizeField s.params r ≠ 0 := fun h => by
    have := rxSizeField_toNat s.params r
    rw [h] at this
    exact h0 (by simpa using this.symm)
  have hlen : length = fromLe2 (length.extractLsb' 0 8) (length.extractLsb' 8 8) := by
    apply BitVec.eq_of_toNat_eq
    rw [fromLe2_toNat]
    simp [Nat.shiftRight_eq_div_pow]
    omega
  let s0 := (newTask s).mapIrq fun q =>
    { q with wseq := .isr, wjob := .packet (taskOf s) groupIp (hifOpcodeByte op flag) length, wlog := [] }
  have hlock : s0.hif.lock = .free := hs.session.lock
  have hfin : Respects fun t : State =>
      (offeredFor groupIp (hifOpcodeByte op flag) pl t).mapHif fun h => { h with rxPend := pend && defer } :=
    (Respects.offeredFor _ _ _).comp (Respects.mapHif _)
  have hg : Respects fun t : State =>
      (offeredFor groupIp (hifOpcodeByte op flag) pl ((t.mapHif fun h => { h with rxPend := pend }).mapSock f)).mapHif
        fun h => { h with rxPend := pend && defer } := ((Respects.mapHif _).comp (Respects.mapSock _)).comp hfin
  have hser := isr_serves (hd := .ok (some (⟨groupIp, hifOpcodeByte op flag, length⟩, base)))
    (g := windowSet base (rxSizeField s.params r))
    (h := fun t => (offeredFor groupIp (hifOpcodeByte op flag) pl
      ((t.mapHif fun h => { h with rxPend := pend }).mapSock f)).mapHif fun h => { h with rxPend := pend && defer })
    ho s.params (some ⟨groupIp, hifOpcodeByte op flag, length⟩) r (Respects.windowSet _ _) hg hlock
    (fun u _ => isrWindow_good ho s.params (some ⟨groupIp, hifOpcodeByte op flag, length⟩)
      ⟨groupIp, hifOpcodeByte op flag, length⟩ _ _ hlen (.inr rfl) (fun h => nomatch h) hne
      (by rw [rxSizeField_toNat]; exact hl) u)
    (ys := xs ++ rxDoneAccesses s.params (pend && !defer) w) (v := .ok ()) fun u hu => by
      have huh : u.hif = (windowOpened base r true (newTask s)).hif := by
        rw [hu.hif]
        simp [s0, windowSet, windowOpened, hsz, Lock.drop, newTask, hs.session.lock]
      refine isrDispatch_serves ho s.params groupIp _ _ _ hg (by rw [huh]; exact hcb) fun v hv => ?_
      refine Serves.bind hfin (hc v (by rw [hv.hif, huh]) (by rw [hv.sock, hu.sock]; rfl)
        (by rw [hv.root, hu.root]; rfl)) fun x hx => ?_
      refine isrFinish_any ho s.params groupIp _ pl defer w ?_ (by rw [hx.hif]; rfl)
      rw [hx.hif]
      show ((v.hif.subs).map (·.id)).Nodup
      rw [hv.hif, huh]
      exact hn
  rw [if_neg (by simp)] at hser
  have ha' : Answers s0 _ ev rest := ha
  obtain ⟨u, he, hd⟩ := hser.eval ⟨hs.session.bus.lock, hs.session.bus.idle, hs.session.bus.limit, hs.session.bus.yields⟩ ha'
  have hnw : ¬(s.irq.wseq = .stopped ∨ s.irq.stop = true) := by rw [hs.wseq, hs.going]; decide
  have hrun : exec i s = .next (workerEnd (.ok ()) u) := by
    rw [exec_inbound hi]
    show whenReady s _ = _
    rw [whenReady_ready hs.session.ready, if_neg hnw, if_neg (by rw [hs.wseq]; simp)]
    show workerSettle ((isr s.params _).run workerGo [] [] [] s0) = _
    rw [Prog.run_of_eval he]
    rfl
  have hstop : u.irq.stop = false := by
    rw [hd.irq]
    cases pl <;> exact hs.going
  have hjob : u.irq.wjob = .packet (taskOf s) groupIp (hifOpcodeByte op flag) length := by
    rw [hd.irq]
    cases pl <;> rfl
  refine ⟨_, hrun, u.mapIrq (fun q => { q with wseq := .wait, wjob := .round, wlog := [] }), ?_, ?_⟩
  · have := (Respects.mapIrq fun q => { q with wseq := .wait, wjob := .round, wlog := [] }) _ _ _ _ hd
    refine cast (congrArg (fun x => BusDone x _ ev rest) ?_) this
    have hl0 := hs.session.lock
    obtain ⟨fr, tr, ⟨_, aw, lk, _, _, _, _, _, _⟩, irq, sock, root, mem, params, env⟩ := s
    simp only at hl0
    subst hl0
    cases pl <;>
      simp [s0, workerIdle, offeredFor, offered, windowOpened, windowSet, hsz, newTask, State.mapHif, State.mapSock,
        State.mapIrq, State.mapEnv, Lock.drop]
  · simp only [workerEnd, jobResult, hjob, toResult]
    show (returnToCaller _ _ u).mapIrq _ = returnToCaller _ _ (u.mapIrq _)
    simp [returnToCaller, State.mapIrq, State.mapEnv, hstop, Except.map]

end Sys2Proof.Machine
end

