-- ==== Sys2Proof/Laws/PerInstr.lean ====
section
/-!
SUPPORT. Per instruction: the request that stands for it carries the row's pattern of spec/opcode_table.json under the
row's mask; a row of format OP, which has none, is a call (R92, R102, R105, R107, R112, R113).
-/

namespace Sys2Proof.Laws.Encoding

/-- The bits of a request that a row of the opcode table matches: the first byte of a frame or a tag, group and opcode
byte of a HIF header (R113). -/
def keyOf : Request → Option Nat
  | .frame b => b.head?.map BitVec.toNat
  | .receivedTag b => some b.toNat
  | .inboundPacket header => some ((header.getD 0 0).toNat * 256 + (header.getD 1 0).toNat)
  | .outboundPacket header _ _ _ => some ((header.getD 0 0).toNat * 256 + (header.getD 1 0).toNat)
  | .call _ => none

/-- A row's pattern and mask in spec/opcode_table.json. -/
def pattern : Instr → Option (Nat × Nat)
  | .cmdDmaWrite _ _ => some (0xC1, 0xFF)
  | .cmdDmaRead _ _ => some (0xC2, 0xFF)
  | .cmdInternalWrite _ _ => some (0xC3, 0xFF)
  | .cmdInternalRead _ => some (0xC4, 0xFF)
  | .cmdTerminate => some (0xC5, 0xFF)
  | .cmdRepeat => some (0xC6, 0xFF)
  | .cmdExtWrite _ _ => some (0xC7, 0xFF)
  | .cmdExtRead _ _ => some (0xC8, 0xFF)
  | .cmdSingleWrite _ _ => some (0xC9, 0xFF)
  | .cmdSingleRead _ => some (0xCA, 0xFF)
  | .cmdReset => some (0xCF, 0xFF)
  | .tagFirst _ => some (0xF1, 0xFF)
  | .tagMiddle _ => some (0xF2, 0xFF)
  | .tagLast _ => some (0xF3, 0xFF)
  | .tagAny _ => some (0xF0, 0xF0)
  | .hifBind _ => some (0x0141, 0xFF7F)
  | .hifListen _ => some (0x0142, 0xFF7F)
  | .hifAccept _ => some (0x0143, 0xFF7F)
  | .hifConnect _ => some (0x0144, 0xFF7F)
  | .hifSend _ => some (0x0145, 0xFF7F)
  | .hifRecv _ => some (0x0146, 0xFF7F)
  | .hifSendTo _ => some (0x0147, 0xFF7F)
  | .hifRecvFrom _ => some (0x0148, 0xFF7F)
  | .hifClose _ => some (0x0149, 0xFF7F)
  | .hifDnsResolve _ => some (0x014A, 0xFF7F)
  | .hifSslConnect _ => some (0x014B, 0xFF7F)
  | .hifSslSend _ => some (0x014C, 0xFF7F)
  | .hifSslRecv _ => some (0x014D, 0xFF7F)
  | .hifSslClose _ => some (0x014E, 0xFF7F)
  | .hifSetSockOpt _ => some (0x014F, 0xFF7F)
  | .hifSslCreate _ _ => some (0x0050, 0x007F)
  | .hifSslSetSockOpt _ => some (0x0151, 0xFF7F)
  | .hifPing _ => some (0x0152, 0xFF7F)
  | .hifSslSetCsList _ => some (0x0153, 0xFF7F)
  | .hifSslBind _ => some (0x0154, 0xFF7F)
  | .hifSecure _ => some (0x0156, 0xFF7F)
  | .opReadRegister _ => none
  | .opWriteRegister _ _ => none
  | .opReadBlock _ _ => none
  | .opWriteBlock _ _ => none
  | .opTransportReset => none
  | .opTransportInit => none
  | .opSetPacketSize _ => none
  | .opHifInit => none
  | .opWaitForBootrom => none
  | .opWaitForFirmwareStart => none
  | .opEnableInterrupts => none
  | .opChipWake => none
  | .opChipSleep => none
  | .opHifSend _ _ _ _ _ => none
  | .opIsr => none
  | .opHifReceive _ _ _ => none
  | .opRegisterCallback _ _ => none
  | .opOpenEventChannel => none
  | .opSocket _ _ => none
  | .opBind _ _ _ => none
  | .opListen _ _ _ => none
  | .opAccept _ _ => none
  | .opConnect _ _ _ => none
  | .opSecure _ _ => none
  | .opSendSocket _ _ _ => none
  | .opSendTo _ _ _ _ => none
  | .opRecv _ _ _ => none
  | .opRecvFrom _ _ _ => none
  | .opSetsockopt _ _ _ => none
  | .opShutdown _ => none
  | .opGetHostByName _ _ => none
  | .opInitialize => none
  | .opReset => none

/-- The encoding of an instruction carries its row's pattern; an operation is its own call. -/
def Statement (i : Instr) : Prop :=
  match pattern i with
  | some (value, mask) => ∃ key, keyOf (encode i) = some key ∧ key &&& mask = value
  | none => encode i = .call i

theorem ofFrame {i : Instr} {b : Byte} {bs : Bytes} {v : Nat} (he : encode i = .frame (b :: bs))
    (hp : pattern i = some (v, 0xFF)) (hb : b.toNat &&& 0xFF = v) : Statement i := by
  unfold Statement
  rw [hp, he]
  exact ⟨b.toNat, rfl, hb⟩

theorem opcode_mask (op : Byte) (flag : Bool) : hifOpcodeByte op flag &&& 0x7F = op &&& 0x7F := by
  cases flag <;> (revert op; decide)

theorem append_toNat (g y : Byte) : (g ++ y).toNat = g.toNat * 256 + y.toNat := by
  rw [BitVec.toNat_append, ← Nat.shiftLeft_add_eq_or_of_lt y.isLt, Nat.shiftLeft_eq]

/-- Group and opcode number under the masks of the rows of format HIF. -/
theorem key_mask (group : Byte) (op : Byte) (flag : Bool) (ho : op &&& 0x7F = op) :
    (group.toNat * 256 + (hifOpcodeByte op flag).toNat) &&& 0xFF7F = group.toNat * 256 + op.toNat ∧
      (group.toNat * 256 + (hifOpcodeByte op flag).toNat) &&& 0x007F = op.toNat := by
  have h : hifOpcodeByte op flag &&& 0x7F#8 = op := (opcode_mask op flag).trans ho
  have h1 : (group ++ hifOpcodeByte op flag) &&& (0xFF#8 ++ 0x7F#8) = group ++ op := by
    rw [BitVec.and_append, h]
    congr 1
    revert group
    decide
  have h2 : (group ++ hifOpcodeByte op flag) &&& (0x00#8 ++ 0x7F#8) = 0x00#8 ++ op := by
    rw [BitVec.and_append, h, BitVec.and_zero]
  have e1 := congrArg BitVec.toNat h1
  have e2 := congrArg BitVec.toNat h2
  rw [BitVec.toNat_and, append_toNat, append_toNat] at e1 e2
  rw [append_toNat] at e2
  exact ⟨by simpa [append_toNat] using e1, by simpa [append_toNat] using e2⟩

theorem ofHif {i : Instr} {group op : Byte} {p : HifPacket} (he : encode i = encodeHif group op p)
    (ho : op &&& 0x7F = op)
    (hp : pattern i = some (group.toNat * 256 + op.toNat, 0xFF7F) ∨ pattern i = some (op.toNat, 0x007F)) :
    Statement i := by
  have hk : ∃ flag, keyOf (encodeHif group op p) = some (group.toNat * 256 + (hifOpcodeByte op flag).toNat) := by
    cases p with
    | outbound control data offset => exact ⟨!data.isEmpty, rfl⟩
    | inbound flag length => exact ⟨flag, rfl⟩
  obtain ⟨flag, hk⟩ := hk
  unfold Statement
  rcases hp with hp | hp
  · rw [hp, he]
    exact ⟨_, hk, (key_mask group op flag ho).1⟩
  · rw [hp, he]
    exact ⟨_, hk, (key_mask group op flag ho).2⟩

theorem cmdDmaWrite (a : Addr) (n : Half) : Statement (.cmdDmaWrite a n) := ofFrame (b := 0xC1) rfl rfl rfl
theorem cmdDmaRead (a : Addr) (n : Half) : Statement (.cmdDmaRead a n) := ofFrame (b := 0xC2) rfl rfl rfl
theorem cmdInternalWrite (a : BitVec 15) (d : Word) : Statement (.cmdInternalWrite a d) :=
  ofFrame (b := 0xC3) rfl rfl rfl
theorem cmdInternalRead (a : BitVec 15) : Statement (.cmdInternalRead a) := ofFrame (b := 0xC4) rfl rfl rfl
theorem cmdTerminate : Statement .cmdTerminate := ofFrame (b := 0xC5) rfl rfl rfl
theorem cmdRepeat : Statement .cmdRepeat := ofFrame (b := 0xC6) rfl rfl rfl
theorem cmdExtWrite (a : Addr) (n : BitVec 24) : Statement (.cmdExtWrite a n) := ofFrame (b := 0xC7) rfl rfl rfl
theorem cmdExtRead (a : Addr) (n : BitVec 24) : Statement (.cmdExtRead a n) := ofFrame (b := 0xC8) rfl rfl rfl
theorem cmdSingleWrite (a : Addr) (d : Word) : Statement (.cmdSingleWrite a d) := ofFrame (b := 0xC9) rfl rfl rfl
theorem cmdSingleRead (a : Addr) : Statement (.cmdSingleRead a) := ofFrame (b := 0xCA) rfl rfl rfl
theorem cmdReset : Statement .cmdReset := ofFrame (b := 0xCF) rfl rfl rfl
theorem tagFirst (payload : Bytes) : Statement (.tagFirst payload) := ofFrame (b := 0xF1) rfl rfl rfl
theorem tagMiddle (payload : Bytes) : Statement (.tagMiddle payload) := ofFrame (b := 0xF2) rfl rfl rfl
theorem tagLast (payload : Bytes) : Statement (.tagLast payload) := ofFrame (b := 0xF3) rfl rfl rfl
theorem tagAny (seq : BitVec 4) : Statement (.tagAny seq) := by
  refine ⟨(0xF#4 ++ seq).toNat, rfl, ?_⟩
  revert seq
  decide
theorem hifBind (p : HifPacket) : Statement (.hifBind p) := ofHif (group := groupIp) (op := 0x41) rfl rfl (.inl rfl)
theorem hifListen (p : HifPacket) : Statement (.hifListen p) := ofHif (group := groupIp) (op := 0x42) rfl rfl (.inl rfl)
theorem hifAccept (p : HifPacket) : Statement (.hifAccept p) := ofHif (group := groupIp) (op := 0x43) rfl rfl (.inl rfl)
theorem hifConnect (p : HifPacket) : Statement (.hifConnect p) :=
  ofHif (group := groupIp) (op := 0x44) rfl rfl (.inl rfl)
theorem hifSend (p : HifPacket) : Statement (.hifSend p) := ofHif (group := groupIp) (op := 0x45) rfl rfl (.inl rfl)
theorem hifRecv (p : HifPacket) : Statement (.hifRecv p) := ofHif (group := groupIp) (op := 0x46) rfl rfl (.inl rfl)
theorem hifSendTo (p : HifPacket) : Statement (.hifSendTo p) := ofHif (group := groupIp) (op := 0x47) rfl rfl (.inl rfl)
theorem hifRecvFrom (p : HifPacket) : Statement (.hifRecvFrom p) :=
  ofHif (group := groupIp) (op := 0x48) rfl rfl (.inl rfl)
theorem hifClose (p : HifPacket) : Statement (.hifClose p) := ofHif (group := groupIp) (op := 0x49) rfl rfl (.inl rfl)
theorem hifDnsResolve (p : HifPacket) : Statement (.hifDnsResolve p) :=
  ofHif (group := groupIp) (op := 0x4A) rfl rfl (.inl rfl)
theorem hifSslConnect (p : HifPacket) : Statement (.hifSslConnect p) :=
  ofHif (group := groupIp) (op := 0x4B) rfl rfl (.inl rfl)
theorem hifSslSend (p : HifPacket) : Statement (.hifSslSend p) :=
  ofHif (group := groupIp) (op := 0x4C) rfl rfl (.inl rfl)
theorem hifSslRecv (p : HifPacket) : Statement (.hifSslRecv p) :=
  ofHif (group := groupIp) (op := 0x4D) rfl rfl (.inl rfl)
theorem hifSslClose (p : HifPacket) : Statement (.hifSslClose p) :=
  ofHif (group := groupIp) (op := 0x4E) rfl rfl (.inl rfl)
theorem hifSetSockOpt (p : HifPacket) : Statement (.hifSetSockOpt p) :=
  ofHif (group := groupIp) (op := 0x4F) rfl rfl (.inl rfl)
theorem hifSslCreate (group : Byte) (p : HifPacket) : Statement (.hifSslCreate group p) :=
  ofHif (group := group) (op := 0x50) rfl rfl (.inr rfl)
theorem hifSslSetSockOpt (p : HifPacket) : Statement (.hifSslSetSockOpt p) :=
  ofHif (group := groupIp) (op := 0x51) rfl rfl (.inl rfl)
theorem hifPing (p : HifPacket) : Statement (.hifPing p) := ofHif (group := groupIp) (op := 0x52) rfl rfl (.inl rfl)
theorem hifSslSetCsList (p : HifPacket) : Statement (.hifSslSetCsList p) :=
  ofHif (group := groupIp) (op := 0x53) rfl rfl (.inl rfl)
theorem hifSslBind (p : HifPacket) : Statement (.hifSslBind p) :=
  ofHif (group := groupIp) (op := 0x54) rfl rfl (.inl rfl)
theorem hifSecure (p : HifPacket) : Statement (.hifSecure p) := ofHif (group := groupIp) (op := 0x56) rfl rfl (.inl rfl)
theorem opReadRegister (addr : Word) : Statement (.opReadRegister addr) := rfl
theorem opWriteRegister (addr value : Word) : Statement (.opWriteRegister addr value) := rfl
theorem opReadBlock (addr : Word) (buf : Span) : Statement (.opReadBlock addr buf) := rfl
theorem opWriteBlock (addr : Word) (buf : Span) : Statement (.opWriteBlock addr buf) := rfl
theorem opTransportReset : Statement .opTransportReset := rfl
theorem opTransportInit : Statement .opTransportInit := rfl
theorem opSetPacketSize (limit : Nat) : Statement (.opSetPacketSize limit) := rfl
theorem opHifInit : Statement .opHifInit := rfl
theorem opWaitForBootrom : Statement .opWaitForBootrom := rfl
theorem opWaitForFirmwareStart : Statement .opWaitForFirmwareStart := rfl
theorem opEnableInterrupts : Statement .opEnableInterrupts := rfl
theorem opChipWake : Statement .opChipWake := rfl
theorem opChipSleep : Statement .opChipSleep := rfl
theorem opHifSend (group opcode : Byte) (control data : Bytes) (offset : Nat) :
    Statement (.opHifSend group opcode control data offset) :=
  rfl
theorem opIsr : Statement .opIsr := rfl
theorem opHifReceive (address : Word) (data : Span) (done : Bool) : Statement (.opHifReceive address data done) := rfl
theorem opRegisterCallback (group : Byte) (cb : Callback) : Statement (.opRegisterCallback group cb) := rfl
theorem opOpenEventChannel : Statement .opOpenEventChannel := rfl
theorem opSocket (type : SockType) (sslConfig : SslFlags) : Statement (.opSocket type sslConfig) := rfl
theorem opBind (i : Int) (addr : SockAddr) (deadline : Word) : Statement (.opBind i addr deadline) := rfl
theorem opListen (i : Int) (backlog : Byte) (deadline : Word) : Statement (.opListen i backlog deadline) := rfl
theorem opAccept (i : Int) (deadline : Word) : Statement (.opAccept i deadline) := rfl
theorem opConnect (i : Int) (addr : SockAddr) (deadline : Word) : Statement (.opConnect i addr deadline) := rfl
theorem opSecure (i : Int) (deadline : Word) : Statement (.opSecure i deadline) := rfl
theorem opSendSocket (i : Int) (buf : Bytes) (deadline : Word) : Statement (.opSendSocket i buf deadline) := rfl
theorem opSendTo (i : Int) (buf : Bytes) (addr : SockAddr) (deadline : Word) :
    Statement (.opSendTo i buf addr deadline) :=
  rfl
theorem opRecv (i : Int) (buf : Span) (deadline : Word) : Statement (.opRecv i buf deadline) := rfl
theorem opRecvFrom (i : Int) (buf : Span) (deadline : Word) : Statement (.opRecvFrom i buf deadline) := rfl
theorem opSetsockopt (i : Int) (option : Byte) (value : Bytes) : Statement (.opSetsockopt i option value) := rfl
theorem opShutdown (i : Int) : Statement (.opShutdown i) := rfl
theorem opGetHostByName (name : Bytes) (deadline : Word) : Statement (.opGetHostByName name deadline) := rfl
theorem opInitialize : Statement .opInitialize := rfl
theorem opReset : Statement .opReset := rfl

end Sys2Proof.Laws.Encoding
end

