-- ==== Sys2Proof/Laws/Replay.lean ====
section
/-!
SUPPORT. A parked agent comes back to its position by the answers it got (logs 19, 23): the answers of a part of a
program that has no poll-loop head, with which a later run gets through that part again without an action.
-/

namespace Sys2Proof.Machine

/-- A program without a poll-loop head. -/
inductive Prog.Straight {α : Type} : Prog α → Prop where
  | ret (a : α) : Prog.Straight (.ret a)
  | act (a : Action) (k : Val → Prog α) (h : ∀ v, Prog.Straight (k v)) : Prog.Straight (.act a k)
  | back : Prog.Straight .back
  | refuse (r : Refusal) : Prog.Straight (.refuse r)

theorem Prog.Straight.andThen {α : Type} (a : Action) {p : Prog α} (h : p.Straight) :
    (Prog.andThen a p).Straight := .act a _ fun _ => h

theorem Prog.Straight.raise {α : Type} (e : Err) : (Machine.raise e : Prog (Except Err α)).Straight := .ret _

theorem Prog.Straight.bind {α β : Type} {p : Prog α} {f : α → Prog β} (hp : p.Straight) (hf : ∀ a, (f a).Straight) :
    (p.bind f).Straight := by
  induction hp with
  | ret a => exact hf a
  | act a k _ ih => exact .act a _ ih
  | back => exact .back
  | refuse r => exact .refuse r

theorem Prog.Straight.tryBind {α β : Type} {p : Prog (Except Err α)} {f : α → Prog (Except Err β)} (hp : p.Straight)
    (hf : ∀ a, (f a).Straight) : (p.tryBind f).Straight :=
  Prog.Straight.bind hp fun r => match r with
    | .ok a => hf a
    | .error _ => .ret _

/-- A run gets through a part without poll-loop head with some answers; with the same answers to replay, a run gets
through it again, in whatever state. -/
theorem Prog.run_bind_of_eval {α : Type} {go : Action → State → Option Val × State} {p : Prog α} {s t : State} {a : α}
    (hp : p.Straight) (h : p.eval go s = some (a, t)) :
    ∃ vs : List Val, ∀ {β : Type} (f : α → Prog β),
      (∀ sofar head, (p.bind f).run go [] sofar head s = (f a).run go [] (vs ++ sofar) head t) ∧
      ∀ (g : Action → State → Option Val × State) todo sofar head u,
        (p.bind f).run g (vs.reverse ++ todo) sofar head u = (f a).run g todo (vs ++ sofar) head u := by
  induction hp generalizing s with
  | ret b =>
    obtain ⟨rfl, rfl⟩ : b = a ∧ s = t := by simpa using h
    exact ⟨[], fun f => ⟨fun _ _ => rfl, fun _ _ _ _ _ => rfl⟩⟩
  | act b k _ ih =>
    simp only [Prog.eval] at h
    split at h
    · cases h
    · rename_i v s1 hgo
      split at h
      · cases h
      · rename_i hy
        obtain ⟨vs, hvs⟩ := ih v h
        refine ⟨vs ++ [v], fun f => ⟨fun sofar head => ?_, fun g todo sofar head u => ?_⟩⟩
        · simp only [Prog.bind_act, Prog.run, hgo, hy]
          simpa using (hvs f).1 (v :: sofar) head
        · simpa [Prog.run] using (hvs f).2 g todo (v :: sofar) head u
  | back => cases h
  | refuse r => cases h

/-- The same of a part that succeeds, in front of what goes on from its value. -/
theorem Prog.run_tryBind_of_eval {α β : Type} {go : Action → State → Option Val × State} {p : Prog (Except Err α)}
    {s t : State} {a : α} (hp : p.Straight) (h : p.eval go s = some (.ok a, t)) (f : α → Prog (Except Err β)) :
    ∃ vs : List Val, ∀ {γ : Type} (g : Except Err β → Prog γ),
      (∀ sofar head, ((p.tryBind f).bind g).run go [] sofar head s = ((f a).bind g).run go [] (vs ++ sofar) head t) ∧
      ∀ (go' : Action → State → Option Val × State) todo sofar head u,
        ((p.tryBind f).bind g).run go' (vs.reverse ++ todo) sofar head u =
          ((f a).bind g).run go' todo (vs ++ sofar) head u := by
  obtain ⟨vs, hvs⟩ := Prog.run_bind_of_eval hp h
  refine ⟨vs, fun g => ?_⟩
  rw [Prog.tryBind, Prog.bind_assoc]
  exact hvs _

/-! ### Operations on the bus have no poll-loop head -/

theorem readChunks_straight : ∀ (n : Nat) (acc : Bytes), (readChunks n acc).Straight
  | 0, _ => .ret _
  | n + 1, acc => by
    refine .act _ _ fun v => ?_
    split
    · exact .raise _
    · exact readChunks_straight n _
    · exact .ret _
    · exact .ret _

theorem writeChunks_straight (src : Source) : ∀ n : Nat, (writeChunks src n).Straight
  | 0 => .ret _
  | n + 1 => by
    refine .act _ _ fun v => ?_
    split
    · exact .ret _
    · exact writeChunks_straight src n
    · exact .ret _

theorem exchange_straight (c : Cmd) (d : DataPhase) : (exchange c d).Straight := by
  refine .andThen _ (.act _ _ fun v => ?_)
  split
  · exact .raise _
  · refine .act _ _ fun w => ?_
    split
    · exact .raise _
    · cases d with
      | absent => exact .ret _
      | read n into => exact .andThen _ (readChunks_straight _ _)
      | write src =>
        refine .andThen _ (.bind (writeChunks_straight _ _) fun r => ?_)
        split
        · exact .raise _
        · refine .act _ _ fun v => ?_
          split
          · exact .raise _
          · exact .ret _

theorem attempts_straight (c : Cmd) (d : DataPhase) : ∀ n : Nat, (attempts c d n).Straight
  | 0 => .andThen _ (.raise _)
  | n + 1 => by
    refine .bind (exchange_straight c d) fun r => ?_
    split
    · exact .andThen _ (.ret _)
    · refine .act _ _ fun v => ?_
      split
      · exact .andThen _ (.andThen _ (attempts_straight c d n))
      · exact .andThen _ (.raise _)

theorem readReg_straight (a : Addr) : (readReg a).Straight :=
  .tryBind (.andThen _ (attempts_straight _ _ _)) fun _ => .ret _

theorem writeReg_straight (a : Addr) (d : Word) : (writeReg a d).Straight :=
  .tryBind (.andThen _ (attempts_straight _ _ _)) fun _ => .ret _

/-! ### Polls that miss -/

/-- A poll whose magic is missing goes round again: the task is parked at the poll's head (R203, R204). -/
theorem pollMagic_misses {id : Nat} {s : State} (hs : BusReady s) (hf : s.env.fired = false) {a : Addr} {magic w : Word}
    {e : Err} (hw : w ≠ magic) {ev : List BusEvent} {rest : List (Option Byte)} (ha : Answers s [.read a w] ev rest) :
    ∃ u, BusDone s u ev rest ∧ ∀ {β : Type} (f : Except Err Unit → Prog β) (sofar head : List Val),
      ((pollMagic a magic e).bind f).run (callerGo id) [] sofar head s = .parked sofar.reverse u := by
  obtain ⟨u, e1, d1⟩ := (readReg_serves (callerGo_agrees id) a w s).eval hs ha
  obtain ⟨vs, hvs⟩ := Prog.run_tryBind_of_eval (readReg_straight a) e1
    (fun w => if w = magic then .ret (.ok ()) else .back)
  have hp : callerGo id .timedOut s = (some (.flag s.env.fired), s) := rfl
  rw [hf] at hp
  refine ⟨u, d1, fun f sofar head => ?_⟩
  simp only [pollMagic, Prog.bind_mark, Prog.bind_act, Prog.run, hp, handOver_of_nil hs.yields]
  change ((((readReg a).tryBind fun w => if w = magic then .ret (.ok ()) else .back).bind f).run _ _ _ _ (endAction s)) = _
  rw [endAction_eq hs.yields hf, (hvs f).1]
  simp only [if_neg hw]
  rfl

/-- The efuse poll that finds the efuses not loaded goes round again (R203). -/
theorem efusePoll_misses {id : Nat} {s : State} (hs : BusReady s) (p : Params) {w : Word}
    (hw : w.getLsbD p.bitEfuseLoaded.val = false) {ev : List BusEvent} {rest : List (Option Byte)}
    (ha : Answers s [.read p.regEfuseStatus w, .delay .efusePoll] ev rest) :
    ∃ u, BusDone s u ev rest ∧ ∀ {β : Type} (f : Except Err Unit → Prog β) (sofar head : List Val),
      ((efusePoll p).bind f).run (callerGo id) [] sofar head s = .parked sofar.reverse u := by
  obtain ⟨u, ev1, ev2, mid, e1, rfl, d1, hu, a2⟩ := readReg_answered (callerGo_agrees id) hs ha
  obtain ⟨vs, hvs⟩ := Prog.run_tryBind_of_eval (readReg_straight _) e1
    (fun e => if e.getLsbD p.bitEfuseLoaded.val then .ret (.ok ()) else .andThen (.delay .efusePoll) .back)
  have hy : (passDelay .efusePoll u).env.yields = [] := hu.yields
  have hp : callerGo id (.delay .efusePoll) u = (some .unit, passDelay .efusePoll u) := rfl
  refine ⟨endAction (passDelay .efusePoll u), ?_, fun f sofar head => ?_⟩
  · have hd : Serves (callerGo id) (.andThen (.delay .efusePoll) (.ret ())) [.delay .efusePoll] () (fun s => s) u :=
      Serves.delay (callerGo_agrees id) Respects.id fun v _ => Serves.ret () v
    obtain ⟨v, ev, dv⟩ := hd.eval hu a2
    rw [Prog.andThen, Prog.eval_act hp (by rw [handOver_of_nil hy]), handOver_of_nil hy] at ev
    obtain rfl : endAction (passDelay .efusePoll u) = v := by simpa using ev
    exact d1.trans dv
  · simp only [efusePoll, Prog.bind_mark, Prog.run]
    rw [(hvs f).1]
    simp only [hw, Bool.false_eq_true, if_false, Prog.andThen]
    rw [Prog.bind_act, Prog.run]
    simp only [hp, handOver_of_nil hy]
    rfl

/-- The efuse poll that finds the efuses loaded goes on; the same answers bring a task back to where it went on
(R203). -/
theorem efusePoll_passes {id : Nat} {s : State} (hs : BusReady s) (p : Params) {w : Word}
    (hw : w.getLsbD p.bitEfuseLoaded.val = true) {xs : List Access} {ev : List BusEvent} {rest : List (Option Byte)}
    (ha : Answers s (.read p.regEfuseStatus w :: xs) ev rest) :
    ∃ u vs ev1 ev2 mid, ev = ev1 ++ ev2 ∧ BusDone s u ev1 mid ∧ Answers u xs ev2 rest ∧
      ∀ {β : Type} (f : Except Err Unit → Prog β),
      (∀ sofar head, ((efusePoll p).bind f).run (callerGo id) [] sofar head s =
        (f (.ok ())).run (callerGo id) [] (vs ++ sofar) sofar u) ∧
      ∀ go sofar head todo v, ((efusePoll p).bind f).run go (vs.reverse ++ todo) sofar head v =
        (f (.ok ())).run go todo (vs ++ sofar) sofar v := by
  obtain ⟨u, ev1, ev2, mid, e1, hev, d1, _, a2⟩ := readReg_answered (callerGo_agrees id) hs ha
  obtain ⟨vs, hvs⟩ := Prog.run_tryBind_of_eval (readReg_straight _) e1
    (fun e => if e.getLsbD p.bitEfuseLoaded.val then .ret (.ok ()) else .andThen (.delay .efusePoll) .back)
  refine ⟨u, vs, ev1, ev2, mid, hev, d1, a2, fun f => ⟨fun sofar head => ?_, fun go sofar head todo v => ?_⟩⟩
  · simp only [efusePoll, Prog.bind_mark, Prog.run]
    rw [(hvs f).1]
    simp only [hw, if_true]
    rfl
  · simp only [efusePoll, Prog.bind_mark, Prog.run]
    rw [(hvs f).2]
    simp only [hw, if_true]
    rfl

/-- A poll whose time is up ends in its error (R340). -/
theorem pollMagic_expires {id : Nat} {s : State} (hy : s.env.yields = []) (hf : s.env.fired = true) (a : Addr)
    (magic : Word) (e : Err) {β : Type} (f : Except Err Unit → Prog β) (sofar head : List Val) :
    ((pollMagic a magic e).bind f).run (callerGo id) [] sofar head s =
      (f (.error e)).run (callerGo id) [] (.flag true :: sofar) sofar (endAction s) := by
  have hp : callerGo id .timedOut s = (some (.flag s.env.fired), s) := rfl
  rw [hf] at hp
  simp only [pollMagic, Prog.bind_mark, Prog.bind_act, Prog.run, hp, handOver_of_nil hy]
  rfl

end Sys2Proof.Machine
end

