-- ==== Sys2Proof/Tests/Script.lean ====
section
/-!
SUPPORT. Small parameters, states and device scripts that the tests are built from. The parameter values are trial
values, of which the candidates of spec/93_implementation_defined.md part 3b are the model; nothing rests on them.
-/

namespace Sys2Proof.Tests

open Sys2Proof.Machine

/-- A record of `n` bytes whose fields, in the order R109 lists them, begin at these offsets. -/
def record (n : Nat) (offs : List Nat) : Layout := ⟨List.replicate n 0, offs, none, false⟩

/-- Trial layouts (spec/93_implementation_defined.md part 3b). -/
def layouts : Layouts where
  sockAddr := ⟨0, true, true⟩
  bindCmd := record 12 [0, 8, 10]
  listenCmd := record 4 [0, 1, 2]
  connectCmd := record 12 [0, 8, 9, 10]
  sendCmd := record 16 [0, 2, 4, 12]
  recvCmd := record 8 [0, 4, 6]
  closeCmd := record 4 [0, 2]
  setSockOptCmd := { record 8 [4, 5, 0, 6] with strWidth := some 4 }
  sslCreateCmd := record 4 [0]
  dnsCmd := record 0 [0]
  bindReply := record 4 [0, 1, 2]
  listenReply := record 4 [0, 1, 2]
  acceptReply := record 12 [0, 8, 9, 10]
  connectReply := { record 4 [0, 1, 2] with noSid := true }
  sendReply := record 8 [0, 2, 4]
  recvReply := record 16 [0, 8, 10, 12, 14]
  dnsReply := { record 8 [0, 4] with strWidth := some 4 }

/-- Trial parameters. -/
def params : Params where
  regProtocolConfig := 0xE824
  regChipId := 0x1000
  regEfuseStatus := 0x1014
  regBootrom := 0xC000C
  regVersionInfo := 0x207AC
  regChipConfig := 0x207BC
  regFwState := 0x108C
  regPinMux := 0x1408
  regIntrEnable := 0x1A00
  regWakeA := 0x10
  regWakeB := 0x01
  regClkStatus := 0x0F
  regHifTxCtrl := 0x106C
  regHifDmaCtrl := 0x1078
  regHifDmaAddr := 0x1504
  regHifTxReady := 0x1088
  regHifRxCtrl := 0x1070
  regHifRxBase := 0x1084
  bitEfuseLoaded := 31
  magicBootromDone := 0x10ADD09E
  magicStartFirmware := 0xEF522F61
  magicFwReady := 0x02532636
  versionInfoWord := 0x13521352
  chipConfigWord := 0x102
  bitPinMux := 8
  bitIntrEnable := 16
  bitWakeA := 0
  bitWakeB := 1
  bitClkEnAck := 2
  bitDmaReq := 1
  bitTxReady := 1
  bitRxIntr := 0
  bitRxDone := 1
  rxSizeLsb := 2
  chipFamilyOk := ⟨[(0x1503A0, true)], false⟩
  ctrlWord := ⟨[], 0x55⟩
  dmaPublished := ⟨[(0x2, false)], true⟩
  txReadyWord := ⟨[], 0x66⟩
  drspLenOff := 2
  drspLenOn := 3
  drspOk := ⟨[([0xC3, 0x00], true), ([0x00, 0xC3, 0x00], true)], false⟩
  deadlineToDevice := ⟨[(0, 0xFFFFFFFF)], 100⟩
  optValid := ⟨[((1, []), .badOption), ((2, []), .badValue)], .ok⟩
  hifDmaPolls := 4
  groupWifiIx := 1
  layouts := layouts
  sslBits := ⟨0, 1, 4, 7⟩
  txOffsetTcp := 80
  txOffsetUdp := 68
  txOffsetTls := 85
  initCfgWriteback := none
  acceptHoldsSlotLock := true
  recvDefersRxdone := false
  crc7Poly := 0x09
  crc7Init := 0x7F

/-! ### What the device answers, `CRC_EN = 0`, `PKT_LIMIT = 1024`, one chunk a block -/

/-- Received bytes. -/
def got (b : Bytes) : List (Option Byte) := b.map some

/-- A block of one byte travels as two. -/
def padded (b : Bytes) : Bytes := if b.length = 1 then b ++ [0x00] else b

/-- A command frame answered well, every byte received with it 0x00. -/
def commanded (c : Cmd) : List BusEvent := commandEvents params false c (List.replicate c.bytes.length 0x00) 0

/-- What goes over the bus during an access: the opcode echoed, status 0, the data behind a tag or the trailer. -/
def wire : Access → List BusEvent
  | .read a v =>
    commanded (.readRegister a) ++
      stepEvents (filler 5) [0xF3, v.extractLsb' 0 8, v.extractLsb' 8 8, v.extractLsb' 16 8, v.extractLsb' 24 8]
  | .write a v => commanded (.writeRegister a v)
  | .readBlock a b =>
    commanded (.extRead a (BitVec.ofNat 24 (padded b).length)) ++
      stepEvents (filler ((padded b).length + 1)) (0xF3 :: padded b)
  | .writeBlock a b =>
    commanded (.extWrite a (BitVec.ofNat 24 (padded b).length)) ++
      stepEvents (0xF3 :: padded b) (List.replicate ((padded b).length + 1) 0x00) ++ stepEvents (filler 2) [0xC3, 0x00]
  | .delay d => [.delay d]

/-- What goes over the bus during accesses one after another. -/
def traffic (xs : List Access) : List BusEvent := xs.flatMap wire

/-- The device's script for accesses one after another. -/
def script (xs : List Access) : List (Option Byte) := answersOf (traffic xs)

/-- What the device answers while a packet is sent. -/
def sendWords : SendWords := ⟨0, 0, [0x4], [0x0], 0x20000, 0x2, 0x1⟩

/-- What the device answers during a round for a packet at 0x3000 with a record of `n` bytes. -/
def roundWords (n : Nat) : RoundWords := ⟨0, 0, [0x4], (BitVec.ofNat 32 (8 + n)) <<< 2 ||| 1, 0x3000, 0, 0x2, 0x1⟩

/-- A packet on the bus, with the trial parameters. -/
def packet (group opcode : Byte) (control data : Bytes) (offset : Nat) : List Access :=
  sendAccesses params group opcode control data offset sendWords

/-- A round of the worker that delivers one reply record. -/
def roundOf (op : Byte) (record : Bytes) : List Access :=
  roundAccesses params op record (roundWords record.length)

/-! ### States -/

/-- A state in session state `ready` with `CRC_EN = 0`, a script, and inputs to come. -/
def readyState (miso : List (Option Byte)) (inbox : List Input) : State :=
  let s := State.reset
  let s1 := { s with params := params }
  let s2 := (s1.mapHif fun h => { h with state := .ready }).mapFr fun f => { f with crcEn := false }
  s2.mapEnv fun e => { e with miso := miso, inbox := inbox }

/-- As `readyState`, the driver live: socket callback registered, worker waiting, interrupt enabled. -/
def liveState (miso : List (Option Byte)) (inbox : List Input) : State :=
  ((((readyState miso inbox).mapRoot fun r => { r with live := true }).mapIrq fun q =>
    { q with wseq := .wait, intrEn := true }).mapHif fun h =>
      { h with cb := h.cb.set 1 (some .socket) })

/-- Slot `i` in use in a state. -/
def openSlot (i : Fin 11) (st : SlotState) (ssl : SslFlags) (s : State) : State :=
  s.mapSock fun k => k.setSlot i fun x =>
    { x with inUse := true, desc := BitVec.ofNat 8 i.val, sid := 0, ssl := ssl, txOffset := 80, state := st }

/-- The next state of an outcome, if there is one. -/
def nextOf : Host.Outcome State Fault Refusal → Option State
  | .next s => some s
  | .fault _ => none
  | .refused _ => none

/-- The refusal of an outcome, if there is one. -/
def refusalOf : Host.Outcome State Fault Refusal → Option Refusal
  | .next _ => none
  | .fault _ => none
  | .refused r => some r

/-- Something read off the next state of an outcome. -/
def view {α : Type} (f : State → α) (o : Host.Outcome State Fault Refusal) : Option α := (nextOf o).map f

/-- The results of the tasks that ended. -/
def resultsOf (s : State) : List (Nat × Result) := s.env.results

/-- What went over the bus. -/
def busOf (s : State) : List BusEvent := s.env.bus

/-- The bytes sent on the bus. -/
def sentBy (s : State) : Bytes :=
  s.env.bus.filterMap fun e =>
    match e with
    | .xfer b _ => some b
    | .csAssert => none
    | .csRelease => none
    | .delay _ => none

/-- Where a program run by the first caller task ends. -/
def after {α : Type} (p : Prog α) (s : State) : State :=
  match p.eval (callerGo 0) s with
  | some (_, t) => t
  | none => s

/-- What a program run by the first caller task answers. -/
def answer {α : Type} (p : Prog α) (s : State) : Option α := (p.eval (callerGo 0) s).map (·.1)

theorem runs_after {α : Type} {p : Prog α} {s : State} {r : α} (h : answer p s = some r) : Runs 0 p s r (after p s) := by
  unfold answer at h
  unfold Runs after
  cases he : p.eval (callerGo 0) s with
  | none => rw [he] at h; exact nomatch h
  | some q =>
    obtain ⟨a, t⟩ := q
    rw [he] at h
    have : a = r := by simpa using h
    rw [this]

/-! ### The scripts answer -/

/-- The blocks of an access are of one chunk. -/
def oneChunk : Access → Bool
  | .read _ _ => true
  | .write _ _ => true
  | .readBlock _ b => 1 ≤ b.length && b.length ≤ 1024
  | .writeBlock _ b => 1 ≤ b.length && b.length ≤ 1024
  | .delay _ => true

theorem chunkFrom_one (d : Bytes) : ChunkFrom false d (stepEvents (filler (d.length + 1)) (0xF3 :: d)) := by
  have := ChunkFrom.mk (crcEn := false) (d := d) [] (0xF3 :: d) 0x3 0 0 (by decide) (by simp) (by simp [crcTail])
  simpa using this

theorem padded_length {b : Bytes} (h0 : 1 ≤ b.length) (h1 : b.length ≤ 1024) :
    2 ≤ (padded b).length ∧ (padded b).length ≤ 1024 ∧ (padded b).length = max b.length 2 := by
  unfold padded
  split <;> simp <;> omega

theorem onWire_of (x : Access) (h : oneChunk x = true) : OnWire params false 1024 x (wire x) := by
  cases x with
  | read a v =>
    exact OnWire.read (p := params) a v _ 0 _ (by simp [commandWire])
      (FrameFrom.last (crcEn := false) (limit := 1024) _ _ (by simp) (by simp) (chunkFrom_one _))
  | write a v => exact OnWire.write (p := params) a v _ 0 (by simp [commandWire])
  | readBlock a b =>
    simp only [oneChunk, Bool.and_eq_true, decide_eq_true_eq] at h
    obtain ⟨h2, h3, h4⟩ := padded_length h.1 h.2
    have hp : b = (padded b).take b.length := by unfold padded; split <;> simp
    exact OnWire.readBlock (p := params) a b (padded b) _ 0 _ (by omega) (by omega) h4 hp (by simp [commandWire])
      (FrameFrom.last (crcEn := false) (limit := 1024) (padded b) _ (by omega) h3 (chunkFrom_one _))
  | writeBlock a b =>
    simp only [oneChunk, Bool.and_eq_true, decide_eq_true_eq] at h
    obtain ⟨h2, h3, h4⟩ := padded_length h.1 h.2
    have hf := FrameTo.last (crcEn := false) (limit := 1024) 0 (padded b) (List.replicate ((padded b).length + 1) 0x00)
      (by omega) h3 (by simp [crcTail])
    have := OnWire.writeBlock (p := params) (crcEn := false) (limit := 1024) a b (padded b)
      (List.replicate (Cmd.extWrite a (BitVec.ofNat 24 (padded b).length)).bytes.length 0x00) [0xC3, 0x00] 0 _ (by omega)
      (by simp [busMtu]; omega) rfl (by simp [commandWire]) hf rfl rfl
    simpa [wire, commanded, crcTail] using this
  | delay d => exact OnWire.delay d

/-- The traffic of accesses is what a device that answers them well brings about. -/
theorem allOnWire_traffic : ∀ xs : List Access, xs.all oneChunk = true → AllOnWire params false 1024 xs (traffic xs)
  | [], _ => .nil
  | x :: xs, hx => by
    simp only [List.all_cons, Bool.and_eq_true] at hx
    exact .cons x xs _ _ (onWire_of x hx.1) (allOnWire_traffic xs hx.2)

/-- Parameters under which data is trailed alike make the same traffic. -/
theorem allOnWire_params {q : Params} (hl : q.drspLenOff = params.drspLenOff) (hk : q.drspOk = params.drspOk) :
    ∀ {xs : List Access} {ev : List BusEvent}, AllOnWire params false 1024 xs ev → AllOnWire q false 1024 xs ev
  | _, _, .nil => .nil
  | _, _, .cons x xs ev ev' h hs => by
    have hw (c : Cmd) : commandWire params false c = commandWire q false c := by
      rw [commandWire, commandWire, if_neg Bool.false_ne_true, if_neg Bool.false_ne_true]
    have he (c : Cmd) (x : Bytes) (hi : BitVec 4) : commandEvents params false c x hi = commandEvents q false c x hi := by
      rw [commandEvents, commandEvents, hw]
    have hd : drspLen params false = drspLen q false := by simp [drspLen, hl]
    refine .cons x xs ev ev' ?_ (allOnWire_params hl hk hs)
    cases h with
    | read a v x hi ev hx hf => rw [he]; rw [hw] at hx; exact .read a v x hi ev hx hf
    | write a v x hi hx => rw [he]; rw [hw] at hx; exact .write a v x hi hx
    | readBlock a b d x hi ev h0 hb hd hp hx hf => rw [he]; rw [hw] at hx; exact .readBlock a b d x hi ev h0 hb hd hp hx hf
    | writeBlock a b d x drsp hi ev h0 hb hb' hx hf hn hk' =>
      rw [he]
      rw [hw] at hx
      rw [hd] at hn
      rw [← hk] at hk'
      exact .writeBlock a b d x drsp hi ev h0 hb hb' hx hf hn hk'
    | delay d => exact .delay d

/-- The script of accesses is the script of a device that answers them. -/
theorem answers_script {s : State} (hp : s.params = params) (hc : s.fr.crcEn = false) (hl : s.fr.pktLimit = 1024)
    {xs : List Access} (hx : xs.all oneChunk = true) {rest : List (Option Byte)} (hm : s.env.miso = script xs ++ rest) :
    Answers s xs (traffic xs) rest :=
  ⟨by rw [hp, hc, hl]; exact allOnWire_traffic xs hx, hm⟩

end Sys2Proof.Tests
end

