-- ==== Sys2Proof/Tests/Slice0.lean ====
section
/-!
SUPPORT. The author's own tests: the operand checks, the encodings written out from spec/30_encoding.md, the vectors of
spec/95_test_vectors.md, and one state and operands that meet the hypotheses of each obligation.
-/

namespace Sys2Proof.Tests

open Sys2Proof.Machine

/-! ### Operand ranges: a term inside each range and terms that the check refuses -/

theorem test_wf_internalWrite :
    (Instr.cmdInternalWrite 0x30 0).wellFormed = true ∧ (Instr.cmdInternalWrite 0x31 0).wellFormed = false := by decide

theorem test_wf_internalRead :
    (Instr.cmdInternalRead 0xFF).wellFormed = true ∧ (Instr.cmdInternalRead 0x100).wellFormed = false := by decide

theorem test_wf_extWrite :
    (Instr.cmdExtWrite 0 2).wellFormed = true ∧ (Instr.cmdExtWrite 0 2040).wellFormed = true ∧
      (Instr.cmdExtWrite 0 1).wellFormed = false ∧ (Instr.cmdExtWrite 0 2041).wellFormed = false := by decide

theorem test_wf_extRead :
    (Instr.cmdExtRead 0 2).wellFormed = true ∧ (Instr.cmdExtRead 0 1).wellFormed = false := by decide

theorem test_wf_singleWrite :
    (Instr.cmdSingleWrite 0x31 0).wellFormed = true ∧ (Instr.cmdSingleWrite 0x30 0).wellFormed = false := by decide

theorem test_wf_singleRead :
    (Instr.cmdSingleRead 0x100).wellFormed = true ∧ (Instr.cmdSingleRead 0xFF).wellFormed = false := by decide

theorem test_wf_payload :
    (Instr.tagFirst [0]).wellFormed = true ∧ (Instr.tagFirst []).wellFormed = false ∧
      (Instr.tagMiddle []).wellFormed = false ∧ (Instr.tagLast []).wellFormed = false := by decide

theorem test_wf_payload_too_long : (Instr.tagLast (List.replicate 8193 0)).wellFormed = false := by
  decide +kernel

theorem test_wf_address :
    (Instr.opReadRegister 0xFFFFFF).wellFormed = true ∧ (Instr.opReadRegister 0x1000000).wellFormed = false ∧
      (Instr.opWriteRegister 0x1000000 0).wellFormed = false ∧ (Instr.opReadBlock 0x1000000 ⟨0, 1⟩).wellFormed = false ∧
      (Instr.opWriteBlock 0x1000000 ⟨0, 1⟩).wellFormed = false := by decide

theorem test_wf_block :
    (Instr.opReadBlock 0 ⟨0, 1⟩).wellFormed = true ∧ (Instr.opReadBlock 0 ⟨0, 0⟩).wellFormed = false ∧
      (Instr.opReadBlock 0 ⟨0, 2 ^ 24⟩).wellFormed = false ∧ (Instr.opWriteBlock 0 ⟨0, 0⟩).wellFormed = false := by decide

theorem test_wf_limit :
    (Instr.opSetPacketSize 8192).wellFormed = true ∧ (Instr.opSetPacketSize 1000).wellFormed = false := by decide

/-! ### Decoding: words written out from R92, R93, R102, R105, R107, R112 -/

theorem test_decode_cmdDmaWrite :
    decode (.frame [0xC1, 0x01, 0x23, 0x45, 0x01, 0x00]) = .ok (.cmdDmaWrite 0x012345 0x0100) := by decide
theorem test_decode_cmdDmaRead :
    decode (.frame [0xC2, 0x01, 0x23, 0x45, 0x01, 0x00]) = .ok (.cmdDmaRead 0x012345 0x0100) := by decide
theorem test_decode_cmdInternalWrite :
    decode (.frame [0xC3, 0x80, 0x10, 0x00, 0x00, 0x00, 0x01]) = .ok (.cmdInternalWrite 0x10 1) := by decide
theorem test_decode_cmdInternalRead :
    decode (.frame [0xC4, 0x80, 0x0F, 0x00]) = .ok (.cmdInternalRead 0x0F) := by decide
theorem test_decode_cmdTerminate : decode (.frame [0xC5, 0x00, 0x00, 0x00]) = .ok .cmdTerminate := by decide
theorem test_decode_cmdRepeat : decode (.frame [0xC6, 0x00, 0x00, 0x00]) = .ok .cmdRepeat := by decide
theorem test_decode_cmdExtWrite :
    decode (.frame [0xC7, 0x15, 0x04, 0x00, 0x00, 0x07, 0xF8]) = .ok (.cmdExtWrite 0x150400 2040) := by decide
theorem test_decode_cmdExtRead :
    decode (.frame [0xC8, 0x15, 0x04, 0x00, 0x00, 0x00, 0x04]) = .ok (.cmdExtRead 0x150400 4) := by decide
theorem test_decode_cmdSingleWrite :
    decode (.frame [0xC9, 0x00, 0x12, 0x34, 0xDE, 0xAD, 0xBE, 0xEF]) = .ok (.cmdSingleWrite 0x1234 0xDEADBEEF) := by
  decide
theorem test_decode_cmdSingleRead :
    decode (.frame [0xCA, 0x00, 0x12, 0x34]) = .ok (.cmdSingleRead 0x1234) := by decide
theorem test_decode_cmdReset : decode (.frame [0xCF, 0xFF, 0xFF, 0xFF]) = .ok .cmdReset := by decide
theorem test_decode_tags :
    decode (.frame [0xF1, 0xAA]) = .ok (.tagFirst [0xAA]) ∧ decode (.frame [0xF2, 0xAA]) = .ok (.tagMiddle [0xAA]) ∧
      decode (.frame [0xF3, 0xAA, 0xBB, 0xCC]) = .ok (.tagLast [0xAA, 0xBB, 0xCC]) ∧
      decode (.receivedTag 0xF0) = .ok (.tagAny 0) ∧ decode (.receivedTag 0xFF) = .ok (.tagAny 0xF) ∧
      decode (.receivedTag 0xEF) = .error (.notATag 0xEF) := by decide

/-- A header received: group, opcode byte, length, padding. -/
def received (group opcode : Byte) : Request := .inboundPacket [group, opcode, 0x14, 0x01, 0x00, 0x00, 0x00, 0x00]

/-- A reply without data flag, of length 0x0114. -/
def reply : HifPacket := .inbound false 0x0114

theorem test_decode_hifBind : decode (received 0x01 0x41) = .ok (.hifBind reply) := by decide
theorem test_decode_hifListen : decode (received 0x01 0x42) = .ok (.hifListen reply) := by decide
theorem test_decode_hifAccept : decode (received 0x01 0x43) = .ok (.hifAccept reply) := by decide
theorem test_decode_hifConnect : decode (received 0x01 0x44) = .ok (.hifConnect reply) := by decide
theorem test_decode_hifSend : decode (received 0x01 0xC5) = .ok (.hifSend (.inbound true 0x0114)) := by decide
theorem test_decode_hifRecv : decode (received 0x01 0x46) = .ok (.hifRecv reply) := by decide
theorem test_decode_hifSendTo : decode (received 0x01 0x47) = .ok (.hifSendTo reply) := by decide
theorem test_decode_hifRecvFrom : decode (received 0x01 0x48) = .ok (.hifRecvFrom reply) := by decide
theorem test_decode_hifClose : decode (received 0x01 0x49) = .ok (.hifClose reply) := by decide
theorem test_decode_hifDnsResolve : decode (received 0x01 0x4A) = .ok (.hifDnsResolve reply) := by decide
theorem test_decode_hifSslConnect : decode (received 0x01 0x4B) = .ok (.hifSslConnect reply) := by decide
theorem test_decode_hifSslSend : decode (received 0x01 0x4C) = .ok (.hifSslSend reply) := by decide
theorem test_decode_hifSslRecv : decode (received 0x01 0x4D) = .ok (.hifSslRecv reply) := by decide
theorem test_decode_hifSslClose : decode (received 0x01 0x4E) = .ok (.hifSslClose reply) := by decide
theorem test_decode_hifSetSockOpt : decode (received 0x01 0x4F) = .ok (.hifSetSockOpt reply) := by decide
theorem test_decode_hifSslCreate : decode (received 0x02 0x50) = .ok (.hifSslCreate 0x02 reply) := by decide
theorem test_decode_hifSslSetSockOpt : decode (received 0x01 0x51) = .ok (.hifSslSetSockOpt reply) := by decide
theorem test_decode_hifPing : decode (received 0x01 0x52) = .ok (.hifPing reply) := by decide
theorem test_decode_hifSslSetCsList : decode (received 0x01 0x53) = .ok (.hifSslSetCsList reply) := by decide
theorem test_decode_hifSslBind : decode (received 0x01 0x54) = .ok (.hifSslBind reply) := by decide
theorem test_decode_hifSecure : decode (received 0x01 0x56) = .ok (.hifSecure reply) := by decide
theorem test_decode_unassigned :
    decode (received 0x01 0x55) = .error (.unknownPacket 0x01 0x55 0x0114) ∧
      decode (received 0x02 0x41) = .error (.unknownPacket 0x02 0x41 0x0114) := by decide

/-- An outbound packet: the header of the second row of section 2.11, and the same with a wrong length. -/
theorem test_decode_outbound :
    decode (.outboundPacket [0x01, 0xC5, 0x5D, 0x00, 0x00, 0x00, 0x00, 0x00] (List.replicate 16 0x11)
      [1, 2, 3, 4, 5] 80) = .ok (.hifSend (.outbound (List.replicate 16 0x11) [1, 2, 3, 4, 5] 80)) ∧
    decode (.outboundPacket [0x01, 0xC5, 0x5C, 0x00, 0x00, 0x00, 0x00, 0x00] (List.replicate 16 0x11)
      [1, 2, 3, 4, 5] 80) = .error .headerMismatch := by decide

/-- The operations are calls (R112). -/
theorem test_decode_operations :
    ([.opReadRegister 0, .opWriteRegister 0 0, .opReadBlock 0 ⟨0, 1⟩, .opWriteBlock 0 ⟨0, 1⟩, .opTransportReset,
      .opTransportInit, .opSetPacketSize 256, .opHifInit, .opWaitForBootrom, .opWaitForFirmwareStart,
      .opEnableInterrupts, .opChipWake, .opChipSleep, .opHifSend 1 0x41 [] [] 0, .opIsr, .opHifReceive 0 ⟨0, 0⟩ true,
      .opRegisterCallback 1 .socket, .opOpenEventChannel, .opSocket .stream .empty, .opBind 0 .zero 0, .opListen 0 1 0,
      .opAccept 0 0, .opConnect 0 .zero 0, .opSecure 0 0, .opSendSocket 0 [] 0, .opSendTo 0 [] .zero 0,
      .opRecv 0 ⟨0, 1⟩ 0, .opRecvFrom 0 ⟨0, 1⟩ 0, .opSetsockopt 0 1 [], .opShutdown 0, .opGetHostByName [] 0,
      .opInitialize, .opReset] : List Instr).all (fun i => decide (decode (encode i) = .ok i) && decide (encode i = .call i)) =
    true := by decide +kernel

theorem test_decode_reserved :
    decode (.frame [0xCB, 0x00, 0x00, 0x00]) = .error (.reservedOpcode 0xCB) ∧
      decode (.frame [0xF4, 0x00]) = .error (.reservedOpcode 0xF4) ∧
      decode (.frame [0xC9, 0x00, 0x12]) = .error .truncated := by decide

/-- The table's words, and how the step takes one (R113). -/
theorem test_tableWord :
    decodeTableWord 8 0xCA = some (.cmdSingleRead 0) ∧ decodeTableWord 8 0xF5 = some (.tagAny 5) ∧
      decodeTableWord 16 0x0144 = some (.hifConnect (.inbound false 0)) ∧
      decodeTableWord 16 0x01C5 = some (.hifSend (.inbound true 0)) ∧
      nextInput (State.reset.withFetchWord 8 0xCA) = some (.request (.frame [0xCA, 0, 0, 0, 0, 0, 0, 0])) := by decide

/-! ### CRC7: the spec's vectors (section 2.1 of spec/95_test_vectors.md) -/

theorem test_crc7 :
    [[0xCA, 0x00, 0x01, 0x00], [0xC4, 0x80, 0x0F, 0x00], [0xC3, 0x80, 0x10, 0x00, 0x00, 0x00, 0x01],
      [0xC9, 0x00, 0x12, 0x34, 0xDE, 0xAD, 0xBE, 0xEF], [0xCF, 0xFF, 0xFF, 0xFF],
      [0xC7, 0x02, 0x07, 0xF8, 0x00, 0x01, 0xCC], [0x40, 0x00, 0x00, 0x00, 0x00]].map (crc7 params) =
    [0x57, 0x62, 0x6A, 0x68, 0x55, 0x54, 0x78] := by decide +kernel

/-! ### One step (sections 2.2 to 2.26 of spec/95_test_vectors.md) -/

/-- Frame, length and CRC byte of a builder. -/
def framed (i : Instr) : Option (Bytes × Nat × Byte) :=
  view (fun t => (t.fr.cf.toList.take t.fr.cfLen, t.fr.cfLen, t.fr.cfCrc))
    (exec i { State.reset with params := params })

theorem test_cmdDmaWrite :
    framed (.cmdDmaWrite 0x012345 0x0100) = some ([0xC1, 0x01, 0x23, 0x45, 0x01, 0x00], 6, 0xC2) := by decide +kernel
theorem test_cmdDmaRead :
    framed (.cmdDmaRead 0x012345 0x0100) = some ([0xC2, 0x01, 0x23, 0x45, 0x01, 0x00], 6, 0x5E) := by decide +kernel
theorem test_cmdInternalWrite :
    framed (.cmdInternalWrite 0x30 1) = some ([0xC3, 0x80, 0x30, 0x00, 0x00, 0x00, 0x01], 7, 0x9E) := by
  decide +kernel
theorem test_cmdInternalRead : framed (.cmdInternalRead 0xFF) = some ([0xC4, 0x80, 0xFF, 0x00], 4, 0x2E) := by
  decide +kernel
theorem test_cmdTerminate : framed .cmdTerminate = some ([0xC5, 0x00, 0x00, 0x00], 4, 0x9A) := by decide +kernel
theorem test_cmdRepeat : framed .cmdRepeat = some ([0xC6, 0x00, 0x00, 0x00], 4, 0x90) := by decide +kernel
theorem test_cmdExtWrite :
    framed (.cmdExtWrite 0x150400 2040) = some ([0xC7, 0x15, 0x04, 0x00, 0x00, 0x07, 0xF8], 7, 0x22) := by
  decide +kernel
theorem test_cmdExtRead :
    framed (.cmdExtRead 0x150400 4) = some ([0xC8, 0x15, 0x04, 0x00, 0x00, 0x00, 0x04], 7, 0x5E) := by decide +kernel
theorem test_cmdSingleWrite :
    framed (.cmdSingleWrite 0x1234 0xDEADBEEF) = some ([0xC9, 0x00, 0x12, 0x34, 0xDE, 0xAD, 0xBE, 0xEF], 8, 0xD0) := by
  decide +kernel
theorem test_cmdSingleRead : framed (.cmdSingleRead 0x1234) = some ([0xCA, 0x00, 0x12, 0x34], 4, 0xF8) := by
  decide +kernel
theorem test_cmdReset : framed .cmdReset = some ([0xCF, 0xFF, 0xFF, 0xFF], 4, 0xAA) := by decide +kernel

/-- What a call in a state sends, and how its tasks ended. -/
def run (i : Instr) (s : State) : Option (Bytes × List Result) :=
  view (fun t => (sentBy t, t.env.results.map (·.2))) (exec i s)

/-- What goes over the bus in a call in a state, and how its tasks ended. -/
def ran (i : Instr) (s : State) : Option (List BusEvent × List Result) :=
  view (fun t => (busOf t, t.env.results.map (·.2))) (exec i s)

theorem test_tag :
    run (.tagLast [0xAA, 0xBB, 0xCC]) (readyState (got [0, 0, 0, 0]) []) = some ([0xF3, 0xAA, 0xBB, 0xCC], [.ok .unit]) ∧
      run (.tagMiddle [0xAA]) { readyState (got [0, 0, 0, 0]) [] with fr := State.reset.fr } =
        some ([0xF2, 0xAA, 0x00, 0x00], [.ok .unit]) := by decide +kernel

theorem test_readRegister :
    run (.opReadRegister 0x1234) (readyState (script [.read 0x1234 0x12345678]) []) =
      some ([0xCA, 0x00, 0x12, 0x34, 0, 0, 0, 0, 0, 0, 0], [.ok (.word 0x12345678)]) := by decide +kernel

theorem test_readRegister_retried :
    run (.opReadRegister 0x1234) (readyState (got [0, 0, 0, 0, 0xCA, 0x03, 0, 0, 0, 0] ++ script [.read 0x1234 0x7]) []) =
      some ([0xCA, 0x00, 0x12, 0x34, 0, 0, 0xCF, 0xFF, 0xFF, 0xFF, 0xCA, 0x00, 0x12, 0x34, 0, 0, 0, 0, 0, 0, 0],
        [.ok (.word 0x7)]) := by decide +kernel

theorem test_writeRegister :
    run (.opWriteRegister 0x1234 0xDEADBEEF) (readyState (script [.write 0x1234 0xDEADBEEF]) []) =
      some ([0xC9, 0x00, 0x12, 0x34, 0xDE, 0xAD, 0xBE, 0xEF, 0, 0], [.ok .unit]) := by decide +kernel

theorem test_readBlock :
    view (fun t => (memReadBytes t.mem 0 3, t.env.results.map (·.2)))
      (exec (.opReadBlock 0x020000 ⟨1, 1⟩) (readyState (got (List.replicate 7 0 ++ [0xC8, 0, 0xF3, 7, 9])) [])) =
      some ([0, 7, 0], [.ok .unit]) := by decide +kernel

theorem test_writeBlock :
    run (.opWriteBlock 0x020000 ⟨0, 1⟩)
      ((readyState (script [.writeBlock 0x020000 [0xAA]]) []).setMem (memWriteBytes [] 0 [0xAA])) =
      some ([0xC7, 0x02, 0x00, 0x00, 0x00, 0x00, 0x02, 0, 0, 0xF3, 0xAA, 0x00, 0, 0], [.ok .unit]) := by decide +kernel
/-! ### States that meet the hypotheses of the obligations -/

theorem busReady {s : State}
    (h : s.tr.lock = .free ∧ s.tr.seq = .idle ∧ s.fr.pktLimit ∈ legalLimits ∧ s.env.yields = []) : BusReady s :=
  ⟨h.1, h.2.1, h.2.2.1, h.2.2.2⟩

theorem sessionReady {s : State}
    (h : (s.hif.state = .ready ∧ initializing s = false) ∧ s.hif.lock = .free ∧ s.tr.lock = .free ∧ s.tr.seq = .idle ∧
      s.fr.pktLimit ∈ legalLimits ∧ s.env.yields = []) : SessionReady s :=
  ⟨h.1, h.2.1, busReady h.2.2⟩

theorem slotReady {i : Fin 11} {s : State}
    (h : s.root.live = true ∧ (s.hif.state = .ready ∧ initializing s = false) ∧ (s.sock.slot i).inUse = true ∧
      (s.sock.slot i).desc = BitVec.ofNat 8 i.val ∧ (s.sock.slot i).lock = .free ∧ s.env.yields = []) : SlotReady i s :=
  ⟨h.1, h.2.1, h.2.2.1, h.2.2.2.1, h.2.2.2.2.1, h.2.2.2.2.2⟩

theorem stateOk {s : State}
    (hs : ∀ i : Fin 11, let x := s.sock.slot i
      (x.inUse = true → x.state ≠ .free ∧ x.desc = if x.state = .closing then 0xFF else BitVec.ofNat 8 i.val) ∧
        (x.inUse = false → x.state = .free ∧ x.desc = 0xFF ∧ x.ssl = .empty ∧ x.rxRem = 0 ∧ x.replies = [] ∧
          x.acceptq = none ∧ x.acceptWaiters = []))
    (h : Memory.wf s.mem = true ∧ s.fr.pktLimit ∈ legalLimits ∧ (∀ e ∈ s.sock.mail, e.1 < s.env.nextMail) ∧
      (s.sock.mail.map (·.1)).Nodup ∧ (∀ i : Fin 11, ∀ e ∈ (s.sock.slot i).replies, e.mail < s.env.nextMail) ∧
      (∀ q ∈ s.hif.subs, q.id < s.env.nextQueue) ∧ (s.hif.subs.map (·.id)).Nodup ∧
      (∀ q ∈ s.env.closed, q.id < s.env.nextQueue)) : StateOk s :=
  ⟨h.1, h.2.1, ⟨fun i => ⟨(hs i).1, (hs i).2⟩, h.2.2.1, h.2.2.2.1, h.2.2.2.2.1⟩, h.2.2.2.2.2.1, h.2.2.2.2.2.2.1, h.2.2.2.2.2.2.2⟩

theorem quietOf {s : State}
    (h : s.tr.lock = .free ∧ s.hif.lock = .free ∧ s.sock.sidLock = .free ∧
      (∀ i : Fin 11, (s.sock.slot i).lock = .free) ∧ (s.irq.wseq = .wait ∨ s.irq.wseq = .stopped)) : Quiet s :=
  ⟨h.1, h.2.1, h.2.2.1, h.2.2.2.1, h.2.2.2.2⟩

/-- The worker waits for a signal. -/
def attended (s : State) : State := s.mapIrq fun q => { q with wseq := .wait }

theorem workerReady {s : State}
    (h : ((s.hif.state = .ready ∧ initializing s = false) ∧ s.hif.lock = .free ∧ s.tr.lock = .free ∧ s.tr.seq = .idle ∧
      s.fr.pktLimit ∈ legalLimits ∧ s.env.yields = []) ∧ s.irq.wseq = .wait ∧ s.irq.stop = false) : WorkerReady s :=
  ⟨sessionReady h.1, h.2.1, h.2.2⟩

/-- A session with a script for accesses. -/
def served (xs : List Access) : State := readyState (script xs) []

/-- The driver live, slot 0 allocated; the device takes a packet of group IP, raises an interrupt, and answers with a
record in one round of the worker. -/
def answered (ssl : SslFlags) (opcode : Byte) (control data : Bytes) (offset : Nat) (replyOp : Byte) (record : Bytes) :
    State :=
  openSlot 0 .allocated ssl
    (liveState (script (packet 0x01 opcode control data offset ++ roundOf replyOp record)) [.pin false, .work])

theorem served_answers {xs : List Access} (hx : xs.all oneChunk = true) : Answers (served xs) xs (traffic xs) [] :=
  answers_script rfl rfl rfl hx (List.append_nil _).symm

/-- A `SockAddr` of tests: 192.168.1.10, port 80. -/
def host : SockAddr := ⟨2, 80, 0xC0A8010A⟩

/-- SSL active, and active with the handshake deferred. -/
def tlsOn : SslFlags := ⟨true, false, false, false, 0⟩
/-- SSL active, the handshake deferred. -/
def tlsLater : SslFlags := ⟨true, false, false, true, 0⟩

theorem witness_DecodeEncodeAgree : (Instr.cmdExtWrite 0xFFFFFF 2040).wellFormed = true := by decide

theorem witness_ReservedOpcodeRefused :
    (0xC0 : Byte) ∉ [0xC1, 0xC2, 0xC3, 0xC4, 0xC5, 0xC6, 0xC7, 0xC8, 0xC9, 0xCA, 0xCF, 0xF1, 0xF2, 0xF3] ∧
      nextInput (pushRequest (.frame [0xC0, 0x00]) State.reset) = some (.request (.frame [0xC0, 0x00])) ∧
      refusalOf (step (pushRequest (.frame [0xC0, 0x00]) State.reset)) = some (.undecodable (.reservedOpcode 0xC0)) := by
  decide +kernel

theorem witness_StepRunsDecoded :
    nextInput (pushRequest (.frame [0xC5, 0, 0, 0]) State.reset) = some (.request (.frame [0xC5, 0, 0, 0])) ∧
      decode (.frame [0xC5, 0, 0, 0]) = .ok .cmdTerminate ∧ Instr.cmdTerminate.wellFormed = true := by decide

theorem witness_StepKeepsInvariant :
    StateOk (pushRequest (.frame [0xC5, 0, 0, 0]) State.reset) ∧
      (nextOf (step (pushRequest (.frame [0xC5, 0, 0, 0]) State.reset))).isSome = true :=
  ⟨stateOk (by decide +kernel) (by decide +kernel), by decide +kernel⟩

theorem witness_StepKeepsFixedFields :
    (nextOf (step (readyState [] [.request (.call .opChipSleep)]))).isSome = true ∧
      (readyState [] [.request (.call .opChipSleep)]).hif.state = .ready := by decide +kernel

theorem witness_FrameBuildersWriteTheirFrames :
    (State.reset.hif.state ≠ .bootstrapping ∧ initializing State.reset = false ∧ State.reset.tr.lock = .free ∧
      State.reset.env.yields = []) ∧
    (0x30 : BitVec 15).toNat ≤ 0x30 ∧ (0xFF : BitVec 15).toNat ≤ 0xFF ∧
      (2 ≤ (2040 : BitVec 24).toNat ∧ (2040 : BitVec 24).toNat ≤ 2040) ∧ 2 ≤ (0xFFFFFF : BitVec 24).toNat ∧
      0x30 < (0x31 : Addr).toNat ∧ 0xFF < (0x100 : Addr).toNat := by decide +kernel

theorem witness_OperandsOutOfRangeRefused :
    [exec (.cmdInternalWrite 0x31 0) (served []), exec (.cmdInternalRead 0x100) (served []),
      exec (.cmdExtWrite 0 1) (served []), exec (.cmdExtWrite 0 2041) (served []), exec (.cmdExtRead 0 1) (served []),
      exec (.cmdSingleWrite 0x30 0) (served []), exec (.cmdSingleRead 0xFF) (served []), exec (.tagFirst []) (served []),
      exec (.tagLast (List.replicate 1025 0)) (served []), exec (.opReadRegister 0x1000000) (served []),
      exec (.opReadBlock 0 ⟨0, 0⟩) (served []), exec (.opReadBlock 0 ⟨0, 2 ^ 24⟩) (served []),
      exec (.opWriteBlock 0xFFFFFF ⟨0, 2041⟩) (served []),
      exec (.hifSslCreate 0x01 (.outbound [] [] 0)) (served [])].map refusalOf =
    (List.replicate 7 (some Refusal.operandRange) ++ [some .blockSize, some .blockSize, some .operandRange,
      some .blockSize, some .blockSize, some .operandRange, some .operandRange]) ∧
    Ready (served []) ∧ 2040 * 1 < 2041 ∧ 2 ^ 24 ≤ (0xFFFFFF : Word).toNat + 2040 * 1 ∧
    (0x01 : Byte) ≠ (served []).params.groupWifi := by
  refine ⟨by decide +kernel, ⟨rfl, rfl⟩, by decide, by decide, by decide +kernel⟩

theorem witness_TagScanTakesTheFirstTag :
    (List.replicate 9 (0x0F : Byte)).length < 10 ∧ (∀ x ∈ List.replicate 9 (0x0F : Byte), x.extractLsb' 4 4 ≠ 0xF#4) ∧
      (0xF0 : Byte).extractLsb' 4 4 = 0xF#4 ∧
      (readyState (got (List.replicate 9 0x0F ++ [0xF0])) []).env.miso =
        (List.replicate 9 (0x0F : Byte) ++ [0xF0]).map some ++ [] ∧
      (List.replicate 10 (0xEF : Byte)).length = 10 ∧ (∀ x ∈ List.replicate 10 (0xEF : Byte), x.extractLsb' 4 4 ≠ 0xF#4) ∧
      (readyState (got (List.replicate 10 0xEF)) []).env.miso = (List.replicate 10 (0xEF : Byte)).map some ++ [] := by
  decide +kernel

theorem witness_WrittenChunk :
    0 < [(0xAA : Byte)].length ∧ [(0xAA : Byte)].length ≤ (readyState (got [0, 0]) []).fr.pktLimit ∧
      Ready (readyState (got [0, 0]) []) ∧ BusReady (readyState (got [0, 0]) []) ∧
      [(0 : Byte), 0].length =
        ((0xF1 : Byte) :: [0xAA] ++ crcTail (readyState (got [0, 0]) []).fr.crcEn 0 0).length ∧
      (readyState (got [0, 0]) []).env.miso = [(0 : Byte), 0].map some ++ [] :=
  ⟨by decide, by decide, ⟨rfl, rfl⟩, busReady (by decide +kernel), by decide, by decide⟩

/-- Three bytes of a data frame are still to come. -/
def midFrame (b : Bytes) : State := (readyState (got b) []).mapFr fun f => { f with dfRem := 3 }

theorem witness_ReadChunk :
    (Ready (midFrame [0xF5, 1, 2, 3]) ∧ BusReady (midFrame [0xF5, 1, 2, 3]) ∧ 0 < (midFrame [0xF5, 1, 2, 3]).fr.dfRem ∧
      [(1 : Byte), 2, 3].length = min (midFrame [0xF5, 1, 2, 3]).fr.dfRem (midFrame [0xF5, 1, 2, 3]).fr.pktLimit ∧
      ChunkFrom (midFrame [0xF5, 1, 2, 3]).fr.crcEn [1, 2, 3] (stepEvents (filler 4) [0xF5, 1, 2, 3]) ∧
      (midFrame [0xF5, 1, 2, 3]).env.miso = answersOf (stepEvents (filler 4) [0xF5, 1, 2, 3]) ++ []) ∧
    (BusReady (midFrame (List.replicate 10 0)) ∧ (List.replicate 10 (0 : Byte)).length = 10 ∧
      (∀ x ∈ List.replicate 10 (0 : Byte), x.extractLsb' 4 4 ≠ 0xF#4) ∧
      (midFrame (List.replicate 10 0)).env.miso = (List.replicate 10 (0 : Byte)).map some ++ []) ∧
    (Ready (served []) ∧ BusReady (served []) ∧ (served []).fr.dfRem = 0) := by
  refine ⟨⟨⟨rfl, rfl⟩, busReady (by decide +kernel), by decide, by decide, ?_, by decide⟩,
    ⟨busReady (by decide +kernel), by decide, by decide, by decide⟩, ⟨rfl, rfl⟩, busReady (by decide +kernel), rfl⟩
  exact ChunkFrom.mk (crcEn := false) (d := [1, 2, 3]) [] [0xF5, 1, 2, 3] 0x5 0 0 (by decide) (by simp) (by decide)

theorem test_tagAny :
    run (.tagAny 5) (midFrame [0xF5, 1, 2, 3]) = some ([0, 0, 0, 0], [.ok (.bytes [1, 2, 3])]) ∧
      view (fun t => (t.fr.dfRem, t.fr.dfIx, t.tr.att)) (exec (.tagAny 5) ((midFrame [0xF5, 1, 2, 3]).mapTr fun r =>
        { r with att := 3 })) = some (0, 1, 3) ∧
      run (.tagAny 5) (served []) = some ([], [.ok (.bytes [])]) ∧
      run (.tagAny 5) (midFrame (List.replicate 10 0)) = some (List.replicate 10 0, [.err .noStartTag]) := by
  decide +kernel

/-! ### Transport -/

theorem witness_ReadRegisterReturnsTheWord :
    Ready (served [.read 0xFFFFFF 5]) ∧ (0xFFFFFF : Word).toNat < 2 ^ 24 ∧
      BusReady (served [.read 0xFFFFFF 5]) ∧
      Answers (served [.read 0xFFFFFF 5]) [.read ((0xFFFFFF : Word).setWidth 24) 5] (traffic [.read 0xFFFFFF 5]) [] :=
  ⟨⟨rfl, rfl⟩, by decide, busReady (by decide +kernel), served_answers rfl⟩

theorem witness_WriteRegisterSendsTheWord :
    Ready (served [.write 0x31 5]) ∧ (0x31 : Word).toNat < 2 ^ 24 ∧ BusReady (served [.write 0x31 5]) ∧
      Answers (served [.write 0x31 5]) [.write ((0x31 : Word).setWidth 24) 5] (traffic [.write 0x31 5]) [] :=
  ⟨⟨rfl, rfl⟩, by decide, busReady (by decide +kernel), served_answers rfl⟩

theorem witness_ReadBlockFillsTheSpan :
    Ready (served [.readBlock 0x20000 [7]]) ∧ (0x20000 : Word).toNat < 2 ^ 24 ∧
      BusReady (served [.readBlock 0x20000 [7]]) ∧ Memory.wf (served [.readBlock 0x20000 [7]]).mem = true ∧
      (Span.mk 5 1).len = [(7 : Byte)].length ∧
      Answers (served [.readBlock 0x20000 [7]]) [.readBlock ((0x20000 : Word).setWidth 24) [7]]
        (traffic [.readBlock 0x20000 [7]]) [] :=
  ⟨⟨rfl, rfl⟩, by decide, busReady (by decide +kernel), rfl, rfl, served_answers rfl⟩

/-- Three bytes in the caller's buffer. -/
def lending (xs : List Access) : State := (served xs).setMem (memWriteBytes [] 4 [1, 2, 3])

theorem witness_WriteBlockSendsThePieces :
    Ready (lending [.writeBlock 0x20000 [1, 2, 3]]) ∧ (0x20000 : Word).toNat < 2 ^ 24 ∧
      BusReady (lending [.writeBlock 0x20000 [1, 2, 3]]) ∧ 0 < (Span.mk 4 3).len ∧
      Pieces (0x20000 : Word).toNat (memReadBytes (lending [.writeBlock 0x20000 [1, 2, 3]]).mem 4 3)
        [.writeBlock 0x20000 [1, 2, 3]] ∧
      Answers (lending [.writeBlock 0x20000 [1, 2, 3]]) [.writeBlock 0x20000 [1, 2, 3]]
        (traffic [.writeBlock 0x20000 [1, 2, 3]]) [] := by
  refine ⟨⟨rfl, rfl⟩, by decide, busReady (by decide +kernel), by decide, ?_,
    answers_script rfl rfl rfl rfl (List.append_nil _).symm⟩
  have h : memReadBytes (lending [.writeBlock 0x20000 [1, 2, 3]]).mem 4 3 = [1, 2, 3] := by decide +kernel
  rw [h]
  exact .last _ _ (by decide) (by decide) (by decide)

theorem witness_Pieces_two (d : Bytes) (b : Byte) (h : d.length = 2040) :
    Pieces 0x020000 (d ++ [b]) [.writeBlock 0x020000 d, .writeBlock 0x0207F8 [b]] :=
  .more _ d [b] _ h Nat.one_pos (by decide) (.last _ [b] Nat.one_pos (show 1 ≤ 2040 by decide) (by decide))

/-- The device falls silent: every transfer fails. -/
def silent (s : State) : State := s.mapEnv fun e => { e with miso := List.replicate 40 none }

/-- An attempt whose first transfer fails, and the recovery after it, whose first transfer fails as well. -/
def miss (c : Cmd) : List BusEvent := failedStep [] [] c.opcode ++ (failedStep [] [] 0xCF ++ [.delay .settle])

/-- So many of them. -/
def misses (n : Nat) (c : Cmd) : List BusEvent := (List.replicate n (miss c)).flatten

theorem failed_misses (c : Cmd) (f : DataFrame) :
    ∀ n, FailedAttempts params false 1024 c f (List.replicate n .xfer) (misses n c)
  | 0 => .nil
  | n + 1 => by
    have := FailedAttempts.cons (p := params) (crcEn := false) (limit := 1024) (c := c) (f := f) .xfer _ _ _ _
      (.command [] [] (c.operandBytes ++ []) c.opcode rfl rfl) (.failed [] [] _ 0xCF rfl rfl) (failed_misses c f n)
    simpa [misses, miss, List.replicate_succ] using this

/-- A device that goes along with this traffic, three bytes in the caller's buffer. -/
def scripted (ev : List BusEvent) : State := (lending []).mapEnv fun e => { e with miso := answersOf ev }

/-- What the statements about attempts that fail suppose, but for the attempts. -/
structure Tried (i : Instr) (xs : List Access) (v : Value) (sp : Option (Span × Bytes)) (ev : List BusEvent) : Prop where
  ready : Ready (scripted ev)
  bus : BusReady (scripted ev)
  mem : Memory.wf (scripted ev).mem = true
  transfers : Transfers (scripted ev) i xs v sp
  script : (scripted ev).env.miso = answersOf ev ++ []
  fixed : (scripted ev).params = params ∧ (scripted ev).fr.crcEn = false ∧ (scripted ev).fr.pktLimit = 1024

theorem tried {i : Instr} {xs : List Access} {v : Value} {sp : Option (Span × Bytes)} {ev : List BusEvent}
    (ht : Transfers (scripted ev) i xs v sp) : Tried i xs v sp ev :=
  ⟨⟨rfl, rfl⟩, busReady ⟨rfl, rfl, show 1024 ∈ legalLimits by decide, rfl⟩, by
    show Memory.wf (memWriteBytes [] 4 [1, 2, 3]) = true
    decide +kernel, ht, (List.append_nil _).symm, rfl, rfl, rfl⟩

theorem tried_read (ev : List BusEvent) : Tried (.opReadRegister 0x1234) [.read 0x1234 7] (.word 7) none ev :=
  tried (.read 0x1234 7 (by decide))

theorem tried_write (ev : List BusEvent) : Tried (.opWriteRegister 0x30 7) [.write 0x30 7] .unit none ev :=
  tried (.write 0x30 7 (by decide))

theorem tried_readBlock (n : Nat) (h0 : 0 < n) (hn : n < 2 ^ 24) (ev : List BusEvent) :
    Tried (.opReadBlock 0x20000 ⟨8, n⟩) [.readBlock 0x20000 (List.replicate n 7)] .unit
      (some (⟨8, n⟩, List.replicate n 7)) ev :=
  tried (.readBlock 0x20000 ⟨8, n⟩ (List.replicate n 7) (by decide) (by rwa [List.length_replicate])
    (by rwa [List.length_replicate]) List.length_replicate.symm)

theorem tried_writeBlock (ev : List BusEvent) :
    Tried (.opWriteBlock 0x20000 ⟨4, 3⟩) [.writeBlock 0x20000 [1, 2, 3]] .unit none ev := by
  refine tried (.writeBlock 0x20000 ⟨4, 3⟩ _ ?_)
  rw [show memReadBytes (scripted ev).mem 4 3 = [1, 2, 3] by
    show memReadBytes (memWriteBytes [] 4 [1, 2, 3]) 4 3 = _
    decide +kernel]
  exact .last _ _ (by decide) (by decide) (by decide)

/-- A block of 2041 bytes that nothing has written, in two pieces. -/
def firstPiece : Access := .writeBlock 0x20000 (List.replicate 2040 0)
def secondPiece : Access := .writeBlock 0x207F8 [0]

theorem unwritten_blank : ∀ n a, 7 ≤ a → memReadBytes (memWriteBytes [] 4 [1, 2, 3]) a n = List.replicate n 0
  | 0, _, _ => rfl
  | n + 1, a, h => by
    have hm : memWriteBytes [] 4 [1, 2, 3] = [(4, 1), (5, 2), (6, 3)] := by decide +kernel
    rw [memReadBytes, unwritten_blank n (a + 1) (by omega), hm]
    simp only [memRead]
    rw [if_neg (by omega), if_neg (by omega), if_neg (by omega)]
    rfl

theorem tried_pieces (ev : List BusEvent) :
    Tried (.opWriteBlock 0x20000 ⟨8, 2041⟩) [firstPiece, secondPiece] .unit none ev := by
  refine tried (.writeBlock 0x20000 ⟨8, 2041⟩ _ ?_)
  rw [show memReadBytes (scripted ev).mem 8 2041 = List.replicate 2040 0 ++ [0] from
    (unwritten_blank 2041 8 (by decide)).trans (List.replicate_succ' ..)]
  exact witness_Pieces_two _ 0 List.length_replicate

/-- A block of two chunks on the wire. -/
theorem onWire_two (a : Addr) {d e : Bytes} (hd : d.length = 1024) (he : 0 < e.length) (hl : e.length ≤ 1016) :
    ∃ ev, OnWire params false 1024 (.writeBlock a (d ++ e)) ev := by
  have h : (d ++ e).length = 1024 + e.length := by rw [List.length_append, hd]
  have hf := FrameTo.more (crcEn := false) (limit := 1024) 0 d e (List.replicate 1025 0) _ hd he
    (by rw [List.length_replicate, crcTail, if_neg Bool.false_ne_true, List.append_nil, List.length_cons, hd])
    (.last 1 e (List.replicate (e.length + 1) 0) he (by omega) (by simp [crcTail]))
  exact ⟨_, .writeBlock a (d ++ e) _ (List.replicate 7 0) [0xC3, 0x00] 0 _ (by omega) (by rw [h, busMtu]; omega)
    (if_neg (by omega)).symm rfl hf rfl rfl⟩

theorem firstPiece_onWire : ∃ ev, OnWire params false 1024 firstPiece ev := by
  rw [firstPiece, show (2040 : Nat) = 1024 + 1016 from rfl, ← List.replicate_append_replicate]
  exact onWire_two _ List.length_replicate (by rw [List.length_replicate]; decide) (by rw [List.length_replicate])

/-- Last attempts that fail: a device status; a response cut short behind its first byte; a command frame cut short at
its last byte; a data trailer that is no success (section 2.8 of spec/95_test_vectors.md); a chunk read, a chunk written
and a data trailer cut short. -/
def lastStatus : List BusEvent := stepEvents [0xCA, 0x00, 0x12, 0x34] [0, 0, 0, 0] ++ stepEvents [0, 0] [0xCA, 0x03]
def lastResponse : List BusEvent :=
  stepEvents [0xC3, 0x80, 0x30, 0, 0, 0, 7] [0, 0, 0, 0, 0, 0, 0] ++ failedStep [0] [0xC3] 0
def lastCommand : List BusEvent := failedStep [0xC8, 0x02, 0, 0, 0, 0] [0, 0, 0, 0, 0, 0] 2
def writtenHead : List BusEvent :=
  stepEvents [0xC7, 0x02, 0, 0, 0, 0, 3] [0, 0, 0, 0, 0, 0, 0] ++ stepEvents [0, 0] [0xC7, 0xF0]
def lastTrailer : List BusEvent :=
  writtenHead ++ stepEvents [0xF3, 1, 2, 3] [0, 0, 0, 0] ++ stepEvents [0, 0] [0xC3, 0x05]
def lastRead : List BusEvent :=
  stepEvents [0xCA, 0x00, 0x12, 0x34] [0, 0, 0, 0] ++ stepEvents [0, 0] [0xCA, 0x00] ++ [] ++
    failedStep [0, 0] [0xF3, 0x07] 0
def lastWritten : List BusEvent := writtenHead ++ [] ++ failedStep [0xF3, 1] [0, 0] 2
def lastTrailerCut : List BusEvent := writtenHead ++ stepEvents [0xF3, 1, 2, 3] [0, 0, 0, 0] ++ failedStep [0] [0xC3] 0

theorem fails_status : FailedAttempt params false 1024 (.readRegister 0x1234) (.read 4) (.dev 3) lastStatus :=
  .status [0, 0, 0, 0] 0 3 (by decide) (by decide)

theorem fails_written : FailedAttempt params false 1024 (.writeRegister 0x30 7) .absent .xfer lastResponse :=
  .response [0, 0, 0, 0, 0, 0, 0] [0xC3] (by decide) (by decide)

theorem fails_command : FailedAttempt params false 1024 (.extRead 0x20000 2) (.read 2) .xfer lastCommand :=
  .command [0xC8, 0x02, 0, 0, 0, 0] [0, 0, 0, 0, 0, 0] [] 2 (by decide) (by decide)

theorem fails_trailer :
    FailedAttempt params false 1024 (.extWrite 0x20000 3) (.write [1, 2, 3]) (.dataRsp [0xC3, 0x05]) lastTrailer :=
  .trailer [1, 2, 3] [0, 0, 0, 0, 0, 0, 0] [0xC3, 0x05] 0xF _ rfl (by decide)
    (.last 0 [1, 2, 3] [0, 0, 0, 0] (by decide) (by decide) (by decide)) rfl (by decide +kernel)

theorem fails_chunkRead : FailedAttempt params false 1024 (.readRegister 0x1234) (.read 4) .xfer lastRead :=
  .chunkRead 4 4 [0, 0, 0, 0] [] [7, 0, 0, 0] [0xF3, 0x07] [0, 0] 0 0 0 0 3 [] rfl (by decide) (.nil 4 (by decide)) rfl
    (by decide) (by simp) (by decide)

theorem fails_chunkWritten :
    FailedAttempt params false 1024 (.extWrite 0x20000 3) (.write [1, 2, 3]) .xfer lastWritten :=
  .chunkWritten 0 [0, 0, 0, 0, 0, 0, 0] [1, 2, 3] [1, 2, 3] [0xF3, 1] [0, 0] [3] 2 0xF [] rfl (by decide)
    (.nil 0 [1, 2, 3] (by decide)) (by decide) rfl

theorem fails_trailerCut :
    FailedAttempt params false 1024 (.extWrite 0x20000 3) (.write [1, 2, 3]) .xfer lastTrailerCut :=
  .trailerCut [1, 2, 3] [0, 0, 0, 0, 0, 0, 0] [0xC3] 0xF _ rfl (by decide)
    (.last 0 [1, 2, 3] [0, 0, 0, 0] (by decide) (by decide) (by decide)) (by decide)

/-- What the three statements about attempts suppose of the accesses: which command and data each carries. -/
theorem witness_Carries :
    Carries (.read 0x1234 7) (.readRegister 0x1234) (.read 4) ∧ Carries (.write 0x30 7) (.writeRegister 0x30 7) .absent ∧
      Carries (.readBlock 0x20000 [7]) (.extRead 0x20000 2) (.read 2) ∧
      Carries (.writeBlock 0x20000 [1, 2, 3]) (.extWrite 0x20000 3) (.write [1, 2, 3]) ∧
      Carries secondPiece (.extWrite 0x207F8 2) (.write [0, 0]) :=
  ⟨.read _ _, .write _ _, .readBlock _ [7] (by decide) (by decide), .writeBlock _ _ _ (by decide) (by decide) rfl,
    .writeBlock _ _ _ (by decide) (by decide) rfl⟩

/-- A register read and a block written; the second piece of a block behind the first; the first with the second left. -/
theorem witness_TenAttemptsThenTheLastError :
    ((∀ ev, Tried (.opReadRegister 0x1234) ([] ++ .read 0x1234 7 :: []) (.word 7) none ev) ∧
      (∀ ev, Tried (.opWriteBlock 0x20000 ⟨4, 3⟩) ([] ++ .writeBlock 0x20000 [1, 2, 3] :: []) .unit none ev) ∧
      (∀ ev, Tried (.opWriteBlock 0x20000 ⟨8, 2041⟩) ([firstPiece] ++ secondPiece :: []) .unit none ev) ∧
      (∀ ev, Tried (.opWriteBlock 0x20000 ⟨8, 2041⟩) ([] ++ firstPiece :: [secondPiece]) .unit none ev)) ∧
    (AllSucceed params false 1024 [] [] [] ∧ ∃ ev, AllSucceed params false 1024 [firstPiece] ([] ++ []) ([] ++ ev ++ [])) ∧
    (∀ c f, FailedAttempts params false 1024 c f (List.replicate 9 .xfer) (misses 9 c)) ∧
    FailedAttempt params false 1024 (.readRegister 0x1234) (.read 4) (.dev 3) lastStatus ∧
      FailedAttempt params false 1024 (.readRegister 0x1234) (.read 4) .xfer lastRead ∧
      FailedAttempt params false 1024 (.extWrite 0x20000 3) (.write [1, 2, 3]) (.dataRsp [0xC3, 0x05]) lastTrailer ∧
      FailedAttempt params false 1024 (.extWrite 0x20000 3) (.write [1, 2, 3]) .xfer lastWritten ∧
      FailedAttempt params false 1024 (.extWrite 0x20000 3) (.write [1, 2, 3]) .xfer lastTrailerCut ∧
      FailedAttempt params false 1024 (.extWrite 0x207F8 2) (.write [0, 0]) .xfer (failedStep [] [] 0xC7) := by
  obtain ⟨ev, h⟩ := firstPiece_onWire
  exact ⟨⟨tried_read, tried_writeBlock, tried_pieces, tried_pieces⟩,
    ⟨.nil, ev, .cons _ _ _ _ _ _ (.mk _ _ _ _ _ _ (.writeBlock _ _ _ (by rw [List.length_replicate]; decide)
      (by rw [List.length_replicate]; decide) rfl) .nil (by decide) h) .nil⟩,
    fun c f => failed_misses c f 9, fails_status, fails_chunkRead, fails_trailer, fails_chunkWritten, fails_trailerCut,
    .command [] [] [0x02, 0x07, 0xF8, 0, 0, 2] 0xC7 (by decide) rfl⟩

/-- How a call ends, and what goes over the bus meanwhile, in a device that goes along with this traffic. -/
def went (i : Instr) (ev : List BusEvent) (r : Result) : Bool := ran i (scripted ev) == some (ev, [r])

theorem test_tenAttempts :
    went (.opReadRegister 0x1234) (misses 9 (.readRegister 0x1234) ++ lastStatus) (.err (.dev 3)) = true ∧
      went (.opReadRegister 0x1234) (misses 9 (.readRegister 0x1234) ++ lastRead) (.err .xfer) = true ∧
      went (.opWriteRegister 0x30 7) (misses 9 (.writeRegister 0x30 7) ++ lastResponse) (.err .xfer) = true ∧
      went (.opReadBlock 0x20000 ⟨5, 1⟩) (misses 9 (.extRead 0x20000 2) ++ lastCommand) (.err .xfer) = true := by
  decide +kernel

theorem test_tenAttempts_written :
    [(lastTrailer, Err.dataRsp [0xC3, 0x05]), (lastWritten, .xfer), (lastTrailerCut, .xfer)].map (fun p =>
        went (.opWriteBlock 0x20000 ⟨4, 3⟩) (misses 9 (.extWrite 0x20000 3) ++ p.1) (.err p.2)) =
      [true, true, true] := by decide +kernel

/-- The soft reset sent whole, and its settle delay. -/
def recovered : List BusEvent := stepEvents [0xCF, 0xFF, 0xFF, 0xFF] [0, 0, 0, 0] ++ [.delay .settle]

theorem recovery : Recovery params false recovered := .sent [0, 0, 0, 0] (by decide)

theorem witness_DeviceErrorIsRetried :
    ((∀ ev, Tried (.opReadRegister 0x1234) ([] ++ [.read 0x1234 7]) (.word 7) none ev) ∧
      Succeeds params false 1024 (.read 0x1234 7) [.dev 3] (lastStatus ++ recovered ++ [] ++ wire (.read 0x1234 7)) ∧
      Succeeds params false 1024 (.read 0x1234 7) [.xfer] (lastRead ++ recovered ++ [] ++ wire (.read 0x1234 7))) ∧
    ((∀ ev, Tried (.opWriteRegister 0x30 7) ([] ++ [.write 0x30 7]) .unit none ev) ∧
      Succeeds params false 1024 (.write 0x30 7) (List.replicate 9 .xfer)
        (misses 9 (.writeRegister 0x30 7) ++ wire (.write 0x30 7))) ∧
    ((∀ ev, Tried (.opReadBlock 0x20000 ⟨8, 1⟩) ([] ++ [.readBlock 0x20000 (List.replicate 1 7)]) .unit
        (some (⟨8, 1⟩, List.replicate 1 7)) ev) ∧
      Succeeds params false 1024 (.readBlock 0x20000 (List.replicate 1 7)) [.xfer]
        (lastCommand ++ recovered ++ [] ++ wire (.readBlock 0x20000 [7]))) ∧
    ((∀ ev, Tried (.opWriteBlock 0x20000 ⟨4, 3⟩) ([] ++ [.writeBlock 0x20000 [1, 2, 3]]) .unit none ev) ∧
      Succeeds params false 1024 (.writeBlock 0x20000 [1, 2, 3]) [.dataRsp [0xC3, 0x05]]
        (lastTrailer ++ recovered ++ [] ++ wire (.writeBlock 0x20000 [1, 2, 3]))) ∧
    ((∀ ev, Tried (.opWriteBlock 0x20000 ⟨8, 2041⟩) ([firstPiece] ++ [secondPiece]) .unit none ev) ∧
      (∃ errs ev, AllSucceed params false 1024 [firstPiece] errs ev ∧ errs ≠ []) ∧
      Succeeds params false 1024 secondPiece (List.replicate 9 .xfer) (misses 9 (.extWrite 0x207F8 2) ++ wire secondPiece)) := by
  have w := witness_Carries
  obtain ⟨ev, h⟩ := firstPiece_onWire
  refine ⟨⟨tried_read, .mk _ _ _ _ _ _ w.1 (.cons _ _ _ _ _ fails_status recovery .nil) (by decide) (onWire_of _ rfl),
      .mk _ _ _ _ _ _ w.1 (.cons _ _ _ _ _ fails_chunkRead recovery .nil) (by decide) (onWire_of _ rfl)⟩,
    ⟨tried_write, .mk _ _ _ _ _ _ w.2.1 (failed_misses _ _ 9) (by decide) (onWire_of _ rfl)⟩,
    ⟨tried_readBlock 1 (by decide) (by decide),
      .mk _ _ _ _ _ _ w.2.2.1 (.cons _ _ _ _ _ fails_command recovery .nil) (by decide) (onWire_of _ rfl)⟩,
    ⟨tried_writeBlock,
      .mk _ _ _ _ _ _ w.2.2.2.1 (.cons _ _ _ _ _ fails_trailer recovery .nil) (by decide) (onWire_of _ rfl)⟩,
    tried_pieces, ⟨List.replicate 1 .xfer ++ [], _, .cons _ _ _ _ _ _ (.mk _ _ _ _ _ _ (.writeBlock _ _ _
      (by rw [List.length_replicate]; decide) (by rw [List.length_replicate]; decide) rfl) (failed_misses _ _ 1) (by decide) h)
      .nil, by decide⟩, .mk _ _ _ _ _ _ w.2.2.2.2 (failed_misses _ _ 9) (by decide) (onWire_of _ rfl)⟩

theorem test_deviceError :
    went (.opReadRegister 0x1234) (lastRead ++ recovered ++ wire (.read 0x1234 7)) (.ok (.word 7)) = true ∧
      went (.opWriteRegister 0x30 7) (misses 9 (.writeRegister 0x30 7) ++ wire (.write 0x30 7)) (.ok .unit) = true ∧
      went (.opWriteBlock 0x20000 ⟨4, 3⟩)
        (lastWritten ++ recovered ++ lastTrailerCut ++ recovered ++ wire (.writeBlock 0x20000 [1, 2, 3])) (.ok .unit) =
          true ∧
      busOf (scripted []) = [] ∧
      recovered = [.csAssert, .xfer 0xCF (some 0), .xfer 0xFF (some 0), .xfer 0xFF (some 0), .xfer 0xFF (some 0),
        .csRelease, .delay .settle] := by decide +kernel

/-- A register read without start tag, and one whose opcode is echoed wrong. -/
def noTagRead : List BusEvent :=
  commandEvents params false (.readRegister 0x1234) [0, 0, 0, 0] 0 ++ [] ++
    stepEvents (filler 10) (List.replicate 10 0x0F)
def wrongEcho : List BusEvent := stepEvents [0xCA, 0x00, 0x12, 0x34] [0, 0, 0, 0] ++ stepEvents [0, 0] [0xC9, 0x03]

/-- The first chunk of a block read of 1025 bytes. -/
theorem chunks_one :
    ChunksFrom false 1024 (1024 + 1) 1 (stepEvents (filler 1025) (0xF1 :: List.replicate 1024 7) ++ []) := by
  refine .more 1 1 (List.replicate 1024 7) _ _ List.length_replicate ?_ (.nil 1 (by decide))
  have := ChunkFrom.mk (crcEn := false) (d := List.replicate 1024 7) [] _ 0x1 0 0 (by decide) (by simp) rfl
  rw [List.nil_append, crcTail, if_neg Bool.false_ne_true, List.append_nil, List.length_cons, List.length_replicate] at this
  exact this

/-- A wrong echo and a missing tag, at the first attempt and at the tenth; a missing tag, and a transfer that fails, at the
second chunk of a block read. -/
theorem witness_EchoMismatchIsNotRetried :
    (∀ ev, Tried (.opReadRegister 0x1234) ([] ++ .read 0x1234 7 :: []) (.word 7) none ev) ∧
    (∀ ev, Tried (.opReadBlock 0x20000 ⟨8, 1025⟩) ([] ++ .readBlock 0x20000 (List.replicate 1025 7) :: []) .unit
      (some (⟨8, 1025⟩, List.replicate 1025 7)) ev) ∧
    Carries (.readBlock 0x20000 (List.replicate 1025 7)) (.extRead 0x20000 1025) (.read 1025) ∧
    FailedAttempts params false 1024 (.readRegister 0x1234) (.read 4) [] [] ∧
    CorruptAttempt params false 1024 (.readRegister 0x1234) (.read 4) (.echoMismatch 0xCA 0xC9) wrongEcho ∧
    CorruptAttempt params false 1024 (.readRegister 0x1234) (.read 4) .noStartTag noTagRead ∧
    (∃ ev, CorruptAttempt params false 1024 (.extRead 0x20000 1025) (.read 1025) .noStartTag ev) ∧
    ∃ ev, FailedAttempt params false 1024 (.extRead 0x20000 1025) (.read 1025) .xfer ev := by
  refine ⟨tried_read, tried_readBlock 1025 (by decide) (by decide), ?_, .nil,
    .echo [0, 0, 0, 0] 0xC9 0x03 (by decide) (by decide),
    .noTag 4 4 [0, 0, 0, 0] (List.replicate 10 0x0F) 0 [] rfl (by decide) (.nil 4 (by decide)) (by decide) (by decide),
    ⟨_, .noTag 1025 1 (List.replicate 7 0) (List.replicate 10 0xEF) 0 _ rfl (by decide) chunks_one (by decide) (by decide)⟩,
    ⟨_, .chunkRead 1025 1 (List.replicate 7 0) [] [7] [0xF3] [] 7 0 0 0 3 _ rfl (by decide) chunks_one rfl (by decide)
      (by simp) (by decide)⟩⟩
  have := Carries.readBlock 0x20000 (List.replicate 1025 7) (by rw [List.length_replicate]; decide)
    (by rw [List.length_replicate]; decide)
  rw [List.length_replicate] at this
  exact this

theorem test_corrupt :
    went (.opReadRegister 0x1234) noTagRead (.err .noStartTag) = true ∧
      went (.opReadRegister 0x1234) (misses 9 (.readRegister 0x1234) ++ wrongEcho) (.err (.echoMismatch 0xCA 0xC9)) = true := by
  decide +kernel

theorem witness_TransportResetSendsOneFrame :
    (Ready (readyState (got [0, 0, 0, 0]) []) ∧ BusReady (readyState (got [0, 0, 0, 0]) []) ∧
      [(0 : Byte), 0, 0, 0].length = (commandWire (served []).params (served []).fr.crcEn .reset).length ∧
      ran .opTransportReset (readyState (got [0, 0, 0, 0]) []) =
        some (stepEvents [0xCF, 0xFF, 0xFF, 0xFF] [0, 0, 0, 0], [.ok .unit])) ∧
    (BusReady (readyState [some 0, some 0, some 0, none] []) ∧
      commandWire (served []).params (served []).fr.crcEn .reset = [0xCF, 0xFF, 0xFF] ++ 0xFF :: [] ∧
      ran .opTransportReset (readyState [some 0, some 0, some 0, none] []) =
        some (failedStep [0xCF, 0xFF, 0xFF] [0, 0, 0] 0xFF, [.err .xfer])) :=
  ⟨⟨⟨rfl, rfl⟩, busReady (by decide +kernel), by decide, by decide +kernel⟩, busReady (by decide +kernel), by decide,
    by decide +kernel⟩

/-- What the first probe of transport init gets, CRC bytes included (section 2.9, first row). -/
def probed : State :=
  (readyState (got [0, 0, 0, 0, 0, 0xCA, 0, 0xF3, 1, 2, 3, 4, 0xAA, 0xBB]) []).mapFr fun f => { f with crcEn := true }

/-- The traffic of that probe. -/
def probing : List BusEvent :=
  stepEvents [0xCA, 0x00, 0xE8, 0x24, 0xBC] [0, 0, 0, 0, 0] ++ stepEvents [0, 0] [0xCA, 0] ++
    stepEvents (filler 7) [0xF3, 1, 2, 3, 4, 0xAA, 0xBB]

theorem probing_onWire : AllOnWire params true 1024 [.read params.regProtocolConfig 0x04030201] probing := by
  have hc := ChunkFrom.mk (crcEn := true) (d := [1, 2, 3, 4]) [] _ 0x3 0xAA 0xBB (by decide) (by simp) rfl
  have hf := FrameFrom.last (crcEn := true) (limit := 1024) [1, 2, 3, 4] _ (by decide) (by decide) hc
  have ho := OnWire.read (p := params) (crcEn := true) (limit := 1024) params.regProtocolConfig 0x04030201
    [0, 0, 0, 0, 0] 0 _ (by decide +kernel) hf
  have ha := AllOnWire.cons _ [] _ _ ho .nil
  have hw : commandWire params true (.readRegister params.regProtocolConfig) = [0xCA, 0x00, 0xE8, 0x24, 0xBC] := by
    decide +kernel
  rw [commandEvents, hw] at ha
  exact ha

theorem witness_TransportInitProbesWithCrc :
    Ready probed ∧ BusReady probed ∧
      Answers (probed.mapFr fun f => { f with crcEn := true }) [.read params.regProtocolConfig 0x04030201] probing [] ∧
      view (fun t => (busOf t, t.fr.crcEn, t.env.results)) (exec .opTransportInit probed) =
        some (probing, false, [(0, .ok .unit)]) ∧
      answer (transportInit params) probed = some (.ok ()) :=
  ⟨⟨rfl, rfl⟩, busReady (by decide +kernel), ⟨probing_onWire, by decide +kernel⟩, by decide +kernel, by decide +kernel⟩

/-- The first probe of transport init ends in a wrong echo; then come these bytes. -/
def reprobed (next : List (Option Byte)) : State := readyState (got [0, 0, 0, 0, 0, 0xFF, 0x00] ++ next) []

/-- The state in which the first probe starts, and the one in which the second does. -/
def probe1 (s : State) : State := (newTask s).mapFr fun f => { f with crcEn := true }
def probe2 (s : State) : State :=
  (after (readReg params.regProtocolConfig) (probe1 s)).mapFr fun f => { f with crcEn := false }

theorem witness_TransportInitProbesAgain :
    let p := readReg params.regProtocolConfig
    let s := reprobed (script [.read params.regProtocolConfig 9])
    let e := reprobed (got [0, 0, 0, 0, 0xFE, 0x00])
    (Ready s ∧ s.env.yields = [] ∧ s.params.initCfgWriteback = none ∧
      Runs (taskOf s) p (probe1 s) (.error (.echoMismatch 0xCA 0xFF)) (after p (probe1 s)) ∧
      Runs (taskOf s) p (probe2 s) (.ok 9) (after p (probe2 s))) ∧
    (Ready e ∧ Runs (taskOf e) p (probe1 e) (.error (.echoMismatch 0xCA 0xFF)) (after p (probe1 e)) ∧
      Runs (taskOf e) p (probe2 e) (.error (.echoMismatch 0xCA 0xFE)) (after p (probe2 e))) ∧
    [s, e].map (fun u => view (fun t => (t.fr.crcEn, t.env.results)) (exec .opTransportInit u)) =
      [some (false, [(0, .ok .unit)]), some (false, [(0, .err (.echoMismatch 0xCA 0xFE))])] :=
  ⟨⟨⟨rfl, rfl⟩, rfl, rfl, runs_after (by decide +kernel), runs_after (by decide +kernel)⟩,
    ⟨⟨rfl, rfl⟩, runs_after (by decide +kernel), runs_after (by decide +kernel)⟩, by decide +kernel⟩

/-- An `Initialize()` waits in the power-on state. -/
def starting : State := State.reset.mapEnv fun e => { e with tasks := [⟨0, .opInitialize, []⟩], nextTask := 1 }

theorem witness_SetPacketSizeBeforeInitOnly :
    (served []).hif.state = .ready ∧ State.reset.hif.state = .uninitialized ∧ initializing State.reset = false ∧
      (starting.hif.state = .uninitialized ∧ initializing starting = true ∧
        refusalOf (exec (.opSetPacketSize 256) starting) = some .wrongSessionState) ∧
      (8192 : Nat) ∈ [256, 512, 1024, 2048, 4096, 8192] ∧ (1000 : Nat) ∉ [256, 512, 1024, 2048, 4096, 8192] ∧
      view (fun t => t.fr.pktLimit) (exec (.opSetPacketSize 8192) State.reset) = some 8192 ∧
      refusalOf (exec (.opSetPacketSize 1000) State.reset) = some .packetSizeIllegal ∧
      refusalOf (exec (.opSetPacketSize 256) (served [])) = some .packetSizeFrozen := by decide +kernel

/-- The bus held by another task. -/
def busy : State := (served []).mapTr fun t => { t with lock := .held (.caller 7) }

/-- A task waits for the bus, which is free again. -/
def resuming : State :=
  (readyState (script [.read 0x1234 7]) [.resume 0]).mapEnv fun e =>
    { e with tasks := [⟨0, .opReadRegister 0x1234, []⟩], nextTask := 1 }

/-- The operations that wait for the bus; operands at the ends of their ranges. -/
def waiters : List Instr :=
  [.opReadRegister 0x1234, .opWriteRegister 0x1234 7, .opReadBlock 0 ⟨0, 2040⟩, .opWriteBlock 0 ⟨0, 2040⟩,
    .opTransportReset, .cmdDmaWrite 0x100 0, .cmdDmaRead 0x100 0, .cmdInternalWrite 0x30 7, .cmdInternalRead 0x30,
    .cmdTerminate, .cmdRepeat, .cmdExtWrite 0x100 2040, .cmdExtRead 0x100 2, .cmdSingleWrite 0x100 7,
    .cmdSingleRead 0x100, .cmdReset, .tagFirst [0], .tagMiddle [0], .tagLast [0], .tagAny 0]

theorem witness_OperationsWaitForTheBus :
    Ready busy ∧ (0x1234 : Word).toNat < 2 ^ 24 ∧ 0 < (Span.mk 0 2040).len ∧ (Span.mk 0 2040).len ≤ 2040 ∧
      0 < [(0 : Byte)].length ∧ [(0 : Byte)].length ≤ busy.fr.pktLimit ∧ 0xFF < (0x100 : Addr).toNat ∧
      (0x30 : BitVec 15).toNat ≤ 0x30 ∧ (2 ≤ (2 : BitVec 24).toNat ∧ (2040 : BitVec 24).toNat ≤ 2040) ∧
      busy.tr.lock = .held (.caller 7) ∧ busy.env.inbox = [] ∧ busy.env.yields = [] ∧
      nextInput resuming = some (.resume 0) ∧ findTask 0 resuming = some ⟨0, .opReadRegister 0x1234, []⟩ ∧
      BusReady resuming ∧
      Answers resuming [.read ((0x1234 : Word).setWidth 24) 7] (traffic [.read 0x1234 7]) [] ∧
      waiters.map (fun i => view (fun t => (t.env.tasks, busOf t)) (exec i busy)) =
        waiters.map (fun i => some ([⟨0, i, []⟩], [])) ∧
      view (fun t => (t.env.tasks, busOf t, t.fr.crcEn)) (exec .opTransportInit busy) =
        some ([⟨0, .opTransportInit, [.unit]⟩], [], true) ∧
      view (fun t => t.env.results) (step resuming) = some [(0, .ok (.word 7))] :=
  ⟨⟨rfl, rfl⟩, by decide, by decide, by decide, by decide, by decide, by decide, by decide, by decide, rfl, rfl, rfl, rfl,
    rfl, busReady (by decide +kernel), answers_script rfl rfl rfl rfl (List.append_nil _).symm, by decide +kernel,
    by decide +kernel, by decide +kernel⟩

/-- The power-on state in another session state. -/
def inState (h : HifState) : State := State.reset.mapHif fun q => { q with state := h }

/-- The worker is in a round. -/
def working : State := (served []).mapIrq fun q => { q with wseq := .isr }

/-- An `Initialize()` waits in `ready`. -/
def startingUp : State :=
  (served []).mapEnv fun e => { e with tasks := [⟨0, .opInitialize, []⟩], nextTask := 1 }

theorem witness_OperationGates :
    (State.reset.hif.state ≠ .ready ∧ initializing startingUp = true ∧
      [refusalOf (exec .opChipWake State.reset), refusalOf (exec .opChipWake startingUp),
          refusalOf (exec (.tagAny 0) State.reset),
          refusalOf (exec (.hifBind (.outbound [] [] 0)) State.reset),
          refusalOf (exec (.hifPing (.inbound false 8)) startingUp)] =
        List.replicate 5 (some Refusal.wrongSessionState)) ∧
    ((inState .bootstrapping).hif.state = .bootstrapping ∧ 0xFF < (0x100 : Addr).toNat ∧ (0x30 : BitVec 15).toNat ≤ 0x30 ∧
        2 ≤ (2 : BitVec 24).toNat ∧ (2 : BitVec 24).toNat ≤ 2040 ∧
        [refusalOf (exec .opHifInit (inState .bootstrapping)), refusalOf (exec .cmdReset (inState .bootstrapping)),
            refusalOf (exec .opInitialize (inState .bootstrapping)), refusalOf (exec .opOpenEventChannel starting)] = List.replicate 4 (some Refusal.wrongSessionState)) ∧
    ((inState .shutdown).hif.state = .shutdown ∧
      refusalOf (exec .opOpenEventChannel (inState .shutdown)) = some .wrongSessionState) ∧
    (State.reset.root.live = false ∧ (liveState [] []).root.live = true ∧
      refusalOf (exec (.opBind 0 host 0) State.reset) = some .rootNotLive ∧
      refusalOf (exec .opInitialize (liveState [] [])) = some .rootLive) ∧
    ((served []).irq.wseq = .stopped ∧ refusalOf (exec .opIsr (served [])) = some .workerStopped ∧
      working.irq.stop = false ∧ working.irq.wseq ∈ [WSeq.wake, .isr, .sleep] ∧
      refusalOf (exec .opIsr working) = some .isrReentry) := by
  decide +kernel

theorem witness_OperationGates_rows :
    RowOf params 0x01 0x41 (.outbound [] [] 0) (.hifBind (.outbound [] [] 0)) ∧
      RowOf params 0x02 0x50 (.outbound [] [] 0) (.hifSslCreate 0x02 (.outbound [] [] 0)) ∧
      hifRow 0x07 0x50 (.inbound false 8) = some (.hifSslCreate 0x07 (.inbound false 8)) ∧ Ready (served []) :=
  ⟨⟨by decide, by decide⟩, ⟨by decide, fun _ => .inl (by decide)⟩, by decide, rfl, rfl⟩

/-! ### The HIF session -/

/-- The accesses of the three boot steps with the trial parameters. -/
def bootromAccesses : List Access :=
  [.read params.regEfuseStatus 0x80000000, .read params.regBootrom params.magicBootromDone,
    .write params.regVersionInfo params.versionInfoWord, .write params.regChipConfig params.chipConfigWord,
    .write params.regBootrom params.magicStartFirmware]
/-- The accesses of `waitForFirmwareStart`. -/
def firmwareAccesses : List Access := [.read params.regFwState params.magicFwReady, .write params.regFwState 0]
/-- The accesses of `enableInterrupts`. -/
def enableAccesses : List Access :=
  setBitAccesses params.regPinMux params.bitPinMux 0 ++ setBitAccesses params.regIntrEnable params.bitIntrEnable 0

theorem witness_BootSteps :
    Ready (served bootromAccesses) ∧ BusReady (served bootromAccesses) ∧
      (0x80000000 : Word).getLsbD (served bootromAccesses).params.bitEfuseLoaded.val = true ∧
      Answers (served bootromAccesses) bootromAccesses (traffic bootromAccesses) [] ∧
      BusReady (served firmwareAccesses) ∧
      Answers (served firmwareAccesses) firmwareAccesses (traffic firmwareAccesses) [] ∧
      BusReady (served enableAccesses) ∧ Answers (served enableAccesses) enableAccesses (traffic enableAccesses) [] :=
  ⟨⟨rfl, rfl⟩, busReady (by decide +kernel), by decide, served_answers (by decide +kernel),
    busReady (by decide +kernel), served_answers (by decide +kernel), busReady (by decide +kernel),
    served_answers (by decide +kernel)⟩

theorem test_bootSteps :
    [ran .opWaitForBootrom (served bootromAccesses), ran .opWaitForFirmwareStart (served firmwareAccesses),
      ran .opEnableInterrupts (served enableAccesses)] =
    [some (traffic bootromAccesses, [.ok .unit]), some (traffic firmwareAccesses, [.ok .unit]),
      some (traffic enableAccesses, [.ok .unit])] := by decide +kernel

/-- A task that polls for the firmware, and whose time is up. -/
def expiring : State :=
  (readyState [] [.expire 0]).mapEnv fun e => { e with tasks := [⟨0, .opWaitForFirmwareStart, []⟩], nextTask := 1 }

/-- The firmware has not started; the efuses are not loaded; the bootrom is not done. -/
def notYet : List Access := [.read params.regFwState 0]
def notLoaded : List Access := [.read params.regEfuseStatus 0, .delay .efusePoll]
def notDone : List Access := [.read params.regEfuseStatus 0x80000000, .read params.regBootrom 0]

/-- A task that polls for the bootrom, where one that found it missing stands, and whose time is up. -/
def bootromExpiring : State :=
  { served notDone with
    env := { (served notDone).env with
      inbox := [.expire 0]
      nextTask := 1
      tasks := (view (fun t => t.env.tasks) (exec .opWaitForBootrom (served notDone))).getD [] } }

theorem witness_FirmwareTimeout :
    (nextInput expiring = some (.expire 0) ∧ findTask 0 expiring = some ⟨0, .opWaitForFirmwareStart, []⟩ ∧
      expiring.env.yields = [] ∧
      view (fun t => t.env.results) (step expiring) = some [(0, .err .firmwareTimeout)]) ∧
    (Ready (served notYet) ∧ BusReady (served notYet) ∧ (0 : Word) ≠ (served notYet).params.magicFwReady ∧
      Answers (served notYet) notYet (traffic notYet) [] ∧
      view (fun t => (t.env.tasks, busOf t)) (exec .opWaitForFirmwareStart (served notYet)) =
        some ([⟨0, .opWaitForFirmwareStart, []⟩], traffic notYet)) ∧
    (BusReady (served notLoaded) ∧ (0 : Word).getLsbD (served notLoaded).params.bitEfuseLoaded.val = false ∧
      Answers (served notLoaded) notLoaded (traffic notLoaded) [] ∧
      view (fun t => (t.env.tasks, busOf t)) (exec .opWaitForBootrom (served notLoaded)) =
        some ([⟨0, .opWaitForBootrom, []⟩], traffic notLoaded)) ∧
    (BusReady (served notDone) ∧ (0x80000000 : Word).getLsbD (served notDone).params.bitEfuseLoaded.val = true ∧
      (0 : Word) ≠ (served notDone).params.magicBootromDone ∧ Answers (served notDone) notDone (traffic notDone) [] ∧
      nextInput bootromExpiring = some (.expire 0) ∧ bootromExpiring.params = (served notDone).params ∧
      ((findTask 0 bootromExpiring).map fun t => (t.id, t.instr)) = some (0, .opWaitForBootrom) ∧
      bootromExpiring.env.yields = [] ∧
      view (fun t => t.env.results) (step bootromExpiring) = some [(0, .err .firmwareLoadFailed)]) :=
  ⟨⟨rfl, rfl, rfl, by decide +kernel⟩,
    ⟨⟨rfl, rfl⟩, busReady (by decide +kernel), by decide, served_answers (by decide +kernel), by decide +kernel⟩,
    ⟨busReady (by decide +kernel), by decide, served_answers (by decide +kernel), by decide +kernel⟩,
    busReady (by decide +kernel), by decide, by decide, served_answers (by decide +kernel), rfl, rfl, by decide +kernel,
    rfl, by decide +kernel⟩

/-- A task gets its next turn, the device answering accesses. -/
def polling (ts : List Task) (xs : List Access) : State :=
  (readyState (script xs) [.resume 0]).mapEnv fun e => { e with tasks := ts, nextTask := 1 }

/-- The task that waits for the firmware, and the one that waits for the efuses. -/
def firmwarePoll : List Task := [⟨0, .opWaitForFirmwareStart, []⟩]
def efuseTask : List Task := [⟨0, .opWaitForBootrom, []⟩]

theorem witness_FirmwareTimeout_turns :
    let w := polling firmwarePoll notYet
    let d := polling firmwarePoll firmwareAccesses
    let e := polling efuseTask notLoaded
    let b := polling bootromExpiring.env.tasks [.read params.regBootrom 0]
    let g := polling bootromExpiring.env.tasks bootromAccesses.tail
    ([w, d, e, b, g].map nextInput = List.replicate 5 (some (.resume 0)) ∧
      [w, d, e, b, g].map (fun s => (findTask 0 s).map fun t => (t.id, t.instr)) =
        [some (0, .opWaitForFirmwareStart), some (0, .opWaitForFirmwareStart), some (0, .opWaitForBootrom),
          some (0, .opWaitForBootrom), some (0, .opWaitForBootrom)] ∧ BusReady w ∧ BusReady b ∧
      findTask 0 w = some ⟨0, .opWaitForFirmwareStart, []⟩ ∧ findTask 0 e = some ⟨0, .opWaitForBootrom, []⟩) ∧
    (Answers w notYet (traffic notYet) [] ∧ Answers d firmwareAccesses (traffic firmwareAccesses) [] ∧
      Answers e notLoaded (traffic notLoaded) [] ∧
      Answers b [.read params.regBootrom 0] (traffic [.read params.regBootrom 0]) [] ∧
      Answers g bootromAccesses.tail (traffic bootromAccesses.tail) []) ∧
    [w, d, e, b, g].map (fun s => view (fun t => (t.env.tasks.length, t.env.results)) (step s)) =
      [some (1, []), some (0, [(0, .ok .unit)]), some (1, []), some (1, []), some (0, [(0, .ok .unit)])] := by
  refine ⟨⟨by decide +kernel, by decide +kernel, busReady (by decide +kernel), busReady (by decide +kernel), rfl, rfl⟩,
    ⟨?_, ?_, ?_, ?_, ?_⟩, by decide +kernel⟩
  all_goals exact answers_script rfl rfl rfl (by decide +kernel) (List.append_nil _).symm

/-- A power-on state with trial parameters before a device that boots at once: transport init fails its first probe,
which is made with CRC bytes, and goes on without (section 2.9, fourth row). -/
def booting (rest : List Access) : State :=
  let s := State.reset
  let s1 := { s with params := params }
  s1.mapEnv fun e =>
    { e with
      miso := got [0, 0, 0, 0, 0, 0xFF, 0x00] ++
        script ([.read params.regProtocolConfig 0, .read params.regChipId 0x1503A0] ++ rest) }

/-- All stages succeed. -/
def bootGood : State := booting (bootromAccesses ++ firmwareAccesses ++ enableAccesses)

/-- Where `Init` starts its stages. -/
def bootStart : State := (newTask bootGood).mapHif fun h => { h with state := .bootstrapping }
/-- After transport init. -/
def boot1 : State := after (transportInit params) bootStart
/-- After the chip id. -/
def boot2 : State := after (checkChipId params) boot1
/-- After the bootrom. -/
def boot3 : State := after (waitForBootrom params) boot2
/-- After the firmware start. -/
def boot4 : State := after (waitForFirmwareStart params) boot3

theorem witness_InitRunsItsStages :
    bootGood.hif.state = .uninitialized ∧ initializing bootGood = false ∧ bootGood.env.yields = [] ∧
      Runs (taskOf bootGood) (transportInit bootGood.params) bootStart (.ok ()) boot1 ∧
      Runs (taskOf bootGood) (checkChipId bootGood.params) boot1 (.ok ()) boot2 ∧
      Runs (taskOf bootGood) (waitForBootrom bootGood.params) boot2 (.ok ()) boot3 ∧
      Runs (taskOf bootGood) (waitForFirmwareStart bootGood.params) boot3 (.ok ()) boot4 ∧
      Runs (taskOf bootGood) (enableInterrupts bootGood.params) boot4 (.ok ())
        (after (enableInterrupts params) boot4) :=
  ⟨rfl, rfl, rfl, runs_after (by decide +kernel), runs_after (by decide +kernel), runs_after (by decide +kernel),
    runs_after (by decide +kernel), runs_after (by decide +kernel)⟩

theorem witness_InitStageErrors :
    Runs 0 (transportInit params) (silent bootStart) (.error .xfer) (after (transportInit params) (silent bootStart)) ∧
      Runs 0 (checkChipId params) (silent boot1) (.error .xfer) (after (checkChipId params) (silent boot1)) ∧
      Runs 0 (waitForBootrom params) (silent boot2) (.error .xfer) (after (waitForBootrom params) (silent boot2)) ∧
      Runs 0 (waitForFirmwareStart params) (silent boot3) (.error .xfer)
        (after (waitForFirmwareStart params) (silent boot3)) ∧
      Runs 0 (enableInterrupts params) (silent boot4) (.error .xfer)
        (after (enableInterrupts params) (silent boot4)) :=
  ⟨runs_after (by decide +kernel), runs_after (by decide +kernel), runs_after (by decide +kernel),
    runs_after (by decide +kernel), runs_after (by decide +kernel)⟩

theorem test_hifInit :
    view (fun t => (t.hif.state, t.fr.crcEn, t.env.results)) (exec .opHifInit bootGood) =
      some (.ready, false, [(0, .ok .unit)]) ∧
    view (fun t => (t.hif.state, t.env.results))
        (exec .opHifInit { bootGood with params := { params with chipFamilyOk := ⟨[], false⟩ } }) =
      some (.uninitialized, [(0, .err .incompatibleVersion)]) := by decide +kernel

theorem lastOnly_one {cond : Word → Bool} {w : Word} (h : cond w = true) : LastOnly cond [w] :=
  ⟨[], w, rfl, by simp, h⟩

theorem lastOnly_ten {cond : Word → Bool} {v w : Word} (hv : cond v = false) (h : cond w = true) :
    LastOnly cond (List.replicate 9 v ++ [w]) := ⟨_, w, rfl, by simp [hv], h⟩

theorem none_of {f : Word → Bool} {l : List Word} (h : l.all (fun w => !f w) = true) : ∀ w ∈ l, f w = false := by
  simpa using h

/-- Awake. -/
def awake (s : State) : State := s.mapHif fun h => { h with awake := true }

theorem awake_answers {xs : List Access} (hx : xs.all oneChunk = true) :
    Answers (awake (served xs)) xs (traffic xs) [] :=
  answers_script rfl rfl rfl hx (List.append_nil _).symm

/-- A wake that succeeds at the tenth poll, and one that does not. -/
def lateWake : List Access := wakeAccesses params 0 0 (List.replicate 9 0x3 ++ [0x4])
/-- Ten polls without acknowledgement. -/
def noWake : List Access := wakeAccesses params 0 0 (List.replicate 10 0x3)
/-- A sleep. -/
def downAccesses : List Access := sleepAccesses params 0x2 0x1

theorem witness_WakeHandshake :
    (SessionReady (awake (served [])) ∧ (awake (served [])).hif.awake = true) ∧
    (SessionReady (served lateWake) ∧ (served lateWake).hif.awake = false ∧
      Answers (served lateWake) (wakeAccesses (served lateWake).params 0 0 (List.replicate 9 0x3 ++ [0x4]))
        (traffic lateWake) [] ∧
      (List.replicate 9 (0x3 : Word) ++ [0x4]).length ≤ 10 ∧
      LastOnly (acked (served lateWake).params) (List.replicate 9 0x3 ++ [0x4])) ∧
    (SessionReady (served noWake) ∧ (served noWake).hif.awake = false ∧
      Answers (served noWake) (wakeAccesses (served noWake).params 0 0 (List.replicate 10 0x3)) (traffic noWake) [] ∧
      (List.replicate 10 (0x3 : Word)).length = 10 ∧
      ∀ w ∈ List.replicate 10 (0x3 : Word), acked (served noWake).params w = false) := by
  refine ⟨⟨sessionReady ?_, ?_⟩, ⟨sessionReady ?_, ?_, ?_, ?_, ?_⟩, sessionReady ?_, ?_, ?_, ?_, ?_⟩
  any_goals first | exact lastOnly_ten rfl rfl | exact served_answers (by decide +kernel) | exact none_of (by decide +kernel)
  all_goals decide +kernel

theorem witness_SleepHandshake :
    SessionReady (awake (served downAccesses)) ∧
      Answers (awake (served downAccesses)) (sleepAccesses (awake (served downAccesses)).params 0x2 0x1)
        (traffic downAccesses) [] :=
  ⟨sessionReady (by decide +kernel), awake_answers (by decide +kernel)⟩

theorem test_chipWake_chipSleep :
    view (fun t => (t.hif.awake, t.env.results)) (exec .opChipWake (served (wakeAccesses params 0 0 [0x4]))) =
      some (true, [(0, .ok .unit)]) ∧
    view (fun t => (t.hif.awake, t.env.results))
        (exec .opChipWake (served (wakeAccesses params 0 0 (List.replicate 10 0x3)))) =
      some (false, [(0, .err .wakeFailed)]) ∧
    view (fun t => (t.hif.awake, t.env.results))
      (exec .opChipSleep (awake (served (sleepAccesses params 0x2 0x1)))) = some (false, [(0, .ok .unit)]) := by
  decide +kernel

/-- A register write that gets no answer at any of its ten attempts. -/
def lostWrite (a : Addr) (v : Word) : List BusEvent :=
  misses 9 (.writeRegister a v) ++ failedStep [] [] (Cmd.writeRegister a v).opcode

theorem lost {a : Access} {c : Cmd} {f : DataFrame} (h : Carries a c f) :
    Fails params false 1024 a .xfer (List.replicate 10 .xfer) (misses 9 c ++ failedStep [] [] c.opcode) :=
  .exhausted _ _ _ _ (List.replicate 9 .xfer) _ _ h (failed_misses c f 9) rfl
    (.command [] [] (c.operandBytes ++ []) c.opcode rfl rfl)

theorem lostWrite_fails (a : Addr) (v : Word) :
    Fails params false 1024 (.write a v) .xfer (List.replicate 10 .xfer) (lostWrite a v) := lost (.write a v)

/-- A device that goes along with this traffic. -/
def answering (ev : List BusEvent) (s : State) : State := s.mapEnv fun e => { e with miso := answersOf ev }

theorem session_answering (ev : List BusEvent) (b : Bool) :
    SessionReady (answering ev ((served []).mapHif fun h => { h with awake := b })) :=
  sessionReady ⟨⟨rfl, rfl⟩, rfl, rfl, rfl, show 1024 ∈ legalLimits by decide, rfl⟩

/-- What is left of a wake-up or a sleep whose second access fails. -/
def lostWake : List BusEvent := traffic [.read 0x10 0] ++ lostWrite 0x10 1
def lostSleep : List BusEvent := traffic [.read 0x01 2] ++ lostWrite 0x01 0

theorem witness_WakeAndSleepHandshakes_fails :
    (AllOnWire params false 1024 [.read 0x10 0] (traffic [.read 0x10 0]) ∧ LastOnly (acked params) [0x4] ∧
      wakeAccesses params 0 0 [0x4] = [.read 0x10 0] ++ .write 0x10 1 ::
        (setBitAccesses params.regWakeB params.bitWakeB 0 ++ .delay .wakeSettle :: ackAccesses params [0x4])) ∧
    (AllOnWire params false 1024 [.read 0x01 2] (traffic [.read 0x01 2]) ∧
      sleepAccesses params 2 1 = [.read 0x01 2] ++ .write 0x01 0 :: clearBitAccesses params.regWakeA params.bitWakeA 1) ∧
    ((answering lostWake (served [])).env.miso = answersOf lostWake ++ [] ∧
      (answering lostWake (served [])).hif.awake = false ∧ (answering lostSleep (awake (served []))).hif.awake = true) ∧
    [exec .opChipWake (answering lostWake (served [])), exec .opChipSleep (answering lostSleep (awake (served [])))].map
        (view fun t => (t.hif.awake, t.env.results, t.tr.lastErr)) =
      [some (false, [(0, .err .xfer)], some .xfer), some (true, [(0, .err .xfer)], some .xfer)] :=
  ⟨⟨allOnWire_traffic _ rfl, lastOnly_one rfl, by decide +kernel⟩, ⟨allOnWire_traffic _ rfl, by decide +kernel⟩,
    ⟨(List.append_nil _).symm, rfl, rfl⟩, by decide +kernel⟩

/-- The packet of the second row of section 2.11. -/
def sample : List Access := packet 0x01 0x45 (List.replicate 16 0x11) [1, 2, 3, 4, 5] 80

/-- That packet and the wake-up before it; a sleep behind it that succeeds, and one that fails. -/
def sending : List Access :=
  wakeAccesses params 0 0 [0x4] ++ packetAccesses params 0x01 0x45 (List.replicate 16 0x11) [1, 2, 3, 4, 5] 80 [0] 0x20000

theorem slept : Slept params false 1024 false [] (traffic downAccesses) :=
  .asleep 0x2 0x1 _ (allOnWire_traffic _ (by decide +kernel))

theorem not_slept : Slept params false 1024 true (List.replicate 10 .xfer) lostSleep :=
  .failed 0x2 0x1 [.read 0x01 2] _ (.write 0x01 0) .xfer _ _ _ rfl (allOnWire_traffic _ rfl) (lostWrite_fails _ _)

theorem witness_PacketSent :
    let s := answering (traffic sending ++ traffic downAccesses) (served [])
    RowOf params 0x01 0x45 (.outbound (List.replicate 16 0x11) [1, 2, 3, 4, 5] 80)
        (.hifSend (.outbound (List.replicate 16 0x11) [1, 2, 3, 4, 5] 80)) ∧
      SessionReady s ∧ 8 + max (List.replicate 16 (0x11 : Byte)).length (80 + [1, 2, 3, 4, (5 : Byte)].length) ≤ 1596 ∧
      s.hif.awake = false ∧ [(0x4 : Word)].length ≤ 10 ∧ LastOnly (acked params) [0x4] ∧
      [(0 : Word)].length ≤ params.hifDmaPolls ∧ LastOnly params.dmaPublished.app [0] ∧ (0x20000 : Word) ≠ 0 ∧
      (0x20000 : Word).toNat + 8 + 80 < 2 ^ 24 ∧ AllOnWire params false 1024 sending (traffic sending) ∧
      s.env.miso = answersOf (traffic sending ++ traffic downAccesses) ++ [] :=
  ⟨⟨by decide, by decide⟩, session_answering _ false, by decide, rfl, by decide, lastOnly_one rfl, by decide,
    lastOnly_one rfl, by decide, by decide, allOnWire_traffic _ (by decide +kernel), (List.append_nil _).symm⟩

theorem test_hifSend :
    ran (.hifSend (.outbound (List.replicate 16 0x11) [1, 2, 3, 4, 5] 80)) (served sample) =
      some (traffic sample, [.ok .unit]) ∧
    ran (.opHifSend 0x01 0xC4 (List.replicate 12 0x11) [] 0) (served (packet 0x01 0x44 (List.replicate 12 0x11) [] 0)) =
      some (traffic (packet 0x01 0x44 (List.replicate 12 0x11) [] 0), [.ok .unit]) ∧
    view (fun t => (decide (busOf t = traffic sending ++ lostSleep ∧ t.tr.lastErr = some .xfer), t.hif.awake, t.env.results))
        (exec (.opHifSend 0x01 0x45 (List.replicate 16 0x11) [1, 2, 3, 4, 5] 80)
          (answering (traffic sending ++ lostSleep) (served []))) =
      some (true, true, [(0, .ok .unit)]) := by
  decide +kernel

/-- No DMA address is published. -/
def unpublished (polls : List Word) (k : Nat) : List Access :=
  (packetAccesses params 0x01 0x45 [] [] 0 polls 0).take (k + polls.length) ++ sleepAccesses params 0x2 0x1

theorem witness_PacketsNotSent :
    (SessionReady (served []) ∧ 1596 < 8 + max 1589 (0 + 0) ∧
      ran (.opHifSend 0x01 0x45 (List.replicate 1589 0) [] 0) (served []) = some ([], [.err .messageTooLong])) ∧
    (SessionReady (awake (served (unpublished [2, 2, 2, 2] 1))) ∧
      [(2 : Word), 2, 2, 2].length = (served []).params.hifDmaPolls ∧
      (∀ w ∈ [(2 : Word), 2, 2, 2], (served []).params.dmaPublished.app w = false)) ∧
    (SessionReady (awake (served (unpublished [0] 2))) ∧ LastOnly (served []).params.dmaPublished.app [0]) ∧
    (SessionReady (served noWake) ∧ (served noWake).hif.awake = false ∧ (List.replicate 10 (0x3 : Word)).length = 10 ∧
      (∀ w ∈ List.replicate 10 (0x3 : Word), acked (served noWake).params w = false) ∧
      RowOf (served noWake).params 0x01 0x45 (.outbound [] [] 0) (.hifSend (.outbound [] [] 0)) ∧
      ran (.hifSend (.outbound [] [] 0)) (served noWake) = some (traffic noWake, [.err .wakeFailed])) := by
  refine ⟨⟨sessionReady ?_, ?_, ?_⟩, ⟨sessionReady ?_, ?_, none_of ?_⟩, ⟨sessionReady ?_, lastOnly_one rfl⟩,
    sessionReady ?_, rfl, rfl, none_of ?_, ⟨by decide, by decide⟩, ?_⟩
  all_goals decide +kernel

theorem witness_PacketsNotSent_answers :
    Answers (awake (served (unpublished [2, 2, 2, 2] 1))) (unpublished [2, 2, 2, 2] 1)
        (traffic (unpublished [2, 2, 2, 2] 1)) [] ∧
    Answers (awake (served (unpublished [0] 2))) (unpublished [0] 2) (traffic (unpublished [0] 2)) [] ∧
    Answers (served noWake) (wakeAccesses (served noWake).params 0 0 (List.replicate 10 0x3)) (traffic noWake) [] :=
  ⟨awake_answers (by decide +kernel), awake_answers (by decide +kernel), served_answers (by decide +kernel)⟩

/-- The header of an empty packet, and what precedes it. -/
def header : Bytes := [0x01, 0x45, 8, 0, 0, 0, 0, 0]
def beforeHeader : List Access := handoverAccesses params 0x01 0x45 [] [] 0 [0] ++ [.read params.regHifDmaAddr 0x20000]
def lostHeader : List BusEvent := misses 9 (.extWrite 0x20000 8) ++ failedStep [] [] 0xC7

/-- The wake-up fails; the header is not taken, and the chip sleeps behind it or does not. -/
theorem witness_PacketsNotSent_fails :
    (AllOnWire params false 1024 [.read 0x10 0] (traffic [.read 0x10 0]) ∧
      Fails params false 1024 (.write 0x10 1) .xfer (List.replicate 10 .xfer) (lostWrite 0x10 1)) ∧
    (packetAccesses params 0x01 0x45 [] [] 0 [0] 0x20000 =
        beforeHeader ++ .writeBlock 0x20000 header :: [.write params.regHifTxReady (params.txReadyWord.app 0x20000)] ∧
      AllOnWire params false 1024 (wakeAccesses params 0 0 [0x4] ++ beforeHeader)
        (traffic (wakeAccesses params 0 0 [0x4] ++ beforeHeader)) ∧
      Fails params false 1024 (.writeBlock 0x20000 header) .xfer (List.replicate 10 .xfer) lostHeader ∧
      Slept params false 1024 false [] (traffic downAccesses) ∧
      Slept params false 1024 true (List.replicate 10 .xfer) lostSleep) ∧
    [lostWake, traffic (wakeAccesses params 0 0 [0x4] ++ beforeHeader) ++ lostHeader ++ traffic downAccesses,
        traffic (wakeAccesses params 0 0 [0x4] ++ beforeHeader) ++ lostHeader ++ lostSleep].map (fun ev =>
        view (fun t => (decide (busOf t = ev), t.hif.awake, t.env.results))
          (exec (.hifSend (.outbound [] [] 0)) (answering ev (served [])))) =
      [some (true, false, [(0, .err .xfer)]), some (true, false, [(0, .err .xfer)]),
        some (true, true, [(0, .err .xfer)])] :=
  ⟨⟨allOnWire_traffic _ rfl, lostWrite_fails _ _⟩,
    ⟨by decide +kernel, allOnWire_traffic _ (by decide +kernel),
      lost (.writeBlock 0x20000 header header (by decide) (by decide) rfl), slept, not_slept⟩, by decide +kernel⟩

/-- A packet of a group without callback, as `Isr` sees it (section 2.12). -/
def stray (l0 : Byte) (tail : List Access) : List Access :=
  isrAccesses params (16 <<< 2 ||| 1) ++ [.read params.regHifRxBase 0x3000, .readBlock 0x3000 [0x07, 0x44, l0, 0x00]] ++
    tail

/-- The worker waits, and the device answers accesses. -/
def polled (xs : List Access) : State := attended (served xs)

theorem polled_answers {xs : List Access} (hx : xs.all oneChunk = true) : Answers (polled xs) xs (traffic xs) [] :=
  answers_script rfl rfl rfl hx (List.append_nil _).symm

theorem worker_polled (xs : List Access) : WorkerReady (polled xs) :=
  workerReady ⟨⟨⟨rfl, rfl⟩, rfl, rfl, rfl, show 1024 ∈ legalLimits by decide, rfl⟩, rfl, rfl⟩

/-- The socket callback registered. -/
def called (s : State) : State := s.mapHif fun h => { h with cb := h.cb.set 1 (some .socket) }

/-- A packet of an opcode the socket callback does not handle, as `Isr` sees it. -/
def unhandled : List Access :=
  isrAccesses params (16 <<< 2 ||| 1) ++ [.read params.regHifRxBase 0x3000, .readBlock 0x3000 [0x01, 0xD3, 12, 0x00]] ++
    rxDoneAccesses params true 0

theorem witness_IsrWithoutCallback :
    (WorkerReady (polled (isrAccesses params 1)) ∧ sizeOf12 (polled []).params 1 = 0 ∧
      Answers (polled (isrAccesses params 1)) (isrAccesses params 1) (traffic (isrAccesses params 1)) []) ∧
    (WorkerReady (polled (stray 11 [])) ∧ sizeOf12 (polled []).params (16 <<< 2 ||| 1) ≠ 0 ∧
      (0x3000 : Word).toNat < 2 ^ 24 ∧
      (11 : Byte).toNat + 256 * (0 : Byte).toNat + 4 < sizeOf12 (polled []).params (16 <<< 2 ||| 1) ∧
      Answers (polled (stray 11 [])) (stray 11 []) (traffic (stray 11 [])) []) ∧
    (WorkerReady (polled (stray 12 (rxDoneAccesses params true 0))) ∧
      sizeOf12 (polled []).params (16 <<< 2 ||| 1) ≤ (12 : Byte).toNat + 256 * (0 : Byte).toNat + 4 ∧
      NobodyTakes (polled (stray 12 (rxDoneAccesses params true 0))) 0x07 0x44 ∧
      Answers (polled (stray 12 (rxDoneAccesses params true 0))) (stray 12 (rxDoneAccesses params true 0))
        (traffic (stray 12 (rxDoneAccesses params true 0))) []) ∧
    (WorkerReady (called (polled unhandled)) ∧ NobodyTakes (called (polled unhandled)) 0x01 0xD3 ∧
      Answers (called (polled unhandled)) unhandled (traffic unhandled) []) :=
  ⟨⟨worker_polled _, by decide +kernel, polled_answers (by decide +kernel)⟩,
    ⟨worker_polled _, by decide +kernel, by decide, by decide +kernel, polled_answers (by decide +kernel)⟩,
    ⟨worker_polled _, by decide +kernel, .inl (by decide +kernel), polled_answers (by decide +kernel)⟩,
    workerReady ⟨⟨⟨rfl, rfl⟩, rfl, rfl, rfl, show 1024 ∈ legalLimits by decide, rfl⟩, rfl, rfl⟩,
    .inr ⟨rfl, by decide +kernel, by decide⟩, answers_script rfl rfl rfl (by decide +kernel) (List.append_nil _).symm⟩

theorem test_isr :
    [ran .opIsr (polled (isrAccesses params 1)), ran .opIsr (polled (stray 11 [])),
      ran .opIsr (polled (stray 12 (rxDoneAccesses params true 0))), ran .opIsr (called (polled unhandled))] =
    [some (traffic (isrAccesses params 1), [.ok .unit]), some (traffic (stray 11 []), [.err .operationFailed]),
      some (traffic (stray 12 (rxDoneAccesses params true 0)), [.ok .unit]), some (traffic unhandled, [.ok .unit])] := by
  decide +kernel

/-- A window of `size` bytes at 0x3000, RX-done pending. -/
def windowed (size : BitVec 12) (s : State) : State :=
  s.mapHif fun h => { h with rxAddr := 0x3000, rxSize := size, rxValid := true, rxPend := true }

/-- What a received row of size 24 takes, its header in hand. -/
def rowAccesses : List Access :=
  isrAccesses params (24 <<< 2 ||| 1) ++ [.read params.regHifRxBase 0x3000] ++ rxDoneAccesses params true 0

/-- The same of a corrupt packet. -/
def corruptRow : List Access := isrAccesses params (25 <<< 2 ||| 1) ++ [.read params.regHifRxBase 0x3000]

theorem witness_InboundPacketWithoutCallback :
    hifRow 0x01 0x52 (.inbound false 20) = some (.hifPing (.inbound false 20)) ∧
    (WorkerReady (polled (isrAccesses params 0)) ∧ sizeOf12 (polled []).params 0 = 0 ∧
      Answers (polled (isrAccesses params 0)) (isrAccesses params 0) (traffic (isrAccesses params 0)) []) ∧
    (WorkerReady (polled corruptRow) ∧ (20 : Half).toNat + 4 < sizeOf12 (polled []).params (25 <<< 2 ||| 1) ∧
      Answers (polled corruptRow) corruptRow (traffic corruptRow) []) ∧
    (WorkerReady (called (polled rowAccesses)) ∧ sizeOf12 (polled []).params (24 <<< 2 ||| 1) = 24 ∧
      NobodyTakes (called (polled rowAccesses)) 0x01 0x52 ∧ NobodyTakes (polled rowAccesses) 0x01 0x52 ∧
      Answers (called (polled rowAccesses)) rowAccesses (traffic rowAccesses) []) ∧
    [ran (.hifPing (.inbound false 20)) (polled (isrAccesses params 0)), ran (.hifPing (.inbound false 20)) (polled corruptRow),
        ran (.hifPing (.inbound false 20)) (called (polled rowAccesses)),
        ran (.hifBind (.inbound false 20)) (polled rowAccesses)] =
      [some (traffic (isrAccesses params 0), [.ok .unit]), some (traffic corruptRow, [.err .operationFailed]),
        some (traffic rowAccesses, [.ok .unit]), some (traffic rowAccesses, [.ok .unit])] :=
  ⟨by decide, ⟨worker_polled _, by decide +kernel, polled_answers (by decide +kernel)⟩,
    ⟨worker_polled _, by decide +kernel, polled_answers (by decide +kernel)⟩,
    ⟨workerReady ⟨⟨⟨rfl, rfl⟩, rfl, rfl, rfl, show 1024 ∈ legalLimits by decide, rfl⟩, rfl, rfl⟩, by decide +kernel,
      .inr ⟨rfl, by decide +kernel, by decide⟩, .inl (by decide +kernel),
      answers_script rfl rfl rfl (by decide +kernel) (List.append_nil _).symm⟩, by decide +kernel⟩

/-- A waiting `Send` of slot 0 under session id 5 (section 2.21), and a subscriber. -/
def pending (s : State) : State :=
  ((openSlot 0 .connected .empty s).mapSock fun k =>
    { (k.setSlot 0 fun x => { x with replies := [⟨5, .send, 0⟩] }) with mail := [(0, .waiting)] }).mapHif fun h =>
      { h with subs := [⟨0, none⟩] }

/-- A `SendReply` received: descriptor 0, 6 bytes, session id 5. -/
def sendRecord : Bytes := [0, 0, 6, 0, 5, 0, 0, 0]

/-- What it takes the worker, the header in hand. -/
def sendRecordAccesses : List Access :=
  isrAccesses params (16 <<< 2 ||| 1) ++ [.read params.regHifRxBase 0x3000] ++
    .readBlock 0x3008 sendRecord :: rxDoneAccesses params true 0

/-- The state before the packet is taken. -/
def delivering : State := pending (liveState (script sendRecordAccesses) [])

theorem witness_RepliesFillTheirEntry :
    hifRow groupIp 0x45 (.inbound false 16) = some (.hifSend (.inbound false 16)) ∧
      replyRecord 0x45 = some (.send, .sendReply) ∧
      delivering.hif.cb[groupIp.toNat]'groupIp.isLt = some .socket ∧ WorkerReady delivering ∧
      (delivering.hif.subs.map (·.id)).Nodup ∧ recSize delivering.params .sendReply = 8 ∧ sendRecord.length = 8 ∧
      8 + 8 ≤ (16 : Half).toNat ∧ sizeOf12 delivering.params (16 <<< 2 ||| 1) = 16 ∧ (0x3000 : Word).toNat + 8 < 2 ^ 24 ∧
      Answers delivering sendRecordAccesses (traffic sendRecordAccesses) [] ∧
      replyKey (decRec delivering.params .sendReply sendRecord) = (0, some 5) ∧
      matchReply delivering.sock 0 (some 5) .send = some 0 ∧ matchReply delivering.sock 0 (some 5) .connect = none :=
  ⟨by decide, by decide, by decide +kernel,
    workerReady ⟨⟨⟨rfl, rfl⟩, rfl, rfl, rfl, show 1024 ∈ legalLimits by decide, rfl⟩, rfl, rfl⟩, by decide +kernel,
    by decide +kernel, by decide, by decide, by decide +kernel, by decide,
    answers_script rfl rfl rfl (by decide +kernel) (List.append_nil _).symm, by decide +kernel, by decide +kernel,
    by decide +kernel⟩

theorem test_replies :
    view (fun t => (t.sock.mail, t.hif.subs, t.env.results.map (·.2))) (exec (.hifSend (.inbound false 16)) delivering) =
      some ([(0, .filled (.send 0 6 (some 5)))], [⟨0, some ⟨0x01, 0x45, .reply (.send 0 6 (some 5))⟩⟩], [.ok .unit]) ∧
    view (fun t => (t.sock.mail, t.hif.subs)) (exec (.hifConnect (.inbound false 16)) delivering) =
      some ([(0, .waiting)], [⟨0, none⟩]) := by decide +kernel

/-- What a packet whose record is not read takes, and the state: too short for it, or larger than its window. -/
def cutAccesses (r : Word) : List Access :=
  isrAccesses params r ++ [.read params.regHifRxBase 0x3000] ++ rxDoneAccesses params true 0
def cut (r : Word) : State := pending (liveState (script (cutAccesses r)) [])

theorem witness_RepliesFillTheirEntry_cut :
    (WorkerReady (cut (16 <<< 2 ||| 1)) ∧ sizeOf12 params (16 <<< 2 ||| 1) ≤ (15 : Half).toNat + 4 ∧
      sizeOf12 params (16 <<< 2 ||| 1) ≠ 0 ∧ (15 : Half).toNat < 8 + recSize params .sendReply) ∧
    (WorkerReady (cut (15 <<< 2 ||| 1)) ∧ sizeOf12 params (15 <<< 2 ||| 1) ≤ (16 : Half).toNat + 4 ∧
      sizeOf12 params (15 <<< 2 ||| 1) < 8 + recSize params .sendReply) ∧
    (Answers (cut (16 <<< 2 ||| 1)) (cutAccesses (16 <<< 2 ||| 1)) (traffic (cutAccesses (16 <<< 2 ||| 1))) [] ∧
      Answers (cut (15 <<< 2 ||| 1)) (cutAccesses (15 <<< 2 ||| 1)) (traffic (cutAccesses (15 <<< 2 ||| 1))) []) ∧
    [exec (.hifSend (.inbound false 15)) (cut (16 <<< 2 ||| 1)),
        exec (.hifSend (.inbound false 16)) (cut (15 <<< 2 ||| 1))].map
        (view fun t => (t.sock.mail, t.hif.subs, t.hif.rxPend)) =
      List.replicate 2 (some ([(0, .waiting)], [⟨0, none⟩], false)) := by
  have hw : ∀ r, WorkerReady (cut r) := fun r =>
    workerReady ⟨⟨⟨rfl, rfl⟩, rfl, rfl, rfl, show 1024 ∈ legalLimits by decide, rfl⟩, rfl, rfl⟩
  refine ⟨⟨hw _, by decide +kernel⟩, ⟨hw _, by decide +kernel⟩, ⟨?_, ?_⟩, by decide +kernel⟩
  all_goals exact answers_script rfl rfl rfl (by decide +kernel) (List.append_nil _).symm

theorem witness_ReceiveChecksTheWindow :
    (Ready (windowed 24 (served [])) ∧ Ready (served [])) ∧ (windowed 24 (served [])).env.yields = [] ∧
      Memory.wf (windowed 24 (served [])).mem = true ∧ (served []).hif.rxValid = false ∧
      (windowed 24 (served [])).hif.rxValid = true ∧ (windowed 24 (served [])).hif.rxSize.toNat < 25 ∧
      (0x2FFF : Word).toNat < (windowed 24 (served [])).hif.rxAddr.toNat ∧
      (windowed 24 (served [])).hif.rxAddr.toNat + (windowed 24 (served [])).hif.rxSize.toNat <
        (0x3008 : Word).toNat + 17 := ⟨⟨⟨rfl, rfl⟩, rfl, rfl⟩, by decide +kernel⟩

theorem test_receive_refused :
    [run (.opHifReceive 0x3000 ⟨0, 25⟩ false) (windowed 24 (served [])),
      run (.opHifReceive 0x3008 ⟨0, 17⟩ false) (windowed 24 (served [])),
      run (.opHifReceive 0x2FFF ⟨0, 1⟩ false) (windowed 24 (served [])),
      run (.opHifReceive 0x3000 ⟨0, 1⟩ false) (served [])] =
    [some ([], [.err .messageTooLong]), some ([], [.err .badMemoryAlloc]), some ([], [.err .badMemoryAlloc]),
      some ([], [.err .badMemoryAlloc])] := by decide +kernel

/-- The last eight bytes of the window, and RX-done. -/
def tailAccesses : List Access := .readBlock 0x3010 [1, 2, 3, 4, 5, 6, 7, 8] :: rxDoneAccesses params true 0

theorem witness_ReceiveReadsTheWindow :
    let s := windowed 24 (served tailAccesses)
    Ready s ∧ BusReady s ∧ Memory.wf s.mem = true ∧ inWindow s.hif 0x3010 (Span.mk 2 8).len ∧
      (0x3010 : Word).toNat < 2 ^ 24 ∧ [1, 2, 3, 4, 5, 6, 7, (8 : Byte)].length = (Span.mk 2 8).len ∧
      Answers s tailAccesses (traffic tailAccesses) [] ∧
      view (fun t => (memReadBytes t.mem 2 8, t.hif.rxPend)) (exec (.opHifReceive 0x3010 ⟨2, 8⟩ false) s) =
        some ([1, 2, 3, 4, 5, 6, 7, 8], false) :=
  ⟨⟨rfl, rfl⟩, busReady (by decide +kernel), rfl, ⟨rfl, by decide, by decide, by decide⟩, by decide, rfl,
    answers_script rfl rfl rfl (by decide +kernel) (List.append_nil _).symm, by decide +kernel⟩

/-- A subscriber's queue closed with an event in it, and empty. -/
def ended (content : Option Event) : State :=
  (readyState [] [.consume 3]).mapEnv fun e => { e with closed := [⟨3, content⟩] }

theorem witness_Registrations :
    (nextInput (ended none) = some (.consume 3) ∧ (∀ x ∈ (ended none).hif.subs, x.id ≠ 3) ∧
      (ended none).env.closed.find? (fun x => x.id = 3) = some ⟨3, none⟩ ∧
      view (fun t => t.env.delivered) (step (ended none)) = some [(3, none)] ∧
      view (fun t => (t.env.delivered, t.env.closed)) (step (ended (some ⟨1, 0x41, .bytes []⟩))) =
        some ([(3, some ⟨1, 0x41, .bytes []⟩)], [⟨3, none⟩])) ∧
    initializing State.reset = false ∧ State.reset.hif.state = .uninitialized ∧ State.reset.hif.lock = .free ∧ State.reset.env.yields = [] ∧
      view (fun t => t.hif.cb[7]) (exec (.opRegisterCallback 7 (.collaborator 3)) State.reset) =
        some (some (.collaborator 3)) ∧
      view (fun t => (t.hif.subs, t.env.results)) (exec .opOpenEventChannel State.reset) =
        some ([⟨0, none⟩], [(0, .ok (.queue 0))]) := by decide +kernel

/-- A collaborator registered for group 7, whose callback answers a payload or nothing, and a subscriber. -/
def collaborating (ret : Option Bytes) : State :=
  ((polled (stray 12 (rxDoneAccesses params true 0))).mapHif fun h =>
    { h with cb := h.cb.set 7 (some (.collaborator 3)), subs := [⟨0, none⟩] }).mapEnv fun e =>
      { e with collab := [⟨[], ret⟩] }

theorem witness_Registrations_collaborator :
    let s := collaborating (some [9])
    (WorkerReady s ∧ (s.hif.subs.map (·.id)).Nodup ∧
      s.hif.cb[(0x07 : Byte).toNat]'(0x07 : Byte).isLt = some (.collaborator 3) ∧
      s.env.collab = [⟨[], some [9]⟩] ∧ sizeOf12 s.params (16 <<< 2 ||| 1) ≠ 0 ∧
      sizeOf12 s.params (16 <<< 2 ||| 1) ≤ (12 : Byte).toNat + 256 * (0 : Byte).toNat + 4 ∧
      (0x3000 : Word).toNat < 2 ^ 24 ∧
      Answers s (stray 12 (rxDoneAccesses params true 0)) (traffic (stray 12 (rxDoneAccesses params true 0))) []) ∧
    view (fun t => (t.env.calls, t.hif.subs)) (exec .opIsr s) =
      some ([⟨3, 0x44, 4, 0x3008⟩], [⟨0, some ⟨0x07, 0x44, .bytes [9]⟩⟩]) ∧
    view (fun t => t.hif.subs) (exec .opIsr (collaborating none)) = some [⟨0, none⟩] :=
  ⟨⟨workerReady ⟨⟨⟨rfl, rfl⟩, rfl, rfl, rfl, show 1024 ∈ legalLimits by decide, rfl⟩, rfl, rfl⟩, by decide +kernel,
      by decide +kernel, rfl, by decide +kernel, by decide +kernel, by decide,
      answers_script rfl rfl rfl (by decide +kernel) (List.append_nil _).symm⟩, by decide +kernel, by decide +kernel⟩

/-! ### The interrupt and the worker -/

theorem witness_FallingEdgePostsGo :
    nextInput (liveState [] [.pin false]) = some (.pin false) ∧
      view (fun t => (t.irq.go, t.irq.irqPrev)) (step (liveState [] [.pin false])) = some (true, false) ∧
      view (fun t => (t.irq.go, t.irq.irqPrev)) (step (readyState [] [.pin false])) = some (false, false) := by
  decide +kernel

/-- A round for an interrupt without a packet. -/
def emptyRound : List Access :=
  wakeAccesses params 0 0 [0x4] ++ isrAccesses params 1 ++ sleepAccesses params 0x2 0x1

/-- The signal given. -/
def signalled : State := (liveState (script emptyRound) [.work]).mapIrq fun q => { q with go := true }

theorem witness_OneSignalOneRound :
    (nextInput (readyState [] [.work]) = some .work ∧ (readyState [] [.work]).irq.wseq = .stopped) ∧
    ((liveState [] [.work]).irq.wseq = .wait ∧ (liveState [] [.work]).irq.go = false) ∧
    (((liveState [] [.work]).mapIrq fun q => { q with stop := true }).irq.stop = true) ∧
    (nextInput signalled = some .work ∧ signalled.irq.wseq = .wait ∧ signalled.irq.stop = false ∧
      signalled.irq.go = true ∧ signalled.hif.lock = .free ∧ BusReady signalled ∧ signalled.hif.awake = false ∧
      LastOnly (acked signalled.params) [0x4] ∧ sizeOf12 signalled.params 1 = 0 ∧
      Answers signalled emptyRound (traffic emptyRound) []) ∧
    view (fun t => (busOf t, t.irq.wseq, t.irq.go, t.hif.awake)) (step signalled) =
      some (traffic emptyRound, .wait, false, false) :=
  ⟨⟨rfl, rfl⟩, ⟨rfl, rfl⟩, rfl,
    ⟨rfl, rfl, rfl, rfl, rfl, busReady (by decide +kernel), rfl, lastOnly_one rfl, by decide +kernel,
      answers_script rfl rfl rfl (by decide +kernel) (List.append_nil _).symm⟩, by decide +kernel⟩

/-! ### The socket multiplexer -/

/-- All slots of the stream range in use. -/
def crowded : State :=
  ([0, 1, 2, 3, 4, 5, 6] : List (Fin 11)).foldl (fun s i => openSlot i .allocated .empty s) (liveState [] [])

/-- Every datagram slot is free but locked. -/
def lockedOut : State :=
  ([7, 8, 9, 10] : List (Fin 11)).foldl
    (fun s i => s.mapSock fun q => q.setSlot i fun x => { x with lock := .held (.caller 7) }) (liveState [] [])

theorem witness_SocketTakesTheLowestFreeSlot :
    let s := openSlot 0 .allocated .empty (liveState [] [])
    (s.root.live = true ∧ (s.hif.state = .ready ∧ initializing s = false) ∧ s.env.yields = [] ∧ s.sock.sidLock = .free) ∧
    (SslFlags.empty.active = false ∧ (s.sock.slot 1).inUse = false ∧ (s.sock.slot 1).lock = .free ∧
      ∀ j : Fin 11, j < 1 → (s.sock.slot j).inUse = true ∨ (s.sock.slot j).lock ≠ .free) ∧
    ((s.sock.slot 7).inUse = false ∧ (s.sock.slot 7).lock = .free ∧
      ∀ j : Fin 11, j < 7 → 7 ≤ j.val → (s.sock.slot j).inUse = true ∨ (s.sock.slot j).lock ≠ .free) ∧
    (∀ j : Fin 11, (j.val ≤ 6 ↔ SockType.stream = .stream) →
      (crowded.sock.slot j).inUse = true ∨ (crowded.sock.slot j).lock ≠ .free) ∧
    (∀ j : Fin 11, (j.val ≤ 6 ↔ SockType.datagram = .stream) →
      (lockedOut.sock.slot j).inUse = true ∨ (lockedOut.sock.slot j).lock ≠ .free) := by decide +kernel

theorem test_socket :
    let s := openSlot 0 .allocated .empty (liveState [] [])
    [run (.opSocket .stream .empty) s, run (.opSocket .datagram .empty) s, run (.opSocket .stream .empty) crowded,
        run (.opSocket .datagram .empty) lockedOut] =
      [some ([], [.ok (.slot 1)]), some ([], [.ok (.slot 7)]), some ([], [.err .noAvailableSocket]),
        some ([], [.err .noAvailableSocket])] ∧
    view (fun t => ((t.sock.slot 7).state, (t.sock.slot 7).txOffset, (t.sock.slot 7).sid, t.sock.sid))
      (exec (.opSocket .datagram .empty) s) = some (.allocated, 68, 1, 1) := by decide +kernel

/-- The driver live; the device takes one packet. -/
def taking (group opcode : Byte) (control : Bytes) : State :=
  liveState (script (packet group opcode control [] 0)) []

/-- The driver live; every transfer fails. -/
def deaf : State := liveState (List.replicate 60 none) []

theorem witness_SocketCreatesTlsFirst :
    let s := openSlot 0 .allocated .empty (taking 0x02 0x50 (encSslCreate params 1))
    let d := openSlot 0 .allocated .empty deaf
    let p := hifSend params params.groupWifi 0x50 (encSslCreate params 1) [] 0
    (s.root.live = true ∧ (s.hif.state = .ready ∧ initializing s = false) ∧ s.env.yields = [] ∧ tlsOn.active = true ∧
      (1 : Fin 11).val ≤ 6 ∧ (s.sock.slot 1).inUse = false ∧ (s.sock.slot 1).lock = .free ∧
      ∀ j : Fin 11, j < 1 → (s.sock.slot j).inUse = true ∨ (s.sock.slot j).lock ≠ .free) ∧
    (Runs 0 p (entered 1 s) (.ok ()) (after p (entered 1 s)) ∧ (after p (entered 1 s)).sock.sidLock = .free ∧
      (after p (entered 1 s)).root.live = true ∧
      ((after p (entered 1 s)).sock.slot 1).lock = .held (.caller (taskOf s))) ∧
    ((d.sock.slot 1).inUse = false ∧ Runs 0 p (entered 1 d) (.error .xfer) (after p (entered 1 d)) ∧
      (after p (entered 1 d)).sock.sidLock = .free) :=
  ⟨by decide +kernel, ⟨runs_after (by decide +kernel), by decide +kernel, by decide +kernel, by decide +kernel⟩, rfl,
    runs_after (by decide +kernel), by decide +kernel⟩

theorem test_socket_tls :
    ran (.opSocket .stream tlsOn) (taking 0x02 0x50 (encSslCreate params 0)) =
      some (traffic (packet 0x02 0x50 [0, 0, 0, 0] [] 0), [.ok (.slot 0)]) ∧
    view (fun t => ((t.sock.slot 0).inUse, t.env.results)) (exec (.opSocket .stream tlsOn) deaf) =
      some (false, [(0, .err .socketInvalid)]) := by decide +kernel

theorem witness_FreeSlotIsInvalid :
    let s := liveState [] []
    s.root.live = true ∧ Ready s ∧ s.env.yields = [] ∧ ((-1 : Int) < 0) ∧ (10 : Int) < 11 ∧
      (∃ k : Fin 11, (10 : Int) = k.val ∧ (s.sock.slot k).inUse = false ∧ (s.sock.slot k).lock = .free) ∧
      s.params.optValid.app (7, []) = .ok ∧
      [run (.opBind (-1) host 0) s, run (.opListen 11 1 0) s, run (.opShutdown 10) s, run (.opSetsockopt 10 7 []) s,
          run (.opRecv 10 ⟨0, 0⟩ 0) s] = List.replicate 5 (some ([], [.err .socketInvalid])) :=
  ⟨rfl, ⟨rfl, rfl⟩, rfl, by decide, by decide, ⟨10, by decide, by decide +kernel, by decide +kernel⟩, by decide +kernel,
    by decide +kernel⟩

/-- Slot 0 open; the device takes a request and answers it with a record in the next round of the worker. -/
def asked (ssl : SslFlags) (pk : Packet) (replyOp : Byte) (record : Bytes) : State :=
  answered ssl pk.opcode (pk.control 1) pk.data pk.offset replyOp record

/-- The request run by a caller that has entered slot 0. -/
def asking (kind : Kind) (pk : Packet) : Prog (Except Err Reply) := request params 0 kind pk 5

/-- The packet of `Bind`. -/
def bindPacket : Packet := ⟨groupIp, 0x41, encBind params host 0, [], 0⟩
/-- The packet of `Listen`. -/
def listenPacket : Packet := ⟨groupIp, 0x42, encListen params 0 3, [], 0⟩
/-- The packet of `Connect`. -/
def connectPacket (ssl : SslFlags) (op : Byte) (addr : SockAddr) : Packet :=
  ⟨groupIp, op, encConnect params addr 0 ssl, [], 0⟩
/-- The packet of `Send` and `SendTo`. -/
def sendPk (op : Byte) (addr : SockAddr) : Packet := ⟨groupIp, op, encSend params 0 3 addr, [7, 8, 9], 80⟩
/-- The packet of `Recv`. -/
def recvPacket : Packet := ⟨groupIp, 0x46, encRecv params 100 0, [], 0⟩

theorem slot_asked (ssl : SslFlags) (pk : Packet) (op : Byte) (record : Bytes) : SlotReady 0 (asked ssl pk op record) :=
  slotReady ⟨rfl, ⟨rfl, rfl⟩, rfl, rfl, rfl, rfl⟩

/-- The states in which the packet is out, and in which the request has failed, of a bind request. -/
def bindOut : State :=
  after (hifSend params groupIp 0x41 (encBind params host 0 1) [] 0)
    (requested 0 .bind (entered 0 (asked .empty bindPacket 0x41 [0, 0, 1, 0])))

/-- A reply slot in a given condition, the deadline up. -/
def held (v : Mail) : State :=
  (liveState [] []).mapSock (fun q => { q with mail := [(4, v)] }) |>.mapEnv fun e => { e with fired := true }

theorem witness_RequestInsertsSendsAndWaits :
    let s := entered 0 (asked .empty bindPacket 0x41 [0, 0, 1, 0])
    let d := entered 0 (openSlot 0 .allocated .empty deaf)
    (s.sock.sidLock = .free ∧ s.env.yields = [] ∧ s.env.fired = false ∧ Holds 0 0 s ∧ (s.sock.slot 1).inUse = false ∧
      ((s.sock.slot 0).replies = [] ∧
        Runs 0 (asking .bind bindPacket) s (.ok (.status 0 0 (some 1))) (after (asking .bind bindPacket) s)) ∧
      Runs 0 (hifSend params groupIp 0x41 (encBind params host 0 1) [] 0) (requested 0 .bind s) (.ok ()) bindOut ∧
      Runs 0 (Prog.call (.waitReply 0 s.env.nextMail ((5 : Word) != 0))) bindOut (.reply (.ok (.status 0 0 (some 1))))
        (after (Prog.call (.waitReply 0 0 true)) bindOut)) ∧
    (d.sock.sidLock = .free ∧ d.env.yields = [] ∧ d.env.fired = false ∧ Holds 0 0 d ∧
      Runs 0 (hifSend params groupIp 0x41 (encBind params host 0 1) [] 0) (requested 0 .bind d) (.error .xfer)
        (after (hifSend params groupIp 0x41 (encBind params host 0 1) [] 0) (requested 0 .bind d))) ∧
    ((perform (.waitReply 0 4 true) .worker (held .abandoned)).1 = some (.reply (.error .socketInvalid)) ∧
      mailGet (held .waiting).sock.mail 4 = some .waiting ∧
      mailGet (held (.filled (.dns [] 7))).sock.mail 4 = some (.filled (.dns [] 7)) ∧ (held .waiting).env.fired = true) :=
  ⟨⟨rfl, rfl, rfl, ⟨rfl, rfl, rfl⟩, rfl, ⟨rfl, runs_after (by decide +kernel)⟩, runs_after (by decide +kernel),
      runs_after (by decide +kernel)⟩,
    ⟨rfl, rfl, rfl, ⟨rfl, rfl, rfl⟩, runs_after (by decide +kernel)⟩, by decide +kernel⟩

/-! ### Requests that complete -/

theorem goodSend {p : Params} {control data : Bytes} {offset : Nat} {w : SendWords}
    (h : 8 + max control.length (offset + data.length) ≤ 1596 ∧ w.acks.length ≤ 10 ∧ w.polls.length ≤ p.hifDmaPolls ∧
      w.dma ≠ 0 ∧ w.dma.toNat + 8 + offset < 2 ^ 24) (ha : LastOnly (acked p) w.acks)
    (hp : LastOnly p.dmaPublished.app w.polls) : GoodSend p control data offset w :=
  ⟨h.1, h.2.1, ha, h.2.2.1, hp, h.2.2.2.1, h.2.2.2.2⟩

theorem goodRound {p : Params} {record : Bytes} {w : RoundWords}
    (h : w.acks.length ≤ 10 ∧ 0 < record.length ∧ 8 + record.length ≤ sizeOf12 p w.control ∧
      sizeOf12 p w.control ≤ 8 + record.length + 4 ∧ w.address.toNat + 8 < 2 ^ 24) (ha : LastOnly (acked p) w.acks) :
    GoodRound p record w := ⟨h.1, ha, h.2.1, h.2.2.1, h.2.2.2.1, h.2.2.2.2⟩

theorem live_callback : (liveState [] []).hif.cb[groupIp.toNat]'groupIp.isLt = some .socket := by decide +kernel

theorem awaiting_asked (ssl : SslFlags) (pk : Packet) (op : Byte) (record : Bytes) :
    Awaiting (asked ssl pk op record) [] :=
  ⟨sessionReady ⟨⟨rfl, rfl⟩, rfl, rfl, rfl, show 1024 ∈ legalLimits by decide, rfl⟩, rfl, rfl, rfl, rfl, rfl, live_callback,
    List.nodup_nil, rfl⟩

theorem inWindowOf {h : Hif} {address : Word} {n : Nat}
    (hw : h.rxValid = true ∧ n ≤ h.rxSize.toNat ∧ h.rxAddr.toNat ≤ address.toNat ∧
      address.toNat + n ≤ h.rxAddr.toNat + h.rxSize.toNat) : inWindow h address n := hw

/-- What the statement about whole requests supposes, slot 0 and the device of the tests given. -/
structure Meets (ssl : SslFlags) (i : Instr) (kind : Kind) (pk : Packet) (rep : Reply) (v : Value) (f : Slot → Slot)
    (op : Byte) (record : Bytes) : Prop where
  slot : SlotReady 0 (asked ssl pk op record)
  awaiting : Awaiting (asked ssl pk op record) []
  sidLock : (asked ssl pk op record).sock.sidLock = .free
  replies : ((asked ssl pk op record).sock.slot 0).replies = []
  mail : ∀ e ∈ (asked ssl pk op record).sock.mail, e.1 < (asked ssl pk op record).env.nextMail
  request : SlotRequest (asked ssl pk op record) 0 i kind pk rep v f
  send : GoodSend (asked ssl pk op record).params (pk.control ((asked ssl pk op record).sock.sid + 1)) pk.data pk.offset
    sendWords
  round : GoodRound (asked ssl pk op record).params record (roundWords record.length)
  reply : ∃ rec, replyRecord (op &&& 0x7F) = some (kind, rec) ∧
    record.length = recSize (asked ssl pk op record).params rec ∧ decRec (asked ssl pk op record).params rec record = rep
  key : (replyKey rep).1.toInt = (0 : Fin 11).val ∧
    ((replyKey rep).2 = none ∨ (replyKey rep).2 = some ((asked ssl pk op record).sock.sid + 1))
  wire : Answers (asked ssl pk op record)
    (sendAccesses (asked ssl pk op record).params pk.group pk.opcode
        (pk.control ((asked ssl pk op record).sock.sid + 1)) pk.data pk.offset sendWords ++
      roundAccesses (asked ssl pk op record).params op record (roundWords record.length))
    (traffic (packet 0x01 pk.opcode (pk.control 1) pk.data pk.offset ++ roundOf op record)) []

theorem meets {ssl : SslFlags} {i : Instr} {kind : Kind} {pk : Packet} {rep : Reply} {v : Value} {f : Slot → Slot}
    {op : Byte} {record : Bytes} (hg : pk.group = 0x01)
    (hq : SlotRequest (asked ssl pk op record) 0 i kind pk rep v f)
    (hf : 8 + max (pk.control 1).length (pk.offset + pk.data.length) ≤ 1596) (ho : pk.offset ≤ 80)
    (hr : 8 + record.length ≤ sizeOf12 params (roundWords record.length).control ∧
      sizeOf12 params (roundWords record.length).control ≤ 8 + record.length + 4 ∧ 0 < record.length)
    (hd : ∃ rec, replyRecord (op &&& 0x7F) = some (kind, rec) ∧ record.length = recSize params rec ∧
      decRec params rec record = rep)
    (hk : (replyKey rep).1.toInt = (0 : Fin 11).val ∧ ((replyKey rep).2 = none ∨ (replyKey rep).2 = some 1))
    (hw : (packet 0x01 pk.opcode (pk.control 1) pk.data pk.offset ++ roundOf op record).all oneChunk = true) :
    Meets ssl i kind pk rep v f op record :=
  { slot := slot_asked ssl pk op record
    awaiting := awaiting_asked ssl pk op record
    sidLock := rfl
    replies := rfl
    mail := fun _ h => nomatch h
    request := hq
    send := goodSend ⟨hf, by decide, show 1 ≤ 4 by decide, by decide, by
      show (0x20000 : Word).toNat + 8 + pk.offset < 2 ^ 24
      have : (0x20000 : Word).toNat = 0x20000 := rfl
      omega⟩ (show LastOnly (acked params) [0x4] from lastOnly_one rfl)
      (show LastOnly params.dmaPublished.app [0x0] from lastOnly_one rfl)
    round := goodRound ⟨show 1 ≤ 10 by decide, hr.2.2, hr.1, hr.2.1, show 0x3000 + 8 < 2 ^ 24 by decide⟩
      (show LastOnly (acked params) [0x4] from lastOnly_one rfl)
    reply := hd
    key := hk
    wire := by
      rw [hg]
      exact answers_script rfl rfl rfl hw (List.append_nil _).symm }

theorem witness_SlotRequestsComplete_bind :
    Meets .empty (.opBind 0 host 5) .bind bindPacket (.status 0 0 (some 1)) .unit (fun x => { x with state := .bound })
      0x41 [0, 0, 1, 0] :=
  meets rfl (.bind host 5 0 (some 1)) (by decide +kernel) (by decide) (by decide +kernel)
    ⟨_, rfl, by decide +kernel, by decide +kernel⟩ (by decide) (by decide +kernel)

theorem witness_SlotRequestsComplete_listen :
    Meets .empty (.opListen 0 3 5) .listen listenPacket (.status 0 0 (some 1)) .unit
      (fun x => { x with state := .listening }) 0x42 [0, 0, 1, 0] :=
  meets rfl (.listen 3 5 0 (some 1)) (by decide +kernel) (by decide) (by decide +kernel)
    ⟨_, rfl, by decide +kernel, by decide +kernel⟩ (by decide) (by decide +kernel)

theorem witness_SlotRequestsComplete_connect :
    Meets .empty (.opConnect 0 host 5) .connect (connectPacket .empty 0x44 host) (.connect 0 0 88 none) .unit
      (fun x => { x with txOffset := 88 - 8, state := .connected }) 0x44 [0, 0, 88, 0] :=
  meets rfl (.connect host 5 0 88 none (by decide)) (by decide +kernel) (by decide) (by decide +kernel)
    ⟨_, rfl, by decide +kernel, by decide +kernel⟩ (by decide) (by decide +kernel)

theorem witness_SlotRequestsComplete_secure :
    Meets tlsLater (.opSecure 0 5) .connect (connectPacket tlsLater 0x56 .zero) (.connect 0 0 8 none) .unit
      (fun x => { x with ssl := { x.ssl with delayHandshake := false }, txOffset := 8 - 8 }) 0x56 [0, 0, 8, 0] :=
  meets rfl (.secure 5 0 8 none rfl rfl (by decide)) (by decide +kernel) (by decide) (by decide +kernel)
    ⟨_, rfl, by decide +kernel, by decide +kernel⟩ (by decide) (by decide +kernel)

theorem witness_SlotRequestsComplete_send :
    Meets tlsOn (.opSendSocket 0 [7, 8, 9] 5) .send (sendPk 0x4C .zero) (.send 0 3 (some 1)) (.count 3) (fun x => x) 0x4C
      [0, 0, 3, 0, 1, 0, 0, 0] :=
  meets rfl (.send [7, 8, 9] 5 0 3 (some 1) (by decide)) (by decide +kernel) (by decide) (by decide +kernel)
    ⟨_, rfl, by decide +kernel, by decide +kernel⟩ (by decide) (by decide +kernel)

theorem witness_SlotRequestsComplete_sendTo :
    Meets .empty (.opSendTo 0 [7, 8, 9] host 5) .send (sendPk 0x47 host) (.send 0 0 (some 1)) (.count 0) (fun x => x)
      0x47 [0, 0, 0, 0, 1, 0, 0, 0] :=
  meets rfl (.sendTo [7, 8, 9] host 5 0 0 (some 1) (by decide)) (by decide +kernel) (by decide) (by decide +kernel)
    ⟨_, rfl, by decide +kernel, by decide +kernel⟩ (by decide) (by decide +kernel)

/-- Slot 0 and the results after a call. -/
def outcome (i : Instr) (s : State) : Option (SlotState × Half × List Result) :=
  view (fun t => ((t.sock.slot 0).state, (t.sock.slot 0).txOffset, t.env.results.map (·.2))) (exec i s)

theorem test_requests :
    [outcome (.opBind 0 host 5) (asked .empty bindPacket 0x41 [0, 0, 1, 0]),
      outcome (.opListen 0 3 5) (asked .empty listenPacket 0x42 [0, 0, 1, 0]),
      outcome (.opConnect 0 host 5) (asked .empty (connectPacket .empty 0x44 host) 0x44 [0, 0, 89, 0]),
      outcome (.opSecure 0 5) (asked tlsLater (connectPacket tlsLater 0x56 .zero) 0x56 [0, 0, 8, 0]),
      outcome (.opSendSocket 0 [7, 8, 9] 5) (asked .empty (sendPk 0x45 .zero) 0x45 [0, 0, 3, 0, 1, 0, 0, 0]),
      outcome (.opSendTo 0 [7, 8, 9] host 5) (asked .empty (sendPk 0x47 host) 0x47 [0, 0, 0, 0, 1, 0, 0, 0])] =
    [some (.bound, 80, [.ok .unit]), some (.listening, 80, [.ok .unit]), some (.connected, 81, [.ok .unit]),
      some (.allocated, 0, [.ok .unit]), some (.allocated, 80, [.ok (.count 3)]),
      some (.allocated, 80, [.ok (.count 0)])] := by decide +kernel

/-- A reply with the device's error 0xF7, and one under another session id while the deadline ends. -/
theorem test_requests_fail :
    outcome (.opBind 0 host 5) (asked .empty bindPacket 0x41 [0, 0xF7, 1, 0]) =
      some (.allocated, 80, [.err (.socketError (-9))]) ∧
    outcome (.opBind 0 host 5)
        ((asked .empty bindPacket 0x41 [0, 0, 9, 0]).mapEnv fun e => { e with inbox := e.inbox ++ [.expire 0] }) =
      some (.allocated, 80, [.err .socketTimeout]) ∧
    outcome (.opSendSocket 0 [7] 5) (openSlot 0 .connected .empty deaf) =
      some (.connected, 80, [.err .socketBufferFull]) := by decide +kernel

theorem holdsOf {i : Fin 11} {id : Nat} {s : State}
    (h : (s.sock.slot i).inUse = true ∧ (s.sock.slot i).desc = BitVec.ofNat 8 i.val ∧
      (s.sock.slot i).lock = .held (.caller id)) : Holds i id s := h

/-- `S_LOCK` held by another task; a `Hif.Send` that waited for it, free again. -/
def sessionBusy : State := (served []).mapHif fun h => { h with lock := .held (.caller 7) }
def resend : State :=
  (readyState (script (packet 0x01 0x45 [] [] 0)) [.resume 0]).mapEnv fun e =>
    { e with tasks := [⟨0, .opHifSend 0x01 0x45 [] [] 0, [.flag true]⟩], nextTask := 1 }

theorem witness_OperationsWaitForTheBus_session :
    (Ready sessionBusy ∧ sessionBusy.hif.lock = .held (.caller 7) ∧ sessionBusy.env.inbox = [] ∧
      sessionBusy.env.yields = [] ∧ RowOf params 0x01 0x45 (.outbound [] [] 0) (.hifSend (.outbound [] [] 0)) ∧
      [Instr.opChipWake, .opChipSleep, .opRegisterCallback 1 .socket, .opOpenEventChannel,
          .opHifSend 0x01 0x45 [] [] 0, .hifSend (.outbound [] [] 0)].map
          (fun i => view (fun t => (t.env.tasks, busOf t)) (exec i sessionBusy)) =
        [some ([⟨0, .opChipWake, []⟩], []), some ([⟨0, .opChipSleep, []⟩], []),
          some ([⟨0, .opRegisterCallback 1 .socket, []⟩], []), some ([⟨0, .opOpenEventChannel, []⟩], []),
          some ([⟨0, .opHifSend 0x01 0x45 [] [] 0, [.flag true]⟩], []),
          some ([⟨0, .hifSend (.outbound [] [] 0), [.flag true]⟩], [])]) ∧
    (nextInput resend = some (.resume 0) ∧
      findTask 0 resend = some ⟨0, .opHifSend 0x01 0x45 [] [] 0, [.flag true]⟩ ∧ resend.hif.lock = .free ∧
      BusReady resend ∧ resend.hif.awake = false ∧ GoodSend resend.params [] [] 0 sendWords ∧
      Answers resend (sendAccesses resend.params 0x01 0x45 [] [] 0 sendWords) (traffic (packet 0x01 0x45 [] [] 0)) [] ∧
      view (fun t => (t.env.tasks.length, t.env.results)) (step resend) = some (0, [(0, .ok .unit)])) :=
  ⟨⟨⟨rfl, rfl⟩, rfl, rfl, rfl, ⟨by decide, by decide⟩, by decide +kernel⟩, rfl, rfl, rfl, busReady (by decide +kernel), rfl,
    goodSend (by decide +kernel) (lastOnly_one rfl) (lastOnly_one rfl),
    answers_script rfl rfl rfl (by decide +kernel) (List.append_nil _).symm, by decide +kernel⟩

/-- Slot 0 locked by another task; a `Bind` that waited for it, free again, in use or not. -/
def slotBusy : State :=
  (openSlot 0 .allocated .empty (liveState [] [])).mapSock fun q =>
    q.setSlot 0 fun x => { x with lock := .held (.caller 7) }
def rebind (s : State) : State :=
  s.mapEnv fun e =>
    { e with inbox := .resume 0 :: e.inbox, tasks := [⟨0, .opBind 0 host 5, []⟩], nextTask := 1 }
def rebinding : State := rebind (asked .empty bindPacket 0x41 [0, 0, 1, 0])
def rebound : State :=
  (dropExpiry (resumed 0 rebinding)).mapSock fun q => q.setSlot 0 fun x => { x with lock := .held (.caller 0) }

theorem witness_OperationsWaitForTheBus_slot :
    let ops : List Instr :=
      [.opBind 0 host 5, .opListen 0 3 5, .opConnect 0 host 5, .opSecure 0 5, .opSendSocket 0 [7] 5,
        .opSendTo 0 [7] host 5, .opRecv 0 ⟨0, 1⟩ 5, .opRecvFrom 0 ⟨0, 1⟩ 5, .opShutdown 0, .opAccept 0 5,
        .opSetsockopt 0 7 []]
    (slotBusy.root.live = true ∧ Ready slotBusy ∧ (slotBusy.sock.slot 0).lock = .held (.caller 7) ∧
      slotBusy.env.inbox = [] ∧ slotBusy.params.optValid.app (7, []) = .ok ∧
      ops.map (fun i => view (fun t => (t.env.tasks, busOf t)) (exec i slotBusy)) =
        ops.map fun i => some ([⟨0, i, []⟩], [])) ∧
    (nextInput rebinding = some (.resume 0) ∧ findTask 0 rebinding = some ⟨0, .opBind 0 host 5, []⟩ ∧
      (rebinding.sock.slot 0).lock = .free ∧ rebinding.env.yields = [] ∧
      (rebinding.sock.slot 0).inUse = true ∧ (rebinding.sock.slot 0).desc = BitVec.ofNat 8 (0 : Fin 11).val ∧
      Runs 0 (asking .bind bindPacket) rebound (.ok (.status 0 0 (some 1))) (after (asking .bind bindPacket) rebound) ∧
      Holds 0 0 (after (asking .bind bindPacket) rebound)) ∧
    (((rebind (liveState [] [])).sock.slot 0).inUse = false ∧
      [rebinding, rebind (liveState [] [])].map (fun s =>
          view (fun t => ((t.sock.slot 0).state, t.env.results)) (step s)) =
        [some (.bound, [(0, .ok .unit)]), some (.free, [(0, .err .socketInvalid)])]) :=
  ⟨⟨rfl, ⟨rfl, rfl⟩, rfl, rfl, by decide +kernel, by decide +kernel⟩,
    ⟨rfl, rfl, rfl, rfl, rfl, rfl, runs_after (by decide +kernel), holdsOf (by decide +kernel)⟩, rfl, by decide +kernel⟩

theorem witness_BindAndListen :
    let s := asked .empty bindPacket 0x41 [0, 0, 1, 0]
    let b := asked .empty bindPacket 0x41 [0, 0xF7, 1, 0]
    let l := asked .empty listenPacket 0x42 [0, 0, 1, 0]
    (SlotReady 0 s ∧ Runs (taskOf s) (asking .bind bindPacket) (entered 0 s) (.ok (.status 0 0 (some 1)))
        (after (asking .bind bindPacket) (entered 0 s)) ∧
      Holds 0 (taskOf s) (after (asking .bind bindPacket) (entered 0 s))) ∧
    (SlotReady 0 b ∧ Runs (taskOf b) (asking .bind bindPacket) (entered 0 b) (.ok (.status 0 0xF7 (some 1)))
        (after (asking .bind bindPacket) (entered 0 b))) ∧
    (SlotReady 0 l ∧ Runs (taskOf l) (asking .listen listenPacket) (entered 0 l) (.ok (.status 0 0 (some 1)))
        (after (asking .listen listenPacket) (entered 0 l)) ∧
      Holds 0 (taskOf l) (after (asking .listen listenPacket) (entered 0 l))) :=
  ⟨⟨slot_asked _ _ _ _, runs_after (by decide +kernel), holdsOf (by decide +kernel)⟩,
    ⟨slot_asked _ _ _ _, runs_after (by decide +kernel)⟩,
    slot_asked _ _ _ _, runs_after (by decide +kernel), holdsOf (by decide +kernel)⟩

theorem witness_ConnectAndSecure :
    let c := connectPacket .empty 0x44 host
    let w := connectPacket tlsLater 0x56 .zero
    let s := asked .empty c 0x44 [0, 0, 88, 0]
    let e := asked .empty c 0x44 [0, 0xF7, 0, 0]
    let f := asked .empty c 0x44 [0, 0, 7, 0]
    let t := asked tlsLater w 0x56 [0, 0, 8, 0]
    (Runs (taskOf s) (asking .connect c) (entered 0 s) (.ok (.connect 0 0 88 none))
        (after (asking .connect c) (entered 0 s)) ∧ Holds 0 (taskOf s) (after (asking .connect c) (entered 0 s)) ∧
      ¬((s.sock.slot 0).ssl.active = true ∧ (s.sock.slot 0).ssl.delayHandshake = true)) ∧
    Runs (taskOf e) (asking .connect c) (entered 0 e) (.ok (.connect 0 0xF7 0 none))
      (after (asking .connect c) (entered 0 e)) ∧
    Runs (taskOf f) (asking .connect c) (entered 0 f) (.ok (.connect 0 0 7 none))
      (after (asking .connect c) (entered 0 f)) ∧
    ((t.sock.slot 0).ssl.active = true ∧ (t.sock.slot 0).ssl.delayHandshake = true ∧
      Runs (taskOf t) (asking .connect w) (entered 0 t) (.ok (.connect 0 0 8 none))
        (after (asking .connect w) (entered 0 t)) ∧ Holds 0 (taskOf t) (after (asking .connect w) (entered 0 t))) :=
  ⟨⟨runs_after (by decide +kernel), holdsOf (by decide +kernel), by decide +kernel⟩,
    runs_after (by decide +kernel), runs_after (by decide +kernel), by decide +kernel, by decide +kernel,
    runs_after (by decide +kernel), holdsOf (by decide +kernel)⟩

theorem witness_SendAndSendTo :
    let s := asked tlsOn (sendPk 0x4C .zero) 0x4C [0, 0, 3, 0, 1, 0, 0, 0]
    let e := asked .empty (sendPk 0x47 host) 0x47 [0, 0, 0xF7, 0xFF, 1, 0, 0, 0]
    (opcodeFor (s.sock.slot 0) 0x45 0x4C = 0x4C ∧
      Runs (taskOf s) (asking .send (sendPk 0x4C .zero)) (entered 0 s) (.ok (.send 0 3 (some 1)))
        (after (asking .send (sendPk 0x4C .zero)) (entered 0 s))) ∧
    Runs (taskOf e) (asking .send (sendPk 0x47 host)) (entered 0 e) (.ok (.send 0 0xFFF7 (some 1)))
      (after (asking .send (sendPk 0x47 host)) (entered 0 e)) :=
  ⟨⟨by decide +kernel, runs_after (by decide +kernel)⟩, runs_after (by decide +kernel)⟩

/-! ### Receiving -/

/-- Slot 0 with three bytes of the window resident, the last ones. -/
def resident (xs : List Access) : State :=
  windowed 24 ((openSlot 0 .connected .empty (liveState (script xs) [])).mapSock fun q =>
    q.setSlot 0 fun x => { x with rxAddr := 0x3015, rxRem := 3, rxFrom := host })

/-- The pull of all of them, with RX-done. -/
def pullAccesses : List Access := .readBlock 0x3015 [7, 8, 9] :: rxDoneAccesses params true 0

theorem slot_resident (xs : List Access) : SlotReady 0 (resident xs) := slotReady ⟨rfl, ⟨rfl, rfl⟩, rfl, rfl, rfl, rfl⟩

theorem witness_RecvPullsResidentBytes :
    let s := resident pullAccesses
    let u := resident [.readBlock 0x3015 [7, 8]]
    (SlotReady 0 s ∧ BusReady s ∧ Memory.wf s.mem = true ∧ (s.sock.slot 0).rxRem ≠ 0 ∧
      min (Span.mk 0 8).len (s.sock.slot 0).rxRem.toNat = 3 ∧
      inWindow s.hif (s.sock.slot 0).rxAddr 3 ∧ (s.sock.slot 0).rxAddr.toNat < 2 ^ 24 ∧ [(7 : Byte), 8, 9].length = 3 ∧
      Answers s (.readBlock ((s.sock.slot 0).rxAddr.setWidth 24) [7, 8, 9] :: rxDoneAccesses s.params true 0)
        (traffic pullAccesses) []) ∧
    (SlotReady 0 u ∧ BusReady u ∧ (u.sock.slot 0).rxRem ≠ 0 ∧ min (Span.mk 0 2).len (u.sock.slot 0).rxRem.toNat = 2 ∧
      inWindow u.hif (u.sock.slot 0).rxAddr 2 ∧
      Answers u (.readBlock ((u.sock.slot 0).rxAddr.setWidth 24) [7, 8] :: rxDoneAccesses u.params false 0)
        (traffic [.readBlock 0x3015 [7, 8]]) []) :=
  ⟨⟨slot_resident _, busReady (by decide +kernel), rfl, by decide +kernel, by decide +kernel,
      inWindowOf (by decide +kernel), by decide +kernel, rfl,
      answers_script rfl rfl rfl (by decide +kernel) (List.append_nil _).symm⟩,
    slot_resident _, busReady (by decide +kernel), by decide +kernel, by decide +kernel, inWindowOf (by decide +kernel),
    answers_script rfl rfl rfl (by decide +kernel) (List.append_nil _).symm⟩

/-- Three bytes resident whose packet the advertised window no longer covers. -/
def overtaken : State := (resident []).mapHif fun h => { h with rxAddr := 0x4000 }

theorem witness_RecvPullsResidentBytes_none :
    let z := resident []
    let d := silent (resident [])
    let p := receive params (d.sock.slot 0).rxAddr 3 (decide (3 = (d.sock.slot 0).rxRem.toNat)) (some ⟨4, 3⟩)
    (SlotReady 0 z ∧ BusReady z ∧ (z.sock.slot 0).rxRem ≠ 0 ∧
      min (Span.mk 4 0).len (z.sock.slot 0).rxRem.toNat = 0 ∧ inWindow z.hif (z.sock.slot 0).rxAddr 0 ∧
      Answers z [] (traffic []) []) ∧
    (SlotReady 0 d ∧ (d.sock.slot 0).rxRem ≠ 0 ∧ min (Span.mk 4 8).len (d.sock.slot 0).rxRem.toNat = 3 ∧
      Runs (taskOf d) p (entered 0 d) (.error .xfer) (after p (entered 0 d)) ∧
      Holds 0 (taskOf d) (after p (entered 0 d))) ∧
    (SlotReady 0 overtaken ∧ (overtaken.sock.slot 0).rxRem ≠ 0 ∧
      ¬inWindow overtaken.hif (overtaken.sock.slot 0).rxAddr (min (Span.mk 4 8).len (overtaken.sock.slot 0).rxRem.toNat)) ∧
    [z, d, overtaken].map (fun s => view (fun t => ((t.sock.slot 0).rxRem, t.hif.rxPend, t.env.results.map (·.2)))
        (exec (.opRecv 0 ⟨4, if s = z then 0 else 8⟩ 0) s)) =
      [some (3, true, [.ok (.count 0)]), some (0, true, [.err .socketInvalid]),
        some (0, true, [.err .socketInvalid])] := by
  refine ⟨⟨slot_resident _, busReady (by decide +kernel), by decide +kernel, by decide +kernel,
      inWindowOf (by decide +kernel), ?_⟩,
    ⟨slotReady ⟨rfl, ⟨rfl, rfl⟩, rfl, rfl, rfl, rfl⟩, by decide +kernel, by decide +kernel,
      runs_after (by decide +kernel), holdsOf (by decide +kernel)⟩,
    ⟨slotReady ⟨rfl, ⟨rfl, rfl⟩, rfl, rfl, rfl, rfl⟩, by decide +kernel, fun h => ?_⟩, by decide +kernel⟩
  · exact answers_script rfl rfl rfl rfl (List.append_nil _).symm
  · exact absurd h.2.2.1 (by decide +kernel)

theorem test_recv_resident :
    view (fun t => (memReadBytes t.mem 4 3, (t.sock.slot 0).rxRem, t.hif.rxPend, t.env.results.map (·.2)))
      (exec (.opRecvFrom 0 ⟨4, 8⟩ 0) (resident pullAccesses)) =
        some ([7, 8, 9], 0, false, [.ok (.countFrom 3 host)]) ∧
    view (fun t => (memReadBytes t.mem 4 3, (t.sock.slot 0).rxRem, t.hif.rxPend, t.env.results.map (·.2)))
      (exec (.opRecv 0 ⟨4, 2⟩ 0) (resident [.readBlock 0x3015 [7, 8]])) =
        some ([7, 8, 0], 1, true, [.ok (.count 2)]) := by decide +kernel

/-- A `RecvReply`: sender, count, offset of the data in the packet, descriptor, session id. -/
def recvRecord (count : Byte) (high : Byte) : Bytes :=
  [2, 0, 0, 80, 0xC0, 0xA8, 1, 10, count, high, 16, 0, 0, 0, 1, 0]

/-- A `Recv` request answered without bytes: the callback releases the window. -/
def askedRecv (count high : Byte) : State := asked .empty recvPacket 0x46 (recvRecord count high)

/-- A `Recv` request answered with two bytes, which stand behind the record: its packet ends the window with the record,
so that RX-done is given; then come what the pull gets. -/
def askedThen (pull : List (Option Byte)) : State :=
  openSlot 0 .connected .empty
    (liveState
      (script
        (packet 0x01 0x46 (recvPacket.control 1) [] 0 ++
          (wakeAccesses params 0 0 [0x4] ++ isrAccesses params (roundWords 18).control ++
            [.read params.regHifRxBase 0x3000, .readBlock 0x3000 [0x01, 0x46, 26, 0],
              .readBlock 0x3008 (recvRecord 2 0)] ++
            rxDoneAccesses params true 0 ++ sleepAccesses params 0x2 0x1)) ++ pull)
      [.pin false, .work])

/-- The pull succeeds, and every transfer of it fails. -/
def askedData : State := askedThen (script [.readBlock 0x3018 [7, 8]])
def askedDeaf : State := askedThen (List.replicate 40 none)

theorem slot_askedData : SlotReady 0 askedData := slotReady ⟨rfl, ⟨rfl, rfl⟩, rfl, rfl, rfl, rfl⟩

theorem witness_RecvAsksTheDevice :
    let z := askedRecv 0 0
    let e := askedRecv 0xF7 0xFF
    let s1 := after (asking .recv recvPacket) (entered 0 askedData)
    (SlotReady 0 z ∧ (z.sock.slot 0).rxRem = 0 ∧
      Runs (taskOf z) (asking .recv recvPacket) (entered 0 z) (.ok (.recv host 0 16 0 (some 1)))
        (after (asking .recv recvPacket) (entered 0 z))) ∧
    (SlotReady 0 e ∧ Runs (taskOf e) (asking .recv recvPacket) (entered 0 e) (.ok (.recv host 0xFFF7 16 0 (some 1)))
        (after (asking .recv recvPacket) (entered 0 e))) ∧
    (SlotReady 0 askedData ∧
      Runs (taskOf askedData) (asking .recv recvPacket) (entered 0 askedData) (.ok (.recv host 2 16 0 (some 1))) s1 ∧
      Runs (taskOf askedData) (pullWindow params 0 ⟨4, 8⟩) s1 (.ok (2, host)) (after (pullWindow params 0 ⟨4, 8⟩) s1)) :=
  ⟨⟨slot_asked _ _ _ _, rfl, runs_after (by decide +kernel)⟩, ⟨slot_asked _ _ _ _, runs_after (by decide +kernel)⟩,
    slot_askedData, runs_after (by decide +kernel), runs_after (by decide +kernel)⟩

theorem witness_RecvAsksTheDevice_fails :
    let s1 := after (asking .recv recvPacket) (entered 0 askedDeaf)
    SlotReady 0 askedDeaf ∧ (askedDeaf.sock.slot 0).rxRem = 0 ∧
      Runs (taskOf askedDeaf) (asking .recv recvPacket) (entered 0 askedDeaf) (.ok (.recv host 2 16 0 (some 1))) s1 ∧
      (0 : Int) < (2 : BitVec 16).toInt ∧
      Runs (taskOf askedDeaf) (pullWindow params 0 ⟨4, 8⟩) s1 (.error .socketInvalid)
        (after (pullWindow params 0 ⟨4, 8⟩) s1) ∧
      (run (.opRecv 0 ⟨4, 8⟩ 5) askedDeaf).map (·.2) = some [.err .socketInvalid] :=
  ⟨slotReady ⟨rfl, ⟨rfl, rfl⟩, rfl, rfl, rfl, rfl⟩, rfl, runs_after (by decide +kernel), by decide,
    runs_after (by decide +kernel), by decide +kernel⟩

theorem test_recv :
    [run (.opRecv 0 ⟨4, 8⟩ 5) (askedRecv 0 0), run (.opRecvFrom 0 ⟨4, 8⟩ 5) askedData].map
        (fun r => r.map (·.2)) =
      [some [.ok (.count 0)], some [.ok (.countFrom 2 host)]] := by decide +kernel

theorem witness_AcceptTakesTheRecord :
    let s := (openSlot 0 .listening .empty (liveState [] [])).mapSock fun q =>
      q.setSlot 0 fun x => { x with acceptq := some ⟨0, 3, host⟩ }
    SlotReady 0 s ∧ StateOk s ∧ (0 : Fin 11).val ≤ 6 ∧ (s.sock.slot 0).acceptq = some ⟨0, 3, host⟩ ∧
      run (.opAccept 0 5) s = some ([], [.ok (.accepted 3 host)]) ∧
      run (.opAccept 0 5) { s with params := { params with acceptHoldsSlotLock := false } } =
        some ([], [.ok (.accepted 3 host)]) :=
  ⟨slotReady ⟨rfl, ⟨rfl, rfl⟩, rfl, rfl, rfl, rfl⟩, stateOk (by decide +kernel) (by decide +kernel), by decide, rfl, by decide +kernel,
    by decide +kernel⟩

/-- Slot 0 listens and has no record; the lock held during the wait, or not. -/
def listening (holds : Bool) : State :=
  { openSlot 0 .listening .empty (liveState [] []) with params := { params with acceptHoldsSlotLock := holds } }

/-- The `Accept` waits, and its deadline comes. -/
def acceptExpiring (holds : Bool) : State :=
  ((nextOf (exec (.opAccept 0 5) (listening holds))).getD State.reset).mapEnv fun e => { e with inbox := [.expire 0] }

theorem witness_AcceptTakesTheRecord_waits :
    (∀ h : Bool, SlotReady 0 (listening h) ∧ StateOk (listening h) ∧ ((listening h).sock.slot 0).acceptq = none ∧
      (listening h).env.inbox = []) ∧
    (∀ h : Bool, (acceptExpiring h).params = (listening h).params ∧ nextInput (acceptExpiring h) = some (.expire 0) ∧
      (findTask 0 (acceptExpiring h)).map (fun t => (t.id, t.instr)) = some (0, .opAccept 0 5) ∧
      (acceptExpiring h).env.yields = [] ∧ ((acceptExpiring h).sock.slot 0).acceptq = none ∧
      mailGet (acceptExpiring h).sock.mail 0 = some .waiting ∧
      ((acceptExpiring h).sock.slot 0).lock = (if h then .held (.caller 0) else .free) ∧
      view (fun t => (t.sock, t.env.results)) (step (acceptExpiring h)) =
        some ((listening h).sock, [(0, .err .socketTimeout)])) ∧
    [run (.opAccept 7 5) (openSlot 7 .bound .empty (liveState [] [])), run (.opAccept (-1) 0) (liveState [] [])] =
      List.replicate 2 (some ([], [.err .socketInvalid])) :=
  ⟨fun h => ⟨slotReady ⟨rfl, ⟨rfl, rfl⟩, rfl, rfl, rfl, rfl⟩,
      stateOk (by cases h <;> decide +kernel) (by cases h <;> decide +kernel), rfl, rfl⟩,
    by decide +kernel, by decide +kernel⟩

/-! ### Packets without reply, resolution, receive events -/

/-- The packet of `Setsockopt`. -/
def optionBytes : Bytes := encSetSockOpt params 0 7 [1, 0, 0, 0] 1

/-- Slot 0 open, the device takes one packet. -/
def takingFrom (opcode : Byte) (control : Bytes) : State :=
  openSlot 0 .connected .empty (taking 0x01 opcode control)

theorem slot_takingFrom (opcode : Byte) (control : Bytes) : SlotReady 0 (takingFrom opcode control) :=
  slotReady ⟨rfl, ⟨rfl, rfl⟩, rfl, rfl, rfl, rfl⟩

theorem witness_SetsockoptSendsTheOption :
    let s := takingFrom 0x4F optionBytes
    let p := hifSend params groupIp 0x4F optionBytes [] 0
    let u := (entered 0 s).mapSock fun q => { (q.setSlot 0 fun x => { x with sid := 1 }) with sid := 1 }
    SlotReady 0 s ∧ s.params.optValid.app (1, []) = .badOption ∧ s.params.optValid.app (2, []) = .badValue ∧
      s.params.optValid.app (7, [1, 0, 0, 0]) = .ok ∧ s.sock.sidLock = .free ∧
      Runs (taskOf s) p u (.ok ()) (after p u) ∧
      [ran (.opSetsockopt 0 7 [1, 0, 0, 0]) s, ran (.opSetsockopt 99 1 []) s, ran (.opSetsockopt 5 2 []) s] =
        [some (traffic (packet 0x01 0x4F [1, 0, 0, 0, 0, 7, 1, 0] [] 0), [.ok .unit]),
          some ([], [.err .invalidParameter]), some ([], [.err .socketInvalidArg])] :=
  ⟨slot_takingFrom _ _, by decide +kernel, by decide +kernel, by decide +kernel, rfl, runs_after (by decide +kernel),
    by decide +kernel⟩

theorem witness_ShutdownFreesTheSlot :
    let s := takingFrom 0x49 (encClose params 0 1)
    let p := hifSend params groupIp 0x49 (encClose params 0 1) [] 0
    let u := (entered 0 s).mapSock fun q =>
      { (q.setSlot 0 fun x => { x with state := .closing, desc := 0xFF }) with sid := 1 }
    SlotReady 0 s ∧ s.sock.sidLock = .free ∧ Runs (taskOf s) p u (.ok ()) (after p u) ∧
      ((after p u).sock.slot 0).lock = .held (.caller (taskOf s)) ∧
      view (fun t => ((t.sock.slot 0).inUse, (t.sock.slot 0).state, t.env.results)) (exec (.opShutdown 0) s) =
        some (false, .free, [(0, .ok .unit)]) :=
  ⟨slot_takingFrom _ _, rfl, runs_after (by decide +kernel), by decide +kernel, by decide +kernel⟩

/-- A name sent, and a `DnsReply` in the next round: the first four bytes of the name, the address. -/
def resolving : State :=
  liveState (script (packet 0x01 0x4A [0x61, 0x62, 0x63] [] 0 ++ roundOf 0x4A [0x61, 0x62, 0x63, 0, 1, 2, 3, 4]))
    [.pin false, .work]

theorem witness_ResolutionReturnsTheAddress :
    let p := hifSend params groupIp 0x4A (encDns params [0x61, 0x62, 0x63]) [] 0
    let u := ((newTask resolving).mapSock fun k =>
      { k with dnsReply := some 0, mail := k.mail ++ [(0, .waiting)] }).mapEnv fun e => { e with nextMail := 1 }
    resolving.root.live = true ∧ Ready resolving ∧ resolving.env.yields = [] ∧
      resolving.sock.dnsReply = none ∧ Runs (taskOf resolving) p u (.ok ()) (after p u) ∧
      Runs (taskOf resolving) (Prog.call (.dnsWait 0 ((5 : Word) != 0))) (after p u)
        (.reply (.ok (.dns [0x61, 0x62, 0x63, 0] 0x04030201))) (after (Prog.call (.dnsWait 0 true)) (after p u)) ∧
      (run (.opGetHostByName [0x61, 0x62, 0x63] 5) resolving).map (·.2) = some [.ok (.word 0x04030201)] ∧
      refusalOf (exec (.opGetHostByName [0x61] 5) (resolving.mapSock fun k => { k with dnsReply := some 3 })) =
        some .dnsBusy :=
  ⟨rfl, ⟨rfl, rfl⟩, rfl, rfl, runs_after (by decide +kernel), runs_after (by decide +kernel), by decide +kernel,
    by decide +kernel⟩

theorem witness_ResolutionReturnsTheAddress_fails :
    let p := hifSend params groupIp 0x4A (encDns params [0x61]) [] 0
    let ask (s : State) := ((newTask s).mapSock fun k =>
      { k with dnsReply := some 0, mail := k.mail ++ [(0, .waiting)] }).mapEnv fun e => { e with nextMail := 1 }
    let s := liveState (script (packet 0x01 0x4A [0x61] [] 0)) [.expire 0]
    (Ready s ∧ s.sock.dnsReply = none ∧ s.env.yields = [] ∧ Runs (taskOf s) p (ask s) (.ok ()) (after p (ask s)) ∧
      mailGet (after p (ask s)).sock.mail 0 = some .waiting ∧
      (after p (ask s)).env.inbox = .expire (taskOf s) :: []) ∧
    (Ready deaf ∧ Runs (taskOf deaf) p (ask deaf) (.error .xfer) (after p (ask deaf))) ∧
    [s, deaf].map (fun u => view (fun t => (t.sock.dnsReply, t.sock.mail.length, t.env.results.map (·.2)))
        (exec (.opGetHostByName [0x61] 5) u)) =
      [some (none, 0, [.err .socketTimeout]), some (none, 0, [.err .socketInvalid])] :=
  ⟨⟨⟨rfl, rfl⟩, rfl, rfl, runs_after (by decide +kernel), by decide +kernel, by decide +kernel⟩,
    ⟨⟨rfl, rfl⟩, runs_after (by decide +kernel)⟩, by decide +kernel⟩

/-- A `Recv` of slot 0 waits under session id 1. -/
def receiving (xs : List Access) : State :=
  windowed 26 (((openSlot 0 .connected .empty (liveState (script xs) [])).mapSock fun k =>
    { (k.setSlot 0 fun x => { x with replies := [⟨1, .recv, 0⟩] }) with mail := [(0, .waiting)] }))

/-- The record read, and RX-done. -/
def recvAccesses (count high : Byte) (due : Bool) : List Access :=
  .readBlock 0x3008 (recvRecord count high) :: rxDoneAccesses params due 0

/-- What the statement supposes of a state and a record with a count. -/
structure Received (s : State) (count high : Byte) (n : BitVec 16) (due : Bool) : Prop where
  ready : s.hif.state = .ready
  bus : BusReady s
  fired : s.env.fired = false
  window : inWindow s.hif 0x3008 (recSize s.params .recvReply)
  length : (recvRecord count high).length = recSize s.params .recvReply ∧ (recSize s.params .recvReply : Int) ≤ 18
  record : decRec s.params .recvReply (recvRecord count high) = .recv host n 16 0 (some 1)
  atEnd : (decide ((0x3008 : Word).toNat + recSize s.params .recvReply = s.hif.rxAddr.toNat + s.hif.rxSize.toNat) &&
    s.hif.rxPend) = due
  wire : Answers s (recvAccesses count high (if 0 < n.toInt then due else s.hif.rxPend))
    (traffic (recvAccesses count high (if 0 < n.toInt then due else s.hif.rxPend))) []

theorem witness_RecvReplyOpensTheWindow :
    (Received (receiving (recvAccesses 2 0 false)) 2 0 2 false ∧
      matchReply (receiving (recvAccesses 2 0 false)).sock 0 (some 1) .recv = some 0 ∧ (0 : BitVec 8).toInt = (0 : Fin 11).val) ∧
    (Received (receiving (recvAccesses 0 0 true)) 0 0 0 false ∧ (0 : BitVec 16).toInt ≤ 0) ∧
    (Received (receiving (recvAccesses 0xF7 0xFF true)) 0xF7 0xFF 0xFFF7 false ∧ (0xFFF7 : BitVec 16).toInt ≤ 0) ∧
    matchReply (windowed 26 (liveState (script (recvAccesses 2 0 true)) [])).sock 0 (some 1) .recv = none :=
  ⟨⟨⟨rfl, busReady (by decide +kernel), rfl, inWindowOf (by decide +kernel), by decide +kernel, by decide +kernel,
      by decide +kernel, answers_script rfl rfl rfl (by decide +kernel) (List.append_nil _).symm⟩, by decide +kernel,
      by decide⟩,
    ⟨⟨rfl, busReady (by decide +kernel), rfl, inWindowOf (by decide +kernel), by decide +kernel, by decide +kernel,
      by decide +kernel, answers_script rfl rfl rfl (by decide +kernel) (List.append_nil _).symm⟩, by decide⟩,
    ⟨⟨rfl, busReady (by decide +kernel), rfl, inWindowOf (by decide +kernel), by decide +kernel, by decide +kernel,
      by decide +kernel, answers_script rfl rfl rfl (by decide +kernel) (List.append_nil _).symm⟩, by decide⟩,
    by decide +kernel⟩

/-- Whether the callback answers, what it sends and what it leaves. -/
def recvSeen (s : State) : Option (Bool × List BusEvent × Bool × List (Nat × Mail)) :=
  ((cbRecv params 18 0x3008).eval workerGo s).map fun r =>
    (r.1.1.isSome, busOf r.2, r.2.hif.rxPend, r.2.sock.mail)

theorem test_recvReply_bytes :
    recvSeen (receiving (recvAccesses 2 0 false)) =
      some (true, traffic (recvAccesses 2 0 false), true, [(0, .filled (.recv host 2 16 0 (some 1)))]) := by
  decide +kernel

theorem test_recvReply_none :
    recvSeen (receiving (recvAccesses 0 0 true)) =
        some (true, traffic (recvAccesses 0 0 true), false, [(0, .filled (.recv host 0 16 0 (some 1)))]) ∧
      recvSeen (windowed 26 (liveState (script (recvAccesses 2 0 true)) [])) =
        some (false, traffic (recvAccesses 2 0 true), false, []) := ⟨by decide +kernel, by decide +kernel⟩

/-- An `AcceptReply` for a listening descriptor and a new one. -/
def acceptRecord (listen conn extra : Byte) : Bytes := [2, 0, 0, 80, 0xC0, 0xA8, 1, 10, listen, conn, extra, 0]

/-- The record read, and RX-done. -/
def acceptAccesses (record : Bytes) : List Access := .readBlock 0x3008 record :: rxDoneAccesses params true 0

/-- Slot 0 listens, the record stands in the window. -/
def accepting (record : Bytes) : State :=
  windowed 20 (openSlot 0 .listening .empty (liveState (script (acceptAccesses record)) []))

/-- Slot 4 locked, and slot 5 in use. -/
def partlyTaken (record : Bytes) : State :=
  (openSlot 5 .connected .empty (accepting record)).mapSock fun q =>
    q.setSlot 4 fun x => { x with lock := .held (.caller 9) }

/-- The accept queue of slot 0 full. -/
def fullQueue (record : Bytes) : State :=
  (accepting record).mapSock fun q => q.setSlot 0 fun x => { x with acceptq := some ⟨0, 2, host⟩ }

/-- What the statement supposes of a state and a record. -/
structure Inbound (s : State) (listen conn : BitVec 8) (extra : Half) (b : Bytes) : Prop where
  ready : s.hif.state = .ready
  bus : BusReady s
  fired : s.env.fired = false
  window : inWindow s.hif 0x3008 (recSize s.params .acceptReply)
  length : b.length = recSize s.params .acceptReply ∧ (recSize s.params .acceptReply : Int) ≤ 12
  record : decRec s.params .acceptReply b = .accept host listen conn extra
  wire : Answers s (.readBlock ((0x3008 : Word).setWidth 24) b :: rxDoneAccesses s.params s.hif.rxPend 0)
    (traffic (acceptAccesses b)) []

theorem inbound {s : State} {record : Bytes} {listen conn : BitVec 8} {extra : Half}
    (h : s.hif.state = .ready ∧ s.tr.lock = .free ∧ s.tr.seq = .idle ∧ s.fr.pktLimit = 1024 ∧ s.fr.crcEn = false ∧
      s.env.yields = [] ∧ s.env.fired = false ∧ s.params = params ∧ s.hif.rxPend = true ∧
      s.env.miso = script (acceptAccesses record))
    (hw : s.hif.rxValid = true ∧ 12 ≤ s.hif.rxSize.toNat ∧ s.hif.rxAddr.toNat ≤ (0x3008 : Word).toNat ∧
      (0x3008 : Word).toNat + 12 ≤ s.hif.rxAddr.toNat + s.hif.rxSize.toNat)
    (hr : record.length = 12 ∧ (acceptAccesses record).all oneChunk = true ∧
      decRec params .acceptReply record = .accept host listen conn extra) : Inbound s listen conn extra record := by
  obtain ⟨h1, h2, h3, h4, h5, h6, h7, h8, h9, h10⟩ := h
  have hs : recSize params .acceptReply = 12 := by decide
  refine ⟨h1, ⟨h2, h3, ?_, h6⟩, h7, ?_, ?_, ?_, ?_⟩
  · rw [h4]; decide
  · rw [h8, hs]; exact hw
  · rw [h8, hs]; exact ⟨hr.1, by decide⟩
  · rw [h8]; exact hr.2.2
  · rw [h8, h9]
    exact answers_script h8 h5 h4 hr.2.1 (by rw [h10, List.append_nil])

/-- What the callback answers, the state of a slot, and the accept queue of slot 0. -/
def acceptSeen (c : Fin 11) (s : State) : Option (Bool × SlotState × Half × Option AcceptRec) :=
  ((cbAccept params 12 0x3008).eval workerGo s).map fun r =>
    (r.1.1.isSome, (r.2.sock.slot c).state, (r.2.sock.slot c).txOffset, (r.2.sock.slot 0).acceptq)

theorem witness_AcceptEventAllocatesTheSlot :
    let r := acceptRecord 0 3 88
    let n := acceptRecord 0 0xF7 88
    (Inbound (accepting r) 0 3 88 r ∧ (0 : BitVec 8).toInt = (0 : Fin 11).val ∧ (0 : Fin 11).val ≤ 6 ∧
      ((accepting r).sock.slot 0).inUse = true ∧ ((accepting r).sock.slot 0).acceptq = none ∧
      (3 : BitVec 8).toInt = (3 : Fin 11).val ∧ (0 : Fin 11) ≠ 3 ∧ (accepting r).sock.sidLock = .free ∧
      (accepting r).root.live = true ∧ ((accepting r).sock.slot 3).inUse = false ∧
      ((accepting r).sock.slot 3).lock = .free ∧ 8 ≤ (88 : Half).toNat) ∧
    (Inbound (accepting n) 0 0xF7 88 n ∧ (0xF7 : BitVec 8).toInt < 0) ∧
    [acceptSeen 3 (accepting r), acceptSeen 3 (accepting n)] =
      [some (true, .connected, 80, some ⟨0, 3, host⟩), some (true, .free, 0, some ⟨0, 0xF7, host⟩)] :=
  ⟨⟨inbound (by decide +kernel) (by decide +kernel) (by decide +kernel), by decide +kernel⟩,
    ⟨inbound (by decide +kernel) (by decide +kernel) (by decide +kernel), by decide⟩, by decide +kernel⟩

theorem witness_AcceptEventAllocatesTheSlot_refused :
    (Inbound (accepting (acceptRecord 0xFF 3 88)) 0xFF 3 88 (acceptRecord 0xFF 3 88) ∧ (0xFF : BitVec 8).toInt < 0) ∧
    (Inbound (accepting (acceptRecord 7 3 88)) 7 3 88 (acceptRecord 7 3 88) ∧ 6 < (7 : BitVec 8).toInt) ∧
    (Inbound (accepting (acceptRecord 1 3 88)) 1 3 88 (acceptRecord 1 3 88) ∧
      ((accepting (acceptRecord 1 3 88)).sock.slot 1).inUse = false) ∧
    (Inbound (fullQueue (acceptRecord 0 3 88)) 0 3 88 (acceptRecord 0 3 88) ∧
      ((fullQueue (acceptRecord 0 3 88)).sock.slot 0).acceptq ≠ none) ∧
    (Inbound (accepting (acceptRecord 0 11 88)) 0 11 88 (acceptRecord 0 11 88) ∧ 10 < (11 : BitVec 8).toInt) ∧
    (Inbound (partlyTaken (acceptRecord 0 4 88)) 0 4 88 (acceptRecord 0 4 88) ∧
      ((partlyTaken (acceptRecord 0 4 88)).sock.slot 4).lock ≠ .free) ∧
    (Inbound (partlyTaken (acceptRecord 0 5 88)) 0 5 88 (acceptRecord 0 5 88) ∧
      ((partlyTaken (acceptRecord 0 5 88)).sock.slot 5).inUse = true) ∧
    (Inbound (accepting (acceptRecord 0 3 7)) 0 3 7 (acceptRecord 0 3 7) ∧ (7 : Half).toNat < 8) := by
  refine ⟨⟨inbound ?_ ?_ ?_, ?_⟩, ⟨inbound ?_ ?_ ?_, ?_⟩, ⟨inbound ?_ ?_ ?_, ?_⟩, ⟨inbound ?_ ?_ ?_, ?_⟩,
    ⟨inbound ?_ ?_ ?_, ?_⟩, ⟨inbound ?_ ?_ ?_, ?_⟩, ⟨inbound ?_ ?_ ?_, ?_⟩, inbound ?_ ?_ ?_, ?_⟩
  all_goals decide +kernel

theorem test_acceptEvent_refused :
    [acceptSeen 3 (accepting (acceptRecord 0xFF 3 88)), acceptSeen 3 (accepting (acceptRecord 7 3 88)),
      acceptSeen 3 (accepting (acceptRecord 1 3 88)), acceptSeen 3 (fullQueue (acceptRecord 0 3 88)),
      acceptSeen 3 (accepting (acceptRecord 0 11 88)), acceptSeen 4 (partlyTaken (acceptRecord 0 4 88)),
      acceptSeen 5 (partlyTaken (acceptRecord 0 5 88)), acceptSeen 3 (accepting (acceptRecord 0 3 7))] =
    [some (false, .free, 0, none), some (false, .free, 0, none), some (false, .free, 0, none),
      some (false, .free, 0, some ⟨0, 2, host⟩), some (false, .free, 0, none), some (false, .free, 0, none),
      some (false, .connected, 80, none), some (false, .free, 0, none)] := by decide +kernel

/-! ### Received by themselves: rows 0x46, 0x4D, 0x48 and 0x43 -/

/-- What the worker finds of a packet at 0x3000 of this size: its head, a record behind the header, RX-done. -/
def headed (size : Word) (rest : List Access) : List Access :=
  isrAccesses params (size <<< 2 ||| 1) ++ [.read params.regHifRxBase 0x3000] ++ rest

/-- A `Recv` of slot 0 waits under session id 1, a subscriber has a queue; the device answers accesses. -/
def recvPacketIn (defers : Bool) (xs : List Access) : State :=
  let s := attended (called (openSlot 0 .connected .empty (served xs)))
  let t := (s.mapSock fun k =>
    { (k.setSlot 0 fun x => { x with replies := [⟨1, .recv, 0⟩] }) with mail := [(0, .waiting)] }).mapHif fun h =>
      { h with subs := [⟨0, none⟩] }
  { t with params := { params with recvDefersRxdone := defers } }

theorem recv_answers {defers : Bool} {xs : List Access} (hx : xs.all oneChunk = true) :
    Answers (recvPacketIn defers xs) xs (traffic xs) [] :=
  ⟨allOnWire_params (q := { params with recvDefersRxdone := defers }) rfl rfl (allOnWire_traffic xs hx),
    (List.append_nil _).symm⟩

theorem worker_recv (defers : Bool) (xs : List Access) : WorkerReady (recvPacketIn defers xs) :=
  workerReady ⟨⟨⟨rfl, rfl⟩, rfl, rfl, rfl, show 1024 ∈ legalLimits by decide, rfl⟩, rfl, rfl⟩

/-- The record with its count, and RX-done where it is given. -/
def recvIn (size : Word) (count : Byte) (given : Bool) : List Access :=
  headed size (.readBlock 0x3008 (recvRecord count 0) :: rxDoneAccesses params given 0)

/-- What such a round leaves: bus, RX-done pending, subscriber's queue and window's address are as they should be; the
bytes resident, the reply slot. -/
def recvLeft (xs : List Access) (pend taken : Bool) (s : State) (i : Instr) : Option (Bool × Half × List (Nat × Mail)) :=
  view (fun t => (decide (busOf t = traffic xs ∧ t.env.results = [(0, .ok .unit)] ∧ t.hif.rxPend = pend ∧
      t.hif.subs.map (·.content.isSome) = [taken] ∧
      (t.sock.slot 0).rxAddr = if (t.sock.slot 0).rxRem = 0 then 0 else 0x3018),
    (t.sock.slot 0).rxRem, t.sock.mail)) (exec i s)

theorem recvOutcomes :
    RecvOutcome (recvPacketIn true []).sock 0x3008 host 2 16 0 (some 1) true true
        { ((recvPacketIn true []).sock.setSlot 0 fun x =>
            { x with rxAddr := 0x3008 + (16 : Half).setWidth 32, rxRem := 2, rxFrom := host }) with
          mail := mailSet (recvPacketIn true []).sock.mail 0 (.filled (.recv host 2 16 0 (some 1))) } ∧
      RecvOutcome (recvPacketIn true []).sock 0x3008 host 0 16 0 (some 1) true false
        { (recvPacketIn true []).sock with
          mail := mailSet (recvPacketIn true []).sock.mail 0 (.filled (.recv host 0 16 0 (some 1))) } ∧
      RecvOutcome (polled []).sock 0x3008 host 2 16 0 (some 1) false false (polled []).sock :=
  ⟨.bytes 0 0 (by decide +kernel) (by decide) (by decide), .none 0 (by decide +kernel) (by decide),
    .late (by decide +kernel)⟩

theorem witness_RecvReplyOpensTheWindow_row :
    (hifRow groupIp 0x46 (.inbound false 26) = some (.hifRecv (.inbound false 26)) ∧
      hifRow groupIp 0x4D (.inbound true 26) = some (.hifSslRecv (.inbound true 26)) ∧
      hifRow groupIp 0x48 (.inbound false 26) = some (.hifRecvFrom (.inbound false 26)) ∧
      (recvPacketIn true []).hif.cb[groupIp.toNat]'groupIp.isLt = some .socket ∧
      ((recvPacketIn true []).hif.subs.map (·.id)).Nodup ∧ sizeOf12 params (26 <<< 2 ||| 1) = 26 ∧
      sizeOf12 params (24 <<< 2 ||| 1) = 24 ∧ recSize params .recvReply = 16 ∧ (recvRecord 2 0).length = 16 ∧
      (0x3000 : Word).toNat + 8 < 2 ^ 24 ∧
      decRec params .recvReply (recvRecord 2 0) = .recv host 2 16 0 (some 1)) ∧
    (∀ d size count given, WorkerReady (recvPacketIn d (recvIn size count given))) ∧
    (Answers (recvPacketIn true (recvIn 26 2 false)) (recvIn 26 2 false) (traffic (recvIn 26 2 false)) [] ∧
      Answers (recvPacketIn true (recvIn 24 2 true)) (recvIn 24 2 true) (traffic (recvIn 24 2 true)) [] ∧
      Answers (recvPacketIn false (recvIn 26 2 true)) (recvIn 26 2 true) (traffic (recvIn 26 2 true)) [] ∧
      Answers (recvPacketIn true (recvIn 26 0 true)) (recvIn 26 0 true) (traffic (recvIn 26 0 true)) []) :=
  ⟨by decide +kernel, fun _ _ _ _ => worker_recv _ _, recv_answers (by decide +kernel), recv_answers (by decide +kernel),
    recv_answers (by decide +kernel), recv_answers (by decide +kernel)⟩

/-- R277, R382: bytes resident and deferred; the record ends the window; bytes resident and not deferred; no bytes. -/
theorem test_recvRow :
    [recvLeft (recvIn 26 2 false) true true (recvPacketIn true (recvIn 26 2 false)) (.hifRecv (.inbound false 26)),
      recvLeft (recvIn 24 2 true) false true (recvPacketIn true (recvIn 24 2 true)) (.hifSslRecv (.inbound false 26)),
      recvLeft (recvIn 26 2 true) false true (recvPacketIn false (recvIn 26 2 true)) (.hifRecvFrom (.inbound false 26)),
      recvLeft (recvIn 26 0 true) false true (recvPacketIn true (recvIn 26 0 true)) (.hifRecv (.inbound false 26))] =
    [some (true, 2, [(0, .filled (.recv host 2 16 0 (some 1)))]), some (true, 2, [(0, .filled (.recv host 2 16 0 (some 1)))]),
      some (true, 2, [(0, .filled (.recv host 2 16 0 (some 1)))]),
      some (true, 0, [(0, .filled (.recv host 0 16 0 (some 1)))])] := by decide +kernel

/-- The head and RX-done alone: no record is read. -/
def unread (size : Word) : List Access := headed size (rxDoneAccesses params true 0)

theorem witness_RecvReplyOpensTheWindow_cut :
    (sizeOf12 params (24 <<< 2 ||| 1) ≠ 0 ∧ sizeOf12 params (24 <<< 2 ||| 1) ≤ (23 : Half).toNat + 4 ∧
      (23 : Half).toNat < 8 + recSize params .recvReply) ∧
    (sizeOf12 params (23 <<< 2 ||| 1) ≤ (24 : Half).toNat + 4 ∧
      sizeOf12 params (23 <<< 2 ||| 1) < 8 + recSize params .recvReply) ∧
    (Answers (recvPacketIn true (unread 24)) (unread 24) (traffic (unread 24)) [] ∧
      Answers (recvPacketIn true (unread 23)) (unread 23) (traffic (unread 23)) []) ∧
    [recvLeft (unread 24) false false (recvPacketIn true (unread 24)) (.hifRecv (.inbound false 23)),
        recvLeft (unread 23) false false (recvPacketIn true (unread 23)) (.hifRecv (.inbound false 24))] =
      List.replicate 2 (some (true, 0, [(0, .waiting)])) :=
  ⟨by decide +kernel, by decide +kernel, ⟨recv_answers (by decide +kernel), recv_answers (by decide +kernel)⟩,
    by decide +kernel⟩

/-- A resolution waits, or none does; a subscriber has a queue; the device answers accesses. -/
def dnsPacketIn (waits : Bool) (xs : List Access) : State :=
  ((liveState (script xs) []).mapSock fun k =>
    { k with dnsReply := if waits then some 0 else none, mail := [(0, .waiting)] }).mapHif fun h =>
      { h with subs := [⟨0, none⟩] }

/-- A reply: the first four bytes of the name, the address. -/
def dnsRecord : Bytes := [0x61, 0x62, 0x63, 0, 1, 2, 3, 4]
def dnsIn : List Access := headed 16 (.readBlock 0x3008 dnsRecord :: rxDoneAccesses params true 0)

theorem witness_ResolutionReturnsTheAddress_row :
    (hifRow groupIp 0x4A (.inbound false 16) = some (.hifDnsResolve (.inbound false 16)) ∧
      (∀ b xs, WorkerReady (dnsPacketIn b xs)) ∧
      (dnsPacketIn true []).hif.cb[groupIp.toNat]'groupIp.isLt = some .socket ∧
      ((dnsPacketIn true []).hif.subs.map (·.id)).Nodup ∧ recSize params .dnsReply = 8 ∧ dnsRecord.length = 8 ∧
      sizeOf12 params (16 <<< 2 ||| 1) = 16 ∧ sizeOf12 params (15 <<< 2 ||| 1) = 15 ∧ (0x3000 : Word).toNat + 8 < 2 ^ 24 ∧
      mailGet (dnsPacketIn true []).sock.mail 0 = some .waiting) ∧
    (Answers (dnsPacketIn true dnsIn) dnsIn (traffic dnsIn) [] ∧ Answers (dnsPacketIn false dnsIn) dnsIn (traffic dnsIn) [] ∧
      Answers (dnsPacketIn true (unread 16)) (unread 16) (traffic (unread 16)) [] ∧
      Answers (dnsPacketIn true (unread 15)) (unread 15) (traffic (unread 15)) []) ∧
    [exec (.hifDnsResolve (.inbound false 16)) (dnsPacketIn true dnsIn),
        exec (.hifDnsResolve (.inbound false 16)) (dnsPacketIn false dnsIn),
        exec (.hifDnsResolve (.inbound false 15)) (dnsPacketIn true (unread 16)),
        exec (.hifDnsResolve (.inbound false 16)) (dnsPacketIn true (unread 15))].map
        (view fun t => (t.sock.mail, t.hif.subs, t.hif.rxPend)) =
      some ([(0, .filled (.dns [0x61, 0x62, 0x63, 0] 0x04030201))],
          [⟨0, some ⟨0x01, 0x4A, .reply (.dns [0x61, 0x62, 0x63, 0] 0x04030201)⟩⟩], false) ::
        List.replicate 3 (some ([(0, .waiting)], [⟨0, none⟩], false)) := by
  refine ⟨⟨by decide, fun _ _ => workerReady ⟨⟨⟨rfl, rfl⟩, rfl, rfl, rfl, show 1024 ∈ legalLimits by decide, rfl⟩, rfl, rfl⟩,
    by decide +kernel, by decide +kernel, by decide +kernel, by decide, by decide +kernel, by decide +kernel, by decide,
    by decide +kernel⟩, ⟨?_, ?_, ?_, ?_⟩, by decide +kernel⟩
  all_goals exact answers_script rfl rfl rfl (by decide +kernel) (List.append_nil _).symm

/-- Slot 0 listens, a subscriber has a queue, the driver is live; the device answers accesses. -/
def acceptPacketIn (xs : List Access) : State :=
  (openSlot 0 .listening .empty (liveState (script xs) [])).mapHif fun h => { h with subs := [⟨0, none⟩] }

theorem accept_answers {xs : List Access} (hx : xs.all oneChunk = true) :
    Answers (acceptPacketIn xs) xs (traffic xs) [] := answers_script rfl rfl rfl hx (List.append_nil _).symm

/-- The record, and RX-done. -/
def acceptIn (record : Bytes) : List Access :=
  headed 20 (.readBlock 0x3008 record :: rxDoneAccesses params true 0)

/-- What such a round leaves: bus, RX-done and the subscriber's queue are as they should be; the connected slot, the
accept queue of slot 0. -/
def acceptLeft (xs : List Access) (taken : Bool) : Option (Bool × SlotState × Option AcceptRec) :=
  view (fun t => (decide (busOf t = traffic xs ∧ t.env.results = [(0, .ok .unit)] ∧ t.hif.rxPend = false ∧
      t.hif.subs.map (·.content.isSome) = [taken]), (t.sock.slot 3).state, (t.sock.slot 0).acceptq))
    (exec (.hifAccept (.inbound false 20)) (acceptPacketIn xs))

theorem acceptOutcomes :
    (∃ k, AcceptOutcome (acceptPacketIn []) host 0 3 88 true k) ∧
      (∃ k, AcceptOutcome (acceptPacketIn []) host 0 0xF7 88 true k) ∧
      AcceptOutcome (acceptPacketIn []) host 7 3 88 false (acceptPacketIn []).sock ∧
      AcceptOutcome (acceptPacketIn []) host 0 3 7 false (acceptPacketIn []).sock :=
  ⟨⟨_, .connected 0 3 (by decide) (by decide) rfl rfl (by decide) (by decide) rfl rfl rfl rfl (by decide)⟩,
    ⟨_, .refused 0 (by decide) (by decide) rfl rfl (by decide)⟩, .dropped (by decide),
    .dropped (.inr (.inr (.inr (.inr ⟨3, by decide, by decide +kernel⟩))))⟩

theorem witness_AcceptEventAllocatesTheSlot_row :
    (hifRow groupIp 0x43 (.inbound false 20) = some (.hifAccept (.inbound false 20)) ∧
      (acceptPacketIn []).hif.cb[groupIp.toNat]'groupIp.isLt = some .socket ∧
      ((acceptPacketIn []).hif.subs.map (·.id)).Nodup ∧ sizeOf12 params (20 <<< 2 ||| 1) = 20 ∧
      recSize params .acceptReply = 12 ∧ (acceptRecord 0 3 88).length = 12 ∧ (0x3000 : Word).toNat + 8 < 2 ^ 24 ∧
      decRec params .acceptReply (acceptRecord 0 3 88) = .accept host 0 3 88 ∧
      decRec params .acceptReply (acceptRecord 7 3 88) = .accept host 7 3 88) ∧
    (WorkerReady (acceptPacketIn (acceptIn (acceptRecord 0 3 88))) ∧
      WorkerReady (acceptPacketIn (acceptIn (acceptRecord 7 3 88)))) ∧
    (Answers (acceptPacketIn (acceptIn (acceptRecord 0 3 88))) (acceptIn (acceptRecord 0 3 88))
        (traffic (acceptIn (acceptRecord 0 3 88))) [] ∧
      Answers (acceptPacketIn (acceptIn (acceptRecord 7 3 88))) (acceptIn (acceptRecord 7 3 88))
        (traffic (acceptIn (acceptRecord 7 3 88))) []) ∧
    [acceptLeft (acceptIn (acceptRecord 0 3 88)) true, acceptLeft (acceptIn (acceptRecord 7 3 88)) false] =
      [some (true, .connected, some ⟨0, 3, host⟩), some (true, .free, none)] :=
  ⟨by decide +kernel,
    ⟨workerReady ⟨⟨⟨rfl, rfl⟩, rfl, rfl, rfl, show 1024 ∈ legalLimits by decide, rfl⟩, rfl, rfl⟩,
      workerReady ⟨⟨⟨rfl, rfl⟩, rfl, rfl, rfl, show 1024 ∈ legalLimits by decide, rfl⟩, rfl, rfl⟩⟩,
    ⟨accept_answers (by decide +kernel), accept_answers (by decide +kernel)⟩, by decide +kernel⟩

theorem witness_AcceptEventAllocatesTheSlot_cut :
    (sizeOf12 params (20 <<< 2 ||| 1) ≠ 0 ∧ sizeOf12 params (20 <<< 2 ||| 1) ≤ (19 : Half).toNat + 4 ∧
      (19 : Half).toNat < 8 + recSize params .acceptReply) ∧
    Answers (acceptPacketIn (unread 20)) (unread 20) (traffic (unread 20)) [] ∧
    view (fun t => (busOf t, (t.sock.slot 0).acceptq, t.hif.rxPend))
        (exec (.hifAccept (.inbound false 19)) (acceptPacketIn (unread 20))) = some (traffic (unread 20), none, false) :=
  ⟨by decide +kernel, accept_answers (by decide +kernel), by decide +kernel⟩

/-! ### Which entry a reply matches -/

/-- Slots 0 and 10 in use; slot 0 has a waiting and a filled entry, slot 10 one that waits; slot 1 is free. -/
def registries : Sockets :=
  { ((openSlot 10 .connected .empty (openSlot 0 .connected .empty (served []))).sock.setSlot 0 fun x =>
      { x with replies := [⟨5, .send, 0⟩, ⟨4, .bind, 1⟩] }).setSlot 10 fun x => { x with replies := [⟨6, .recv, 2⟩] } with
    mail := [(0, .waiting), (1, .filled (.send 0 6 (some 4))), (2, .waiting)] }

/-- R271, R278: right id and kind; no id and one entry; wrong id; wrong kind; filled; no id and two entries; a slot that is
free, one below 0, one above 10. -/
theorem witness_RepliesFillTheirEntry_match :
    (∀ j, ((registries.slot j).replies.map (·.sid)).Nodup) ∧
      Matches registries 0 (some 5) .send ⟨5, .send, 0⟩ ∧ Matches registries 10 none .recv ⟨6, .recv, 2⟩ ∧
      [matchReply registries 0 (some 5) .send, matchReply registries 10 none .recv,
          matchReply registries 0 (some 6) .send, matchReply registries 0 (some 5) .connect,
          matchReply registries 0 (some 4) .bind, matchReply registries 0 none .send,
          matchReply registries 1 (some 5) .send, matchReply registries 0xFF (some 5) .send,
          matchReply registries 11 (some 6) .recv] =
        [some 0, some 2, none, none, none, none, none, none, none] :=
  ⟨by decide +kernel, ⟨0, by decide +kernel⟩, ⟨10, by decide +kernel⟩, by decide +kernel⟩

/-! ### Socket records -/

/-- The fields stand in a record, as a computation. -/
def standB (l : Layout) (fields : List Bytes) (b : Bytes) : Bool :=
  (List.range fields.length).all fun k =>
    decide ((b.drop (l.offs.getD k 0)).take (fields.getD k []).length = fields.getD k [])

theorem stand_of {l : Layout} {fields : List Bytes} {b : Bytes} (h : standB l fields b = true) : Stand l fields b := by
  intro k f hk
  obtain ⟨hlt, rfl⟩ := List.getElem?_eq_some_iff.mp hk
  have := List.all_eq_true.mp h k (List.mem_range.mpr hlt)
  simpa [List.getD_eq_getElem?_getD, hlt] using this

/-- No two fields share a byte, as a computation. -/
def apartB (l : Layout) (fields : List Bytes) : Bool :=
  (List.range fields.length).all fun k => (List.range k).all fun j =>
    decide (l.offs.getD j 0 + (fields.getD j []).length ≤ l.offs.getD k 0) ||
      decide (l.offs.getD k 0 + (fields.getD k []).length ≤ l.offs.getD j 0)

theorem apart_of {l : Layout} {fields : List Bytes} (h : apartB l fields = true) : Apart l fields := by
  intro j k f g hjk hj hk
  obtain ⟨hj', rfl⟩ := List.getElem?_eq_some_iff.mp hj
  obtain ⟨hk', rfl⟩ := List.getElem?_eq_some_iff.mp hk
  have := List.all_eq_true.mp (List.all_eq_true.mp h k (List.mem_range.mpr hk')) j (List.mem_range.mpr hjk)
  simpa [List.getD_eq_getElem?_getD, hj', hk'] using this

/-- The nine requests: layout, fields, bytes. -/
theorem witness_RequestInsertsSendsAndWaits_records :
    (RequestRecord params layouts.bindCmd [layouts.sockAddr.enc host, [3], halfField 0x1234] (encBind params host 3 0x1234) ∧
      RequestRecord params layouts.listenCmd [[3], [2], halfField 7] (encListen params 3 2 7) ∧
      RequestRecord params layouts.connectCmd [layouts.sockAddr.enc host, [3], [sslByte params.sslBits tlsLater], halfField 7]
        (encConnect params host 3 tlsLater 7) ∧
      RequestRecord params layouts.sendCmd [[3], halfField 0x102, layouts.sockAddr.enc host, halfField 7]
        (encSend params 3 0x102 host 7) ∧
      RequestRecord params layouts.recvCmd [wordField 0x01020304, [3], halfField 7] (encRecv params 0x01020304 3 7) ∧
      RequestRecord params layouts.closeCmd [[10], halfField 7] (encClose params 10 7) ∧
      RequestRecord params layouts.setSockOptCmd
        [[3], [9], stringField layouts.setSockOptCmd [0xAA], halfField 7] (encSetSockOpt params 3 9 [0xAA] 7) ∧
      RequestRecord params layouts.sslCreateCmd [[3]] (encSslCreate params 3) ∧
      RequestRecord params layouts.dnsCmd [stringField layouts.dnsCmd [0x61]] (encDns params [0x61])) ∧
    (Apart layouts.bindCmd [layouts.sockAddr.enc host, [3], halfField 0x1234] ∧
      Apart layouts.listenCmd [[3], [2], halfField 7] ∧
      Apart layouts.connectCmd [layouts.sockAddr.enc host, [3], [sslByte params.sslBits tlsLater], halfField 7] ∧
      Apart layouts.sendCmd [[3], halfField 0x102, layouts.sockAddr.enc host, halfField 7] ∧
      Apart layouts.recvCmd [wordField 0x01020304, [3], halfField 7] ∧ Apart layouts.closeCmd [[10], halfField 7] ∧
      Apart layouts.setSockOptCmd [[3], [9], stringField layouts.setSockOptCmd [0xAA], halfField 7] ∧
      Apart layouts.sslCreateCmd [[3]] ∧ Apart layouts.dnsCmd [stringField layouts.dnsCmd [0x61]]) := by
  refine ⟨⟨.bind host 3 _, .listen 3 2 7, .connect host 3 tlsLater 7, .send 3 0x102 host 7, .recv _ 3 7, .close 10 7,
    .setSockOpt 3 9 [0xAA] 7, .sslCreate 3, .dns [0x61]⟩, ?_⟩
  refine ⟨apart_of ?_, apart_of ?_, apart_of ?_, apart_of ?_, apart_of ?_, apart_of ?_, apart_of ?_, apart_of ?_,
    apart_of ?_⟩
  all_goals decide +kernel

/-- R109, R110 by hand: the trial layouts, port and address in network order, the rest least significant byte first. -/
theorem test_records :
    encBind params host 3 0x1234 = [2, 0, 0, 80, 0xC0, 0xA8, 1, 10, 3, 0, 0x34, 0x12] ∧
      encConnect params host 3 tlsLater 7 = [2, 0, 0, 80, 0xC0, 0xA8, 1, 10, 3, 0x81, 7, 0] ∧
      encSend params 3 0x102 host 7 = [3, 0, 2, 1, 2, 0, 0, 80, 0xC0, 0xA8, 1, 10, 7, 0, 0, 0] ∧
      encRecv params 0x01020304 3 7 = [4, 3, 2, 1, 3, 0, 7, 0] ∧ encSetSockOpt params 3 9 [0xAA] 7 = [0xAA, 0, 0, 0, 3, 9, 7, 0] ∧
      encClose params 10 7 = [10, 0, 7, 0] ∧ encListen params 3 2 7 = [3, 2, 7, 0] ∧
      encSslCreate params 3 = [3, 0, 0, 0] ∧ encDns params [0x61] = [0x61] := by decide +kernel

/-- The eight bytes of `host`. -/
def hostBytes : Bytes := [2, 0, 0, 80, 0xC0, 0xA8, 1, 10]

theorem host_bytes : AddrBytes params.layouts.sockAddr host hostBytes := ⟨rfl, by decide, by decide, by decide⟩

/-- Parameters whose DNS name takes what is left of its record. -/
def openName : Params := { params with layouts := { layouts with dnsReply := record 4 [4, 0] } }

theorem witness_RepliesFillTheirEntry_records :
    (ReplyRecord params .bindReply [[3], [9], halfField 7] (.status 3 9 (some 7)) ∧
      ReplyRecord params .listenReply [[3], [9], halfField 7] (.status 3 9 (some 7)) ∧
      ReplyRecord params .acceptReply [hostBytes, [0], [3], halfField 88] (.accept host 0 3 88) ∧
      ReplyRecord params .connectReply [[3], [0], halfField 88] (.connect 3 0 88 none) ∧
      ReplyRecord params .sendReply [[3], halfField 6, halfField 7] (.send 3 6 (some 7)) ∧
      ReplyRecord params .recvReply [hostBytes, halfField 2, halfField 16, [3], halfField 7] (.recv host 2 16 3 (some 7)) ∧
      ReplyRecord params .dnsReply [[0x61, 0, 0, 0], wordField 0x04030201] (.dns [0x61, 0, 0, 0] 0x04030201)) ∧
    (Stand (rxLayout params .bindReply) [[3], [9], halfField 7] [3, 9, 7, 0] ∧
      Stand (rxLayout params .acceptReply) [hostBytes, [0], [3], halfField 88] (hostBytes ++ [0, 3, 88, 0]) ∧
      Stand (rxLayout params .connectReply) [[3], [0], halfField 88] [3, 0, 88, 0] ∧
      Stand (rxLayout params .sendReply) [[3], halfField 6, halfField 7] [3, 0xFF, 6, 0, 7, 0, 0, 0] ∧
      Stand (rxLayout params .recvReply) [hostBytes, halfField 2, halfField 16, [3], halfField 7]
        (hostBytes ++ [2, 0, 16, 0, 3, 0, 7, 0]) ∧
      Stand (rxLayout params .dnsReply) [[0x61, 0, 0, 0], wordField 0x04030201] [0x61, 0, 0, 0, 1, 2, 3, 4]) ∧
    (openName.layouts.dnsReply.strWidth = none ∧
      Stand openName.layouts.dnsReply [[], wordField 0x04030201] [1, 2, 3, 4, 0x61, 0x62] ∧
      decRec openName .dnsReply [1, 2, 3, 4, 0x61, 0x62] = .dns [0x61, 0x62] 0x04030201) := by
  have sid : ∀ l : Layout, l.noSid = false → SidField l (some 7) [halfField 7] := fun l h => .inr ⟨7, h, rfl, rfl⟩
  refine ⟨⟨.bind 3 9 (some 7) [halfField 7] (sid _ rfl), .listen 3 9 (some 7) [halfField 7] (sid _ rfl),
    .accept host hostBytes 0 3 88 host_bytes, .connect 3 0 88 none [] (.inl ⟨rfl, rfl, rfl⟩),
    .send 3 6 (some 7) [halfField 7] (sid _ rfl), .recv host hostBytes 2 16 3 (some 7) [halfField 7] host_bytes (sid _ rfl),
    .dns [0x61, 0, 0, 0] _ rfl⟩, ?_, ⟨rfl, stand_of (by decide +kernel), by decide +kernel⟩⟩
  refine ⟨stand_of ?_, stand_of ?_, stand_of ?_, stand_of ?_, stand_of ?_, stand_of ?_⟩
  all_goals decide +kernel

/-! ### The driver root -/

theorem witness_InitializeBringsTheDriverUp :
    let d := silent bootGood
    (bootGood.root.live = false ∧ bootGood.hif.state ≠ .bootstrapping ∧ initializing bootGood = false ∧
      bootGood.env.yields = [] ∧ Quiet bootGood ∧ Quiet d) ∧
    (Runs (taskOf bootGood) (hifInit bootGood.params) (resetAll (newTask bootGood)) (.ok ())
        (after (hifInit params) (resetAll (newTask bootGood))) ∧
      (after (hifInit params) (resetAll (newTask bootGood))).hif.lock = .free) ∧
    Runs (taskOf d) (hifInit d.params) (resetAll (newTask d)) (.error .xfer)
      (after (hifInit params) (resetAll (newTask d))) :=
  ⟨⟨rfl, by decide +kernel, rfl, rfl, quietOf (by decide +kernel), quietOf (by decide +kernel)⟩,
    ⟨runs_after (by decide +kernel), by decide +kernel⟩, runs_after (by decide +kernel)⟩

/-- A `Reset` has come while a task had the bus, and while the worker was in a round. -/
def overrun : State := bootGood.mapTr fun t => { t with lock := .held (.caller 7) }
def inRound : State := bootGood.mapIrq fun q => { q with wseq := .isr }

theorem witness_InitializeBringsTheDriverUp_waits :
    (overrun.root.live = false ∧ overrun.hif.state ≠ .bootstrapping ∧ initializing overrun = false ∧ ¬Quiet overrun ∧
      overrun.env.inbox = []) ∧
    (¬Quiet inRound ∧ inRound.env.inbox = []) ∧
    [overrun, inRound].map (fun s => view (fun t => (t.env.tasks.length, t.fr.crcEn, sentBy t, t.irq.wseq))
        (exec .opInitialize s)) = [some (1, true, [], .stopped), some (1, true, [], .isr)] := by
  refine ⟨⟨rfl, by decide +kernel, rfl, fun h => ?_, rfl⟩, ⟨fun h => ?_, rfl⟩, by decide +kernel⟩
  · exact absurd h.transport (by decide +kernel)
  · exact absurd h.worker (by decide +kernel)

theorem test_initialize :
    view (fun t => (t.root.live, t.hif.state, t.irq.wseq, t.env.results)) (exec .opInitialize bootGood) =
      some (true, .ready, .wait, [(0, .ok .unit)]) := by decide +kernel

/-- A request of slot 0, an `Accept` of slot 1 and a resolution wait; a subscriber has a queue. -/
def awaited : State :=
  (((openSlot 1 .listening .empty (openSlot 0 .connected .empty (liveState [] []))).mapSock fun k =>
    { ((k.setSlot 0 fun x => { x with replies := [⟨5, .send, 0⟩] }).setSlot 1 fun x => { x with acceptWaiters := [1] })
      with dnsReply := some 2, mail := [(0, .filled (.send 0 6 (some 5))), (1, .waiting), (2, .waiting)] }).mapHif fun h =>
      { h with subs := [⟨0, some ⟨0x01, 0x41, .bytes []⟩⟩] }).mapEnv fun e => { e with nextMail := 3 }

theorem witness_ResetTearsDown :
    awaited.root.live = true ∧ awaited.hif.state ≠ .bootstrapping ∧ initializing awaited = false ∧ awaited.env.yields = [] ∧
      (mailGet awaited.sock.mail 0 ≠ none ∧ 0 ∈ (awaited.sock.slot 0).replies.map (·.mail)) ∧
      (mailGet awaited.sock.mail 1 ≠ none ∧ 1 ∈ (awaited.sock.slot 1).acceptWaiters) ∧
      (mailGet awaited.sock.mail 2 ≠ none ∧ awaited.sock.dnsReply = some 2) ∧
      view (fun t => (t.root.live, t.hif.state, t.irq.stop, t.irq.wseq)) (exec .opReset awaited) =
        some (false, .shutdown, true, .stopped) ∧
      view (fun t => (t.sock.mail, t.env.closed)) (exec .opReset awaited) =
        some ([(0, .abandoned), (1, .abandoned), (2, .abandoned)], [⟨0, none⟩]) :=
  ⟨rfl, by decide +kernel, rfl, rfl, by decide +kernel, by decide +kernel, by decide +kernel, by decide +kernel,
    by decide +kernel⟩

/-- A device that boots at once, the first probe answered under CRC. -/
def booted : State :=
  let s := State.reset
  let s1 := { s with params := params }
  s1.mapEnv fun e =>
    { e with
      miso := got [0, 0, 0, 0, 0, 0xCA, 0, 0xF3, 1, 2, 3, 4, 0xAA, 0xBB] ++
        script (bootAccesses params 0x1503A0 0x80000000 0 0) }

theorem boots : BootsAtOnce booted 0x1503A0 0x80000000 0 0 0x04030201
    (probing ++ traffic (bootAccesses params 0x1503A0 0x80000000 0 0)) [] :=
  ⟨by decide +kernel, by decide +kernel, _, _, probing_onWire, allOnWire_traffic _ (by decide +kernel), rfl,
    by decide +kernel⟩

theorem awaiting_resolving : Awaiting resolving [] :=
  ⟨sessionReady ⟨⟨rfl, rfl⟩, rfl, rfl, rfl, by decide +kernel, rfl⟩, rfl, rfl, rfl, rfl, rfl, by decide +kernel,
    List.nodup_nil, rfl⟩

theorem witness_SessionCallsComplete :
    let o := takingFrom 0x4F optionBytes
    let c := takingFrom 0x49 (encClose params 0 1)
    (SlotReady 0 o ∧ SessionReady o ∧ o.hif.awake = false ∧ o.sock.sidLock = .free ∧
      o.params.optValid.app (7, [1, 0, 0, 0]) = .ok ∧ GoodSend o.params optionBytes [] 0 sendWords ∧
      Answers o (packet groupIp 0x4F optionBytes [] 0) (traffic (packet groupIp 0x4F optionBytes [] 0)) []) ∧
    (SlotReady 0 c ∧ SessionReady c ∧ (c.sock.slot 0).replies = [] ∧ (c.sock.slot 0).acceptWaiters = [] ∧
      GoodSend c.params (encClose params 0 1) [] 0 sendWords ∧
      Answers c (packet groupIp 0x49 (encClose params 0 1) [] 0) (traffic (packet groupIp 0x49 (encClose params 0 1) [] 0))
        []) ∧
    (resolving.root.live = true ∧ Awaiting resolving [] ∧ resolving.sock.dnsReply = none ∧
      (∀ e ∈ resolving.sock.mail, e.1 < resolving.env.nextMail) ∧
      GoodSend resolving.params (encDns params [0x61, 0x62, 0x63]) [] 0 sendWords ∧
      GoodRound resolving.params [0x61, 0x62, 0x63, 0, 1, 2, 3, 4] (roundWords 8) ∧
      [(0x61 : Byte), 0x62, 0x63, 0, 1, 2, 3, 4].length = recSize resolving.params .dnsReply ∧
      decRec resolving.params .dnsReply [0x61, 0x62, 0x63, 0, 1, 2, 3, 4] = .dns [0x61, 0x62, 0x63, 0] 0x04030201 ∧
      Answers resolving
        (packet groupIp 0x4A (encDns params [0x61, 0x62, 0x63]) [] 0 ++ roundOf 0x4A [0x61, 0x62, 0x63, 0, 1, 2, 3, 4])
        (traffic (packet groupIp 0x4A [0x61, 0x62, 0x63] [] 0 ++ roundOf 0x4A [0x61, 0x62, 0x63, 0, 1, 2, 3, 4])) []) ∧
    (booted.hif.state = .uninitialized ∧ initializing booted = false ∧ BusReady booted ∧ booted.root.live = false ∧
      booted.hif.state ≠ .bootstrapping ∧ Quiet booted ∧ booted.env.yields = [] ∧ booted.fr.pktLimit ∈ legalLimits ∧
      BootsAtOnce booted 0x1503A0 0x80000000 0 0 0x04030201
        (probing ++ traffic (bootAccesses params 0x1503A0 0x80000000 0 0)) []) := by
  have hl : LastOnly (acked params) [0x4] := lastOnly_one rfl
  have hp : LastOnly params.dmaPublished.app [0x0] := lastOnly_one rfl
  refine ⟨⟨slot_takingFrom _ _, sessionReady ⟨⟨rfl, rfl⟩, rfl, rfl, rfl, by decide +kernel, rfl⟩, rfl, rfl, by decide +kernel,
      goodSend (by decide +kernel) hl hp, ?_⟩,
    ⟨slot_takingFrom _ _, sessionReady ⟨⟨rfl, rfl⟩, rfl, rfl, rfl, by decide +kernel, rfl⟩, rfl, rfl,
      goodSend (by decide +kernel) hl hp, ?_⟩,
    ⟨rfl, awaiting_resolving, rfl, by decide +kernel, goodSend (by decide +kernel) hl hp,
      goodRound (by decide +kernel) hl, by decide +kernel, by decide +kernel, ?_⟩,
    rfl, rfl, busReady (by decide +kernel), rfl, by decide, quietOf (by decide +kernel), rfl, by decide, boots⟩
  all_goals exact answers_script rfl rfl rfl (by decide +kernel) (List.append_nil _).symm

end Sys2Proof.Tests
end

/-!
PROOFS. The state (spec/10_state.md): what every step keeps, and the power-on values.
-/

namespace Sys2Proof.Machine

/-! ### What every step keeps (R23, R32, R35, R36, R41, R45, R184, R287) -/

/-- A queue's content replaced: the names of the queues stay. -/
theorem setContent_ids (id : Nat) (c : Option Event) (l : List Queue) :
    (l.map fun q => if q.id = id then (⟨id, c⟩ : Queue) else q).map (·.id) = l.map (·.id) := by
  rw [List.map_map]
  refine List.map_congr_left fun q _ => ?_
  by_cases hq : q.id = id <;> simp [hq]

/-- What holds of every queue's name depends on the names alone. -/
theorem queueNames_congr {l l' : List Queue} {n : Nat} (hi : l'.map (·.id) = l.map (·.id)) (hl : ∀ q ∈ l, q.id < n) :
    ∀ q ∈ l', q.id < n := by
  intro q hq
  have hmem : q.id ∈ l.map (·.id) := hi ▸ List.mem_map_of_mem hq
  obtain ⟨a, ha, he⟩ := List.mem_map.mp hmem
  exact he ▸ hl a ha

/-- A consumer changes what its queue holds, open or closed, and the record of what was taken; no name changes. -/
theorem StateOk.consumeQueue {s : State} (h : StateOk s) (id : Nat) : StateOk (consumeQueue id s) := by
  unfold Machine.consumeQueue
  split
  · have hi := setContent_ids id none s.hif.subs
    exact ⟨h.memory, h.limit, h.sockets, queueNames_congr hi h.openNames, (congrArg List.Nodup hi).mpr h.openDistinct,
      h.closedNames⟩
  · exact h
  · split
    · exact ⟨h.memory, h.limit, h.sockets, h.openNames, h.openDistinct,
        queueNames_congr (setContent_ids id none s.env.closed) h.closedNames⟩
    · exact h.same
    · exact h

/-- Every move keeps the invariant. -/
theorem Move.stateOk {s t : State} (hm : Move s t) (h : StateOk s) : StateOk t := by
  cases hm with
  | action a ag => exact perform_stateOk h a ag
  | consume q => exact h.consumeQueue q
  | store base b => exact h.setMem _ (Memory.wf_memWriteBytes b _ base h.memory)
  | _ => exact h.same

/-- Settles O5: moves keep the invariant, and `setPacketSize` sets a legal limit. -/
theorem stepKeepsInvariant : Obligations.StepKeepsInvariant := by
  intro s t hs ht
  rcases step_cases ht with hm | ⟨limit, hl, -, rfl⟩
  · exact hm.keeps (fun _ _ hm h => hm.stateOk h) hs
  · exact ⟨hs.memory, hl, hs.sockets, hs.openNames, hs.openDistinct, hs.closedNames⟩

/-- `t` has the parameters, the `WIFI_STATE` and the `PKT_LIMIT` of `s` (R23, R41, R45). -/
structure SameFixed (s t : State) : Prop where
  params : t.params = s.params
  wifi : t.root.wifi = s.root.wifi
  limit : t.fr.pktLimit = s.fr.pktLimit

theorem SameFixed.refl (s : State) : SameFixed s s := ⟨rfl, rfl, rfl⟩

theorem SameFixed.trans {s t u : State} (h : SameFixed s t) (h' : SameFixed t u) : SameFixed s u :=
  ⟨h'.params.trans h.params, h'.wifi.trans h.wifi, h'.limit.trans h.limit⟩

theorem consumeQueue_sameFixed (id : Nat) (s : State) : SameFixed s (consumeQueue id s) := by
  unfold consumeQueue
  split
  · exact ⟨rfl, rfl, rfl⟩
  · exact .refl s
  · split
    · exact ⟨rfl, rfl, rfl⟩
    · exact ⟨rfl, rfl, rfl⟩
    · exact .refl s

/-- No move changes the fixed fields: `perform_frame` says it of the actions. -/
theorem Move.sameFixed {s t : State} (hm : Move s t) : SameFixed s t := by
  cases hm with
  | action a ag =>
    have hf := perform_frame a ag s
    exact ⟨hf.params, hf.wifi, hf.limit⟩
  | consume q => exact consumeQueue_sameFixed q s
  | _ => exact ⟨rfl, rfl, rfl⟩

theorem Moves.sameFixed {s t : State} (h : Moves s t) : SameFixed s t :=
  h.keeps (I := SameFixed s) (fun _ _ hm hs => hs.trans hm.sameFixed) (.refl s)

/-- Settles O7: moves change no fixed field; `setPacketSize` changes `PKT_LIMIT` alone, in `uninitialized` and `shutdown`
alone. -/
theorem stepKeepsFixedFields : Obligations.StepKeepsFixedFields := by
  refine ⟨fun s t ht => ?_, fun s t ht hbooted => ?_⟩
  · rcases step_cases ht with hm | ⟨limit, -, -, rfl⟩
    · exact ⟨hm.sameFixed.params, hm.sameFixed.wifi⟩
    · exact ⟨rfl, rfl⟩
  · rcases step_cases ht with hm | ⟨limit, -, hdown, -⟩
    · exact hm.sameFixed.limit
    · rcases hbooted with h | h <;> simp [h] at hdown

/-! ### Power-on (R46) -/

/-- Every slot at power-on is a free one. -/
theorem reset_slot (i : Fin 11) : State.reset.sock.slot i = Slot.free := by
  simp [State.reset, Sockets.slot]

/-- A free slot is as R35 has it. -/
theorem SlotOk.slotFree (i : Fin 11) : SlotOk i Slot.free :=
  ⟨fun h => (nomatch h), fun _ => ⟨rfl, rfl, rfl, rfl, rfl, rfl, rfl⟩⟩

/-- Settles O6: at power-on every slot is free, and there is no reply slot and no queue. -/
theorem resetMeetsInvariant : Obligations.ResetMeetsInvariant where
  memory := rfl
  limit := by decide
  sockets :=
    { slots := fun i => reset_slot i ▸ SlotOk.slotFree i
      mailNames := fun e he => (nomatch he)
      mailDistinct := List.nodup_nil
      replyNames := fun i e he => by rw [reset_slot] at he; cases he }
  openNames := fun q hq => (nomatch hq)
  openDistinct := List.nodup_nil
  closedNames := fun q hq => (nomatch hq)

/-- Settles O8: `State.reset` is written out with these values; the two tables hold one value in every place. -/
theorem powerOnValues : Obligations.PowerOnValues := by
  have hcb : ∀ g : Byte, State.reset.hif.cb[g.toNat]'g.isLt = none := fun g => by simp [State.reset]
  have hslot : ∀ i : Fin 11,
      (State.reset.sock.slot i).inUse = false ∧ (State.reset.sock.slot i).desc.toInt = -1 ∧
      (State.reset.sock.slot i).state = .free ∧ (State.reset.sock.slot i).ssl = .empty ∧
      (State.reset.sock.slot i).rxRem = 0 ∧ (State.reset.sock.slot i).replies = [] ∧
      (State.reset.sock.slot i).acceptq = none ∧ (State.reset.sock.slot i).lock = .free := fun i => by
    rw [reset_slot]
    exact ⟨rfl, by decide, rfl, rfl, rfl, rfl, rfl, rfl⟩
  exact ⟨rfl, rfl, rfl, rfl, rfl, rfl, rfl, rfl, rfl, hcb, rfl, rfl, rfl, rfl, rfl, rfl, hslot, rfl, rfl, rfl, rfl⟩

end Sys2Proof.Machine

/-!
PROOFS. `Initialize()` (spec/43_socket.md R285, spec/10_state.md R46): what it starts from, and how it ends.
-/

namespace Sys2Proof.Machine

/-! ### Where `Initialize()` starts from (R46, R285) -/

theorem mem_allSlots (i : Fin 11) : i ∈ allSlots := by revert i; decide

/-- The guard of `Initialize()` tests what `Quiet` says. -/
theorem quiet_iff (s : State) : quiet s = true ↔ Quiet s := by
  simp only [quiet, betweenRounds, Bool.and_eq_true, Bool.or_eq_true, decide_eq_true_eq, List.all_eq_true]
  constructor
  · rintro ⟨⟨⟨⟨ht, hs⟩, hi⟩, hl⟩, hw⟩
    exact ⟨ht, hs, hi, fun i => hl i (mem_allSlots i), hw⟩
  · intro h
    exact ⟨⟨⟨⟨h.transport, h.session⟩, h.ids⟩, fun i _ => h.slots i⟩, h.worker⟩

/-- The slots of a list freed one after another, each slot's waiters completed first (R286). -/
def Sockets.freeSlots (k : Sockets) (l : List (Fin 11)) : Sockets := l.foldl (fun k i => (k.wakeSlot i).freeSlot i) k

/-- What the assignments that free slots come to. -/
theorem putAll_freeSlots (l : List (Fin 11)) (s : State) :
    putAll (l.flatMap fun i => [.wake i, .slot i]) s = s.mapSock fun k => k.freeSlots l := by
  induction l generalizing s with
  | nil => rfl
  | cons i l ih => exact ih ((s.mapSock fun k => k.wakeSlot i).mapSock fun k => k.freeSlot i)

/-- A freed slot freed again is the same. -/
theorem freed_freed (x : Slot) : freed (freed x) = freed x := rfl

/-- A slot after one slot was freed. -/
theorem Sockets.slot_freeSlot (k : Sockets) (i j : Fin 11) :
    ((k.wakeSlot i).freeSlot i).slot j = if j = i then freed (k.slot i) else k.slot j :=
  Sockets.slot_setSlot ((k.wakeSlot i).wakeSlot i) i j freed

/-- A slot after the slots of a list were freed. -/
theorem Sockets.slot_freeSlots (l : List (Fin 11)) (k : Sockets) (j : Fin 11) :
    (k.freeSlots l).slot j = if j ∈ l then freed (k.slot j) else k.slot j := by
  induction l generalizing k with
  | nil => rfl
  | cons i l ih =>
    show (((k.wakeSlot i).freeSlot i).freeSlots l).slot j = _
    rw [ih, Sockets.slot_freeSlot]
    by_cases hi : j = i
    · subst hi; simp [freed_freed]
    · simp [hi]

/-- The lock of the session-id counter is not touched where slots are freed. -/
theorem Sockets.sidLock_freeSlots (l : List (Fin 11)) (k : Sockets) : (k.freeSlots l).sidLock = k.sidLock := by
  induction l generalizing k with
  | nil => rfl
  | cons i l ih => exact ih ((k.wakeSlot i).freeSlot i)

theorem putAll_append (l l' : List Put) (s : State) : putAll (l ++ l') s = putAll l' (putAll l s) :=
  List.foldl_append

/-- What `Initialize()` starts from, the assignments to the slots taken together. -/
theorem resetAll_eq (s : State) :
    resetAll s =
      putAll [.sid 0, .dns, .rootLive false]
        ((putAll
            [.crcEn true, .hifState .uninitialized, .awake false, .rxValid false, .rxPend false, .clearCb, .clearSubs,
              .go false, .stop false, .irqPrev true, .intrEn false]
            (quieted s)).mapSock fun k => k.freeSlots allSlots) := by
  rw [resetAll, initPuts, putAll_append, putAll_append, slotPuts, putAll_freeSlots]

/-- The assignments behind those to the slots touch no slot and no lock. -/
theorem putAll_initEnd_slot (t : State) (i : Fin 11) :
    (putAll [.sid 0, .dns, .rootLive false] t).sock.slot i = t.sock.slot i := rfl

theorem putAll_initEnd_sidLock (t : State) :
    (putAll [.sid 0, .dns, .rootLive false] t).sock.sidLock = t.sock.sidLock := rfl

/-- Every slot is freed where `Initialize()` starts from. -/
theorem resetAll_slot (s : State) (i : Fin 11) : (resetAll s).sock.slot i = freed (s.sock.slot i) := by
  rw [resetAll_eq, putAll_initEnd_slot, State.mapSock_sock, Sockets.slot_freeSlots, if_pos (mem_allSlots i)]
  rfl

theorem resetAll_sidLock (s : State) : (resetAll s).sock.sidLock = s.sock.sidLock := by
  rw [resetAll_eq, putAll_initEnd_sidLock, State.mapSock_sock, Sockets.sidLock_freeSlots]
  rfl

/-- A freed slot that nobody holds has its power-on values, but for the fields R46 leaves unspecified (log 22). -/
theorem freed_eq_free {x : Slot} (h : x.lock = .free) :
    freed x = { Slot.free with sid := x.sid, txOffset := x.txOffset, rxAddr := x.rxAddr, rxFrom := x.rxFrom } := by
  show freed x = { freed x with lock := .free }
  rw [← h]
  rfl

/-- The session at its power-on values, but for the two registers R46 leaves unspecified. -/
theorem resetAll_hif {s : State} (h : s.hif.lock = .free) :
    (resetAll s).hif = { State.reset.hif with rxAddr := s.hif.rxAddr, rxSize := s.hif.rxSize } := by
  show ({ State.reset.hif with rxAddr := s.hif.rxAddr, rxSize := s.hif.rxSize, lock := s.hif.lock } : Hif) = _
  rw [h]
  rfl

/-! ### `Initialize()` as a program (R285) -/

/-- A call of `Initialize()` that no gate turns away. -/
theorem exec_initialize {s : State} (hl : s.root.live = false) (hb : s.hif.state ≠ .bootstrapping)
    (hi : initializing s = false) : exec .opInitialize s = startTask .opInitialize (initializeOp s.params) s := by
  have hst : [HifState.uninitialized, .ready, .shutdown].contains s.hif.state = true := by
    revert hb
    cases s.hif.state <;> decide
  show execInitialize s = _
  rw [execInitialize, hl, if_neg Bool.false_ne_true, whenIn, if_pos ⟨hst, hi⟩]

/-- Where everything is quiet, `Initialize()` sets its values and goes on with `Hif.Init`. -/
theorem Runs.initializeOp {id : Nat} {p : Params} {s t : State} {r : Except Err Value} (hq : Quiet s)
    (hy : s.env.yields = []) (hf : s.env.fired = false)
    (h : Runs id
      ((hifInit p).tryBind fun _ => (registerCallback groupIp .socket).tryBind fun _ =>
        .puts [.wSeq .wait, .irqPrevPin, .intrEn true, .rootLive true] (.ret (.ok .unit))) (resetAll s) r t) :
    Runs id (initializeOp p) s r t := by
  have hp : perform .quiesce (.caller id) s = (some .unit, quieted s) := by
    simp only [perform, doQuiesce, if_pos ((quiet_iff s).mpr hq)]
  refine Runs.andThen hp hy ?_
  rw [endAction_eq (s := quieted s) hy hf]
  exact Runs.puts (s := quieted s) hy hf h

/-- A callback registered by a caller that finds the session lock free (R220). -/
theorem Runs.registerCallback {id : Nat} {s : State} (g : Byte) (cb : Callback) (hl : s.hif.lock = .free)
    (hy : s.env.yields = []) :
    Runs id (registerCallback g cb) s (.ok .unit)
      (endAction (s.mapHif fun h => { h with cb := h.cb.set g.toNat (some cb) g.isLt })) := by
  have hp : perform .lockS (.caller id) s = (some .unit, s.mapHif fun h => { h with lock := .held (.caller id) }) := by
    simp only [perform, doLockS, hl, Lock.take]
  refine Runs.andThen hp hy (Runs.andThen rfl ?_ (Runs.andThen rfl ?_ ?_))
  · simp [hy]
  · simp [hy]
  · refine cast (congrArg (Runs id _ _ _) ?_) (Runs.ret (α := Except Err Value) (.ok .unit) _)
    simp [endAction, State.mapHif, State.mapEnv, hy, hl, Lock.drop]

/-- A caller that finds something in progress, and no input to come, waits at the guard of `Initialize()` (log 22). -/
theorem callerGo_quiesce_waits {s : State} (id : Nat) (hq : ¬Quiet s) (hi : s.env.inbox = [])
    (hf : s.env.fired = false) : callerGo id .quiesce s = (none, s) := by
  have hp : perform .quiesce (.caller id) s = (none, s) := by
    simp only [perform, doQuiesce, if_neg (mt (quiet_iff s).mp hq)]
  simp only [callerGo, hp, hi, waitFor, dropExpiry_eq hf]
  rw [← hi]
  rfl

/-- `Quiet` looks at locks and worker alone, which a new task does not touch. -/
theorem quiet_newTask {s : State} : Quiet (newTask s) ↔ Quiet s :=
  ⟨fun h => ⟨h.transport, h.session, h.ids, h.slots, h.worker⟩,
    fun h => ⟨h.transport, h.session, h.ids, h.slots, h.worker⟩⟩

/-- `Initialize()` behind a `Hif.Init` that succeeds (R285). -/
theorem initialize_ends_ok {s s1 : State} (hl : s.root.live = false) (hb : s.hif.state ≠ .bootstrapping)
    (hi : initializing s = false) (hq : Quiet s) (hy : s.env.yields = []) (hlock : s1.hif.lock = .free)
    (hr : Runs (taskOf s) (hifInit s.params) (resetAll (newTask s)) (.ok ()) s1) :
    Ends .opInitialize s (.ok .unit)
      (((s1.mapHif fun h => { h with cb := h.cb.set 1 (some .socket) }).mapIrq fun q =>
          { q with wseq := .wait, irqPrev := s1.env.pin, intrEn := true }).mapRoot fun r => { r with live := true }) := by
  have hy1 : s1.env.yields = [] := hr.yields hy
  let s2 := endAction (s1.mapHif fun h => { h with cb := h.cb.set groupIp.toNat (some .socket) groupIp.isLt })
  have hy2 : s2.env.yields = [] := by simp [s2, hy1]
  have hreg : Runs (taskOf s) (registerCallback groupIp .socket) s1 (.ok .unit) s2 :=
    Runs.registerCallback groupIp .socket hlock hy1
  have hrun := Runs.initializeOp (quiet_newTask.mpr hq) hy rfl <|
    Runs.tryBind_ok hr <| Runs.tryBind_ok hreg <|
      Runs.puts (l := [.wSeq .wait, .irqPrevPin, .intrEn true, .rootLive true]) hy2 rfl (Runs.ret (Except.ok Value.unit) _)
  obtain ⟨b, he⟩ := Ends.of_runs (exec_initialize hl hb hi) hrun
  refine ⟨b, he.trans ?_⟩
  simp [s2, putAll, Put.apply, endAction, State.mapHif, State.mapIrq, State.mapRoot, State.mapEnv, hy1, toResult, groupIp]

/-- `Initialize()` behind a `Hif.Init` that fails ends in its error (R285). -/
theorem initialize_ends_error {s s1 : State} {e : Err} (hl : s.root.live = false) (hb : s.hif.state ≠ .bootstrapping)
    (hi : initializing s = false) (hq : Quiet s) (hy : s.env.yields = [])
    (hr : Runs (taskOf s) (hifInit s.params) (resetAll (newTask s)) (.error e) s1) :
    Ends .opInitialize s (.err e) s1 :=
  Ends.of_runs (exec_initialize hl hb hi)
    (Runs.initializeOp (quiet_newTask.mpr hq) hy rfl (Runs.tryBind_error hr))

/-- `Initialize()` that finds something in progress waits (log 22). -/
theorem initialize_waits {s : State} (hl : s.root.live = false) (hb : s.hif.state ≠ .bootstrapping)
    (hi : initializing s = false) (hq : ¬Quiet s) (hn : s.env.inbox = []) :
    exec .opInitialize s = .next (waiting (taskOf s) .opInitialize [] (newTask s)) := by
  have hgo := callerGo_quiesce_waits (s := newTask s) s.env.nextTask (mt quiet_newTask.mp hq) hn rfl
  rw [exec_initialize hl hb hi, startTask, initializeOp, Prog.andThen, Prog.run, hgo]
  rfl

/-- Settles O59: the two endings follow the program of `Initialize()` line by line; what it starts from is `resetAll`,
element by element; without quiet it waits at its first line. -/
theorem initializeBringsTheDriverUp : Obligations.InitializeBringsTheDriverUp := by
  refine ⟨fun s s1 hl hb hi hq hy hlock hr => initialize_ends_ok hl hb hi hq hy hlock hr,
    fun s s1 e hl hb hi hq hy hr => ⟨initialize_ends_error hl hb hi hq hy hr, (hr.hifInit_down (resetAll_down _)).1⟩,
    fun s hq => ?_, fun s hl hb hi hq hn => initialize_waits hl hb hi hq hn⟩
  exact ⟨rfl, hq.transport, rfl, resetAll_hif hq.session, rfl,
    fun i => (resetAll_slot s i).trans (freed_eq_free (hq.slots i)), rfl, (resetAll_sidLock s).trans hq.ids, rfl, rfl, rfl⟩

end Sys2Proof.Machine

/-!
PROOFS. An inbound connection (spec/43_socket.md R274): the callback on its own, and row 0x43 as `Isr` runs it.
-/

namespace Sys2Proof.Machine

section
variable {go : Action → State → Option Val × State} {ag : Agent}

/-! ### Programs that change the sockets alone -/

/-- An action that changes the sockets, in a program whose whole effect is a new socket table `k`. -/
theorem Serves.sockets {α : Type} (hgo : Agrees go ag) {a : Action} {next : Val → Prog α} {xs : List Access} {r : α}
    {v : Val} {f : Sockets → Sockets} {k : Sockets} {s : State} (hp : perform a ag s = (some v, s.mapSock f))
    (hf : ∀ u, u.sock = f s.sock → u.root = s.root → Serves go (next v) xs r (fun t => t.mapSock fun _ => k) u) :
    Serves go (.act a next) xs r (fun t => t.mapSock fun _ => k) s :=
  Serves.update (g := fun t => t.mapSock f) (h := fun t => t.mapSock fun _ => k) hgo (Respects.mapSock _) hp rfl rfl
    (fun hs => ⟨hs.lock, hs.idle, hs.limit, hs.yields⟩) fun u hu => hf u hu.sock hu.root

/-- An action that only looks, in such a program. -/
theorem Serves.looks {α : Type} (hgo : Agrees go ag) {a : Action} {next : Val → Prog α} {xs : List Access} {r : α}
    {v : Val} {k : Sockets} {s : State} (hp : perform a ag s = (some v, s))
    (hf : ∀ u, u.sock = s.sock → u.root = s.root → Serves go (next v) xs r (fun t => t.mapSock fun _ => k) u) :
    Serves go (.act a next) xs r (fun t => t.mapSock fun _ => k) s := Serves.sockets (f := fun k => k) hgo hp hf

/-- The end of such a program. -/
theorem Serves.retSockets {α : Type} (a : α) {k : Sockets} {s : State} (hk : s.sock = k) :
    Serves go (.ret a) [] a (fun t => t.mapSock fun _ => k) s :=
  (Serves.ret (go := go) a s).congr (hk ▸ rfl)

/-! ### The callback behind its record (R274) -/

/-- What the callback does once it has its record (R274). -/
def acceptEvent (addr : SockAddr) (listenSock connSock : BitVec 8) (extra : Half) : Prog CbAnswer :=
  match streamIx listenSock.toInt with
  | none => cbNil
  | some pi => .act (.acceptParent pi) fun v =>
    if v.toFlag then cbAcceptConn pi addr listenSock connSock extra else cbNil

/-- The callback: its record fetched, then what it does with it. -/
theorem cbAccept_eq (p : Params) (length : Int) (address : Word) :
    cbAccept p length address =
      (fetch p .acceptReply length address true).bind fun r =>
        match r with
        | some (.accept addr listenSock connSock extra) => acceptEvent addr listenSock connSock extra
        | _ => cbNil := rfl

/-- What the callback answers to an accept event. -/
def acceptAnswer (rep : Reply) (taken : Bool) : CbAnswer := (if taken then some (.reply rep) else none, false)

theorem slotIx_eq_none {i : Int} : slotIx i = none ↔ i < 0 ∨ 10 < i := by
  unfold slotIx
  split <;> simp <;> omega

theorem slotIx_eq_some {i : Int} {k : Fin 11} : slotIx i = some k ↔ i = k.val := by
  constructor
  · intro h
    unfold slotIx at h
    split at h
    · cases h; simp; omega
    · cases h
  · rintro rfl; exact slotIx_fin k

/-- A slot's own descriptor, read as a signed number, is its index. -/
theorem ownDesc_toInt (i : Fin 11) : (BitVec.ofNat 8 i.val).toInt = i.val := by revert i; decide

/-- A descriptor that is a slot's index is the slot's own descriptor. -/
theorem ownDesc_of_toInt {d : BitVec 8} {i : Fin 11} (h : d.toInt = i.val) : BitVec.ofNat 8 i.val = d := by
  apply BitVec.eq_of_toInt_eq
  rw [h, ownDesc_toInt]

/-- The record of an accept event queued with its parent, and answered (R274). -/
theorem cbAcceptPut_serves (hgo : Agrees go ag) {p : Fin 11} {addr : SockAddr} {listenSock connSock : BitVec 8}
    {extra : Half} {k : Sockets} {s : State}
    (hk : s.sock.setSlot p (acceptPut ⟨listenSock, connSock, addr⟩) = k) :
    Serves go (cbAcceptPut p addr listenSock connSock extra) []
      (acceptAnswer (.accept addr listenSock connSock extra) true) (fun t => t.mapSock fun _ => k) s :=
  Serves.sockets hgo (a := .acceptPut p ⟨listenSock, connSock, addr⟩)
    (f := fun k => k.setSlot p (acceptPut ⟨listenSock, connSock, addr⟩)) rfl fun _ hu _ =>
      Serves.retSockets _ (hu.trans hk)

/-- A parent with room takes a record. -/
theorem acceptPut_room {x : Slot} (r : AcceptRec) (hu : x.inUse = true) (hq : x.acceptq = none) :
    acceptPut r x = { x with acceptq := some r } := by
  simp [acceptPut, hu, hq]

/-- A change of one slot is known by what it does to that slot. -/
theorem Sockets.setSlot_congr {k : Sockets} {i : Fin 11} {f g : Slot → Slot} (h : f (k.slot i) = g (k.slot i)) :
    k.setSlot i f = k.setSlot i g := by
  have h' : f k.slots[i.val] = g k.slots[i.val] := h
  simp only [Sockets.setSlot, h']

/-- A free lock taken and released again leaves the slot as it was. -/
theorem Sockets.setSlot_lock_drop {k : Sockets} {i : Fin 11} {ag : Agent} (h : (k.slot i).lock = .free) :
    ((k.setSlot i fun x => { x with lock := .held ag }).setSlot i fun x => { x with lock := x.lock.drop ag }) = k := by
  rw [Sockets.setSlot_setSlot]
  refine Sockets.ext_slots (fun j => ?_) rfl rfl rfl rfl
  rw [Sockets.slot_setSlot]
  split
  · rename_i hj
    subst hj
    simp only [Lock.drop, if_true]
    rw [← h]
  · rfl

/-- `trylock` on a free lock (R274). -/
theorem perform_tryLock_free {s : State} {c : Fin 11} (h : (s.sock.slot c).lock = .free) :
    perform (.tryLock c) ag s =
      (some (.flag true), s.mapSock fun k => k.setSlot c fun x => { x with lock := .held ag }) := by
  simp only [perform, doTryLock, h, Lock.take]

/-- `trylock` on a lock that is held (R274). -/
theorem perform_tryLock_held {s : State} {c : Fin 11} (h : (s.sock.slot c).lock ≠ .free) :
    perform (.tryLock c) ag s = (some (.flag false), s) := by
  cases hl : (s.sock.slot c).lock with
  | free => exact absurd hl h
  | held by_ => simp only [perform, doTryLock, hl, Lock.take]

/-- The connected slot of an accept event: a descriptor that is some slot's index (R274). -/
theorem cbAcceptConn_slot {connSock : BitVec 8} {c : Fin 11} (hc : connSock.toInt = c.val) (p : Fin 11)
    (addr : SockAddr) (listenSock : BitVec 8) (extra : Half) :
    cbAcceptConn p addr listenSock connSock extra =
      .act (.tryLock c) fun v =>
        if v.toFlag then
          .act (.slotInUse c) fun u =>
            if u.toFlag = true ∨ extra.toNat < 8 then .andThen (.leave c) cbNil
            else .act .nextSid fun w =>
              .andThen (.allocConn c p (BitVec.ofNat 16 w.toNum) (extra - 8)) <| .andThen (.leave c) <|
                cbAcceptPut p addr listenSock connSock extra
        else cbNil := by
  unfold cbAcceptConn
  rw [if_neg (by omega), slotIx_eq_some.mpr hc]

/-- The slot an inbound connection is given (R274). -/
def connectedSlot (s : State) (p : Fin 11) (connSock : BitVec 8) (extra : Half) (x : Slot) : Slot :=
  { x with
    inUse := true
    desc := connSock
    sid := s.sock.sid + 1
    ssl := (s.sock.slot p).ssl
    txOffset := extra - 8
    rxRem := 0
    replies := []
    acceptq := none
    state := .connected }

/-- The sockets with an inbound connection's slot allocated and its record queued with the parent (R274): what
`AcceptOutcome.connected` says. -/
def connected (s : State) (p c : Fin 11) (addr : SockAddr) (listenSock connSock : BitVec 8) (extra : Half) : Sockets :=
  { ((s.sock.setSlot c (connectedSlot s p connSock extra)).setSlot p fun x =>
        { x with acceptq := some ⟨listenSock, connSock, addr⟩ }) with
    sid := s.sock.sid + 1 }

/-- `connected` depends on the sockets alone. -/
theorem connected_congr {s u : State} (hs : u.sock = s.sock) (p c : Fin 11) (addr : SockAddr)
    (listenSock connSock : BitVec 8) (extra : Half) :
    connected u p c addr listenSock connSock extra = connected s p c addr listenSock connSock extra := by
  unfold connected connectedSlot
  rw [hs]

/-- The slots of `connected`. -/
theorem connected_slot (s : State) {p c : Fin 11} (hpc : p ≠ c) (addr : SockAddr) (listenSock connSock : BitVec 8)
    (extra : Half) (j : Fin 11) :
    (connected s p c addr listenSock connSock extra).slot j =
      if j = p then { s.sock.slot p with acceptq := some ⟨listenSock, connSock, addr⟩ }
      else if j = c then connectedSlot s p connSock extra (s.sock.slot c) else s.sock.slot j := by
  refine (Sockets.slot_withSid _ _ j).trans ?_
  rw [Sockets.slot_setSlot, Sockets.slot_setSlot_ne _ _ hpc, Sockets.slot_setSlot]

/-- Behind a table `k` with slot `c` locked and the id drawn, the steps left come to `connected`: the slot allocated and
unlocked, the record queued with slot `p` (R274). -/
theorem connected_of_steps {ag : Agent} {s : State} {k : Sockets} {p c : Fin 11} (addr : SockAddr) (listenSock : BitVec 8)
    {connSock : BitVec 8} (extra : Half) (hkc : k.slot c = { s.sock.slot c with lock := .held ag })
    (hkj : ∀ j, j ≠ c → k.slot j = s.sock.slot j) (hsid : k.sid = s.sock.sid + 1)
    (hmail : k.mail = s.sock.mail) (hids : k.sidLock = s.sock.sidLock) (hdns : k.dnsReply = s.sock.dnsReply)
    (hu : (s.sock.slot p).inUse = true) (hq : (s.sock.slot p).acceptq = none) (hc : connSock.toInt = c.val)
    (hpc : p ≠ c) (hlock : (s.sock.slot c).lock = .free) :
    (((k.setSlot c (connAllocated c (s.sock.sid + 1) (s.sock.slot p).ssl (extra - 8))).setSlot c
          fun x => { x with lock := x.lock.drop ag }).setSlot p (acceptPut ⟨listenSock, connSock, addr⟩)) =
      connected s p c addr listenSock connSock extra := by
  refine Sockets.ext_slots (fun j => ?_) hmail hsid hids hdns
  rw [connected_slot s hpc, Sockets.setSlot_setSlot, Sockets.slot_setSlot, Sockets.slot_setSlot_ne _ _ hpc, hkj p hpc,
    acceptPut_room _ hu hq, Sockets.slot_setSlot, hkc]
  split
  · rfl
  · split
    · simp [connAllocated, connectedSlot, Lock.drop, hlock, ownDesc_of_toInt hc]
    · rename_i hj
      exact hkj j hj

/-- A connected slot that is free and unlocked is locked, allocated, unlocked, and its record queued (R274). -/
theorem cbAcceptConn_connects (hgo : Agrees go ag) {p c : Fin 11} {addr : SockAddr} {listenSock connSock : BitVec 8}
    {extra : Half} {s : State} (hu : (s.sock.slot p).inUse = true) (hq : (s.sock.slot p).acceptq = none)
    (hc : connSock.toInt = c.val) (hpc : p ≠ c) (hs : s.sock.sidLock = .free) (hl : s.root.live = true)
    (hf : (s.sock.slot c).inUse = false) (hk : (s.sock.slot c).lock = .free) (he : 8 ≤ extra.toNat) :
    Serves go (cbAcceptConn p addr listenSock connSock extra) []
      (acceptAnswer (.accept addr listenSock connSock extra) true)
      (fun t => t.mapSock fun _ => connected s p c addr listenSock connSock extra) s := by
  rw [cbAcceptConn_slot hc]
  refine Serves.sockets hgo (perform_tryLock_free hk) fun s1 h1 r1 => ?_
  refine Serves.looks hgo (v := .flag (s1.sock.slot c).inUse) rfl fun s2 h2 r2 => ?_
  have hfree : (s1.sock.slot c).inUse = false := by rw [h1, Sockets.slot_setSlot_self]; exact hf
  rw [if_neg (by simp only [Val.toFlag, hfree, Bool.false_eq_true, false_or]; omega)]
  have hsid : perform .nextSid ag s2 =
      (some (.num (s.sock.sid + 1).toNat), s2.mapSock fun k => { k with sid := k.sid + 1 }) := by
    simp only [perform, doNextSid, h2, h1, Sockets.setSlot_sidLock, Sockets.setSlot_sid, hs]
  refine Serves.sockets hgo hsid fun s3 h3 r3 => ?_
  have hother : ∀ j, j ≠ c → s3.sock.slot j = s.sock.slot j := fun j hj => by
    rw [h3, Sockets.slot_withSid, h2, h1, Sockets.slot_setSlot_ne _ _ hj]
  have hc3 : s3.sock.slot c = { s.sock.slot c with lock := .held ag } := by
    rw [h3, Sockets.slot_withSid, h2, h1, Sockets.slot_setSlot_self]
  have halloc : perform (.allocConn c p (s.sock.sid + 1) (extra - 8)) ag s3 =
      (some .unit, s3.mapSock fun k =>
        k.setSlot c (connAllocated c (s.sock.sid + 1) (s.sock.slot p).ssl (extra - 8))) := by
    have hmay : mayAllocate ag c s3 = true := by simp [mayAllocate, r3, r2, r1, hl, hc3]
    simp only [perform, doAllocConn, hmay, if_true, hother p hpc]
  rw [show BitVec.ofNat 16 (Val.num (s.sock.sid + 1).toNat).toNum = s.sock.sid + 1 from BitVec.ofNat_toNat ..]
  refine Serves.sockets hgo halloc fun s4 h4 _ => ?_
  refine Serves.sockets hgo (a := .leave c) (f := fun k => k.setSlot c fun x => { x with lock := x.lock.drop ag }) rfl
    fun s5 h5 _ => ?_
  refine cbAcceptPut_serves hgo ?_
  rw [h5, h4]
  refine connected_of_steps addr listenSock extra hc3 hother ?_ ?_ ?_ ?_ hu hq hc hpc hk
  all_goals
    rw [h3, h2, h1]
    rfl

/-- A connected slot that is out of range, locked or in use, or an offset below 8: nothing is changed (R274). -/
theorem cbAcceptConn_drops (hgo : Agrees go ag) (p : Fin 11) (addr : SockAddr) (listenSock : BitVec 8)
    {connSock : BitVec 8} {extra : Half} {s : State}
    (h : 10 < connSock.toInt ∨ ∃ c : Fin 11, connSock.toInt = c.val ∧
      ((s.sock.slot c).lock ≠ .free ∨ (s.sock.slot c).inUse = true ∨ extra.toNat < 8)) :
    Serves go (cbAcceptConn p addr listenSock connSock extra) [] (none, false) (fun t => t.mapSock fun _ => s.sock)
      s := by
  rcases h with h | ⟨c, hc, h⟩
  · rw [cbAcceptConn, if_neg (by omega), slotIx_eq_none.mpr (.inr h)]
    exact Serves.retSockets _ rfl
  rw [cbAcceptConn_slot hc]
  by_cases hk : (s.sock.slot c).lock = .free
  · refine Serves.sockets hgo (perform_tryLock_free hk) fun s1 h1 _ => ?_
    refine Serves.looks hgo (v := .flag (s1.sock.slot c).inUse) rfl fun s2 h2 _ => ?_
    have hused : (s1.sock.slot c).inUse = (s.sock.slot c).inUse := by rw [h1, Sockets.slot_setSlot_self]
    rw [if_pos (by rw [Val.toFlag, hused]; exact h.resolve_left (not_not_intro hk))]
    refine Serves.sockets hgo (a := .leave c) (f := fun k => k.setSlot c fun x => { x with lock := x.lock.drop ag }) rfl
      fun s3 h3 _ => ?_
    exact Serves.retSockets _ (by rw [h3, h2, h1, Sockets.setSlot_lock_drop hk])
  · exact Serves.looks hgo (perform_tryLock_held hk) fun u hu _ => Serves.retSockets _ hu

/-- The parent of an accept event is a stream slot in use with room for a record (R274). -/
theorem acceptParent_iff {k : Sockets} {p : Fin 11} :
    acceptParent k p = true ↔ (k.slot p).inUse = true ∧ (k.slot p).acceptq = none := by
  simp [acceptParent]

theorem streamIx_eq_some {i : Int} {p : Fin 11} : streamIx i = some p ↔ i = p.val ∧ p.val ≤ 6 := by
  unfold streamIx
  split
  · rw [slotIx_eq_some]; omega
  · simp only [reduceCtorEq, false_iff]; omega

/-- An accept event with a parent goes on to its connected slot. -/
theorem acceptEvent_parent (hgo : Agrees go ag) {p : Fin 11} {addr : SockAddr} {listenSock connSock : BitVec 8}
    {extra : Half} {s : State} {r : CbAnswer} {k : Sockets} (hp : listenSock.toInt = p.val) (h6 : p.val ≤ 6)
    (hroom : acceptParent s.sock p = true)
    (hf : ∀ u, u.sock = s.sock → u.root = s.root →
      Serves go (cbAcceptConn p addr listenSock connSock extra) [] r (fun t => t.mapSock fun _ => k) u) :
    Serves go (acceptEvent addr listenSock connSock extra) [] r (fun t => t.mapSock fun _ => k) s := by
  rw [acceptEvent, streamIx_eq_some.mpr ⟨hp, h6⟩]
  refine Serves.looks hgo (v := .flag (acceptParent s.sock p)) rfl fun u hu hr => ?_
  rw [hroom]
  exact hf u hu hr

/-- An accept event without a parent changes nothing. -/
theorem acceptEvent_orphan (hgo : Agrees go ag) {addr : SockAddr} {listenSock connSock : BitVec 8} {extra : Half}
    {s : State} (h : ∀ p, streamIx listenSock.toInt = some p → acceptParent s.sock p = false) :
    Serves go (acceptEvent addr listenSock connSock extra) [] (none, false) (fun t => t.mapSock fun _ => s.sock) s := by
  rw [acceptEvent]
  cases hp : streamIx listenSock.toInt with
  | none => exact Serves.retSockets _ rfl
  | some p =>
    refine Serves.looks hgo (v := .flag (acceptParent s.sock p)) rfl fun u hu _ => ?_
    rw [h p hp]
    exact Serves.retSockets _ hu

/-- What is left of an accept event depends on the sockets and on the driver being live. -/
theorem AcceptOutcome.congr {s u : State} {addr : SockAddr} {listenSock connSock : BitVec 8} {extra : Half}
    {taken : Bool} {k : Sockets} (h : AcceptOutcome s addr listenSock connSock extra taken k) (hs : u.sock = s.sock)
    (hr : u.root = s.root) : AcceptOutcome u addr listenSock connSock extra taken k := by
  cases h with
  | connected p c hp h6 hu hq hc hpc hid hl hf hk he =>
    rw [← hs] at hu hq hid hf hk ⊢
    exact .connected p c hp h6 hu hq hc hpc hid (hr ▸ hl) hf hk he
  | refused p hp h6 hu hq hc =>
    rw [← hs] at hu hq ⊢
    exact .refused p hp h6 hu hq hc
  | dropped h =>
    rw [← hs] at h ⊢
    exact .dropped h

/-- An accept event has one of its outcomes: allocated and queued, queued alone, or dropped (R37, R274). -/
theorem acceptEvent_serves (hgo : Agrees go ag) {addr : SockAddr} {listenSock connSock : BitVec 8} {extra : Half}
    {taken : Bool} {k : Sockets} {s : State} (h : AcceptOutcome s addr listenSock connSock extra taken k) :
    Serves go (acceptEvent addr listenSock connSock extra) []
      (acceptAnswer (.accept addr listenSock connSock extra) taken) (fun t => t.mapSock fun _ => k) s := by
  cases h with
  | connected p c hp h6 hu hq hc hpc hid hl hf hk he =>
    refine acceptEvent_parent hgo hp h6 (acceptParent_iff.mpr ⟨hu, hq⟩) fun u hs hr => ?_
    have hconn := cbAcceptConn_connects hgo (s := u) (addr := addr) (listenSock := listenSock) (hs ▸ hu) (hs ▸ hq) hc
      hpc (hs ▸ hid) (hr ▸ hl) (hs ▸ hf) (hs ▸ hk) he
    rw [connected_congr hs] at hconn
    exact hconn
  | refused p hp h6 hu hq hc =>
    refine acceptEvent_parent hgo hp h6 (acceptParent_iff.mpr ⟨hu, hq⟩) fun u hs _ => ?_
    rw [cbAcceptConn, if_pos hc]
    exact cbAcceptPut_serves hgo (by rw [hs]; exact Sockets.setSlot_congr (acceptPut_room _ hu hq))
  | dropped h =>
    by_cases hroom : ∃ p, streamIx listenSock.toInt = some p ∧ acceptParent s.sock p = true
    · obtain ⟨p, hp, hroom⟩ := hroom
      obtain ⟨hp, h6⟩ := streamIx_eq_some.mp hp
      obtain ⟨hu, hq⟩ := acceptParent_iff.mp hroom
      refine acceptEvent_parent hgo hp h6 hroom fun u hs _ => hs ▸ cbAcceptConn_drops hgo p addr listenSock ?_
      rw [hs]
      rcases h with h | h | h | ⟨q, hq', h⟩ | h
      · omega
      · omega
      · exact .inl h
      · have hqp : q = p := Fin.ext (by omega)
        subst hqp
        rcases h with h | h
        · rw [hu] at h; cases h
        · exact absurd hq h
      · exact .inr h
    · exact acceptEvent_orphan hgo fun p hp => by simpa using fun hr => hroom ⟨p, hp, hr⟩

/-! ### The callback, with its record (R270, R274) -/

/-- The callback on a record inside the window (R270, R274). -/
theorem cbAccept_serves (hgo : Agrees go ag) (p : Params) {length : Int} {address : Word} {b : Bytes} {due : Bool}
    (w : Word) {addr : SockAddr} {listenSock connSock : BitVec 8} {extra : Half} {taken : Bool} {k : Sockets}
    {s : State} (hs : s.hif.state = .ready) (hb : b.length = recSize p .acceptReply)
    (hl : (recSize p .acceptReply : Int) ≤ length) (hw : inWindow s.hif address (recSize p .acceptReply))
    (ha : address.toNat < 2 ^ 24) (hd : s.hif.rxPend = due)
    (hdec : decRec p .acceptReply b = .accept addr listenSock connSock extra)
    (h : AcceptOutcome s addr listenSock connSock extra taken k) :
    Serves go (cbAccept p length address) (.readBlock (address.setWidth 24) b :: rxDoneAccesses p due w)
      (acceptAnswer (.accept addr listenSock connSock extra) taken)
      (fun t => (t.mapHif fun h => { h with rxPend := false }).mapSock fun _ => k) s := by
  have hdue : rxDoneDue s.hif address (recSize p .acceptReply) true = due := by simp [rxDoneDue, hd]
  have hx : (s.mapHif fun h => { h with rxPend := h.rxPend && !due }) = s.mapHif fun h => { h with rxPend := false } := by
    simp [State.mapHif, hd]
  rw [cbAccept_eq]
  have hbind := Serves.bind (ys := []) (f := fun r => match r with
      | some (.accept addr listenSock connSock extra) => acceptEvent addr listenSock connSock extra
      | _ => cbNil) (Respects.mapSock fun _ => k)
    (fetch_serves hgo p .acceptReply w hs hb hl hw ha hdue) fun u hu => by
      rw [hdec]
      exact acceptEvent_serves hgo (h.congr hu.sock hu.root)
  rw [List.append_nil] at hbind
  exact hbind.congr (by rw [hx])

/-- `Receive` outside the window ends in an error without an access (R218). -/
theorem receive_outside (hgo : Agrees go ag) (p : Params) {address : Word} {n : Nat} (done : Bool) (into : Option Span)
    {s : State} (hr : s.hif.state = .ready) (hw : ¬inWindow s.hif address n) :
    ∃ e, Serves go (receive p address n done into) [] (.error e) (fun t => t) s := by
  by_cases hlong : s.hif.rxValid = true ∧ rxTooLong s.hif n = true
  · refine ⟨.messageTooLong, ifReady_serves hgo Respects.id hr fun u hu => ?_⟩
    refine Serves.look hgo (v := .flag u.hif.rxValid) Respects.id rfl fun u1 h1 => ?_
    rw [Val.toFlag, hu.hif, if_pos hlong.1]
    refine Serves.look hgo (v := .flag (rxTooLong u1.hif n)) Respects.id rfl fun u2 _ => ?_
    rw [Val.toFlag, h1.hif, hu.hif, if_pos hlong.2]
    exact Serves.raise _ u2
  · refine ⟨.badMemoryAlloc, ifReady_serves hgo Respects.id hr fun u hu => ?_⟩
    refine Serves.look hgo (v := .flag u.hif.rxValid) Respects.id rfl fun u1 h1 => ?_
    rw [Val.toFlag, hu.hif]
    by_cases hvalid : s.hif.rxValid = true
    · have hshort : rxTooLong s.hif n = false := by simpa [hvalid] using hlong
      have hout : rxOutside s.hif address n = true := by
        simp only [rxTooLong, decide_eq_false_iff_not] at hshort
        simp only [rxOutside, Bool.or_eq_true, decide_eq_true_eq]
        by_contra hin
        exact hw ⟨hvalid, by omega, by omega, by omega⟩
      rw [if_pos hvalid]
      refine Serves.look hgo (v := .flag (rxTooLong u1.hif n)) Respects.id rfl fun u2 h2 => ?_
      rw [Val.toFlag, h1.hif, hu.hif, hshort, if_neg Bool.false_ne_true]
      refine Serves.look hgo (v := .flag (rxOutside u2.hif address n)) Respects.id rfl fun u3 _ => ?_
      rw [Val.toFlag, h2.hif, h1.hif, hu.hif, if_pos hout]
      exact Serves.raise _ u3
    · rw [if_neg hvalid]
      exact Serves.raise _ u1

/-- A packet too short for its record, or whose record leaves the window, is read no further (R218, R270). -/
theorem fetch_nothing (hgo : Agrees go ag) (p : Params) (rec : RxRecord) {length : Int} {address : Word} (done : Bool)
    {s : State} (hr : s.hif.state = .ready)
    (h : length < recSize p rec ∨ ¬inWindow s.hif address (recSize p rec)) :
    Serves go (fetch p rec length address done) [] none (fun t => t) s := by
  unfold fetch
  split
  · exact Serves.ret _ s
  · rename_i hl
    obtain ⟨e, he⟩ := receive_outside hgo p done none hr (h.resolve_left hl)
    exact Serves.bind (ys := []) (h := fun t => t) Respects.id he fun u _ => Serves.ret _ u

/-- The callback without its record: nothing is answered, nothing changed, RX-done left to `Isr` (R270). -/
theorem cbAccept_nothing (hgo : Agrees go ag) (p : Params) {length : Int} {address : Word} {s : State}
    (hr : s.hif.state = .ready)
    (h : length < recSize p .acceptReply ∨ ¬inWindow s.hif address (recSize p .acceptReply)) :
    Serves go (cbAccept p length address) [] (none, false) (fun t => t) s :=
  Serves.bind (ys := []) (h := fun t => t) Respects.id (fetch_nothing hgo p .acceptReply true hr h) fun u _ =>
    Serves.ret _ u

end

/-! ### Row 0x43, as `Isr` runs it (R211, R215, R216, R270; log 10) -/

/-- Opcode 0x43, with or without the data flag, is dispatched to the accept callback (R270). -/
theorem sockCb_accept (p : Params) (flag : Bool) (length : Int) (address : Word) :
    sockCb p (hifOpcodeByte 0x43 flag) length address = cbAccept p length address := by
  cases flag <;> rfl

/-- The size recorded for a window is the 12-bit field, which it holds (R211). -/
theorem windowOpened_rxSize (base r : Word) (pend : Bool) (s : State) :
    (windowOpened base r pend s).hif.rxSize.toNat = sizeOf12 s.params r := by
  show (BitVec.ofNat 12 (sizeOf12 s.params r)).toNat = _
  rw [BitVec.toNat_ofNat]
  exact Nat.mod_eq_of_lt (Nat.mod_lt _ (by decide))

/-- A record behind the 8 bytes of the header lies inside the window if the window is long enough and the address does
not wrap (R218). -/
theorem inWindow_behind_header {s : State} {base r : Word} {pend : Bool} {n : Nat} (hn : 8 + n ≤ sizeOf12 s.params r)
    (hb : base.toNat + 8 < 2 ^ 32) : inWindow (windowOpened base r pend s).hif (base + 8) n := by
  have ha : (base + 8).toNat = base.toNat + 8 := by
    rw [BitVec.toNat_add]
    exact Nat.mod_eq_of_lt hb
  have hbase : (windowOpened base r pend s).hif.rxAddr = base := rfl
  have hsize := windowOpened_rxSize base r pend s
  rw [inWindow, hbase, hsize, ha]
  exact ⟨rfl, by omega, by omega, by omega⟩

/-- A record behind the 8 bytes of the header leaves a window that is too short for both, also where the address wraps
(R218). -/
theorem not_inWindow_behind_header {s : State} {base r : Word} {pend : Bool} {n : Nat}
    (hn : sizeOf12 s.params r < 8 + n) : ¬inWindow (windowOpened base r pend s).hif (base + 8) n := by
  have ha : (base + 8).toNat = (base.toNat + 8) % 2 ^ 32 := BitVec.toNat_add ..
  have hbase : (windowOpened base r pend s).hif.rxAddr = base := rfl
  have hsize := windowOpened_rxSize base r pend s
  have hlt := base.isLt
  rw [inWindow, hbase, hsize, ha]
  omega

section
variable {s : State} {i : Instr} {flag : Bool} {length : Half} {b : Bytes} {r base w : Word} {ev : List BusEvent}
  {rest : List (Option Byte)}

/-- A packet with an accept event, received: the event has one of its outcomes, and one that is taken is offered to the
subscribers (R215, R274). -/
theorem acceptRow_event {addr : SockAddr} {listenSock connSock : BitVec 8} {extra : Half} {taken : Bool} {k : Sockets}
    (hi : hifRow groupIp 0x43 (.inbound flag length) = some i)
    (hcb : s.hif.cb[groupIp.toNat]'groupIp.isLt = some .socket) (hs : WorkerReady s)
    (hn : (s.hif.subs.map (·.id)).Nodup) (hl : sizeOf12 s.params r ≤ length.toNat + 4)
    (hb : b.length = recSize s.params .acceptReply) (hlen : 8 + recSize s.params .acceptReply ≤ length.toNat)
    (hsize : 8 + recSize s.params .acceptReply ≤ sizeOf12 s.params r) (hbase : base.toNat + 8 < 2 ^ 24)
    (hdec : decRec s.params .acceptReply b = .accept addr listenSock connSock extra)
    (h : AcceptOutcome s addr listenSock connSock extra taken k)
    (ha : Answers s
      (isrAccesses s.params r ++ [.read s.params.regHifRxBase base] ++
        .readBlock ((base + 8).setWidth 24) b :: rxDoneAccesses s.params true w) ev rest) :
    ∃ t, exec i s = .next t ∧
      Returned
        (workerIdle
          (let u := (windowOpened base r false (newTask s)).mapSock fun _ => k
          if taken then
            offered ⟨groupIp, 0x43 ||| (if flag then 0x80 else 0x00), .reply (.accept addr listenSock connSock extra)⟩ u
          else u))
        (taskOf s) (.ok .unit) ev rest t := by
  have haddr : (base + 8).toNat < 2 ^ 24 := by
    rw [BitVec.toNat_add]
    exact Nat.lt_of_le_of_lt (Nat.mod_le _ _) hbase
  have hret := inbound_returned (pl := if taken then some (.reply (.accept addr listenSock connSock extra)) else none)
    (pend := false) (defer := false) (f := fun _ => k) (w := w) hi hcb hs hn (by omega) hl (fun u hu hsock hroot => by
      rw [sockCb_accept]
      refine cbAccept_serves workerGo_agrees s.params w (due := true) ?_ hb (by omega) ?_ haddr ?_ hdec
        (h.congr hsock hroot)
      · rw [hu]; exact hs.session.ready.1
      · rw [hu]; exact inWindow_behind_header hsize (by omega)
      · rw [hu]; rfl) (by simpa [rxDoneAccesses] using ha)
  cases taken <;> cases flag <;> exact hret

/-- A packet too short for its record, or whose record leaves the window, is released unread (R216, R270). -/
theorem acceptRow_short (hi : hifRow groupIp 0x43 (.inbound flag length) = some i)
    (hcb : s.hif.cb[groupIp.toNat]'groupIp.isLt = some .socket) (hs : WorkerReady s)
    (hn : (s.hif.subs.map (·.id)).Nodup) (hl : sizeOf12 s.params r ≤ length.toNat + 4) (h0 : sizeOf12 s.params r ≠ 0)
    (h : length.toNat < 8 + recSize s.params .acceptReply ∨ sizeOf12 s.params r < 8 + recSize s.params .acceptReply)
    (ha : Answers s
      (isrAccesses s.params r ++ [.read s.params.regHifRxBase base] ++ rxDoneAccesses s.params true w) ev rest) :
    ∃ t, exec i s = .next t ∧
      Returned (workerIdle (windowOpened base r false (newTask s))) (taskOf s) (.ok .unit) ev rest t :=
  inbound_returned (pl := none) (pend := true) (defer := false) (f := fun k => k) (xs := []) hi hcb hs hn h0 hl
    (fun u hu _ _ => by
      rw [sockCb_accept]
      have hserve := cbAccept_nothing workerGo_agrees s.params (length := (length.toNat : Int) - 8) (address := base + 8)
        (s := u) (by rw [hu]; exact hs.session.ready.1)
        (h.imp (fun h => by omega) fun h => by rw [hu]; exact not_inWindow_behind_header h)
      refine hserve.congr ?_
      have hpend : u.hif.rxPend = true := by rw [hu]; rfl
      simp only [State.mapHif, State.mapSock, ← hpend]) ha

end

/-- Settles O58: the callback by the outcome of its event, the row by `inbound_returned` around the callback. -/
theorem acceptEventAllocatesTheSlot : Obligations.AcceptEventAllocatesTheSlot := by
  refine ⟨fun s address w length b ev rest addr listenSock connSock extra taken k hr hbus _ hw ha hb hl hdec h hans => ?_,
    fun s i flag length b r base w ev rest addr listenSock connSock extra taken k hi hcb hs hn hl => ⟨?_, ?_⟩⟩
  · exact (cbAccept_serves workerGo_agrees s.params w hr hb hl hw ha rfl hdec h).eval hbus hans
  · exact fun hb hlen hsize hbase hdec h hans => acceptRow_event hi hcb hs hn hl hb hlen hsize hbase hdec h hans
  · exact fun h0 h hans => acceptRow_short hi hcb hs hn hl h0 h hans

end Sys2Proof.Machine

/-!
PROOFS. The callers' buffers (spec/20_memory.md): what `Receive` refuses, what `Recv` and `RecvFrom` pull out of a
slot's window, and operands without a meaning.
-/

namespace Sys2Proof.Machine

/-! ### Programs of a caller -/

/-- The end of an action without hand-over choices: an expiry it did not take is gone. -/
theorem endAction_eq_unfired {s : State} (hy : s.env.yields = []) :
    endAction s = s.mapEnv fun e => { e with fired := false } := by
  simp only [endAction, State.mapEnv, hy, List.tail_nil]

/-- Whether the expiry flag is up does not matter to how a call ended (log 19). -/
theorem Ends.of_unfired {i : Instr} {s u : State} {r : Result} {b : Bool}
    (h : Ends i s r (u.mapEnv fun e => { e with fired := b })) : Ends i s r u := h

section
variable {id : Nat} {s t u : State}

/-- An action that only looks. -/
theorem Runs.look {α : Type} {a : Action} {k : Val → Prog α} {v : Val} {r : α}
    (hp : perform a (.caller id) s = (some v, s)) (hy : s.env.yields = []) (hf : s.env.fired = false)
    (h : Runs id (k v) s r u) : Runs id (.act a k) s r u :=
  Runs.act hp hy (by rwa [endAction_eq hy hf])

/-- The last action of a program. -/
theorem Runs.last {α : Type} {a : Action} {v : Val} (r : α) (hp : perform a (.caller id) s = (some v, t))
    (hy : s.env.yields = []) : Runs id (.andThen a (.ret r)) s r (t.mapEnv fun e => { e with fired := false }) := by
  have hty : t.env.yields = [] := by
    have hframe := (perform_frame a (.caller id) s).yields
    rw [hp] at hframe
    rw [hframe, hy]
  refine Runs.andThen hp hy ?_
  rw [endAction_eq_unfired hty]
  exact Runs.ret r _

/-- A body that ends in an error leaves the lent span free (R178, U7; log 6). -/
theorem Runs.scrambleOnError_error {α : Type} {sp : Span} {p : Prog (Except Err α)} {e : Err}
    (h : Runs id p s (.error e) t) (hy : s.env.yields = []) :
    Runs id (scrambleOnError sp p) s (.error e) ((scrambleSpan sp t).mapEnv fun e => { e with fired := false }) :=
  Runs.bind h (Runs.last (v := .unit) (Except.error e) rfl (h.yields hy))

end

/-! ### `Receive` outside the window (R71, R218, R329) -/

/-- The window refuses a range: validity, then length, then range is tested, each with its error (R218, R329). -/
inductive Refuses (h : Hif) (address : Word) (n : Nat) : Err → Prop where
  | absent (hv : h.rxValid = false) : Refuses h address n .badMemoryAlloc
  | tooLong (hv : h.rxValid = true) (hl : h.rxSize.toNat < n) : Refuses h address n .messageTooLong
  | outside (hv : h.rxValid = true) (hl : n ≤ h.rxSize.toNat)
      (hr : address.toNat < h.rxAddr.toNat ∨ h.rxAddr.toNat + h.rxSize.toNat < address.toNat + n) :
      Refuses h address n .badMemoryAlloc

/-- A range that is not inside the window is refused. -/
theorem exists_refuses {h : Hif} {address : Word} {n : Nat} (hw : ¬inWindow h address n) :
    ∃ e, Refuses h address n e := by
  cases hv : h.rxValid with
  | false => exact ⟨_, .absent hv⟩
  | true =>
    by_cases hl : h.rxSize.toNat < n
    · exact ⟨_, .tooLong hv hl⟩
    · refine ⟨_, .outside hv (by omega) ?_⟩
      by_contra hr
      exact hw ⟨hv, by omega, by omega, by omega⟩

/-- A refused range ends the tests of `Receive` in its error; nothing has changed (R218, R329). -/
theorem Runs.rxChecked_refused {α : Type} {id : Nat} {s : State} {address : Word} {n : Nat} {e : Err}
    (body : Prog (Except Err α)) (h : Refuses s.hif address n e) (hy : s.env.yields = []) (hf : s.env.fired = false) :
    Runs id (rxChecked address n body) s (.error e) s := by
  refine Runs.look (v := .flag s.hif.rxValid) rfl hy hf ?_
  cases h with
  | absent hv =>
    rw [hv]
    exact Runs.raise _ s
  | tooLong hv hl =>
    rw [hv]
    refine Runs.look (v := .flag (rxTooLong s.hif n)) rfl hy hf ?_
    rw [show rxTooLong s.hif n = true from decide_eq_true hl]
    exact Runs.raise _ s
  | outside hv hl hr =>
    rw [hv]
    refine Runs.look (v := .flag (rxTooLong s.hif n)) rfl hy hf ?_
    rw [show rxTooLong s.hif n = false from decide_eq_false (by omega)]
    refine Runs.look (v := .flag (rxOutside s.hif address n)) rfl hy hf ?_
    rw [show rxOutside s.hif address n = true by simpa [rxOutside] using hr]
    exact Runs.raise _ s

/-- `Receive` of a refused range: its error, no byte over the bus, nothing changed (R218, R329). -/
theorem Runs.receive_refused {id : Nat} {s : State} {address : Word} {n : Nat} {e : Err} (p : Params) (done : Bool)
    (into : Option Span) (hr : s.hif.state = .ready) (h : Refuses s.hif address n e) (hy : s.env.yields = [])
    (hf : s.env.fired = false) : Runs id (receive p address n done into) s (.error e) s := by
  refine Runs.look (v := .flag (decide (s.hif.state = .ready))) rfl hy hf ?_
  rw [hr]
  exact Runs.rxChecked_refused _ h hy hf

/-- Settles O37: the run of `Receive` by the test that fails, then the span freed. -/
theorem receiveChecksTheWindow : Obligations.ReceiveChecksTheWindow := by
  intro s address buf done e hr hy hm h
  have hrefuses : Refuses s.hif address buf.len e := by
    rcases h with ⟨hv, rfl⟩ | ⟨hv, hl, rfl⟩ | ⟨hv, hl, ho, rfl⟩
    · exact .absent hv
    · exact .tooLong hv hl
    · exact .outside hv hl ho
  have hrun : Runs (taskOf s) (receiveProg s.params address buf done) (newTask s) (.error e)
      ((scrambleSpan buf (newTask s)).mapEnv fun v => { v with fired := false }) :=
    Runs.scrambleOnError_error
      (Runs.noValue_error (Runs.tryBind_error (Runs.receive_refused _ _ _ hr.1 hrefuses hy rfl))) hy
  have hexec : exec (.opHifReceive address buf done) s =
      startTask (.opHifReceive address buf done) (receiveProg s.params address buf done) s := whenReady_ready hr _
  exact ⟨_, _, (Ends.of_runs hexec hrun).of_unfired, scrambleSpan_spared (s := newTask s) hm buf⟩

/-! ### A slot under its lock (R253) -/

/-- A slot changed under its lock: behind the release, the change alone is left. -/
theorem Sockets.setSlot_under_lock {k : Sockets} {i : Fin 11} {ag : Agent} {f : Slot → Slot}
    (h : (k.slot i).lock = .free) (hf : ∀ x l, f { x with lock := l } = { f x with lock := l }) :
    ((k.setSlot i fun x => { x with lock := .held ag }).setSlot i fun x => { f x with lock := (f x).lock.drop ag }) =
      k.setSlot i f := by
  have hkeep : f (k.slot i) = { f (k.slot i) with lock := .free } := by rw [← hf, ← h]
  rw [Sockets.setSlot_setSlot]
  refine Sockets.setSlot_congr ?_
  rw [hf (k.slot i) (.held ag)]
  simp only [Lock.drop, if_true]
  exact hkeep.symm

/-- A slot entered, changed and left: the change alone is left (R253). -/
theorem changed_entered {k : Fin 11} {s : State} {f : Slot → Slot} (hs : SlotReady k s)
    (hf : ∀ x l, f { x with lock := l } = { f x with lock := l }) :
    changed k (taskOf s) f (entered k s) = (newTask s).mapSock fun q => q.setSlot k f :=
  congrArg (fun q => (newTask s).mapSock fun _ => q) (Sockets.setSlot_under_lock hs.lock hf)

/-- A slot changed, then left: changed and left (R253). -/
theorem changed_setSlot (k : Fin 11) (id : Nat) (f : Slot → Slot) (s : State) :
    changed k id (fun x => x) (s.mapSock fun q => q.setSlot k f) = changed k id f s :=
  congrArg (fun q => s.mapSock fun _ => q) (Sockets.setSlot_setSlot s.sock k f _)

/-- The caller that has entered a slot holds it (R253). -/
theorem entered_holds {k : Fin 11} {s : State} (hs : SlotReady k s) : Holds k (taskOf s) (entered k s) := by
  rw [Holds, entered_slot]
  exact ⟨hs.inUse, hs.desc, rfl⟩

/-- Who holds a slot that is in use under its own descriptor may change it (R72, R287). -/
theorem Holds.owns {k : Fin 11} {id : Nat} {s : State} (h : Holds k id s) : s.sock.owns (.caller id) k = true := by
  obtain ⟨hu, hd, hl⟩ := h
  simp [Sockets.owns, Sockets.valid, hu, hd, hl]

/-- A slot changed by its holder (R255 to R262, R264). -/
theorem Holds.perform_updSlot {k : Fin 11} {id : Nat} {s : State} (h : Holds k id s) (f : SlotUpd) :
    perform (.updSlot k f) (.caller id) s = (some .unit, s.mapSock fun q => q.setSlot k f.apply) := by
  simp only [perform, doUpdSlot, h.owns, if_true]

/-- Sequencing where what follows makes no access. -/
theorem Serves.bindLast {go : Action → State → Option Val × State} {α β : Type} {p : Prog α} {f : α → Prog β}
    {xs : List Access} {a : α} {b : β} {g h : State → State} {s : State} (hh : Respects h) (hp : Serves go p xs a g s)
    (hf : ∀ u, After (g s) u → Serves go (f a) [] b h u) : Serves go (p.bind f) xs b (fun s => h (g s)) s := by
  have hbind := Serves.bind hh hp hf
  rwa [List.append_nil] at hbind

/-- An operation on a slot that is served: entered, its body, left (R253). -/
theorem perSlot_serves {k : Fin 11} {s : State} {body : Fin 11 → Prog (Except Err Value)} {xs : List Access}
    {r : Except Err Value} {g : State → State} (hs : SlotReady k s) (hg : Respects g)
    (hb : ∀ u, After (entered k s) u → Serves (callerGo (taskOf s)) (body k) xs r g u) :
    Serves (callerGo (taskOf s)) (Machine.perSlot k.val body) xs r
      (fun t => changed k (taskOf s) (fun x => x)
        (g (t.mapSock fun q => q.setSlot k fun x => { x with lock := .held (.caller (taskOf s)) }))) (newTask s) := by
  have hleave : Respects (changed k (taskOf s) fun x => x) := Respects.mapSock _
  have hlock : perform (.lockSlot k) (.caller (taskOf s)) (newTask s) = (some .unit, entered k s) := by
    simp only [perform, doLockSlot, newTask_sock, hs.lock, Lock.take]
    rfl
  rw [Machine.perSlot, slotIx_fin]
  refine Serves.update (callerGo_agrees _) (h := fun t => changed k (taskOf s) (fun x => x) (g t)) (hg.comp hleave)
    hlock rfl rfl (fun h => ⟨h.lock, h.idle, h.limit, h.yields⟩) fun u hu => ?_
  refine Serves.look (callerGo_agrees _) (hg.comp hleave) (v := .flag (u.sock.valid k)) rfl fun v hv => ?_
  have hvalid : u.sock.valid k = true := by
    have hown := (entered_holds hs).owns
    simp only [Sockets.owns, Bool.and_eq_true] at hown
    rw [hu.sock]
    exact hown.1
  rw [hvalid]
  exact Serves.bindLast hleave (hb v (hu.trans hv)) fun w _ =>
    Serves.update (callerGo_agrees _) (g := changed k (taskOf s) fun x => x) (v := .unit) Respects.id rfl rfl rfl
      (fun h => ⟨h.lock, h.idle, h.limit, h.yields⟩) fun x _ => Serves.ret r x

/-- An operation on a slot that ends in an error, its caller's span free afterwards (R253, U7; log 6). -/
theorem Ends.perSlot_scrambled {i : Instr} {k : Fin 11} {s s1 : State} {sp : Span}
    {body : Fin 11 → Prog (Except Err Value)} {e : Err}
    (he : exec i s = whenLive s (startTask i (scrambleOnError sp (Machine.perSlot k.val body)) s)) (hs : SlotReady k s)
    (h : Runs (taskOf s) (body k) (entered k s) (.error e) s1) :
    Ends i s (.err e) (scrambleSpan sp (changed k (taskOf s) (fun x => x) s1)) := by
  obtain ⟨b, hslot⟩ := Runs.perSlot hs h
  exact (Ends.of_runs (he.trans (whenLive_live hs.live hs.ready _))
    (Runs.scrambleOnError_error hslot hs.yields)).of_unfired

/-! ### `Recv` and `RecvFrom` (R262, R263) -/

/-- `Recv` and `RecvFrom` between entering the slot and leaving it: the opcode they ask the device with, and the value
they answer, are all they differ in (R262, R263). -/
def receiving (p : Params) (op : Slot → Byte) (answer : Nat × SockAddr → Value) (buf : Span) (deadline : Word)
    (k : Fin 11) : Prog (Except Err Value) :=
  .act (.getSlot k) fun v =>
    (recvBody p k (op v.toSlot) buf deadline (v.toSlot.rxRem != 0)).tryBind fun r => .ret (.ok (answer r))

/-- `Recv` asks under the plain or the SSL opcode, and answers the count (R262). -/
theorem exec_opRecv (i : Int) (buf : Span) (deadline : Word) (s : State) :
    exec (.opRecv i buf deadline) s =
      whenLive s (startTask (.opRecv i buf deadline)
        (scrambleOnError buf (perSlot i
          (receiving s.params (fun x => pickOpcode x.ssl 0x46 0x4D) (fun r => .count r.1) buf deadline))) s) := rfl

/-- `RecvFrom` answers the sender beside the count (R263). -/
theorem exec_opRecvFrom (i : Int) (buf : Span) (deadline : Word) (s : State) :
    exec (.opRecvFrom i buf deadline) s =
      whenLive s (startTask (.opRecvFrom i buf deadline)
        (scrambleOnError buf (perSlot i
          (receiving s.params (fun _ => 0x48) (fun r => .countFrom r.1 r.2) buf deadline))) s) := rfl

/-- With bytes resident no request is sent: the pull follows (R262). -/
theorem recvBody_resident {p : Params} {op : Byte} {buf : Span} {deadline : Word} {k : Fin 11} {x : Slot}
    (hx : x.rxRem ≠ 0) : recvBody p k op buf deadline (x.rxRem != 0) = pullWindow p k buf := by
  rw [recvBody, if_pos (by simpa using hx)]

/-- The pull of `n` bytes, the slot having been read (R262). -/
def pullBytes (p : Params) (k : Fin 11) (base : Nat) (x : Slot) (n : Nat) : Prog (Except Err (Nat × SockAddr)) :=
  (receive p x.rxAddr n (n = x.rxRem.toNat) (some ⟨base, n⟩)).bind fun r =>
    match r with
    | .error _ => .andThen (.updSlot k .noWindow) (raise .socketInvalid)
    | .ok _ => .andThen (.updSlot k (.pulled n)) (.ret (.ok (n, x.rxFrom)))

theorem pullWindow_eq (p : Params) (k : Fin 11) (buf : Span) :
    pullWindow p k buf =
      .act (.getSlot k) fun v => pullBytes p k buf.base v.toSlot (min buf.len v.toSlot.rxRem.toNat) := rfl

/-- A pull that `Receive` fails: nothing is resident any more (R78, R262). -/
theorem Runs.pullBytes_error {id : Nat} {p : Params} {k : Fin 11} {base n : Nat} {x : Slot} {s s1 : State} {e : Err}
    (hy : s.env.yields = []) (hh : Holds k id s1)
    (h : Runs id (receive p x.rxAddr n (n = x.rxRem.toNat) (some ⟨base, n⟩)) s (.error e) s1) :
    Runs id (pullBytes p k base x n) s (.error .socketInvalid)
      ((s1.mapSock fun q => q.setSlot k fun y => { y with rxRem := 0 }).mapEnv fun v => { v with fired := false }) :=
  Runs.bind h (Runs.last (Except.error _) (hh.perform_updSlot .noWindow) (h.yields hy))

/-- A pull of resident bytes that fails ends the call in `ErrSocketInvalid`: the slot has nothing resident and is left,
the caller's span is free (R78, R262, R263; log 6). -/
theorem Ends.receiving_failed {i : Instr} {k : Fin 11} {s s1 : State} {op : Slot → Byte}
    {answer : Nat × SockAddr → Value} {buf : Span} {deadline : Word} {x : Slot} {n : Nat} {e : Err}
    (he : exec i s = whenLive s
      (startTask i (scrambleOnError buf (Machine.perSlot k.val (receiving s.params op answer buf deadline))) s))
    (hs : SlotReady k s) (hx : s.sock.slot k = x) (hres : x.rxRem ≠ 0) (hn : min buf.len x.rxRem.toNat = n)
    (hh : Holds k (taskOf s) s1)
    (h : Runs (taskOf s) (receive s.params x.rxAddr n (n = x.rxRem.toNat) (some ⟨buf.base, n⟩)) (entered k s) (.error e)
      s1) :
    Ends i s (.err .socketInvalid)
      (scrambleSpan buf (changed k (taskOf s) (fun y => { y with rxRem := 0 }) s1)) := by
  subst hx hn
  have hbody : Runs (taskOf s) (receiving s.params op answer buf deadline k) (entered k s) (.error .socketInvalid)
      ((s1.mapSock fun q => q.setSlot k fun y => { y with rxRem := 0 }).mapEnv fun v => { v with fired := false }) := by
    refine Runs.getSlot hs.yields rfl (Runs.tryBind_error ?_)
    rw [Val.toSlot, entered_slot, recvBody_resident hres, pullWindow_eq]
    refine Runs.getSlot hs.yields rfl ?_
    rw [Val.toSlot, entered_slot]
    exact Runs.pullBytes_error hs.yields hh h
  rw [← changed_setSlot]
  exact (Ends.perSlot_scrambled he hs hbody).of_unfired

/-- The bytes `d` can be pulled for a buffer of `len` bytes: they are as many as fit, and the advertised window covers
them; `due` is whether RX-done is given behind them (R218, R262). -/
structure Pullable (h : Hif) (x : Slot) (len : Nat) (d : Bytes) (due : Bool) : Prop where
  resident : x.rxRem ≠ 0
  count : d.length = min len x.rxRem.toNat
  window : inWindow h x.rxAddr d.length
  address : x.rxAddr.toNat < 2 ^ 24
  done : rxDoneDue h x.rxAddr d.length (d.length = x.rxRem.toNat) = due

/-- The accesses of a pull (R218, R219). -/
def pullAccesses (p : Params) (x : Slot) (d : Bytes) (due : Bool) (w : Word) : List Access :=
  (if d = [] then [] else [.readBlock (x.rxAddr.setWidth 24) d]) ++ rxDoneAccesses p due w

/-- What a pull leaves: the span filled, RX-done no longer pending where it was given, the slot's window moved on
(R218, R262). -/
def pulledState (k : Fin 11) (base : Nat) (d : Bytes) (due : Bool) (s : State) : State :=
  ((fillSpan ⟨base, d.length⟩ d s).mapHif fun h => { h with rxPend := h.rxPend && !due }).mapSock fun q =>
    q.setSlot k (SlotUpd.pulled d.length).apply

theorem Respects.pulledState (k : Fin 11) (base : Nat) (d : Bytes) (due : Bool) :
    Respects (pulledState k base d due) := by
  have hfill : Respects (fillSpan ⟨base, d.length⟩ d) := Respects.memory fun m => memWriteBytes m base (d.take d.length)
  exact (hfill.comp (Respects.mapHif fun h => { h with rxPend := h.rxPend && !due })).comp (Respects.mapSock _)

section
variable {id : Nat} {k : Fin 11} {x : Slot} {buf : Span} {d : Bytes} {due : Bool} {s : State}

/-- A pull of bytes the window covers (R218, R262). -/
theorem pullBytes_serves (p : Params) (w : Word) (h : Pullable s.hif x buf.len d due) (hh : Holds k id s)
    (hr : s.hif.state = .ready) :
    Serves (callerGo id) (pullBytes p k buf.base x d.length) (pullAccesses p x d due w) (.ok (d.length, x.rxFrom))
      (pulledState k buf.base d due) s := by
  have hgo := callerGo_agrees id
  refine Serves.bindLast (h := fun t => t.mapSock fun q => q.setSlot k (SlotUpd.pulled d.length).apply)
    (Respects.mapSock _) (receive_into_serves hgo p w ⟨buf.base, d.length⟩ hr h.window h.address h.done) fun u hu => ?_
  have hhu : Holds k id u := by
    rw [Holds, hu.sock]
    exact hh
  exact Serves.update hgo Respects.id (hhu.perform_updSlot (.pulled d.length)) rfl rfl
    (fun hb => ⟨hb.lock, hb.idle, hb.limit, hb.yields⟩) fun v _ => Serves.ret _ v

/-- `Recv` and `RecvFrom` in a slot whose resident bytes can be pulled: the pull, and no request (R262, R263). -/
theorem receiving_serves (p : Params) (op : Slot → Byte) (answer : Nat × SockAddr → Value) (deadline w : Word)
    (hx : s.sock.slot k = x) (h : Pullable s.hif x buf.len d due) (hh : Holds k id s) (hr : s.hif.state = .ready) :
    Serves (callerGo id) (receiving p op answer buf deadline k) (pullAccesses p x d due w)
      (.ok (answer (d.length, x.rxFrom))) (pulledState k buf.base d due) s := by
  have hgo := callerGo_agrees id
  have hpulled := Respects.pulledState k buf.base d due
  refine Serves.look hgo hpulled (v := .slot x) (by rw [← hx]; rfl) fun u hu => ?_
  rw [Val.toSlot, recvBody_resident h.resident, pullWindow_eq]
  refine Serves.bindLast (g := pulledState k buf.base d due) (h := fun t => t) (a := Except.ok (d.length, x.rxFrom))
    Respects.id ?_ fun v _ => Serves.ret _ v
  refine Serves.look hgo hpulled (v := .slot x) (by rw [← hx, ← hu.sock]; rfl) fun v hv => ?_
  have huv := hu.trans hv
  rw [Val.toSlot, ← h.count]
  refine pullBytes_serves p w (by rwa [huv.hif]) ?_ (by rwa [huv.hif])
  rw [Holds, huv.sock]
  exact hh

/-- A slot entered, pulled from and left: the pull alone is left. -/
theorem changed_pulledState (hs : SlotReady k s) (base : Nat) (d : Bytes) (due : Bool) :
    changed k (taskOf s) (fun x => x) (pulledState k base d due (entered k s)) = pulledState k base d due (newTask s) :=
  (changed_setSlot k _ _ _).trans <|
    congrArg
      (fun q => ((fillSpan ⟨base, d.length⟩ d (newTask s)).mapHif fun h =>
        { h with rxPend := h.rxPend && !due }).mapSock fun _ => q)
      (Sockets.setSlot_under_lock hs.lock fun _ _ => rfl)

/-- `Recv` and `RecvFrom` whose resident bytes can be pulled, against a device that answers (R262, R263). -/
theorem Returned.receiving {i : Instr} {op : Slot → Byte} {answer : Nat × SockAddr → Value} {deadline w : Word}
    {ev : List BusEvent} {rest : List (Option Byte)}
    (he : exec i s = whenLive s
      (startTask i (scrambleOnError buf (Machine.perSlot k.val (receiving s.params op answer buf deadline))) s))
    (hs : SlotReady k s) (hbus : BusReady s) (h : Pullable s.hif (s.sock.slot k) buf.len d due)
    (hans : Answers s (pullAccesses s.params (s.sock.slot k) d due w) ev rest) :
    ∃ t, exec i s = .next t ∧
      Returned (pulledState k buf.base d due (newTask s)) (taskOf s)
        (.ok (answer (d.length, (s.sock.slot k).rxFrom))) ev rest t := by
  have hslot := perSlot_serves (body := Machine.receiving s.params op answer buf deadline) hs
    (Respects.pulledState k buf.base d due) fun u hu =>
      receiving_serves (x := { s.sock.slot k with lock := .held (.caller (taskOf s)) }) s.params op answer deadline w
        ((congrArg (·.slot k) hu.sock).trans (entered_slot k s))
        ⟨h.resident, h.count, by rw [hu.hif]; exact h.window, h.address, by rw [hu.hif]; exact h.done⟩
        (by rw [Holds, hu.sock]; exact entered_holds hs) (by rw [hu.hif]; exact hs.ready.1)
  have hcall : Serves (callerGo (taskOf s)) (scrambleOnError buf (Machine.perSlot k.val _)) _ _ _ (newTask s) :=
    Serves.bindLast Respects.id hslot fun u _ => Serves.ret _ u
  have hret := Returned.of_serves (he.trans (whenLive_live hs.live hs.ready _)) hbus hans hcall
  rw [← changed_pulledState hs]
  exact hret

end

/-- A byte string written into memory fills the span of its length. -/
theorem filled_memWriteBytes {m : List Host.Cell} (h : Memory.wf m = true) (base : Nat) (d : Bytes) :
    Filled m (memWriteBytes m base d) ⟨base, d.length⟩ d where
  wf := Memory.wf_memWriteBytes d m base h
  outside := fun x hx => memRead_memWriteBytes_of_out d m base x h hx
  span := memReadBytes_memWriteBytes d m base h

/-- Settles O51: `Recv` and `RecvFrom` are one program, `receiving`; the pull by `pullBytes_serves`, and a pull that
`Receive` refuses is one that it fails. -/
theorem recvPullsResidentBytes : Obligations.RecvPullsResidentBytes := by
  constructor
  · intro s k buf deadline w d ev rest hs hbus hm x n hres hw ha hd due hans i v hi
    have hpull : Pullable s.hif x buf.len d due := ⟨hres, hd, hd ▸ hw, ha, by rw [hd]; rfl⟩
    have hfilled : Filled s.mem (memWriteBytes s.mem buf.base (d.take d.length)) ⟨buf.base, n⟩ d := by
      rw [List.take_length, ← hd]
      exact filled_memWriteBytes hm buf.base d
    rw [← hd] at hi hfilled ⊢
    rcases hi with ⟨rfl, rfl⟩ | ⟨rfl, rfl⟩
    · obtain ⟨t, ht, hret⟩ := Returned.receiving (exec_opRecv k.val buf deadline s) hs hbus hpull hans
      exact ⟨t, _, ht, hret, hfilled⟩
    · obtain ⟨t, ht, hret⟩ := Returned.receiving (exec_opRecvFrom k.val buf deadline s) hs hbus hpull hans
      exact ⟨t, _, ht, hret, hfilled⟩
  · intro s s1 k buf deadline e i hs x n hres hi
    have hfails : ∀ {e : Err} {s1 : State}, Runs (taskOf s)
        (receive s.params x.rxAddr n (decide (n = x.rxRem.toNat)) (some ⟨buf.base, n⟩)) (entered k s) (.error e) s1 →
        Holds k (taskOf s) s1 →
        Ends i s (.err .socketInvalid)
          (scrambleSpan buf (changed k (taskOf s) (fun y => { y with rxRem := 0 }) s1)) := by
      intro e s1 hrun hh
      rcases hi with rfl | rfl
      · exact Ends.receiving_failed (exec_opRecv k.val buf deadline s) hs rfl hres rfl hh hrun
      · exact Ends.receiving_failed (exec_opRecvFrom k.val buf deadline s) hs rfl hres rfl hh hrun
    refine ⟨hfails, fun hw => ?_⟩
    obtain ⟨e, hrefuses⟩ := exists_refuses hw
    rw [← changed_entered hs fun _ _ => rfl]
    exact hfails (Runs.receive_refused _ _ _ hs.ready.1 hrefuses hs.yields rfl) (entered_holds hs)

/-! ### Operands without a meaning (R61, R66, R107, R181) -/

/-- A frame is not built of operands outside its range (section 2 of spec/40_framer.md). -/
theorem buildRow_outOfRange {c : Cmd} (i : Instr) (s : State) (h : c.inRange = false) :
    buildRow i c s = .refused .operandRange := by
  rw [buildRow, h, if_neg Bool.false_ne_true]

/-- A chunk by itself is neither empty nor longer than `PKT_LIMIT` (log 11). -/
theorem tagRow_badSize {d : Bytes} {s : State} (i : Instr) (seq : BitVec 4) (hr : Ready s)
    (h : d.length = 0 ∨ s.fr.pktLimit < d.length) : tagRow i seq d s = .refused .blockSize := by
  rw [tagRow, whenReady_ready hr, if_pos h]

/-- No transport operation has an address of `2^24` or more (R61). -/
theorem whenAddr_outOfRange {s : State} {addr : Word} (hr : Ready s) (ha : 2 ^ 24 ≤ addr.toNat)
    (r : Host.Outcome State Fault Refusal) : whenAddr s addr r = .refused .operandRange := by
  rw [whenAddr, whenReady_ready hr, if_neg (by simpa [addrInRange] using ha)]

theorem whenAddr_inRange {s : State} {addr : Word} (hr : Ready s) (ha : addr.toNat < 2 ^ 24)
    (r : Host.Outcome State Fault Refusal) : whenAddr s addr r = r := by
  rw [whenAddr, whenReady_ready hr, if_pos (by simpa [addrInRange] using ha)]

/-- A block of no byte, or of `2^24` bytes or more, is not read (R66, R181). -/
theorem execReadBlock_badSize {s : State} {addr : Word} {buf : Span} (hr : Ready s) (ha : addr.toNat < 2 ^ 24)
    (h : buf.len = 0 ∨ 2 ^ 24 ≤ buf.len) : execReadBlock addr buf s = .refused .blockSize := by
  rw [execReadBlock, whenAddr_inRange hr ha, if_pos h]

/-- A block of no byte is not written (R181). -/
theorem execWriteBlock_empty {s : State} {addr : Word} {buf : Span} (hr : Ready s) (ha : addr.toNat < 2 ^ 24)
    (h : buf.len = 0) : execWriteBlock addr buf s = .refused .blockSize := by
  rw [execWriteBlock, whenAddr_inRange hr ha, if_pos h]

/-- Piece number `k` of a block starts at `2^24` or beyond: so does the last piece (R61, R180). -/
theorem piecesInRange_eq_false {addr : Word} {n k : Nat} (hk : busMtu * k < n) (ha : 2 ^ 24 ≤ addr.toNat + busMtu * k) :
    piecesInRange addr n = false := by
  have hlast : k ≤ (n - 1) / busMtu := by
    rw [Nat.le_div_iff_mul_le (by decide), Nat.mul_comm]
    omega
  have hstart : busMtu * k ≤ busMtu * ((n - 1) / busMtu) := Nat.mul_le_mul_left _ hlast
  exact decide_eq_false (by omega)

/-- A block with such a piece is refused whole (log 13). -/
theorem execWriteBlock_outOfRange {s : State} {addr : Word} {buf : Span} {k : Nat} (hr : Ready s)
    (ha : addr.toNat < 2 ^ 24) (hk : busMtu * k < buf.len) (hp : 2 ^ 24 ≤ addr.toNat + busMtu * k) :
    execWriteBlock addr buf s = .refused .operandRange := by
  rw [execWriteBlock, whenAddr_inRange hr ha, if_neg (by omega), piecesInRange_eq_false hk hp,
    if_neg Bool.false_ne_true]

/-- Settles O10: each row's own test of its operands. -/
theorem operandsOutOfRangeRefused : Obligations.OperandsOutOfRangeRefused := by
  intro s
  refine ⟨fun a d h => ?internalWrite, fun a h => ?internalRead, fun a n h => ?extWrite, fun a n h => ?extRead,
    fun a d h => ?singleWrite, fun a h => ?singleRead, fun d hr h => ?tags,
    fun group control data offset h => ?sslCreate, fun addr v buf hr => ⟨fun ha => ?addresses, fun ha h => ?empty,
      fun ha h => execReadBlock_badSize hr ha (.inr h), fun ha k hk hp => execWriteBlock_outOfRange hr ha hk hp⟩⟩
  case internalWrite => exact buildRow_outOfRange _ s (decide_eq_false (by omega))
  case internalRead => exact buildRow_outOfRange _ s (decide_eq_false (by omega))
  case extWrite =>
    refine buildRow_outOfRange _ s ?_
    simp only [Cmd.inRange, Bool.and_eq_false_iff, decide_eq_false_iff_not]
    omega
  case extRead => exact buildRow_outOfRange _ s (decide_eq_false (by omega))
  case singleWrite => exact buildRow_outOfRange _ s (decide_eq_false (by omega))
  case singleRead => exact buildRow_outOfRange _ s (decide_eq_false (by omega))
  case tags => exact ⟨tagRow_badSize _ _ hr h, tagRow_badSize _ _ hr h, tagRow_badSize _ _ hr h⟩
  case sslCreate => exact if_neg h
  case addresses =>
    exact ⟨whenAddr_outOfRange hr ha _, whenAddr_outOfRange hr ha _, whenAddr_outOfRange hr ha _,
      whenAddr_outOfRange hr ha _⟩
  case empty => exact ⟨execReadBlock_badSize hr ha (.inl h), execWriteBlock_empty hr ha h⟩

end Sys2Proof.Machine

/-!
SUPPORT. Proofs about requests: decoding is the left inverse of encoding (R91 to R95, R102, R105, R107), what the decoder
refuses (R98), and what a step makes of a request (R112).
-/

namespace Sys2Proof.Machine

/-! ### Byte orders (R9, R63, R64) -/

/-- Big-endian bytes read back: two (R64). -/
theorem fromBe2_be2 (v : Half) : fromBe2 (v.extractLsb' 8 8) (v.extractLsb' 0 8) = v :=
  BitVec.extractLsb'_append_extractLsb'

/-- Big-endian bytes read back: three (R64). -/
theorem fromBe3_be3 (v : BitVec 24) : fromBe3 (v.extractLsb' 16 8) (v.extractLsb' 8 8) (v.extractLsb' 0 8) = v := by
  rw [fromBe3, BitVec.append_assoc, BitVec.extractLsb'_append_extractLsb'_eq_extractLsb' (by rfl)]
  exact BitVec.extractLsb'_append_extractLsb'

/-- Little-endian bytes read back: two (R63). -/
theorem fromLe2_le2 (v : Half) : fromLe2 (v.extractLsb' 0 8) (v.extractLsb' 8 8) = v := fromBe2_be2 v

/-- Big-endian bytes read back: four (R64). -/
theorem fromBe4_be4 (v : Word) :
    fromBe4 (v.extractLsb' 24 8) (v.extractLsb' 16 8) (v.extractLsb' 8 8) (v.extractLsb' 0 8) = v := by
  have low : v.extractLsb' 8 8 ++ v.extractLsb' 0 8 = v.extractLsb' 0 16 :=
    BitVec.extractLsb'_append_extractLsb'_eq_extractLsb' rfl
  have mid : v.extractLsb' 16 8 ++ v.extractLsb' 0 16 = v.extractLsb' 0 24 :=
    BitVec.extractLsb'_append_extractLsb'_eq_extractLsb' rfl
  calc fromBe4 _ _ _ _
    _ = v.extractLsb' 24 8 ++ (v.extractLsb' 16 8 ++ (v.extractLsb' 8 8 ++ v.extractLsb' 0 8)) := by
      simp only [fromBe4, BitVec.append_assoc, BitVec.cast_eq]
    _ = v := by rw [low, mid]; exact BitVec.extractLsb'_append_extractLsb'

/-- The two address bytes of a clockless frame, read without their flag (R93, R94). -/
theorem fromBe2_clockless (a : BitVec 15) :
    (fromBe2 (1#1 ++ a.extractLsb' 8 7) (a.extractLsb' 0 8)).setWidth 15 = a := by
  have h : fromBe2 (1#1 ++ a.extractLsb' 8 7) (a.extractLsb' 0 8) = 1#1 ++ a := by
    rw [fromBe2, BitVec.append_assoc]
    exact congrArg (1#1 ++ ·) BitVec.extractLsb'_append_extractLsb'
  rw [h, BitVec.setWidth_append]
  simp

/-! ### HIF packets (R105, R107) -/

/-- The data flag covers no bit of an opcode number: bit 7 of the opcode byte is the flag (R105). -/
theorem hifOpcodeByte_flag (op : Byte) (flag : Bool) : (hifOpcodeByte op flag).getLsbD 7 = flag := by
  cases flag <;> (revert op; decide)

/-- An opcode byte is its own under the flag it carries (R105). -/
theorem hifOpcodeByte_idem (op : Byte) (flag : Bool) :
    hifOpcodeByte (hifOpcodeByte op flag) flag = hifOpcodeByte op flag := by
  rw [hifOpcodeByte, Laws.Encoding.opcode_mask]
  rfl

/-- The packet of a row is read back as that row's, in either direction (R105, R107). -/
theorem decode_encodeHif {group op : Byte} {p : HifPacket} {i : Instr} (ho : op &&& 0x7F = op)
    (hi : hifRow group op p = some i) : decode (encodeHif group op p) = .ok i := by
  have number (flag : Bool) : hifOpcodeByte op flag &&& 0x7F = op := (Laws.Encoding.opcode_mask op flag).trans ho
  cases p with
  | inbound flag length =>
    have length_eq := fromLe2_le2 length
    simp only [encodeHif, hifHeader, le2, decode, decodeInbound, List.cons_append, List.nil_append, number,
      hifOpcodeByte_flag, length_eq, hi]
  | outbound control data offset =>
    have header : hifHeader group (hifOpcodeByte op !data.isEmpty) (BitVec.ofNat 16 (hifTotal control data offset)) =
        hifHeader group (hifOpcodeByte (hifOpcodeByte op !data.isEmpty) !data.isEmpty)
          (BitVec.ofNat 16 (hifTotal control data offset)) := by rw [hifOpcodeByte_idem]
    refine (if_pos header).trans ?_
    rw [number, hi]

/-! ### Every instruction (R91 to R95, R102, R105, R107) -/

/-- Settles O1: frames by their byte orders, HIF packets by `decode_encodeHif`; a tag's low nibble is its operand, and an
operation is its own request. -/
theorem decodeEncodeAgree : Obligations.DecodeEncodeAgree := by
  intro i _
  cases i with
  | cmdDmaWrite a n => exact congrArg₂ (fun a n => Except.ok (Instr.cmdDmaWrite a n)) (fromBe3_be3 a) (fromBe2_be2 n)
  | cmdDmaRead a n => exact congrArg₂ (fun a n => Except.ok (Instr.cmdDmaRead a n)) (fromBe3_be3 a) (fromBe2_be2 n)
  | cmdInternalWrite a d =>
    exact congrArg₂ (fun a d => Except.ok (Instr.cmdInternalWrite a d)) (fromBe2_clockless a) (fromBe4_be4 d)
  | cmdInternalRead a => exact congrArg (fun a => Except.ok (Instr.cmdInternalRead a)) (fromBe2_clockless a)
  | cmdExtWrite a n => exact congrArg₂ (fun a n => Except.ok (Instr.cmdExtWrite a n)) (fromBe3_be3 a) (fromBe3_be3 n)
  | cmdExtRead a n => exact congrArg₂ (fun a n => Except.ok (Instr.cmdExtRead a n)) (fromBe3_be3 a) (fromBe3_be3 n)
  | cmdSingleWrite a d =>
    exact congrArg₂ (fun a d => Except.ok (Instr.cmdSingleWrite a d)) (fromBe3_be3 a) (fromBe4_be4 d)
  | cmdSingleRead a => exact congrArg (fun a => Except.ok (Instr.cmdSingleRead a)) (fromBe3_be3 a)
  | tagAny seq => revert seq; decide
  | hifBind | hifListen | hifAccept | hifConnect | hifSend | hifRecv | hifSendTo | hifRecvFrom | hifClose
  | hifDnsResolve | hifSslConnect | hifSslSend | hifSslRecv | hifSslClose | hifSetSockOpt | hifSslCreate
  | hifSslSetSockOpt | hifPing | hifSslSetCsList | hifSslBind | hifSecure =>
    exact decode_encodeHif (by rfl) (by rfl)
  | _ => rfl

/-! ### What the decoder reads and refuses (R92, R93, R98, R102, R105, R107) -/

/-- Settles O2: the decoder run on each word. -/
theorem decodesSpecWords : Obligations.DecodesSpecWords := by
  unfold Obligations.DecodesSpecWords
  decide

/-- A first byte that is no opcode and no written tag is reserved (R98, R102). -/
theorem decodeFrame_reserved {b : Byte} (bs : Bytes)
    (hb : b ∉ [0xC1, 0xC2, 0xC3, 0xC4, 0xC5, 0xC6, 0xC7, 0xC8, 0xC9, 0xCA, 0xCF, 0xF1, 0xF2, 0xF3]) :
    decodeFrame (b :: bs) = .error (.reservedOpcode b) := by
  simp only [List.mem_cons, List.not_mem_nil, or_false, not_or] at hb
  obtain ⟨h1, h2, h3, h4, h5, h6, h7, h8, h9, hA, hF, hT1, hT2, hT3⟩ := hb
  simp only [decodeFrame, h1, h2, h3, h4, h5, h6, h7, h8, h9, hA, hF, hT1, hT2, hT3, if_false]

/-! ### Requests taken by a step (R98, R112) -/

/-- A request that decodes is executed as what it decodes to, on the state it has been taken from (log 8). -/
theorem step_of_decode {s : State} {r : Request} {i : Instr} (h : nextInput s = some (.request r)) (hd : decode r = .ok i) :
    step s = exec i (popInput s) := by simp only [step, h, hd]

/-- A request that does not decode is handled by the decoder's reason (R97, R98, R147). -/
theorem step_of_decode_error {s : State} {r : Request} {e : DecodeError} (h : nextInput s = some (.request r))
    (hd : decode r = .error e) : step s = undecoded e (popInput s) := by simp only [step, h, hd]

/-- Settles O3: the decoder's refusal is the step's. -/
theorem reservedOpcodeRefused : Obligations.ReservedOpcodeRefused := fun _ bs _ hb hn =>
  step_of_decode_error hn (decodeFrame_reserved bs hb)

/-- Settles O4, whatever the operands. -/
theorem stepRunsDecoded : Obligations.StepRunsDecoded := fun _ _ _ hn hd _ => step_of_decode hn hd

/-! ### The CRC byte (R96) -/

/-- The CRC byte is the CRC7 of the frame one bit to the left, its lowest bit 0 (R96). -/
theorem crcByte_eq (p : Params) (b : Bytes) : crcByte p b = ((crc7 p b).setWidth 8 <<< 1) &&& 0xFE := by
  rw [crcByte]
  generalize crc7 p b = c
  revert c
  decide

/-- Settles O11: the frame registers hold the frame and its CRC byte. -/
theorem crcByteFollowsTheFrame : Obligations.CrcByteFollowsTheFrame := by
  intro c s
  rw [frameBytes_buildFrame, commandWire, crcByte_eq]
  cases s.fr.crcEn
  · exact List.append_nil _
  · rfl

end Sys2Proof.Machine

/-!
SUPPORT. Proofs about lone chunks: one action of a caller under `T_LOCK` alone, then the three written tags and the tag scan
(R102, R142, R144, R146, R147, R170; log 11).
-/

namespace Sys2Proof.Machine

/-! ### One action under `T_LOCK` alone (logs 11, 12) -/

/-- A new caller task holds `T_LOCK`, no exchange begun. -/
def lockedTask (s : State) : State := (newTask s).mapTr fun r => { r with lock := .held (.caller (taskOf s)) }

/-- An action that uses the bus and changes framer registers, run under `T_LOCK` alone: the registers it changes and the bus
are all that differs once the call has ended. -/
theorem underT_returned {i : Instr} {a : Action} {k : Val → Prog (Except Err Value)} {s w : State} {v : Val}
    {r : Except Err Value} {f : Framer → Framer} {ev : List BusEvent} {rest : List (Option Byte)}
    (he : exec i s = startTask i (underT a k) s) (hs : BusReady s)
    (ha : perform a (.caller (taskOf s)) (lockedTask s) = (some v, w.mapFr f)) (hm : Moved (lockedTask s) w ev rest)
    (hk : k v = .ret r) (hc : (f s.fr).crcEn = s.fr.crcEn) (hl : (f s.fr).pktLimit = s.fr.pktLimit) :
    ∃ t, exec i s = .next t ∧ Returned (newTask s) (taskOf s) (toResult r) ev rest t ∧ t.fr = f s.fr ∧ t.tr = s.tr := by
  have hy : (newTask s).env.yields = [] := hs.yields
  have hfr : w.fr = s.fr := hm.only.fr
  have henv : w.env = { (newTask s).env with miso := w.env.miso, xferIx := w.env.xferIx, bus := w.env.bus } := hm.only.env
  have hwy : w.env.yields = [] := by rw [henv]; exact hy
  have hwf : w.env.fired = false := by rw [henv]; rfl
  let u := (w.mapFr f).mapTr fun t => { t with lock := t.lock.drop (.caller (taskOf s)) }
  have htr : u.tr = s.tr := by
    have hw : w.tr = { s.tr with lock := .held (.caller (taskOf s)) } := hm.only.tr
    show { w.tr with lock := w.tr.lock.drop (.caller (taskOf s)) } = s.tr
    rw [hw]
    simp only [Lock.drop, if_true, ← hs.lock]
  have hrun : Runs (taskOf s) (underT a k) (newTask s) r u := by
    refine Runs.andThen (v := .unit) (t := lockedTask s) ?_ hy ?_
    · simp only [perform, doLockT, newTask_tr, hs.lock, Lock.take, lockedTask]
    rw [endAction_eq (s := lockedTask s) hy rfl]
    refine Runs.act ha hy ?_
    rw [endAction_eq (s := w.mapFr f) hwy hwf]
    refine Runs.andThen (v := .unit) (t := u) rfl hwy ?_
    rw [endAction_eq (s := u) hwy hwf, hk]
    exact Runs.ret r u
  refine ⟨_, by rw [he, startTask_of_eval hrun], ⟨u, ?_, rfl⟩, ?_, htr⟩
  · exact
      { crcEn := by rw [show u.fr = f w.fr from rfl, hfr, hc]; rfl
        limit := by rw [show u.fr = f w.fr from rfl, hfr, hl]; rfl
        lock := by rw [htr]; exact hs.lock
        idle := by rw [htr]; exact hs.idle
        lastErr := by rw [htr]; rfl
        hif := hm.only.hif
        irq := hm.only.irq
        sock := hm.only.sock
        root := hm.only.root
        mem := hm.only.mem
        params := hm.only.params
        bus := hm.bus
        env := by
          have hfree : u.env.free = (newTask s).env.free := by rw [show u.env = w.env from rfl, henv]
          have hfired : u.env.fired = (newTask s).env.fired := hwf
          rw [hfree, hfired, ← hm.miso]
          exact henv }
  · show f w.fr = f s.fr
    rw [hfr]

/-! ### A written chunk (R102, R142, R144) -/

/-- A payload that a chunk can carry is sent under the tag asked for (R101; log 11). -/
theorem tagRow_inRange {d : Bytes} {s : State} (i : Instr) (seq : BitVec 4) (hr : Ready s) (h0 : 0 < d.length)
    (hl : d.length ≤ s.fr.pktLimit) : tagRow i seq d s = startTask i (tagProgram seq d) s := by
  rw [tagRow, whenReady_ready hr, if_neg (by omega)]

/-- A written chunk, whatever its tag: one bus step, behind which the counts move on (R142, R170). -/
theorem tagProgram_returned {i : Instr} {seq : BitVec 4} {d y : Bytes} {s : State} {rest : List (Option Byte)}
    (he : exec i s = startTask i (tagProgram seq d) s) (hs : BusReady s)
    (hy : y.length = (tagByte seq :: d ++ crcTail s.fr.crcEn 0x00 0x00).length) (hm : s.env.miso = y.map some ++ rest) :
    ∃ t, exec i s = .next t ∧
      Returned (newTask s) (taskOf s) (.ok .unit) (stepEvents (tagByte seq :: d ++ crcTail s.fr.crcEn 0x00 0x00) y) rest
        t ∧
      t.fr = { s.fr with dfRem := s.fr.dfRem - d.length, dfIx := s.fr.dfIx + 1 } ∧ t.tr = s.tr := by
  obtain ⟨w, hstep, hmoved⟩ := busStep_moved _ y rest (lockedTask s) hy hm
  have hp : perform (.tagChunk seq d) (.caller (taskOf s)) (lockedTask s) =
      (some (.err none), w.mapFr (chunkWritten d.length)) := by
    have hbytes : chunkBytes seq d (lockedTask s).fr.crcEn = tagByte seq :: d ++ crcTail s.fr.crcEn 0x00 0x00 := rfl
    simp only [perform, doTagChunk, hbytes, hstep]
  exact underT_returned (r := .ok .unit) he hs hp hmoved rfl rfl rfl

/-- Settles O14: each of the three tags is the chunk program under its sequence nibble. -/
theorem writtenChunk : Obligations.WrittenChunk := by
  rintro s i tag d y rest (⟨rfl, rfl⟩ | ⟨rfl, rfl⟩ | ⟨rfl, rfl⟩) h0 hl hr hs hy hm
  · exact tagProgram_returned (seq := 0x1) (tagRow_inRange _ _ hr h0 hl) hs hy hm
  · exact tagProgram_returned (seq := 0x2) (tagRow_inRange _ _ hr h0 hl) hs hy hm
  · exact tagProgram_returned (seq := 0x3) (tagRow_inRange _ _ hr h0 hl) hs hy hm

/-! ### A chunk read behind the tag scan (R146, R147) -/

/-- A lone chunk read is the tag scan's program (R102; log 11). -/
theorem exec_tagAny {s : State} (seq : BitVec 4) (hr : Ready s) :
    exec (.tagAny seq) s = startTask (.tagAny seq) tagScanProgram s := whenReady_ready hr _

section
variable {s : State} (seq : BitVec 4) {rest : List (Option Byte)}

/-- A chunk whose tag is found: its payload is the result, and the counts move on (R146). -/
theorem tagAny_reads {d : Bytes} {ev : List BusEvent} (hr : Ready s) (hs : BusReady s) (h0 : 0 < s.fr.dfRem)
    (hd : d.length = min s.fr.dfRem s.fr.pktLimit) (hc : ChunkFrom s.fr.crcEn d ev)
    (hm : s.env.miso = answersOf ev ++ rest) :
    ∃ t, exec (.tagAny seq) s = .next t ∧ Returned (newTask s) (taskOf s) (.ok (.bytes d)) ev rest t ∧
      t.fr = { s.fr with dfRem := s.fr.dfRem - d.length, dfIx := s.fr.dfIx + 1 } ∧ t.tr = s.tr := by
  obtain ⟨w, hread, hmoved⟩ := readChunk_moved (s := lockedTask s) hc hd hm
  have hp : perform .scanChunk (.caller (taskOf s)) (lockedTask s) =
      (some (.chunk none d false), (chipSelect false w).mapFr (chunkWritten d.length)) := by
    have hrem : (lockedTask s).fr.dfRem ≠ 0 := Nat.ne_of_gt h0
    simp only [perform, doScanChunk, if_neg hrem, hread]
    rfl
  exact underT_returned (r := .ok (.bytes d)) (exec_tagAny seq hr) hs hp hmoved rfl rfl rfl

/-- No tag among ten bytes: the chunk ends in the scan's error (R147). -/
theorem tagAny_noTag {bytes : Bytes} (hr : Ready s) (hs : BusReady s) (h0 : 0 < s.fr.dfRem) (hb : bytes.length = tagScanMax)
    (ht : ∀ x ∈ bytes, x.extractLsb' 4 4 ≠ 0xF#4) (hm : s.env.miso = bytes.map some ++ rest) :
    ∃ t, exec (.tagAny seq) s = .next t ∧
      Returned (newTask s) (taskOf s) (.err .noStartTag) (stepEvents (filler tagScanMax) bytes) rest t ∧ t.fr = s.fr ∧
      t.tr = s.tr := by
  obtain ⟨w, hread, hmoved⟩ := readChunk_noTag (t := lockedTask s) hb ht hm
  have hp : perform .scanChunk (.caller (taskOf s)) (lockedTask s) =
      (some (.chunk (some .noStartTag) [] false), (chipSelect false w).mapFr fun f => f) := by
    have hrem : (lockedTask s).fr.dfRem ≠ 0 := Nat.ne_of_gt h0
    simp only [perform, doScanChunk, if_neg hrem, hread]
    rfl
  exact underT_returned (f := fun f => f) (r := .error .noStartTag) (exec_tagAny seq hr) hs hp hmoved rfl rfl rfl

/-- No byte of a frame left: nothing crosses the bus (R146; log 11). -/
theorem tagAny_empty (hr : Ready s) (hs : BusReady s) (h0 : s.fr.dfRem = 0) :
    ∃ t, exec (.tagAny seq) s = .next t ∧ Returned (newTask s) (taskOf s) (.ok (.bytes [])) [] s.env.miso t ∧
      t.fr = s.fr ∧ t.tr = s.tr := by
  have hp : perform .scanChunk (.caller (taskOf s)) (lockedTask s) =
      (some (.chunk none [] false), (lockedTask s).mapFr fun f => f) := by
    have hrem : (lockedTask s).fr.dfRem = 0 := h0
    simp only [perform, doScanChunk, if_pos hrem]
    rfl
  exact underT_returned (f := fun f => f) (r := .ok (.bytes [])) (exec_tagAny seq hr) hs hp (Moved.refl _) rfl rfl rfl

end

end Sys2Proof.Machine

namespace Sys2Proof

open Machine

/-- Settles O15: the three outcomes of the tag scan's chunk. -/
theorem readChunk : Obligations.ReadChunk :=
  ⟨fun _ seq _ _ _ => tagAny_reads seq, fun _ seq _ _ => tagAny_noTag seq, fun _ seq => tagAny_empty seq⟩

end Sys2Proof

/-!
SUPPORT. Proofs about a packet sent: `Hif.Send` and the rows sent by it, the sleep behind the packet whatever comes of it
(R105, R107, R207 to R210; log 10).
-/

namespace Sys2Proof.Machine

variable {go : Action → State → Option Val × State} {ag : Agent}

/-- A row that has a meaning outbound runs `Hif.Send`; `Hif.Send` itself does too (R107; log 10). -/
theorem exec_send {group opcode : Byte} {control data : Bytes} {offset : Nat} {i : Instr} {s : State}
    (h : i = .opHifSend group opcode control data offset ∨ RowOf s.params group opcode (.outbound control data offset) i)
    (hr : Ready s) : exec i s = startTask i (noValue (hifSend s.params group opcode control data offset)) s := by
  refine exec_outbound (h.imp id fun ⟨hrow, hwifi⟩ => ⟨hrow, fun h50 => ?_⟩) hr
  obtain hg | ⟨_, _, hpk⟩ := hwifi h50
  · exact hg
  · cases hpk

/-- The wake-up in front of a packet: the chip is awake behind it, whether it slept or not (R206, R208). -/
theorem chipWake_wakes (hgo : Agrees go ag) (p : Params) (wa wb : Word) {acks : List Word} {s : State}
    (ha : s.hif.awake = false → acks.length ≤ 10 ∧ LastOnly (acked p) acks) :
    Serves go (chipWake p) (if s.hif.awake then [] else wakeAccesses p wa wb acks) (.ok ())
      (fun t => t.mapHif fun h => { h with awake := true }) s := by
  cases haw : s.hif.awake with
  | false => exact chipWake_acked hgo p haw wa wb (ha haw).1 (ha haw).2
  | true =>
    refine (chipWake_awake hgo p haw).congr ?_
    show s = { s with hif := { s.hif with awake := true } }
    rw [← haw]

/-- `Send` of a packet that the device takes, and the sleep behind it, whatever comes of it (R207, R208). -/
theorem hifSend_sends (hgo : Agrees go ag) {group opcode : Byte} {control data : Bytes} {offset : Nat} (wa wb : Word)
    {dma : Word} {acks polls : List Word} {awake : Bool} {errs : List Err} {ev ev' : List BusEvent} {s : State}
    (hr : s.hif.state = .ready) (hl : s.hif.lock = .free) (ht : hifTotal control data offset ≤ hifMaxPkt)
    (ha : s.hif.awake = false → acks.length ≤ 10 ∧ LastOnly (acked s.params) acks)
    (hn : polls.length ≤ s.params.hifDmaPolls) (ho : LastOnly s.params.dmaPublished.app polls) (h0 : dma ≠ 0)
    (hroom : dma.toNat + 8 + offset < 2 ^ 24)
    (hw : AllOnWire s.params s.fr.crcEn s.fr.pktLimit
      ((if s.hif.awake then [] else wakeAccesses s.params wa wb acks) ++
        packetAccesses s.params group opcode control data offset polls dma) ev)
    (hx : Slept s.params s.fr.crcEn s.fr.pktLimit awake errs ev') :
    Plays go (hifSend s.params group opcode control data offset) (ev ++ ev') (.ok ())
      (fun t => noted errs (t.mapHif fun h => { h with awake := awake })) s := by
  have body : ∀ u, After (s.mapHif fun h => { h with lock := .held ag }) u →
      Plays go (sendBody s.params group opcode control data offset) ev (.ok ())
        (fun t => t.mapHif fun h => { h with awake := true }) u := by
    rintro u ⟨_, _, hu⟩
    have hawake : u.hif.awake = s.hif.awake := by rw [hu.hif]; rfl
    refine Serves.plays (sendBody_serves hgo s.params ht
      (chipWake_wakes hgo s.params wa wb (by rw [hawake]; exact ha)) hn ho h0 hroom) ?_
    rw [hu.params, hu.crcEn, hu.limit, hawake]
    exact hw
  have sleep : ∀ u, After (s.mapHif fun h => { h with lock := .held ag, awake := true }) u →
      Plays go ((chipSleep s.params).bind fun _ => .ret (.ok ())) ev' (.ok () : Except Err Unit)
        (fun t => noted errs (t.mapHif fun h => { h with awake := awake })) u := by
    rintro u ⟨_, _, hu⟩
    have hplays := chipSleep_plays (s := u) (r := (.ok () : Except Err Unit)) hgo (by rw [hu.hif]; rfl)
      (by rw [hu.params, hu.crcEn, hu.limit]; exact hx)
    rwa [hu.params] at hplays
  have hplays := hifSend_plays hgo s.params (Respects.mapHif _) ((Respects.mapHif _).comp (Respects.noted errs)) hr hl ht
    body sleep
  refine hplays.congr ?_
  have hfree : Lock.drop (.held ag) ag = s.hif.lock := by rw [hl]; simp [Lock.drop]
  simp only [noted, State.mapHif, State.mapTr, hfree]

/-- Settles O32. -/
theorem packetSent : Obligations.PacketSent := by
  intro s i group opcode control data offset wa wb dma acks polls awake errs ev ev' rest hi hs ht ha hn ho h0 hroom hw hx hm
  exact Returned.of_plays (exec_send hi hs.ready) hs.bus hm
    (noValue_plays (hifSend_sends (callerGo_agrees _) (s := newTask s) wa wb hs.ready.1 hs.lock ht ha hn ho h0 hroom hw hx))

end Sys2Proof.Machine

/-!
SUPPORT. Proofs about packets received by themselves that nobody takes: the worker's run for a row whose header is in
hand, in its three outcomes (R111, R211, R212, R214, R216, R217, R279; log 10).
-/

namespace Sys2Proof.Machine

variable {go : Action → State → Option Val × State} {ag : Agent}

/-! ### Opcode bytes that nobody takes (R111, R270, R279) -/

/-- The data flag plays no part in who takes a packet (R270). -/
theorem NobodyTakes.withFlag {s : State} {group op : Byte} (h : NobodyTakes s group op) (flag : Bool) :
    NobodyTakes s group (hifOpcodeByte op flag) := by
  rw [NobodyTakes, Laws.Encoding.opcode_mask]
  exact h

theorem NobodyTakes.congr {s u : State} {group op : Byte} (h : NobodyTakes s group op) (hc : u.hif.cb = s.hif.cb) :
    NobodyTakes u group op := by
  rw [NobodyTakes, hc]
  exact h

/-- The socket callback does nothing on an opcode number outside its list (R279). -/
theorem sockCb_unhandled (p : Params) {opcode : Byte} (length : Int) (address : Word)
    (h : opcode &&& 0x7F ∉ handledOpcodes) :
    sockCb p opcode length address = cbNil := by
  simp only [handledOpcodes, List.mem_cons, List.not_mem_nil, or_false, not_or] at h
  obtain ⟨h41, h54, h42, h43, h44, h4B, h56, h45, h4C, h47, h46, h4D, h48, h4A⟩ := h
  simp only [sockCb, h41, h54, h42, h43, h44, h4B, h56, h45, h4C, h47, h46, h4D, h48, h4A, or_self, if_false]

/-- A packet that nobody takes is released by RX-done where it is pending, and nothing is broadcast (R214, R216, R279). -/
theorem isrDispatch_dropped (hgo : Agrees go ag) (p : Params) {group opcode : Byte} (length : Half) (addr w : Word)
    {s : State} {due : Bool} (h : NobodyTakes s group opcode) (hd : s.hif.rxPend = due) :
    Serves go (isrDispatch p group opcode length addr) (rxDoneAccesses p due w) (.ok ())
      (fun s => s.mapHif fun h => { h with rxPend := false }) s := by
  rcases h with hnone | ⟨rfl, hsocket, hop⟩
  · exact isrDispatch_nobody hgo p group opcode length addr w hnone hd
  · refine isrDispatch_serves hgo p groupIp opcode length addr (Respects.mapHif _) hsocket fun u hu => ?_
    rw [invokeCb, sockCb_unhandled p _ _ hop]
    exact isrFinish_serves hgo p groupIp opcode w (by rw [hu.hif, hd])

/-! ### A row received, as the worker runs it (R211, R335; log 10) -/

/-- The worker has taken a packet whose header is in hand (log 10). -/
def attending (group opcode : Byte) (length : Half) (s : State) : State :=
  (newTask s).mapIrq fun q => { q with wseq := .isr, wjob := .packet (taskOf s) group opcode length, wlog := [] }

/-- A row received ends as `Isr` with its header in hand ends; then the worker waits again (R211, R335; log 10). -/
theorem inboundRow_returned {s : State} {i : Instr} {group op : Byte} {flag : Bool} {length : Half} {xs : List Access}
    {v : Except Err Unit} {g : State → State} {ev : List BusEvent} {rest : List (Option Byte)}
    (hi : hifRow group op (.inbound flag length) = some i) (hs : WorkerReady s)
    (hserves : Serves workerGo (isr s.params (some ⟨group, hifOpcodeByte op flag, length⟩)) xs v g
      (attending group (hifOpcodeByte op flag) length s))
    (hirq : (g (attending group (hifOpcodeByte op flag) length s)).irq =
      (attending group (hifOpcodeByte op flag) length s).irq)
    (ha : Answers s xs ev rest) :
    ∃ t, exec i s = .next t ∧
      Returned (workerIdle (g (attending group (hifOpcodeByte op flag) length s))) (taskOf s)
        (toResult (v.map fun _ => .unit)) ev rest t := by
  obtain ⟨hlock, hidle, hlimit, hyields⟩ := hs.session.bus
  obtain ⟨u, heval, hdone⟩ := hserves.eval ⟨hlock, hidle, hlimit, hyields⟩ ha
  have hrun : exec i s = .next (workerEnd v u) := by
    have hgoing : ¬(s.irq.wseq = .stopped ∨ s.irq.stop = true) := by rw [hs.wseq, hs.going]; decide
    rw [exec_inbound hi, startJob, whenReady_ready hs.session.ready, if_neg hgoing, if_neg (not_not_intro hs.wseq)]
    show workerSettle ((isr s.params _).run workerGo [] [] [] (attending group (hifOpcodeByte op flag) length s)) = _
    rw [Prog.run_of_eval heval]
    rfl
  have hjob : u.irq.wjob = .packet (taskOf s) group (hifOpcodeByte op flag) length := by rw [hdone.irq, hirq]; rfl
  have hstop : u.irq.stop = false := by rw [hdone.irq, hirq]; exact hs.going
  refine ⟨_, hrun, workerIdle u, Respects.mapIrq _ _ _ _ _ hdone, ?_⟩
  rw [workerEnd, hjob]
  simp [jobResult, returnToCaller, workerIdle, State.mapIrq, State.mapEnv, hstop]

/-- `Isr` without a window recorded: the lock taken and released again, `RXDONE_PEND` set (R211). -/
theorem workerIdle_pending {s : State} (hl : s.hif.lock = .free) (group opcode : Byte) (length : Half) :
    workerIdle (((attending group opcode length s).mapHif fun h => { h with lock := .held .worker, rxPend := true }).mapHif
      fun h => { h with lock := h.lock.drop .worker }) =
      workerIdle ((newTask s).mapHif fun h => { h with rxPend := true }) := by
  have hfree : Lock.drop (.held .worker) .worker = s.hif.lock := by rw [hl]; rfl
  simp [workerIdle, attending, State.mapHif, State.mapIrq, hfree]

/-- `Isr` with a window recorded and RX-done given (R211, R216). -/
theorem workerIdle_released {s : State} (hl : s.hif.lock = .free) (group opcode : Byte) (length : Half) (base r : Word) :
    workerIdle (((windowSet base (rxSizeField s.params r)
      ((attending group opcode length s).mapHif fun h => { h with lock := .held .worker, rxPend := true })).mapHif
        fun h => { h with lock := h.lock.drop .worker }).mapHif fun h => { h with rxPend := false }) =
      workerIdle (windowOpened base r false (newTask s)) := by
  have hfree : Lock.drop (.held .worker) .worker = s.hif.lock := by rw [hl]; rfl
  have hsize : BitVec.ofNat 12 (sizeOf12 s.params r) = rxSizeField s.params r := by
    rw [← rxSizeField_toNat, BitVec.ofNat_toNat, BitVec.setWidth_eq]
  simp [workerIdle, attending, windowSet, windowOpened, State.mapHif, State.mapIrq, hfree, hsize]

/-- The size field is 0 exactly where no packet is pending (R106, R217). -/
theorem rxSizeField_eq_zero {p : Params} {r : Word} : rxSizeField p r = 0 ↔ sizeOf12 p r = 0 := by
  rw [← rxSizeField_toNat]
  exact BitVec.toNat_inj.symm

section
variable {s : State} {i : Instr} {group op : Byte} {flag : Bool} {length : Half} {r base w : Word} {ev : List BusEvent}
  {rest : List (Option Byte)}

/-- No packet pending: `RXDONE_PEND` is set and nothing else changes (R217). -/
theorem inboundRow_empty (hi : hifRow group op (.inbound flag length) = some i) (hs : WorkerReady s)
    (h0 : sizeOf12 s.params r = 0) (ha : Answers s (isrAccesses s.params r) ev rest) :
    ∃ t, exec i s = .next t ∧
      Returned (workerIdle ((newTask s).mapHif fun h => { h with rxPend := true })) (taskOf s) (.ok .unit) ev rest t := by
  have hserves := isr_serves (ag := .worker) (s := attending group (hifOpcodeByte op flag) length s) (hd := .ok none)
    (xs := []) (ys := []) (v := .ok ()) (g := fun s => s) (h := fun s => s) workerGo_agrees s.params
    (some ⟨group, hifOpcodeByte op flag, length⟩) r Respects.id Respects.id hs.session.lock
    (fun u _ => by
      rw [isrWindow, if_pos (rxSizeField_eq_zero.mpr h0)]
      exact Serves.ret _ u)
    (fun u _ => Serves.ret _ u)
  have hret := inboundRow_returned hi hs hserves rfl (by simpa using ha)
  rwa [workerIdle_pending hs.session.lock] at hret

/-- A size that exceeds the declared length by more than four: the packet is corrupt (R212). -/
theorem inboundRow_corrupt (hi : hifRow group op (.inbound flag length) = some i) (hs : WorkerReady s)
    (hbad : length.toNat + 4 < sizeOf12 s.params r)
    (ha : Answers s (isrAccesses s.params r ++ [.read s.params.regHifRxBase base]) ev rest) :
    ∃ t, exec i s = .next t ∧
      Returned (workerIdle ((newTask s).mapHif fun h => { h with rxPend := true })) (taskOf s) (.err .operationFailed) ev
        rest t := by
  have hne : rxSizeField s.params r ≠ 0 := fun h => by
    have := rxSizeField_eq_zero.mp h
    omega
  have hserves := isr_serves (ag := .worker) (s := attending group (hifOpcodeByte op flag) length s)
    (hd := .error .operationFailed) (ys := []) (v := .error .operationFailed) (g := fun s => s) (h := fun s => s)
    workerGo_agrees s.params (some ⟨group, hifOpcodeByte op flag, length⟩) r Respects.id Respects.id hs.session.lock
    (fun u _ => isrWindow_bad (addr := base) workerGo_agrees s.params _ ⟨group, hifOpcodeByte op flag, length⟩ _ _
      (fromLe2_le2 length).symm (.inr rfl) (fun h => nomatch h) hne (by rw [rxSizeField_toNat]; exact hbad) u)
    (fun u _ => Serves.ret _ u)
  have hret := inboundRow_returned hi hs hserves rfl (by simpa using ha)
  rwa [workerIdle_pending hs.session.lock] at hret

/-- A packet that nobody takes: its window is recorded, and it is released by RX-done (R211, R214, R216, R279). -/
theorem inboundRow_dropped (hi : hifRow group op (.inbound flag length) = some i) (hs : WorkerReady s)
    (h0 : sizeOf12 s.params r ≠ 0) (hl : sizeOf12 s.params r ≤ length.toNat + 4) (hn : NobodyTakes s group op)
    (ha : Answers s
      (isrAccesses s.params r ++ [.read s.params.regHifRxBase base] ++ rxDoneAccesses s.params true w) ev rest) :
    ∃ t, exec i s = .next t ∧
      Returned (workerIdle (windowOpened base r false (newTask s))) (taskOf s) (.ok .unit) ev rest t := by
  have hserves := isr_serves (ag := .worker) (s := attending group (hifOpcodeByte op flag) length s)
    (hd := .ok (some (⟨group, hifOpcodeByte op flag, length⟩, base))) (ys := rxDoneAccesses s.params true w)
    (v := .ok ()) (g := windowSet base (rxSizeField s.params r)) (h := fun t => t.mapHif fun h => { h with rxPend := false })
    workerGo_agrees s.params (some ⟨group, hifOpcodeByte op flag, length⟩) r (Respects.windowSet _ _) (Respects.mapHif _)
    hs.session.lock
    (fun u _ => isrWindow_good workerGo_agrees s.params _ ⟨group, hifOpcodeByte op flag, length⟩ _ _
      (fromLe2_le2 length).symm (.inr rfl) (fun h => nomatch h) (mt rxSizeField_eq_zero.mp h0)
      (by rw [rxSizeField_toNat]; exact hl) u)
    (fun u hu => isrDispatch_dropped workerGo_agrees s.params length base w
      ((hn.withFlag flag).congr (by rw [hu.hif]; rfl)) (by rw [hu.hif]; rfl))
  have hret := inboundRow_returned hi hs hserves rfl (by simpa using ha)
  rwa [workerIdle_released hs.session.lock] at hret

end

/-- Settles O35: the three outcomes of a row whose header is in hand. -/
theorem inboundPacketWithoutCallback : Obligations.InboundPacketWithoutCallback := fun _ _ _ _ _ _ _ _ _ _ _ hi hs =>
  ⟨inboundRow_empty hi hs, inboundRow_corrupt hi hs, inboundRow_dropped hi hs⟩

end Sys2Proof.Machine

/-!
SUPPORT. Proofs about replies: which entry a reply matches, what a reply record holds, and a packet with a reply as the
worker runs it (R109, R110, R211, R215, R216, R270 to R273, R275, R276, R278; logs 10, 26).
-/

namespace Sys2Proof.Machine

variable {go : Action → State → Option Val × State} {ag : Agent}

/-! ### Which entry a reply matches (R271, R278) -/

/-- The entry under an id, or the only entry, where no two entries share an id (R271, R287 b). -/
theorem findEntry_eq_some {l : List ReplyEntry} (hn : (l.map (·.sid)).Nodup) {sid : Option Half} {e : ReplyEntry} :
    findEntry l sid = some e ↔ e ∈ l ∧ (sid = some e.sid ∨ sid = none ∧ l = [e]) := by
  cases sid with
  | some v =>
    simp only [findEntry, Option.some.injEq, reduceCtorEq, false_and, or_false]
    constructor
    · intro h
      exact ⟨List.mem_of_find?_eq_some h, (by simpa using List.find?_some h : e.sid = v).symm⟩
    · rintro ⟨he, rfl⟩
      obtain ⟨e', hfind⟩ := Option.isSome_iff_exists.mp
        (List.find?_isSome (p := fun x => decide (x.sid = e.sid)) |>.mpr ⟨e, he, by simp⟩)
      have hsid : e'.sid = e.sid := by simpa using List.find?_some hfind
      rw [hfind, List.inj_on_of_nodup_map hn (List.mem_of_find?_eq_some hfind) he hsid]
  | none =>
    simp only [reduceCtorEq, true_and, false_or]
    match l with
    | [] => simp [findEntry]
    | [x] => simp [findEntry, eq_comm]
    | x :: y :: l => simp [findEntry]

/-- What `match` looks at: the slot of the descriptor, in use, and its entry, of the right kind and waiting (R271). -/
theorem matchReply_eq_some {k : Sockets} {sock : BitVec 8} {sid : Option Half} {kind : Kind} {m : Nat} :
    matchReply k sock sid kind = some m ↔ ∃ i e, slotIx sock.toInt = some i ∧ (k.slot i).inUse = true ∧
      findEntry (k.slot i).replies sid = some e ∧ (e.kind = kind ∧ mailGet k.mail e.mail = some .waiting) ∧
      e.mail = m := by
  constructor
  · intro h
    unfold matchReply at h
    split at h
    · cases h
    rename_i i hi
    split at h
    · cases h
    rename_i hused
    split at h
    · cases h
    rename_i e he
    split at h
    · rename_i hwait
      exact ⟨i, e, hi, by simpa using hused, he, hwait, Option.some.inj h⟩
    · cases h
  · rintro ⟨i, e, hi, hused, he, hwait, rfl⟩
    simp only [matchReply, hi, hused, Bool.true_eq_false, if_false, he, hwait, and_self, if_true]

/-- `match` answers the reply slot of the entry the reply matches (R271, R278). -/
theorem matchReply_iff_matches {k : Sockets} (hn : ∀ j, ((k.slot j).replies.map (·.sid)).Nodup) {sock : BitVec 8}
    {sid : Option Half} {kind : Kind} {m : Nat} :
    matchReply k sock sid kind = some m ↔ ∃ e, Matches k sock sid kind e ∧ e.mail = m := by
  rw [matchReply_eq_some]
  constructor
  · rintro ⟨i, e, hi, hused, he, ⟨hkind, hwait⟩, hm⟩
    obtain ⟨hmem, hkey⟩ := (findEntry_eq_some (hn i)).mp he
    exact ⟨e, ⟨i, slotIx_eq_some.mp hi, hused, hmem, hkey, hkind, hwait⟩, hm⟩
  · rintro ⟨e, ⟨i, hi, hused, hmem, hkey, hkind, hwait⟩, hm⟩
    exact ⟨i, e, slotIx_eq_some.mpr hi, hused, (findEntry_eq_some (hn i)).mpr ⟨hmem, hkey⟩, ⟨hkind, hwait⟩, hm⟩

/-- The entry a reply matches still waits, so it is filled (R253, R271). -/
theorem fillMail_of_match {k : Sockets} {sock : BitVec 8} {sid : Option Half} {kind : Kind} {m : Nat} (rep : Reply)
    (h : matchReply k sock sid kind = some m) : fillMail k m rep = { k with mail := mailSet k.mail m (.filled rep) } := by
  obtain ⟨_, _, _, _, _, ⟨_, hwait⟩, rfl⟩ := matchReply_eq_some.mp h
  exact if_pos hwait

/-! ### What a reply record holds (R63, R109, R110) -/

/-- The size of a record depends on its layout and on how long its fields are alone (R270; log 26). -/
theorem Sized.congr {l : Layout} {fs gs : List Bytes} {n : Nat} (h : Sized l fs n)
    (hl : fs.map List.length = gs.map List.length) : Sized l gs n := by
  have same : ∀ {as bs : List Bytes}, as.map List.length = bs.map List.length →
      ∀ (k : Nat) (f : Bytes), bs[k]? = some f →
      ∃ g : Bytes, as[k]? = some g ∧ g.length = f.length := by
    intro as bs hab k f hf
    have := congrArg (·[k]?) hab
    simpa [hf] using this
  refine ⟨h.base, fun k f hf => ?_, h.reached.imp id ?_⟩
  · obtain ⟨g, hg, hlen⟩ := same hl k f hf
    rw [← hlen]
    exact h.within k g hg
  · rintro ⟨k, f, hf, hn⟩
    obtain ⟨g, hg, hlen⟩ := same hl.symm k f hf
    exact ⟨k, g, hg, by rw [hn, hlen]⟩

/-- A record whose fields have the widths of its kind has that kind's size (R109, R270). -/
theorem recSize_sized {p : Params} {rec : RxRecord} {fields : List Bytes}
    (h : fields.map List.length = recWidths (rxLayout p rec) rec) : Sized (rxLayout p rec) fields (recSize p rec) :=
  (enc_sized (rxLayout p rec) ((recWidths (rxLayout p rec) rec).map fun w => List.replicate w 0x00)).congr
    (by simp [h, Function.comp_def])

/-- The bytes of a 16-bit field, read back (R63). -/
theorem fromLe_half (v : Half) : BitVec.ofNat 16 (fromLe (halfField v)) = v := by
  apply BitVec.eq_of_toNat_eq
  simp only [halfField, fromLe, BitVec.toNat_ofNat, BitVec.extractLsb'_toNat, Nat.shiftRight_eq_div_pow]
  have := v.isLt
  omega

section
variable {l : Layout} {fields : List Bytes} {b : Bytes} {k : Nat}

/-- A field that stands in a record, read back at its width. -/
theorem Stand.field_eq (h : Stand l fields b) {f : Bytes} {w : Nat} (hk : fields[k]? = some f) (hw : f.length = w) :
    l.field k w b = f := hw ▸ h k f hk

/-- A field of one byte, read back. -/
theorem Stand.byte (h : Stand l fields b) {x : Byte} (hk : fields[k]? = some [x]) : BitVec.ofNat 8 (l.num k 1 b) = x := by
  rw [Layout.num, h.field_eq (w := 1) hk rfl]
  simp [fromLe]

/-- A field of two bytes, read back (R63). -/
theorem Stand.half (h : Stand l fields b) {v : Half} (hk : fields[k]? = some (halfField v)) :
    BitVec.ofNat 16 (l.num k 2 b) = v := by
  rw [Layout.num, h.field_eq (w := 2) hk rfl, fromLe_half]

/-- A field of four bytes, read back (R63). -/
theorem Stand.word (h : Stand l fields b) {v : Word} (hk : fields[k]? = some (wordField v)) :
    BitVec.ofNat 32 (l.num k 4 b) = v := by
  rw [Layout.num, h.field_eq (w := 4) hk rfl]
  exact fromLe_word v

/-- A session id behind `k` fields, read back where the layout has one (R109). -/
theorem Stand.sid {pre f : List Bytes} {sid : Option Half} (h : Stand l (pre ++ f) b) (hs : SidField l sid f)
    (hk : pre.length = k) : recSid l k b = sid := by
  rcases hs with ⟨hno, rfl, rfl⟩ | ⟨v, hyes, rfl, rfl⟩
  · rw [recSid, if_pos hno]
  · rw [recSid, if_neg (by rw [hyes]; decide), h.half (v := v) (by rw [← hk]; simp)]

theorem SidField.widths {sid : Option Half} {f : List Bytes} (hs : SidField l sid f) :
    f.map List.length = sidWidth l := by
  rcases hs with ⟨hno, rfl, rfl⟩ | ⟨v, hyes, rfl, rfl⟩
  · rw [sidWidth, if_pos hno]; rfl
  · rw [sidWidth, if_neg (by rw [hyes]; decide)]; rfl

/-- A number whose bytes stand in either order, read in that order (R110). -/
theorem inOrder_inOrder (network : Bool) (c : Bytes) : inOrder network (if network then c.reverse else c) = c := by
  cases network
  · rfl
  · exact List.reverse_reverse c

/-- The eight bytes of an address hold it (R110). -/
theorem AddrBytes.dec {l : AddrLayout} {a : SockAddr} {c : Bytes} (h : AddrBytes l a c) : l.dec c = a := by
  rw [AddrLayout.dec, h.family, h.port, h.ip, inOrder_inOrder, inOrder_inOrder, fromLe_half, fromLe_half]
  exact congrArg (SockAddr.mk a.family a.port) (fromLe_word a.ip)

/-- An address field, read back (R110). -/
theorem Stand.addr (h : Stand l fields b) {p : Params} {addr : SockAddr} {a : Bytes}
    (ha : AddrBytes p.layouts.sockAddr addr a) (hk : fields[k]? = some a) : addrAt p l k b = addr := by
  rw [addrAt, h.field_eq hk ha.size, ha.dec]

end

/-- A reply record has the size of its kind (R270). -/
theorem ReplyRecord.sized {p : Params} {rec : RxRecord} {fields : List Bytes} {rep : Reply}
    (h : ReplyRecord p rec fields rep) : Sized (rxLayout p rec) fields (recSize p rec) := by
  apply recSize_sized
  cases h with
  | bind sock status sid f hs => simpa [rxLayout, recWidths] using hs.widths
  | listen sock status sid f hs => simpa [rxLayout, recWidths] using hs.widths
  | accept addr a listenSock connSock extra ha => simp [recWidths, ha.size, halfField]
  | connect sock error extra sid f hs => simpa [rxLayout, recWidths, halfField] using hs.widths
  | send sock n sid f hs => simpa [rxLayout, recWidths, halfField] using hs.widths
  | recv addr a n offset sock sid f ha hs => simpa [rxLayout, recWidths, ha.size, halfField] using hs.widths
  | dns name ip hw => simp [recWidths, rxLayout, hw, wordField]

/-- Bytes in which the fields of a reply stand are decoded to it (R109). -/
theorem ReplyRecord.decoded {p : Params} {rec : RxRecord} {fields : List Bytes} {rep : Reply} {b : Bytes}
    (h : ReplyRecord p rec fields rep) (hb : Stand (rxLayout p rec) fields b) : decRec p rec b = rep := by
  cases h with
  | bind sock status sid f hs =>
    simp only [decRec, hb.byte (k := 0) rfl, hb.byte (k := 1) rfl,
      Stand.sid (l := rxLayout p .bindReply) (k := 2) (pre := [[sock], [status]]) hb hs rfl]
  | listen sock status sid f hs =>
    simp only [decRec, hb.byte (k := 0) rfl, hb.byte (k := 1) rfl,
      Stand.sid (l := rxLayout p .listenReply) (k := 2) (pre := [[sock], [status]]) hb hs rfl]
  | accept addr a listenSock connSock extra ha =>
    simp only [decRec, hb.addr (k := 0) ha rfl, hb.byte (k := 1) rfl, hb.byte (k := 2) rfl, hb.half (k := 3) rfl]
  | connect sock error extra sid f hs =>
    simp only [decRec, hb.byte (k := 0) rfl, hb.byte (k := 1) rfl, hb.half (k := 2) rfl,
      Stand.sid (l := rxLayout p .connectReply) (k := 3) (pre := [[sock], [error], halfField extra]) hb hs rfl]
  | send sock n sid f hs =>
    simp only [decRec, hb.byte (k := 0) rfl, hb.half (k := 1) rfl,
      Stand.sid (l := rxLayout p .sendReply) (k := 2) (pre := [[sock], halfField n]) hb hs rfl]
  | recv addr a n offset sock sid f ha hs =>
    simp only [decRec, hb.addr (k := 0) ha rfl, hb.half (k := 1) rfl, hb.half (k := 2) rfl, hb.byte (k := 3) rfl,
      Stand.sid (l := rxLayout p .recvReply) (k := 4) (pre := [a, halfField n, halfField offset, [sock]]) hb hs rfl]
  | dns name ip hw =>
    have hname : (rxLayout p .dnsReply).str 0 b = name := by
      rw [Layout.str, show (rxLayout p .dnsReply).strWidth = some name.length from hw]
      exact hb.field_eq rfl rfl
    simp only [decRec, hname, hb.word (k := 1) rfl]

/-- A DNS name without a fixed width takes the bytes from its offset on (log 26). -/
theorem decRec_dns_open {p : Params} {ip : Word} {b : Bytes} (hw : p.layouts.dnsReply.strWidth = none)
    (hb : Stand p.layouts.dnsReply [[], wordField ip] b) :
    decRec p .dnsReply b = .dns (b.drop (p.layouts.dnsReply.offs.getD 0 0)) ip := by
  have hname : p.layouts.dnsReply.str 0 b = b.drop (p.layouts.dnsReply.offs.getD 0 0) := by rw [Layout.str, hw]
  simp only [decRec, rxLayout, hname, hb.word (k := 1) (v := ip) rfl]

/-! ### A packet with a reply, as the worker runs it (R211, R215, R216, R270; log 10) -/

/-- The numbers of the replies to requests are below the data flag (R105, R270). -/
theorem replyRecord_number {op : Byte} {x : Kind × RxRecord} (h : replyRecord op = some x) : op &&& 0x7F = op := by
  have key : ∀ o : Byte, (replyRecord o).isSome = true → o &&& 0x7F = o := by decide
  exact key op (by rw [h]; rfl)

/-- The callback on a reply begins with the fetch of its record, and without a record answers nothing (R270). -/
theorem sockCb_reply_fetches (p : Params) {op opByte : Byte} {kind : Kind} {rec : RxRecord} (length : Int) (address : Word)
    (hop : opByte &&& 0x7F = op) (hr : replyRecord op = some (kind, rec)) :
    ∃ f, f none = cbNil ∧ sockCb p opByte length address = (fetch p rec length address true).bind f := by
  unfold sockCb
  rw [hop]
  unfold replyRecord at hr
  split at hr
  · rename_i h
    cases hr
    rcases h with rfl | rfl <;> exact ⟨_, rfl, rfl⟩
  split at hr
  · rename_i h
    cases hr
    subst h
    exact ⟨_, rfl, rfl⟩
  split at hr
  · rename_i h
    cases hr
    rcases h with rfl | rfl | rfl <;> exact ⟨_, rfl, rfl⟩
  split at hr
  · rename_i h
    cases hr
    rcases h with rfl | rfl | rfl <;> exact ⟨_, rfl, rfl⟩
  · cases hr

/-- A reply whose packet is too short, or whose record leaves the window: nothing is read, nothing answered (R218, R270). -/
theorem sockCb_reply_nothing (hgo : Agrees go ag) (p : Params) {op opByte : Byte} {kind : Kind} {rec : RxRecord}
    {length : Int} {address : Word} {s : State} (hs : s.hif.state = .ready) (hop : opByte &&& 0x7F = op)
    (hr : replyRecord op = some (kind, rec)) (h : length < recSize p rec ∨ ¬inWindow s.hif address (recSize p rec)) :
    Serves go (sockCb p opByte length address) [] (none, false) (fun t => t) s := by
  obtain ⟨f, hnil, hf⟩ := sockCb_reply_fetches p length address hop hr
  rw [hf]
  refine Serves.bind (ys := []) (h := fun t => t) Respects.id (fetch_nothing hgo p rec true hs h) fun u _ => ?_
  rw [hnil]
  exact Serves.ret _ u

section
variable {s : State} {i : Instr} {op : Byte} {flag : Bool} {length : Half} {kind : Kind} {rec : RxRecord} {b : Bytes}
  {r base w : Word} {ev : List BusEvent} {rest : List (Option Byte)}

/-- The callback behind the window just recorded, on a reply whose record lies in it (R211, R270). -/
theorem sockCb_replyRow {u : State} (hr : replyRecord op = some (kind, rec)) (hready : s.hif.state = .ready)
    (hu : u.hif = (windowOpened base r true (newTask s)).hif) (hsock : u.sock = s.sock)
    (hb : b.length = recSize s.params rec)
    (hlen : 8 + recSize s.params rec ≤ length.toNat) (hsize : 8 + recSize s.params rec ≤ sizeOf12 s.params r)
    (hbase : base.toNat + 8 < 2 ^ 24) :
    Serves workerGo (sockCb s.params (hifOpcodeByte op flag) ((length.toNat : Int) - 8) (base + 8))
      (.readBlock ((base + 8).setWidth 24) b :: rxDoneAccesses s.params true w)
      ((matchReply s.sock (replyKey (decRec s.params rec b)).1 (replyKey (decRec s.params rec b)).2 kind).map fun _ =>
        .reply (decRec s.params rec b), false)
      (fun t => (t.mapHif fun h => { h with rxPend := false }).mapSock fun k =>
        (matchReply s.sock (replyKey (decRec s.params rec b)).1 (replyKey (decRec s.params rec b)).2 kind).elim k fun m =>
          { k with mail := mailSet k.mail m (.filled (decRec s.params rec b)) }) u := by
  have haddr : (base + 8).toNat < 2 ^ 24 := by
    rw [BitVec.toNat_add]
    exact Nat.lt_of_le_of_lt (Nat.mod_le _ _) hbase
  have hserves := sockCb_reply_serves (opByte := hifOpcodeByte op flag) (length := (length.toNat : Int) - 8)
    (address := base + 8) (due := true) (s := u) workerGo_agrees s.params w (by rw [hu]; exact hready)
    ((Laws.Encoding.opcode_mask op flag).trans (replyRecord_number hr)) hr hb (by omega)
    (by rw [hu]; exact inWindow_behind_header hsize (by omega)) haddr (by rw [hu]; rfl)
  rw [hsock] at hserves
  cases hm : matchReply s.sock (replyKey (decRec s.params rec b)).1 (replyKey (decRec s.params rec b)).2 kind with
  | none =>
    rw [hm] at hserves
    exact hserves
  | some m =>
    rw [hm] at hserves
    refine hserves.congr ?_
    simp only [State.mapSock, State.mapHif, hsock, fillMail_of_match _ hm, Option.elim_some]

/-- A packet with a reply, received: the entry it matches is filled and the event offered, or it is dropped (R215, R271). -/
theorem replyRow_event (hi : hifRow groupIp op (.inbound flag length) = some i) (hr : replyRecord op = some (kind, rec))
    (hcb : s.hif.cb[groupIp.toNat]'groupIp.isLt = some .socket) (hs : WorkerReady s)
    (hn : (s.hif.subs.map (·.id)).Nodup) (hl : sizeOf12 s.params r ≤ length.toNat + 4)
    (hb : b.length = recSize s.params rec) (hlen : 8 + recSize s.params rec ≤ length.toNat)
    (hsize : 8 + recSize s.params rec ≤ sizeOf12 s.params r) (hbase : base.toNat + 8 < 2 ^ 24)
    (ha : Answers s
      (isrAccesses s.params r ++ [.read s.params.regHifRxBase base] ++
        .readBlock ((base + 8).setWidth 24) b :: rxDoneAccesses s.params true w) ev rest) :
    ∃ t, exec i s = .next t ∧
      Returned
        (workerIdle
          ((matchReply s.sock (replyKey (decRec s.params rec b)).1 (replyKey (decRec s.params rec b)).2 kind).elim
            (windowOpened base r false (newTask s)) fun m =>
            offered ⟨groupIp, op ||| (if flag then 0x80 else 0x00), .reply (decRec s.params rec b)⟩
              ((windowOpened base r false (newTask s)).mapSock fun k =>
                { k with mail := mailSet k.mail m (.filled (decRec s.params rec b)) })))
        (taskOf s) (.ok .unit) ev rest t := by
  have hret := inbound_returned (pend := false) (defer := false) (w := w) hi hcb hs hn (by omega) hl
    (fun u hu hsock _ => sockCb_replyRow (w := w) hr hs.session.ready.1 hu hsock hb hlen hsize hbase)
    (by simpa [rxDoneAccesses] using ha)
  rw [hifOpcodeByte, replyRecord_number hr] at hret
  cases hm : matchReply s.sock (replyKey (decRec s.params rec b)).1 (replyKey (decRec s.params rec b)).2 kind with
  | none =>
    rw [hm] at hret
    exact hret
  | some m =>
    rw [hm] at hret
    exact hret

/-- A packet too short for its record, or whose record leaves the window, is released unread (R216, R270). -/
theorem replyRow_short (hi : hifRow groupIp op (.inbound flag length) = some i) (hr : replyRecord op = some (kind, rec))
    (hcb : s.hif.cb[groupIp.toNat]'groupIp.isLt = some .socket) (hs : WorkerReady s)
    (hn : (s.hif.subs.map (·.id)).Nodup) (hl : sizeOf12 s.params r ≤ length.toNat + 4) (h0 : sizeOf12 s.params r ≠ 0)
    (h : length.toNat < 8 + recSize s.params rec ∨ sizeOf12 s.params r < 8 + recSize s.params rec)
    (ha : Answers s
      (isrAccesses s.params r ++ [.read s.params.regHifRxBase base] ++ rxDoneAccesses s.params true w) ev rest) :
    ∃ t, exec i s = .next t ∧
      Returned (workerIdle (windowOpened base r false (newTask s))) (taskOf s) (.ok .unit) ev rest t := by
  refine inbound_returned (pl := none) (pend := true) (defer := false) (f := fun k => k) (xs := []) hi hcb hs hn h0 hl
    (fun u hu _ _ => ?_) ha
  have hserves := sockCb_reply_nothing (opByte := hifOpcodeByte op flag) (length := (length.toNat : Int) - 8)
    (address := base + 8) (s := u) workerGo_agrees s.params (by rw [hu]; exact hs.session.ready.1)
    ((Laws.Encoding.opcode_mask op flag).trans (replyRecord_number hr)) hr
    (h.imp (fun h => by omega) fun h => by rw [hu]; exact not_inWindow_behind_header h)
  have hpend : u.hif.rxPend = true := by rw [hu]; rfl
  exact hserves.congr (by simp only [State.mapHif, State.mapSock, ← hpend])

end

/-- Settles O36: which entry matches, what the records hold, and the row by `inbound_returned` around the callback. -/
theorem repliesFillTheirEntry : Obligations.RepliesFillTheirEntry := by
  refine ⟨fun k sock sid kind m hn => matchReply_iff_matches hn, fun p rec fields rep b h => ⟨h.sized, h.decoded⟩,
    fun p ip b hw hb => decRec_dns_open hw hb, ?_⟩
  intro s i op flag length kind rec b r addr w ev rest size rep hi hr hcb hs hn hl
  refine ⟨fun hb hlen hsize hbase ha => ?_, fun h0 h ha => replyRow_short hi hr hcb hs hn hl h0 h ha⟩
  obtain ⟨t, hexec, hret⟩ := replyRow_event hi hr hcb hs hn hl hb hlen hsize hbase ha
  refine ⟨t, hexec, ?_⟩
  split
  · rename_i m hm
    rwa [hm] at hret
  · rename_i hm
    rwa [hm] at hret

end Sys2Proof.Machine

/-!
PROOFS. The framer by itself (spec/40_framer.md): the frame builders (R131 to R141; logs 5, 12), the CRC7 in its table form
(R130; log 15) and the tag scan (R147).
-/

namespace Sys2Proof.Machine

/-! ### The frame registers (R21, R90, R92) -/

/-- The frame registers behind a builder begin with the frame, whether or not a CRC byte goes with it (R92, R96). -/
theorem buildFrame_bytes (c : Cmd) (s : State) :
    (buildFrame c s).fr.cf.toList.take c.bytes.length = c.bytes := by
  have hwire := frameBytes_buildFrame c s
  rw [frameBytes, commandWire, buildFrame_crcEn] at hwire
  refine List.append_inj_left' hwire ?_
  cases s.fr.crcEn <;> rfl

/-- The two address bytes of a clockless frame: the flag is bit 7 of the first (R93). -/
theorem be2Clockless_eq (a : BitVec 15) :
    be2Clockless a = [0x80 ||| (a.extractLsb' 8 7).setWidth 8, a.extractLsb' 0 8] := by
  have flag : ∀ x : BitVec 7, 1#1 ++ x = (0x80 ||| x.setWidth 8 : Byte) := by decide
  rw [be2Clockless, flag]

/-! ### A frame builder under `T_LOCK` (R131 to R141; log 12) -/

/-- A builder whose operands are in range has a meaning except while the session boots (R374; log 12). -/
theorem buildRow_inRange {s : State} {c : Cmd} (i : Instr) (hb : s.hif.state ≠ .bootstrapping)
    (hi : initializing s = false) (hc : c.inRange = true) : buildRow i c s = startTask i (buildProgram c) s := by
  have hstate : [HifState.uninitialized, .ready, .shutdown].contains s.hif.state = true := by
    revert hb
    cases s.hif.state <;> decide
  rw [buildRow, if_pos hc, whenIn, if_pos ⟨hstate, hi⟩]

/-- The program of a frame builder: `T_LOCK` is free again behind it, and the frame registers are all it leaves. -/
theorem Runs.buildProgram {s : State} (c : Cmd) (hl : s.tr.lock = .free) (hy : s.env.yields = []) :
    Runs (taskOf s) (Machine.buildProgram c) (newTask s) (.ok .unit) (buildFrame c (newTask s)) := by
  have hlock : perform .lockT (.caller (taskOf s)) (newTask s) = (some .unit, lockedTask s) := by
    simp only [perform, doLockT, newTask_tr, hl, Lock.take, lockedTask]
  have hfree : (buildFrame c (lockedTask s)).mapTr (fun t => { t with lock := t.lock.drop (.caller (taskOf s)) }) =
      buildFrame c (newTask s) := by
    have htr : ({ s.tr with lock := Lock.drop (.held (.caller (taskOf s))) (.caller (taskOf s)) } : Transport) = s.tr := by
      simp only [Lock.drop, if_true, ← hl]
    exact congrArg (fun r => (buildFrame c (newTask s)).mapTr fun _ => r) htr
  refine Runs.andThen hlock hy ?_
  rw [endAction_eq (s := lockedTask s) hy rfl]
  refine Runs.act (v := .unit) (t := buildFrame c (lockedTask s)) rfl hy ?_
  rw [endAction_eq (s := buildFrame c (lockedTask s)) hy rfl]
  refine Runs.andThen (v := .unit) rfl hy ?_
  rw [hfree, endAction_eq (s := buildFrame c (newTask s)) hy rfl]
  exact Runs.ret _ _

/-- A builder writes its frame and nothing else (R21, R96; log 5). -/
theorem buildFrame_framed (c : Cmd) (s : State) : Framed c.bytes s (buildFrame c s) where
  len := rfl
  bytes := buildFrame_bytes c s
  crc := rfl
  fr := rfl
  rest := rfl

/-- A frame builder invoked with operands in range (R131 to R141). -/
theorem buildRow_built {s : State} {i : Instr} {c : Cmd} (he : exec i s = buildRow i c s)
    (hb : s.hif.state ≠ .bootstrapping) (hi : initializing s = false) (hl : s.tr.lock = .free) (hy : s.env.yields = [])
    (hc : c.inRange = true) : ∃ t, exec i s = .next t ∧ Built c.bytes s t := by
  refine ⟨_, ?_, buildFrame c (newTask s), buildFrame_framed c (newTask s), rfl⟩
  rw [he, buildRow_inRange i hb hi hc]
  exact startTask_of_eval (Runs.buildProgram c hl hy)

/-- Settles O9: every builder is `buildRow` of its command, whose bytes are the frame. -/
theorem frameBuildersWriteTheirFrames : Obligations.FrameBuildersWriteTheirFrames := by
  intro s hb hi hl hy
  have built : ∀ {i : Instr} (c : Cmd), exec i s = buildRow i c s → c.inRange = true →
      ∃ t, exec i s = .next t ∧ Built c.bytes s t := fun c he hc => buildRow_built he hb hi hl hy hc
  refine ⟨fun a n => built (.dmaWrite a n) rfl rfl, fun a n => built (.dmaRead a n) rfl rfl, fun a d h => ?internalWrite,
    fun a h => ?internalRead, built .terminate rfl rfl, built .repeatData rfl rfl, fun a n h2 h => ?extWrite,
    fun a n h => built (.extRead a n) rfl (decide_eq_true h), fun a d h => built (.singleWrite a d) rfl (decide_eq_true h),
    fun a h => built (.singleRead a) rfl (decide_eq_true h), built .reset rfl rfl⟩
  case internalWrite =>
    have hbytes : (Cmd.internalWrite a d).bytes = 0xC3 :: (be2Clockless a ++ be4 d) := rfl
    rw [be2Clockless_eq] at hbytes
    have hbuilt := built (i := .cmdInternalWrite a d) (.internalWrite a d) rfl (decide_eq_true h)
    rwa [hbytes] at hbuilt
  case internalRead =>
    have hbytes : (Cmd.internalRead a).bytes = 0xC4 :: (be2Clockless a ++ [0x00]) := rfl
    rw [be2Clockless_eq] at hbytes
    have hbuilt := built (i := .cmdInternalRead a) (.internalRead a) rfl (decide_eq_true h)
    rwa [hbytes] at hbuilt
  case extWrite =>
    refine built (.extWrite a n) rfl ?_
    rw [Cmd.inRange, decide_eq_true h2, decide_eq_true h]
    rfl

/-! ### The CRC7 (R130; log 15) -/

/-- One bit through the register is linear: a value laid over the register meets the bit with its top bit, and moves on
(R130). -/
theorem crc7Bit_xor (poly q d : BitVec 7) (bit : Bool) :
    crc7Bit poly (q ^^^ d) bit = crc7Bit poly q (d.msb ^^ bit) ^^^ (d <<< 1) := by
  have hfeed : ((q ^^^ d).msb != bit) = (q.msb != (d.msb ^^ bit)) := by
    rw [BitVec.msb_xor]
    cases q.msb <;> cases d.msb <;> cases bit <;> rfl
  simp only [crc7Bit, hfeed, BitVec.shiftLeft_xor_distrib]
  split
  · ac_rfl
  · rfl

/-- A byte through a register that holds `c` is `c`, one bit to the left, laid over the byte, through an empty register:
the seven bits of `c` meet the byte's upper seven, and none is left (R130). -/
theorem crc7Byte_table (poly c : BitVec 7) (b : Byte) :
    crc7Byte poly c b = crc7Byte poly 0 ((c.setWidth 8 <<< 1) ^^^ b) := by
  have hlaid : crc7Byte poly c b = crc7Byte poly (0#7 ^^^ c) b := by rw [BitVec.zero_xor]
  rw [hlaid]
  simp only [crc7Byte, List.foldl_cons, List.foldl_nil, crc7Bit_xor]
  simp [BitVec.msb_eq_getLsbD_last]

/-- The CRC of a byte string, its first byte run through the register (R130). -/
theorem crc7With_cons (poly init : BitVec 7) (b : Byte) (bs : Bytes) :
    crc7With poly init (b :: bs) = crc7With poly (crc7Byte poly init b) bs := rfl

/-- R130's example of a command frame: `CMD_SINGLE_READ` of 0x001234, byte by byte. -/
theorem crc7_singleRead_example : crc7With 0x09 0x7F [0xCA, 0x00, 0x12, 0x34] = 0x7C := by
  have h0 : crc7Byte 0x09 0x7F 0xCA = 0x0F := by decide
  have h1 : crc7Byte 0x09 0x0F 0x00 = 0x67 := by decide
  have h2 : crc7Byte 0x09 0x67 0x12 = 0x50 := by decide
  have h3 : crc7Byte 0x09 0x50 0x34 = 0x7C := by decide
  rw [crc7With_cons, h0, crc7With_cons, h1, crc7With_cons, h2, crc7With_cons, h3]
  rfl

/-- Settles O12: the table form for every register, the values by running the register on them. -/
theorem crcTableForm : Obligations.CrcTableForm :=
  ⟨crc7Byte_table, by decide, by decide, by decide, by decide, by decide, by decide, crc7_singleRead_example⟩

/-! ### The tag scan (R147) -/

/-- Filler bytes sent, and what comes back with them. -/
theorem xferEvents_filler (rx : Bytes) :
    xferEvents (filler rx.length) rx = rx.map fun x => .xfer 0x00 (some x) := by
  induction rx with
  | nil => rfl
  | cons x rx ih => exact congrArg (BusEvent.xfer 0x00 (some x) :: ·) ih

/-- Settles O13: `scanTag_moved` for a tag among ten bytes, `scanTag_none` for ten bytes without one. -/
theorem tagScanTakesTheFirstTag : Obligations.TagScanTakesTheFirstTag := by
  refine ⟨fun s noise b rest hn ht hb hm => ?_, fun s bytes rest hl ht hm => ?_, rfl⟩
  · obtain ⟨t, hscan, hmoved⟩ := scanTag_moved noise tagScanMax b rest s hn ht hb hm
    have hlen : noise.length + 1 = (noise ++ [b]).length := by simp
    rw [hlen, xferEvents_filler] at hmoved
    rw [hscan]
    exact ⟨rfl, hmoved.miso, hmoved.bus⟩
  · obtain ⟨t, hscan, hmoved⟩ := scanTag_none bytes rest s ht hm
    have hmax : bytes.length = tagScanMax := hl
    rw [xferEvents_filler] at hmoved
    rw [hmax] at hscan
    rw [hscan]
    exact ⟨rfl, hmoved.miso, hmoved.bus⟩

end Sys2Proof.Machine

/-!
PROOFS. Transport operations behind failed attempts (spec/41_transport.md R172, R173, R176 to R181): how each operation ends
by the exchanges of its accesses, and the attempts that are retried or not.
-/

namespace Sys2Proof.Machine

/-! ### The operations invoked (R61, R176 to R181) -/

section
variable {s : State} {addr : Word} (hr : Ready s) (ha : addr.toNat < 2 ^ 24)
include hr ha

theorem exec_opReadRegister : exec (.opReadRegister addr) s = startTask (.opReadRegister addr) (readRegisterProg addr) s :=
  whenAddr_inRange hr ha _

theorem exec_opWriteRegister (v : Word) :
    exec (.opWriteRegister addr v) s = startTask (.opWriteRegister addr v) (writeRegisterProg addr v) s :=
  whenAddr_inRange hr ha _

theorem exec_opReadBlock {buf : Span} (h0 : 0 < buf.len) (hb : buf.len < 2 ^ 24) :
    exec (.opReadBlock addr buf) s = startTask (.opReadBlock addr buf) (readBlockProg addr buf) s := by
  show execReadBlock addr buf s = _
  rw [execReadBlock, whenAddr_inRange hr ha, if_neg (by omega)]

end

/-- A block that can be cut into pieces is not empty, and its first and its last piece start below `2^24` (R61, R180). -/
theorem Pieces.inRange {a : Nat} {b : Bytes} {xs : List Access} (h : Pieces a b xs) :
    0 < b.length ∧ a < 2 ^ 24 ∧ a + busMtu * ((b.length - 1) / busMtu) < 2 ^ 24 := by
  induction h with
  | last a b h0 hb ha =>
    rw [busMtu] at hb ⊢
    omega
  | more a d rest xs hd hr ha h ih =>
    obtain ⟨-, -, hlast⟩ := ih
    rw [List.length_append]
    rw [busMtu] at hd hlast ⊢
    omega

/-- A block that can be cut into pieces is written (R61, R179 to R181). -/
theorem exec_opWriteBlock {s : State} {addr : Word} {buf : Span} {xs : List Access} (hr : Ready s)
    (hp : Pieces addr.toNat (memReadBytes s.mem buf.base buf.len) xs) :
    exec (.opWriteBlock addr buf) s = startTask (.opWriteBlock addr buf) (writeBlockProg addr buf) s := by
  obtain ⟨h0, ha, hlast⟩ := hp.inRange
  rw [memReadBytes_length] at h0 hlast
  have hrange : piecesInRange addr buf.len = true := decide_eq_true hlast
  show execWriteBlock addr buf s = _
  rw [execWriteBlock, whenAddr_inRange hr ha, if_neg (by omega), hrange, if_pos rfl]

/-- The first piece of a block: its first bytes, as many as the MTU lets through; the only one holds them all (R180). -/
theorem Pieces.first {a : Nat} {b : Bytes} {x : Access} {after : List Access} (h : Pieces a b (x :: after)) :
    x = .writeBlock (BitVec.ofNat 24 a) (b.take busMtu) ∧ (after = [] → b.length ≤ busMtu) := by
  cases h with
  | last _ _ h0 hb ha => exact ⟨by rw [List.take_of_length_le hb], fun _ => hb⟩
  | more _ d rest _ hd hr ha h =>
    refine ⟨by rw [← hd, List.take_left], ?_⟩
    rintro rfl
    cases h

/-! ### What a call leaves -/

/-- A call of a transport operation that ended in `r` at attempt `k` of its last access, the errors `errs` met on the way:
`ev` went over the bus, memory is `m`, nothing else changed. -/
def Concludes (s : State) (i : Instr) (r : Result) (errs : List Err) (k : Nat) (ev : List BusEvent)
    (rest : List (Option Byte)) (m : List Host.Cell) : Prop :=
  ∃ t, exec i s = .next t ∧ Returned (noted errs ((newTask s).setMem m)) (taskOf s) r ev rest t ∧ t.tr.att = k

/-- A call whose program ends within its turn. -/
theorem Concludes.of_runs {s u : State} {i : Instr} {p : Prog (Except Err Value)} {r : Except Err Value}
    {errs : List Err} {k : Nat} {ev : List BusEvent} {rest : List (Option Byte)} {m : List Host.Cell}
    (he : exec i s = startTask i p s) (h : Runs (taskOf s) p (newTask s) r u)
    (hd : BusDone (noted errs ((newTask s).setMem m)) u ev rest) (hk : u.tr.att = k) :
    Concludes s i (toResult r) errs k ev rest m :=
  ⟨_, he.trans (startTask_of_eval h), ⟨u, hd, rfl⟩, hk⟩

section
variable {s u : State} {ev : List BusEvent} {rest : List (Option Byte)}

/-- Whether an expiry is pending does not matter to what operations on the bus leave (log 19). -/
theorem BusDone.withFired (h : BusDone s u ev rest) (b : Bool) :
    BusDone s (u.mapEnv fun e => { e with fired := b }) ev rest :=
  { h with
    env := by
      show ({ u.env with fired := b } : Env) = _
      rw [h.env]
      rfl }

/-- The lent span filled behind operations on the bus (R178). -/
theorem BusDone.fillSpan (h : BusDone s u ev rest) (sp : Span) (b : Bytes) :
    BusDone (s.setMem (memWriteBytes s.mem sp.base (b.take sp.len))) (fillSpan sp b u) ev rest :=
  Respects.memory (fun m => memWriteBytes m sp.base (b.take sp.len)) _ _ _ _ h

/-- The lent span freed behind operations on the bus (R178, U7; log 6). -/
theorem BusDone.scrambleSpan (h : BusDone s u ev rest) (sp : Span) :
    BusDone (s.setMem (scrambleSpan sp u).mem) (scrambleSpan sp u) ev rest :=
  { h with
    mem := rfl
    env := by
      show ({ u.env with free := u.env.free + sp.len } : Env) = _
      rw [h.env]
      rfl }

end

/-! ### An access that succeeds behind failed attempts (R172, R176 to R179) -/

section
variable {go : Action → State → Option Val × State} {ag : Agent} {s : State} {errs : List Err} {ev : List BusEvent}
  {r : List (Option Byte)}

/-- `readRegister` behind attempts that fail (R172, R176). -/
theorem readReg_succeeds (hgo : Agrees go ag) (hs : BusReady s) {a : Addr} {v : Word}
    (h : Succeeds s.params s.fr.crcEn s.fr.pktLimit (.read a v) errs ev) (hm : s.env.miso = answersOf ev ++ r) :
    ∃ u, (readReg a).eval go s = some (.ok v, u) ∧ BusDone (noted errs s) u ev r ∧ u.tr.att = errs.length + 1 := by
  obtain ⟨_, c, f, ev1, ev2, hc, hf, hn, hw⟩ := h
  cases hc
  cases hw with
  | read _ _ x hi ev2 hx hframe =>
    obtain ⟨u, eu, du, _, hk⟩ := runExchange_retried (d := .read 4 (.operand 4)) hgo hs rfl hf hn hm fun t k ev0 m =>
      exchange_read (s := noted errs s) hgo _ _ x ev2 hi (.operand 4) (legal_pos hs.limit) m hx hframe
    refine ⟨u, ?_, du, hk⟩
    rw [readReg, Prog.eval_tryBind_ok eu, Prog.eval_ret, fromLe_word]

/-- `writeRegister` behind attempts that fail (R172, R177). -/
theorem writeReg_succeeds (hgo : Agrees go ag) (hs : BusReady s) {a : Addr} {v : Word}
    (h : Succeeds s.params s.fr.crcEn s.fr.pktLimit (.write a v) errs ev) (hm : s.env.miso = answersOf ev ++ r) :
    ∃ u, (writeReg a v).eval go s = some (.ok (), u) ∧ BusDone (noted errs s) u ev r ∧ u.tr.att = errs.length + 1 := by
  obtain ⟨_, c, f, ev1, ev2, hc, hf, hn, hw⟩ := h
  cases hc
  cases hw with
  | write _ _ x hi hx =>
    obtain ⟨u, eu, du, _, hk⟩ := runExchange_retried (d := .absent) hgo hs rfl hf hn hm fun t k ev0 m =>
      exchange_absent (s := noted errs s) hgo _ x hi m hx
    refine ⟨u, ?_, du, hk⟩
    rw [writeReg, Prog.eval_tryBind_ok eu, Prog.eval_ret]

/-- `readBlock` behind attempts that fail (R172, R178, R181). -/
theorem readBlockAt_succeeds (hgo : Agrees go ag) (hs : BusReady s) {a : Addr} {b : Bytes} (into : DataRef)
    (h : Succeeds s.params s.fr.crcEn s.fr.pktLimit (.readBlock a b) errs ev) (hm : s.env.miso = answersOf ev ++ r) :
    ∃ u, (readBlockAt a b.length into).eval go s = some (.ok b, u) ∧ BusDone (noted errs s) u ev r ∧
      u.tr.att = errs.length + 1 := by
  obtain ⟨_, c, f, ev1, ev2, hc, hf, hn, hw⟩ := h
  cases hc
  cases hw with
  | readBlock _ _ d x hi ev2 h0 hb hd hp hx hframe =>
    rw [← hd] at hf
    obtain ⟨u, eu, du, _, hk⟩ := runExchange_retried (d := .read d.length into) hgo hs rfl hf hn hm fun t k ev0 m =>
      exchange_read (s := noted errs s) hgo _ _ x ev2 hi into (legal_pos hs.limit) m hx hframe
    refine ⟨u, ?_, du, hk⟩
    rw [readBlockAt, show wireLen b.length = d.length from hd.symm, Prog.eval_tryBind_ok eu, Prog.eval_ret, ← hp]

/-- No piece is left: the block is written. -/
theorem writePieces_empty (n a : Nat) {src : Source} (s : State) (h : src.len = 0) :
    (writePieces n a src).eval go s = some (.ok (), s) := by
  cases n with
  | zero => rfl
  | succ n =>
    rw [writePieces, if_pos h]
    rfl

/-- A block whose pieces all succeed, each behind its own failed attempts (R179, R180). -/
theorem writePieces_succeeds (hgo : Agrees go ag) (hs : BusReady s) {before : List Access} {x : Access} {a n : Nat}
    {b : Bytes} {src : Source} {errs' : List Err} {ev' : List BusEvent} (hp : Pieces a b (before ++ [x]))
    (hb : AllSucceed s.params s.fr.crcEn s.fr.pktLimit before errs ev) (hn : b.length ≤ n) (hl : src.load s.mem = b)
    (hx : Succeeds s.params s.fr.crcEn s.fr.pktLimit x errs' ev') (hm : s.env.miso = answersOf (ev ++ ev') ++ r) :
    ∃ u, (writePieces n a src).eval go s = some (.ok (), u) ∧ BusDone (noted (errs ++ errs') s) u (ev ++ ev') r ∧
      u.tr.att = errs'.length + 1 := by
  rw [answersOf_append, List.append_assoc] at hm
  obtain ⟨u, a', b', n', src', eu, hp', hn', hl', du⟩ :=
    writePieces_prefix hgo before [] x a b errs ev n src s _ hp hb hn hl hs rfl rfl rfl hm
  obtain ⟨h0, ha, -⟩ := hp'.inRange
  obtain ⟨rfl, hshort⟩ := hp'.first
  obtain ⟨n', rfl⟩ : ∃ q, n' = q + 1 := ⟨n' - 1, by omega⟩
  have hlen : src'.len = b'.length := by rw [← hl', Source.load_length]
  obtain ⟨w, ew, dw, hk⟩ := writePiece_succeeds (src := src'.take busMtu) hgo (noted_ready hs du) ha
    (by rw [Source.load_take, hl']) (by rw [du.params, du.crcEn, du.limit]; exact hx) du.miso
  have hrest : (src'.drop busMtu).len = 0 := by
    have := hshort rfl
    rw [← Source.load_length _ u.mem, Source.load_drop, hl', List.length_drop]
    omega
  refine ⟨w, ?_, du.noted_trans dw, hk⟩
  rw [eu, writePieces, if_neg (by omega), Prog.eval_tryBind_ok ew, writePieces_empty _ _ _ hrest]

/-! ### An access whose exchanges end in an error (R172, R173) -/

/-- The exchanges of a command and its data frame end in the error `e` at attempt `k`, whatever holds the data. -/
def ExchangeFails (go : Action → State → Option Val × State) (c : Cmd) (f : DataFrame) (e : Err) (errs : List Err)
    (k : Nat) (ev : List BusEvent) (r : List (Option Byte)) (s : State) : Prop :=
  ∀ d : DataPhase, d.Moves s.mem f →
    ∃ u, (runExchange c d).eval go s = some (.error e, u) ∧ BusDone (noted errs s) u ev r ∧ u.tr.att = k

/-- The first piece of a block ends in an error: no piece after it is sent (R180). -/
theorem writePieces_stops {x : Access} {after : List Access} {a n k : Nat} {b : Bytes} {src : Source} {c : Cmd}
    {f : DataFrame} {e : Err} (hp : Pieces a b (x :: after)) (hn : b.length ≤ n) (hl : src.load s.mem = b)
    (hc : Carries x c f) (hx : ExchangeFails go c f e errs k ev r s) :
    ∃ u, (writePieces n a src).eval go s = some (.error e, u) ∧ BusDone (noted errs s) u ev r ∧ u.tr.att = k := by
  obtain ⟨h0, ha, -⟩ := hp.inRange
  obtain ⟨rfl, -⟩ := hp.first
  obtain ⟨n, rfl⟩ : ∃ q, n = q + 1 := ⟨n - 1, by omega⟩
  have hlen : src.len = b.length := by rw [← hl, Source.load_length]
  have hload : (src.take busMtu).load s.mem = b.take busMtu := by rw [Source.load_take, hl]
  cases hc with
  | writeBlock _ _ d h0' hmtu hd =>
    obtain ⟨u, eu, du, hk⟩ := hx (.write (src.take busMtu)) (moves_write h0' hload hd)
    refine ⟨u, ?_, du, hk⟩
    rw [← (padBlock_eq h0' hload hd).2] at eu
    rw [writePieces, if_neg (by omega), Prog.eval_tryBind_error]
    rw [writePiece, if_pos ha, Prog.eval_tryBind_error eu]

/-- A block whose piece behind those that succeed ends in an error (R180). -/
theorem writePieces_stopsLater (hgo : Agrees go ag) (hs : BusReady s) {before after : List Access} {x : Access}
    {a n k : Nat} {b : Bytes} {src : Source} {c : Cmd} {f : DataFrame} {e : Err} {errs' : List Err}
    {ev' : List BusEvent} (hp : Pieces a b (before ++ x :: after))
    (hb : AllSucceed s.params s.fr.crcEn s.fr.pktLimit before errs ev) (hn : b.length ≤ n) (hl : src.load s.mem = b)
    (hc : Carries x c f) (hm : s.env.miso = answersOf ev ++ (answersOf ev' ++ r))
    (hx : ∀ u, BusDone (noted errs s) u ev (answersOf ev' ++ r) → ExchangeFails go c f e errs' k ev' r u) :
    ∃ u, (writePieces n a src).eval go s = some (.error e, u) ∧ BusDone (noted (errs ++ errs') s) u (ev ++ ev') r ∧
      u.tr.att = k := by
  obtain ⟨u, a', b', n', src', eu, hp', hn', hl', du⟩ :=
    writePieces_prefix hgo before after x a b errs ev n src s _ hp hb hn hl hs rfl rfl rfl hm
  obtain ⟨w, ew, dw, hk⟩ := writePieces_stops hp' hn' hl' hc (hx u du)
  exact ⟨w, eu.trans ew, du.noted_trans dw, hk⟩

end

/-! ### `readBlock` around its one access (R178) -/

section
variable {id : Nat} {s u : State} {addr : Word} {buf : Span} {b : Bytes} (ha : addr.toNat < 2 ^ 24)
  (hl : buf.len = b.length) (hy : s.env.yields = [])
include ha hl hy

/-- The bytes read fill the lent span (R178). -/
theorem Runs.readBlockProg_ok (h : Runs id (readBlockAt (addr.setWidth 24) b.length (.span buf)) s (.ok b) u) :
    Runs id (readBlockProg addr buf) s (.ok .unit) ((fillSpan buf b u).mapEnv fun e => { e with fired := false }) := by
  have hdev : Runs id (devRead addr buf.len (.span buf)) s (.ok b) u := by
    rw [devRead, if_pos ha, hl]
    exact h
  exact Runs.bind (Runs.tryBind_ok hdev (Runs.last (v := .unit) (Except.ok Value.unit) rfl (h.yields hy))) (Runs.ret _ _)

/-- An access that ends in an error leaves the lent span free (R178, U7; log 6). -/
theorem Runs.readBlockProg_error {e : Err}
    (h : Runs id (readBlockAt (addr.setWidth 24) b.length (.span buf)) s (.error e) u) :
    Runs id (readBlockProg addr buf) s (.error e) ((scrambleSpan buf u).mapEnv fun e => { e with fired := false }) := by
  have hdev : Runs id (devRead addr buf.len (.span buf)) s (.error e) u := by
    rw [devRead, if_pos ha, hl]
    exact h
  exact Runs.scrambleOnError_error (Runs.tryBind_error hdev) hy

end

/-! ### The four operations (R174, R176 to R181) -/

/-- An operation of one access has no access before it or after it. -/
theorem eq_of_append_cons_eq_singleton {α : Type} {l l' : List α} {a x : α} (h : l ++ a :: l' = [x]) :
    l = [] ∧ a = x ∧ l' = [] := by
  simpa [List.append_eq_singleton_iff] using h

section
variable {s : State} {i : Instr} {before after : List Access} {a : Access} {v : Value} {sp : Option (Span × Bytes)}
  {errs0 errs : List Err} {ev0 ev : List BusEvent} {rest : List (Option Byte)}

/-- An operation whose accesses all succeed, behind failed attempts or without, ends ok (R148, R172, R180). -/
theorem Transfers.concludes_ok (hr : Ready s) (hs : BusReady s) (hwf : Memory.wf s.mem = true)
    (ht : Transfers s i (before ++ [a]) v sp) (hb : AllSucceed s.params s.fr.crcEn s.fr.pktLimit before errs0 ev0)
    (hx : Succeeds s.params s.fr.crcEn s.fr.pktLimit a errs ev) (hm : s.env.miso = answersOf (ev0 ++ ev) ++ rest) :
    ∃ m, Concludes s i (.ok v) (errs0 ++ errs) (errs.length + 1) (ev0 ++ ev) rest m ∧
      (sp = none → m = s.mem) ∧ ∀ buf b, sp = some (buf, b) → Filled s.mem m buf b := by
  have hgo := callerGo_agrees (taskOf s)
  have hs' := hs.newTask
  generalize hxs : before ++ [a] = xs at ht
  cases ht with
  | read addr v ha =>
    obtain ⟨rfl, rfl, -⟩ := eq_of_append_cons_eq_singleton hxs
    cases hb
    obtain ⟨u, eu, du, hk⟩ := readReg_succeeds (s := newTask s) hgo hs' hx hm
    exact ⟨s.mem, .of_runs (exec_opReadRegister hr ha) (Runs.tryBind_ok eu (Runs.ret _ u)) du hk, fun _ => rfl,
      fun _ _ h => nomatch h⟩
  | write addr v ha =>
    obtain ⟨rfl, rfl, -⟩ := eq_of_append_cons_eq_singleton hxs
    cases hb
    obtain ⟨u, eu, du, hk⟩ := writeReg_succeeds (s := newTask s) hgo hs' hx hm
    exact ⟨s.mem, .of_runs (exec_opWriteRegister hr ha v) (Runs.noValue_ok eu) du hk, fun _ => rfl,
      fun _ _ h => nomatch h⟩
  | readBlock addr buf b ha h0 hlt hl =>
    obtain ⟨rfl, rfl, -⟩ := eq_of_append_cons_eq_singleton hxs
    cases hb
    obtain ⟨u, eu, du, hk⟩ := readBlockAt_succeeds (s := newTask s) hgo hs' (.span buf) hx hm
    refine ⟨memWriteBytes s.mem buf.base (b.take buf.len),
      .of_runs (exec_opReadBlock hr ha (hl ▸ h0) (hl ▸ hlt)) (Runs.readBlockProg_ok ha hl hs'.yields eu)
        ((du.fillSpan buf b).withFired false) hk, (fun h => nomatch h), ?_⟩
    rintro _ _ ⟨⟩
    have hfilled := filled_memWriteBytes hwf buf.base b
    rw [← hl] at hfilled
    rwa [hl, List.take_length]
  | writeBlock addr buf xs hp =>
    subst hxs
    obtain ⟨u, eu, du, hk⟩ := writePieces_succeeds (s := newTask s) (src := .span buf) hgo hs' hp hb
      (memReadBytes_length ..).le rfl hx hm
    exact ⟨s.mem, .of_runs (exec_opWriteBlock hr hp) (Runs.noValue_ok eu) du hk, fun _ => rfl, fun _ _ h => nomatch h⟩

/-- An operation whose accesses up to one succeed, and whose exchanges of that one end in an error, ends in it; the
accesses after it are not made (R172, R173, R180). -/
theorem Transfers.concludes_error {c : Cmd} {f : DataFrame} {e : Err} {k : Nat} (hr : Ready s) (hs : BusReady s)
    (hwf : Memory.wf s.mem = true) (ht : Transfers s i (before ++ a :: after) v sp)
    (hb : AllSucceed s.params s.fr.crcEn s.fr.pktLimit before errs0 ev0) (hc : Carries a c f)
    (hm : s.env.miso = answersOf ev0 ++ (answersOf ev ++ rest))
    (hx : ∀ u, BusDone (noted errs0 (newTask s)) u ev0 (answersOf ev ++ rest) →
      ExchangeFails (callerGo (taskOf s)) c f e errs k ev rest u) :
    ∃ m, Concludes s i (.err e) (errs0 ++ errs) k (ev0 ++ ev) rest m ∧
      (sp = none → m = s.mem) ∧ ∀ buf b, sp = some (buf, b) → Spared s.mem m buf := by
  have hgo := callerGo_agrees (taskOf s)
  have hs' := hs.newTask
  -- with no access before it, the one that fails starts from the new task itself
  have hfirst : errs0 = [] → ev0 = [] → ExchangeFails (callerGo (taskOf s)) c f e errs k ev rest (newTask s) := by
    rintro rfl rfl
    have hdone := BusDone.refl hs'
    rw [show (newTask s).env.miso = answersOf ev ++ rest from hm] at hdone
    exact hx _ hdone
  generalize hxs : before ++ a :: after = xs at ht
  cases ht with
  | read addr v ha =>
    obtain ⟨rfl, rfl, -⟩ := eq_of_append_cons_eq_singleton hxs
    cases hb
    cases hc
    obtain ⟨u, eu, du, hk⟩ := hfirst rfl rfl (.read 4 (.operand 4)) rfl
    exact ⟨s.mem, .of_runs (exec_opReadRegister hr ha) (Runs.tryBind_error (Runs.tryBind_error eu)) du hk, fun _ => rfl,
      fun _ _ h => nomatch h⟩
  | write addr v ha =>
    obtain ⟨rfl, rfl, -⟩ := eq_of_append_cons_eq_singleton hxs
    cases hb
    cases hc
    obtain ⟨u, eu, du, hk⟩ := hfirst rfl rfl .absent rfl
    exact ⟨s.mem, .of_runs (exec_opWriteRegister hr ha v) (Runs.noValue_error (Runs.tryBind_error eu)) du hk,
      fun _ => rfl, fun _ _ h => nomatch h⟩
  | readBlock addr buf b ha h0 hlt hl =>
    obtain ⟨rfl, rfl, -⟩ := eq_of_append_cons_eq_singleton hxs
    cases hb
    cases hc
    obtain ⟨u, eu, du, hk⟩ := hfirst rfl rfl (.read (wireLen b.length) (.span buf)) rfl
    refine ⟨(scrambleSpan buf u).mem,
      .of_runs (exec_opReadBlock hr ha (hl ▸ h0) (hl ▸ hlt))
        (Runs.readBlockProg_error ha hl hs'.yields (Runs.tryBind_error eu)) ((du.scrambleSpan buf).withFired false) hk,
      (fun h => nomatch h), ?_⟩
    rintro _ _ ⟨⟩
    have hmem : u.mem = s.mem := du.mem
    rw [← hmem] at hwf ⊢
    exact scrambleSpan_spared hwf buf
  | writeBlock addr buf xs hp =>
    subst hxs
    obtain ⟨u, eu, du, hk⟩ := writePieces_stopsLater (s := newTask s) (src := .span buf) hgo hs' hp hb
      (memReadBytes_length ..).le rfl hc hm hx
    exact ⟨s.mem, .of_runs (exec_opWriteBlock hr hp) (Runs.noValue_error eu) du hk, fun _ => rfl, fun _ _ h => nomatch h⟩

end

/-- Settles O21: every access succeeds, the last at its attempt behind the failed ones. -/
theorem deviceErrorIsRetried : Obligations.DeviceErrorIsRetried := by
  intro s i before a v sp errs0 errs ev0 ev rest hr hs hwf ht hb hx hm
  obtain ⟨m, ⟨t, hexec, hret, hatt⟩, hmem⟩ := ht.concludes_ok hr hs hwf hb hx hm
  exact ⟨t, m, hexec, hret, hatt, hmem⟩

/-- Settles O22: the exchanges of the access that is corrupted end at the attempt it comes in. -/
theorem echoMismatchIsNotRetried : Obligations.EchoMismatchIsNotRetried := by
  intro s i before after a c f v sp errs0 errs e ev0 ev ev' rest hr hs hwf ht hb hc hf hn hcorrupt hm
  rw [List.append_assoc, answersOf_append, List.append_assoc] at hm
  have hfails : ∀ u, BusDone (noted errs0 (newTask s)) u ev0 (answersOf (ev ++ ev') ++ rest) →
      ExchangeFails (callerGo (taskOf s)) c f e errs (errs.length + 1) (ev ++ ev') rest u := by
    intro u hu d hd
    have hparams : u.params = s.params := hu.params
    have hcrc : u.fr.crcEn = s.fr.crcEn := hu.crcEn
    have hlimit : u.fr.pktLimit = s.fr.pktLimit := hu.limit
    rw [← hparams, ← hcrc, ← hlimit] at hf hcorrupt
    obtain ⟨w, ew, dw, -, hk⟩ :=
      runExchange_corrupt (callerGo_agrees _) (noted_ready hs.newTask hu) hd hf hn hcorrupt hu.miso
    exact ⟨w, ew, dw, hk⟩
  obtain ⟨m, ⟨t, hexec, hret, hatt⟩, hmem⟩ := ht.concludes_error hr hs hwf hb hc hm hfails
  rw [← List.append_assoc] at hret
  exact ⟨t, m, hexec, hret, hatt, hmem⟩

end Sys2Proof.Machine

/-!
PROOFS. The transport's operations (spec/41_transport.md R170 to R184): what they send, what they answer, ten failed
attempts, the soft reset, and the packet-size limit.
-/

namespace Sys2Proof.Machine

/-! ### `setPacketSize` (R184, R374) -/

/-- Settles O25: the session state is tested first, then an `Initialize()` in progress, then the limit. -/
theorem setPacketSizeBeforeInitOnly : Obligations.SetPacketSizeBeforeInitOnly := by
  intro s limit
  have hmem : legalLimits.contains limit = true ↔ limit ∈ [256, 512, 1024, 2048, 4096, 8192] := List.contains_iff_mem
  have hexec : exec (.opSetPacketSize limit) s = execSetPacketSize limit s := rfl
  refine ⟨fun hst => ?_, fun hst => ?_⟩
  · have hbooted : s.hif.state ≠ .uninitialized ∧ s.hif.state ≠ .shutdown := by
      rcases hst with h | h <;> rw [h] <;> decide
    rw [hexec, execSetPacketSize, if_pos hbooted]
  · have hdown : ¬(s.hif.state ≠ .uninitialized ∧ s.hif.state ≠ .shutdown) := by
      rcases hst with h | h <;> rw [h] <;> decide
    rw [hexec, execSetPacketSize, if_neg hdown]
    refine ⟨fun hi => if_pos hi, fun hi => ?_⟩
    rw [hi, if_neg Bool.false_ne_true]
    exact ⟨fun hl => if_pos (hmem.mpr hl), fun hl => if_neg (mt hmem.mp hl)⟩

/-! ### The four operations before a device that answers (R176 to R181) -/

/-- `readRegister` makes one access, and answers its word (R176). -/
theorem readRegisterProg_serves {go : Action → State → Option Val × State} {ag : Agent} (hgo : Agrees go ag)
    (addr v : Word) (s : State) :
    Serves go (readRegisterProg addr) [.read (addr.setWidth 24) v] (.ok (.word v)) (fun t => t) s :=
  Serves.tryBind (ys := []) Respects.id (readReg_serves hgo _ v s) fun u _ => Serves.ret _ u

/-- Settles O16: one access, and its word. -/
theorem readRegisterReturnsTheWord : Obligations.ReadRegisterReturnsTheWord := by
  intro s addr v ev rest hr ha hs hans
  exact Returned.of_serves (exec_opReadRegister hr ha) hs hans (readRegisterProg_serves (callerGo_agrees _) addr v _)

/-- Settles O17: one access, and no value. -/
theorem writeRegisterSendsTheWord : Obligations.WriteRegisterSendsTheWord := by
  intro s addr v ev rest hr ha hs hans
  exact Returned.of_serves (exec_opWriteRegister hr ha v) hs hans
    (noValue_serves_ok (writeReg_serves (callerGo_agrees _) _ v _))

/-- An access on the wire without a failed attempt before it (R172). -/
theorem Succeeds.atOnce {p : Params} {crcEn : Bool} {limit : Nat} {a : Access} {c : Cmd} {f : DataFrame}
    {ev : List BusEvent} (hc : Carries a c f) (hw : OnWire p crcEn limit a ev) : Succeeds p crcEn limit a [] ev :=
  .mk a c f [] [] ev hc .nil (by simp) hw

/-- Settles O18: an operation of one access that succeeds at once, whose bytes fill the lent span. -/
theorem readBlockFillsTheSpan : Obligations.ReadBlockFillsTheSpan := by
  rintro s addr buf b ev rest hr ha hs hwf hl ⟨hwire, hm⟩
  obtain _ | ⟨_, _, ev1, _, hw, hnil⟩ := hwire
  obtain _ | _ := hnil
  rw [List.append_nil] at hm ⊢
  obtain ⟨h0, hb⟩ : 0 < b.length ∧ b.length < 2 ^ 24 := by
    cases hw with
    | readBlock _ _ d x hi ev h0 hb => exact ⟨h0, hb⟩
  have hsucceeds := Succeeds.atOnce (.readBlock (addr.setWidth 24) b h0 hb) hw
  obtain ⟨m, ⟨t, hexec, hret, -⟩, -, hfilled⟩ := Transfers.concludes_ok (before := []) hr hs hwf
    (.readBlock addr buf b ha h0 hb hl) .nil hsucceeds hm
  exact ⟨t, m, hexec, hret, hfilled buf b rfl⟩

/-- Settles O19: the pieces one after another. -/
theorem writeBlockSendsThePieces : Obligations.WriteBlockSendsThePieces := by
  intro s addr buf xs ev rest hr _ hs _ hp hans
  exact Returned.of_serves (exec_opWriteBlock hr hp) hs hans
    (noValue_serves_ok
      (writePieces_serves (callerGo_agrees _) hp buf.len (.span buf) (newTask s) (memReadBytes_length ..).le rfl))

/-! ### Ten attempts (R172, R173) -/

/-- Settles O20: the exchanges of the access that fails end with the tenth attempt. -/
theorem tenAttemptsThenTheLastError : Obligations.TenAttemptsThenTheLastError := by
  intro s i before after a c f v sp errs0 errs e ev0 ev ev' rest hr hs hwf ht hb hc hf hn hlast hm
  rw [List.append_assoc, answersOf_append, List.append_assoc] at hm
  have hfails : ∀ u, BusDone (noted errs0 (newTask s)) u ev0 (answersOf (ev ++ ev') ++ rest) →
      ExchangeFails (callerGo (taskOf s)) c f e (errs ++ [e]) 10 (ev ++ ev') rest u := by
    intro u hu d hd
    have hparams : u.params = s.params := hu.params
    have hcrc : u.fr.crcEn = s.fr.crcEn := hu.crcEn
    have hlimit : u.fr.pktLimit = s.fr.pktLimit := hu.limit
    rw [← hparams, ← hcrc, ← hlimit] at hf hlast
    obtain ⟨w, ew, dw, -, hk⟩ :=
      runExchange_exhausted (callerGo_agrees _) (noted_ready hs.newTask hu) hd hf hn hlast hu.miso
    exact ⟨w, ew, dw, hk⟩
  obtain ⟨m, ⟨t, hexec, hret, hatt⟩, hmem⟩ := ht.concludes_error hr hs hwf hb hc hm hfails
  rw [← List.append_assoc, ← List.append_assoc, noted_concat] at hret
  exact ⟨t, m, hexec, hret, hatt, hmem⟩

/-! ### The soft reset (R170, R182) -/

section
variable {id : Nat} {s : State} {rest : List (Option Byte)}

/-- The frame sent: the reset is done (R182). -/
theorem softReset_sent {x : Bytes} (hs : BusReady s) (hx : x.length = (commandWire s.params s.fr.crcEn .reset).length)
    (hm : s.env.miso = x.map some ++ rest) :
    ∃ u, Runs id softReset s (.ok ()) u ∧ BusDone s u (stepEvents (commandWire s.params s.fr.crcEn .reset) x) rest := by
  have hgo := callerGo_agrees id
  obtain ⟨t1, e1, m1⟩ := mid_acquire hgo hs
  rw [hm] at m1
  obtain ⟨t2, e2, m2, -⟩ := mid_command hgo .reset true m1 hx
  obtain ⟨u, e3, du, -⟩ := mid_release hgo m2
  refine ⟨u, ?_, du⟩
  rw [Runs, softReset, Prog.andThen, e1, e2]
  exact e3 _

/-- A transfer that fails is the reset's error (R182; log 18). -/
theorem softReset_cut {tx x tail : Bytes} {b : Byte} (hs : BusReady s)
    (hc : commandWire s.params s.fr.crcEn .reset = tx ++ b :: tail) (hx : x.length = tx.length)
    (hm : s.env.miso = x.map some ++ none :: rest) :
    ∃ u, Runs id softReset s (.error .xfer) u ∧ BusDone s u (failedStep tx x b) rest := by
  have hgo := callerGo_agrees id
  obtain ⟨t1, e1, m1⟩ := mid_acquire hgo hs
  rw [hm] at m1
  obtain ⟨t2, e2, m2⟩ := mid_command_fails hgo .reset true m1 hc hx
  let w := t2.mapTr fun t => { t with seq := .doneErr }
  have m3 : Mid (.caller id) s 1 (endAction w) _ rest := Mid.moved (u := t2) (w := w) (ev' := []) m2
    (by have := Moved.refl t2; rwa [m2.miso] at this) rfl rfl rfl rfl rfl rfl rfl rfl rfl rfl rfl
  obtain ⟨u, e3, du, -⟩ := mid_release hgo m3
  rw [List.append_nil] at du
  refine ⟨u, ?_, du⟩
  rw [Runs, softReset, Prog.andThen, e1, e2]
  show (Prog.andThen .sendFailed _).eval _ _ = _
  rw [Prog.andThen, eval_at_once hgo (t := w) rfl m2.yields]
  exact e3 _

end

/-- Settles O23: the reset that is sent and the reset that is cut short. -/
theorem transportResetSendsOneFrame : Obligations.TransportResetSendsOneFrame := by
  refine ⟨fun s x rest hr hs hx hm => ?_, fun s tx x tail b rest hr hs hc hx hm => ?_⟩
  · obtain ⟨u, hrun, du⟩ := softReset_sent (id := taskOf s) hs.newTask hx hm
    exact ⟨_, (whenReady_ready hr _).trans (startTask_of_eval (Runs.noValue_ok hrun)), u, du, rfl⟩
  · obtain ⟨u, hrun, du⟩ := softReset_cut (id := taskOf s) hs.newTask hc hx hm
    exact ⟨_, (whenReady_ready hr _).trans (startTask_of_eval (Runs.noValue_error hrun)), u, du, rfl⟩

end Sys2Proof.Machine

/-!
PROOFS. Transport `init()` (spec/41_transport.md R183; log 17): its probes, and how it ends.
-/

namespace Sys2Proof.Machine

section
variable {α : Type} {id : Nat} {s t u : State}

/-! ### Runs taken apart -/

/-- A run of an action is its answer, then the run of what follows. -/
theorem Runs.of_act {a : Action} {k : Val → Prog α} {r : α} (h : Runs id (.act a k) s r u) :
    ∃ v t, callerGo id a s = (some v, t) ∧ Runs id (k v) (endAction t) r u := by
  simp only [Runs, Prog.eval] at h
  split at h
  · cases h
  · rename_i v t hgo
    split at h
    · cases h
    · exact ⟨v, t, hgo, h⟩

/-- A run of an assignment is the assignment, then the run of what follows. -/
theorem Runs.of_put {x : Put} {p : Prog α} {r : α} (h : Runs id (.andThen (.put x) p) s r u) :
    Runs id p (endAction (x.apply s)) r u := by
  obtain ⟨v, t, hgo, hp⟩ := Runs.of_act h
  rw [callerGo_agrees id (.put x) s .unit (x.apply s) rfl] at hgo
  cases hgo
  exact hp

/-- A run of two programs in sequence is a run of each. -/
theorem Runs.of_bind {β : Type} {p : Prog α} {f : α → Prog β} {b : β} (h : Runs id (p.bind f) s b u) :
    ∃ a t, Runs id p s a t ∧ Runs id (f a) t b u := by
  rw [Runs, Prog.eval_bind, Option.bind_eq_some_iff] at h
  obtain ⟨⟨a, t⟩, hp, hf⟩ := h
  exact ⟨a, t, hp, hf⟩

/-! ### Transport `init()` (R183) -/

/-- One assignment, where there is no hand-over choice and no expiry. -/
theorem Runs.put {x : Put} {p : Prog α} {r : α} (hy : s.env.yields = []) (hf : s.env.fired = false)
    (h : Runs id p (x.apply s) r u) : Runs id (.andThen (.put x) p) s r u :=
  Runs.puts (l := [x]) hy hf h

/-- `CRC_EN` is set, the probe and the write-back follow, `CRC_EN` is reset (R183). -/
theorem Runs.transportInit {p : Params} {r : Except Err Unit} (hy : s.env.yields = []) (hf : s.env.fired = false)
    (h : Runs id ((probeConfig p).tryBind (cfgWriteback p)) (s.mapFr fun f => { f with crcEn := true }) r t) :
    Runs id (transportInit p) s r
      ((t.mapFr fun f => { f with crcEn := false }).mapEnv fun e => { e with fired := false }) :=
  Runs.put hy hf (Runs.bind h (Runs.last (v := .unit) r rfl (h.yields hy)))

/-- Behind a first probe that fails, the second probe answers (R183). -/
theorem Runs.probeConfig_again {p : Params} {e : Err} {r : Except Err Word} (hy : s.env.yields = [])
    (hf : s.env.fired = false) (h1 : Runs id (readReg p.regProtocolConfig) s (.error e) t)
    (h2 : Runs id (readReg p.regProtocolConfig) (t.mapFr fun f => { f with crcEn := false }) r u) :
    Runs id (probeConfig p) s r u :=
  Runs.bind h1 (Runs.put (h1.yields hy) (Prog.eval_fired h1 hf) h2)

/-- However transport `init()` ends, the last it does is to reset `CRC_EN` (R183). -/
theorem transportInit_crcEn {p : Params} {r : Except Err Unit} (h : Runs id (transportInit p) s r t) :
    t.fr.crcEn = false := by
  obtain ⟨a, u, -, hlast⟩ := Runs.of_bind (Runs.of_put h)
  cases Runs.of_put hlast
  rfl

end

/-- Settles O24: the first probe answered, the first probe failed, and the last assignment on every path. -/
theorem transportInitProbesWithCrc : Obligations.TransportInitProbesWithCrc := by
  refine ⟨fun s w ev rest hr hs ⟨hwire, hm⟩ => ?_, fun s s1 s2 e e2 w hr hy hprobe => ?_,
    fun _ _ _ _ _ h => transportInit_crcEn h⟩
  · obtain ⟨u, hrun, hdone, -⟩ := transportInit_runs (id := taskOf s) hs.newTask hwire hm
    exact ⟨_, (whenReady_ready hr _).trans (startTask_of_eval (Runs.noValue_ok hrun)), u, hdone, rfl⟩
  · have hexec : exec .opTransportInit s = startTask .opTransportInit (noValue (transportInit s.params)) s :=
      whenReady_ready hr _
    have again : ∀ {r},
        Runs (taskOf s) (readReg s.params.regProtocolConfig) (s1.mapFr fun f => { f with crcEn := false }) r s2 →
        Runs (taskOf s) (probeConfig s.params) ((newTask s).mapFr fun f => { f with crcEn := true }) r s2 :=
      fun h => Runs.probeConfig_again (s := (newTask s).mapFr _) hy rfl hprobe h
    refine ⟨fun hagain => ?_, fun hnone hagain => ?_⟩
    · have hbody := Runs.tryBind_error (f := cfgWriteback s.params) (again hagain)
      exact (Ends.of_runs hexec (Runs.noValue_error (Runs.transportInit (s := newTask s) hy rfl hbody))).of_unfired
    · have hbody := Runs.tryBind_ok (f := cfgWriteback s.params) (b := .ok ())
        (again hagain) (by rw [cfgWriteback, hnone]; exact Runs.ret _ s2)
      exact (Ends.of_runs hexec (Runs.noValue_ok (Runs.transportInit (s := newTask s) hy rfl hbody))).of_unfired

end Sys2Proof.Machine

/-!
PROOFS. Operations that wait for a lock, and their next turn (spec/00_scope.md R72, spec/41_transport.md R175, R183,
spec/42_hif.md R208, R220, spec/43_socket.md R253; logs 1, 10, 11, 12, 23).
-/

namespace Sys2Proof.Machine

/-! ### A program that begins with a lock another agent holds -/

section
variable {α : Type} {go : Action → State → Option Val × State} {a : Action} {k : Val → Prog α} {s t : State} {v : Val}

/-- An action that cannot be done yet parks its agent where it is. -/
theorem Prog.run_blocked (h : go a s = (none, s)) (sofar head : List Val) :
    (Prog.act a k).run go [] sofar head s = .parked sofar.reverse s := by
  simp only [Prog.run, h]

/-- An action that is answered, the agent not handing over after it. -/
theorem Prog.run_answered (h : go a s = (some v, t)) (hy : t.env.yields = []) (sofar head : List Val) :
    (Prog.act a k).run go [] sofar head s = (k v).run go [] (v :: sofar) head (endAction t) := by
  simp only [Prog.run, h, handOver_of_nil hy, Bool.false_eq_true, if_false]

end

/-- A caller that cannot do its action yet, with no input to come, waits; nothing changes (R72). -/
theorem callerGo_blocked {id : Nat} {a : Action} {s : State} (hp : perform a (.caller id) s = (none, s))
    (hi : s.env.inbox = []) (hf : s.env.fired = false) : callerGo id a s = (none, s) := by
  simp only [callerGo, hp, hi, waitFor, dropExpiry_eq hf]
  rw [← hi]
  rfl

/-- An operation that asks for a lock first of all. -/
def Asks (a : Action) (i : Instr) (s : State) : Prop := ∃ k, exec i s = startTask i (.act a k) s

/-- An operation that no gate turns away, and whose program begins with the lock. -/
theorem Asks.of_exec {a : Action} {i : Instr} {s : State} {p : Prog (Except Err Value)}
    (he : exec i s = startTask i p s) (hp : ∃ k, p = .act a k) : Asks a i s := by
  obtain ⟨k, rfl⟩ := hp
  exact ⟨k, he⟩

/-- An operation whose lock is held by another agent waits; nothing changes but the list of waiting tasks (R72). -/
theorem Asks.waits {a : Action} {i : Instr} {s : State} (h : Asks a i s)
    (hp : perform a (.caller (taskOf s)) (newTask s) = (none, newTask s)) (hi : s.env.inbox = []) :
    exec i s = .next (waiting (taskOf s) i [] (newTask s)) := by
  obtain ⟨k, he⟩ := h
  have hgo : callerGo s.env.nextTask a (newTask s) = (none, newTask s) := callerGo_blocked hp hi rfl
  rw [he, startTask, Prog.run_blocked hgo]
  rfl

/-- An operation that does one action, and then waits for a lock held by another agent. -/
theorem startTask_waits_second {a b : Action} {i : Instr} {s t : State} {v : Val} {k k' : Val → Prog (Except Err Value)}
    (ha : perform a (.caller (taskOf s)) (newTask s) = (some v, t)) (hk : k v = .act b k')
    (hb : perform b (.caller (taskOf s)) t = (none, t)) (hy : t.env.yields = []) (hi : t.env.inbox = [])
    (hf : t.env.fired = false) : startTask i (.act a k) s = .next (waiting (taskOf s) i [v] t) := by
  have hgo := callerGo_agrees (taskOf s) _ _ _ _ ha
  rw [taskOf] at hgo hb
  rw [startTask, Prog.run_answered hgo hy, hk, endAction_eq hy hf,
    Prog.run_blocked (callerGo_blocked hb hi hf)]
  rfl

/-! ### `T_LOCK` (R175, R183) -/

section
variable {s : State} {ag : Agent}

theorem perform_acquire_held (id : Nat) (h : s.tr.lock = .held ag) : perform .acquire (.caller id) s = (none, s) := by
  simp only [perform, doAcquire, h, Lock.take]

theorem perform_lockT_held (id : Nat) (h : s.tr.lock = .held ag) : perform .lockT (.caller id) s = (none, s) := by
  simp only [perform, doLockT, h, Lock.take]

/-- A block of one piece begins with that piece's exchange (R180). -/
theorem exec_opWriteBlock_asks {addr : Word} {buf : Span} (hr : Ready s) (ha : addr.toNat < 2 ^ 24) (h0 : 0 < buf.len)
    (hl : buf.len ≤ 2040) : Asks .acquire (.opWriteBlock addr buf) s := by
  have hpieces : Pieces addr.toNat (memReadBytes s.mem buf.base buf.len)
      [.writeBlock (BitVec.ofNat 24 addr.toNat) (memReadBytes s.mem buf.base buf.len)] :=
    .last _ _ (by rwa [memReadBytes_length]) (by rwa [memReadBytes_length]) ha
  obtain ⟨n, hn⟩ : ∃ n, buf.len = n + 1 := ⟨buf.len - 1, by omega⟩
  have hlen : (Source.span buf).len = n + 1 := hn
  refine .of_exec (exec_opWriteBlock hr hpieces) ?_
  rw [writeBlockProg, devWrite, hlen, writePieces, hlen, if_neg (Nat.succ_ne_zero n), writePiece, if_pos ha]
  exact ⟨_, rfl⟩

/-- A block read begins with its exchange (R178). -/
theorem exec_opReadBlock_asks {addr : Word} {buf : Span} (hr : Ready s) (ha : addr.toNat < 2 ^ 24) (h0 : 0 < buf.len)
    (hl : buf.len < 2 ^ 24) : Asks .acquire (.opReadBlock addr buf) s := by
  refine .of_exec (exec_opReadBlock hr ha h0 hl) ?_
  rw [readBlockProg, devRead, if_pos ha]
  exact ⟨_, rfl⟩

/-- A frame builder by itself asks for `T_LOCK` (log 12). -/
theorem builder_asks {c : Cmd} {i : Instr} (hr : Ready s) (hc : c.inRange = true) (he : exec i s = buildRow i c s) :
    Asks .lockT i s :=
  ⟨_, he.trans (buildRow_inRange i (by rw [hr.1]; decide) hr.2 hc)⟩

/-- A chunk written by itself asks for `T_LOCK` (log 11). -/
theorem chunk_asks {d : Bytes} {seq : BitVec 4} {i : Instr} (hr : Ready s) (h0 : 0 < d.length)
    (hl : d.length ≤ s.fr.pktLimit) (he : exec i s = tagRow i seq d s) : Asks .lockT i s :=
  ⟨_, he.trans (tagRow_inRange i seq hr h0 hl)⟩

/-- Each transport operation, each frame builder and each chunk waits for `T_LOCK` (R175). -/
theorem transportOperations_wait (addr v : Word) (buf : Span) (a : Addr) (a15 : BitVec 15) (n : Half) (n24 : BitVec 24)
    (w : Word) (d : Bytes) (seq : BitVec 4) (hr : Ready s) (ha : addr.toNat < 2 ^ 24) (h0 : 0 < buf.len)
    (hl : buf.len ≤ 2040) (hd0 : 0 < d.length) (hd : d.length ≤ s.fr.pktLimit) (haddr : 0xFF < a.toNat)
    (ha15 : a15.toNat ≤ 0x30) (hn0 : 2 ≤ n24.toNat) (hn : n24.toNat ≤ 2040) (hlock : s.tr.lock = .held ag)
    (hi : s.env.inbox = []) :
    ∀ i ∈ [Instr.opReadRegister addr, .opWriteRegister addr v, .opReadBlock addr buf, .opWriteBlock addr buf,
        .opTransportReset, .cmdDmaWrite a n, .cmdDmaRead a n, .cmdInternalWrite a15 w, .cmdInternalRead a15,
        .cmdTerminate, .cmdRepeat, .cmdExtWrite a n24, .cmdExtRead a n24, .cmdSingleWrite a w, .cmdSingleRead a,
        .cmdReset, .tagFirst d, .tagMiddle d, .tagLast d, .tagAny seq],
      exec i s = .next (waiting (taskOf s) i [] (newTask s)) := by
  have exchange : ∀ {i}, Asks .acquire i s → exec i s = .next (waiting (taskOf s) i [] (newTask s)) := fun h =>
    h.waits (perform_acquire_held _ hlock) hi
  have alone : ∀ {i}, Asks .lockT i s → exec i s = .next (waiting (taskOf s) i [] (newTask s)) := fun h =>
    h.waits (perform_lockT_held _ hlock) hi
  have builder : ∀ {c i}, c.inRange = true → exec i s = buildRow i c s →
      exec i s = .next (waiting (taskOf s) i [] (newTask s)) := fun hc he => alone (builder_asks hr hc he)
  have chunk : ∀ {seq i}, exec i s = tagRow i seq d s → exec i s = .next (waiting (taskOf s) i [] (newTask s)) :=
    fun he => alone (chunk_asks hr hd0 hd he)
  simp only [List.forall_mem_cons]
  refine ⟨exchange ⟨_, exec_opReadRegister hr ha⟩, exchange ⟨_, exec_opWriteRegister hr ha v⟩,
    exchange (exec_opReadBlock_asks hr ha h0 (by omega)), exchange (exec_opWriteBlock_asks hr ha h0 hl),
    exchange ⟨_, whenReady_ready hr _⟩, builder (c := .dmaWrite a n) rfl rfl, builder (c := .dmaRead a n) rfl rfl,
    builder (c := .internalWrite a15 w) ?_ rfl, builder (c := .internalRead a15) ?_ rfl,
    builder (c := .terminate) rfl rfl, builder (c := .repeatData) rfl rfl, builder (c := .extWrite a n24) ?_ rfl,
    builder (c := .extRead a n24) ?_ rfl,
    builder (c := .singleWrite a w) ?_ rfl, builder (c := .singleRead a) ?_ rfl, builder (c := .reset) rfl rfl,
    chunk (seq := 0x1) rfl, chunk (seq := 0x2) rfl, chunk (seq := 0x3) rfl, alone ⟨_, exec_tagAny seq hr⟩,
    fun _ h => nomatch h⟩ <;> simp only [Cmd.inRange, Bool.and_eq_true, decide_eq_true_eq] <;> omega

/-- Transport `init()` has set `CRC_EN` when it waits for `T_LOCK` (R183). -/
theorem transportInit_waits (hr : Ready s) (hlock : s.tr.lock = .held ag) (hi : s.env.inbox = [])
    (hy : s.env.yields = []) :
    exec .opTransportInit s =
      .next (waiting (taskOf s) .opTransportInit [.unit] ((newTask s).mapFr fun f => { f with crcEn := true })) :=
  (whenReady_ready hr _).trans
    (startTask_waits_second (a := .put (.crcEn true)) (b := .acquire) rfl rfl
      (perform_acquire_held (s := (newTask s).mapFr fun f => { f with crcEn := true }) _ hlock) hy hi rfl)

/-! ### `S_LOCK` (R208, R220, R226) -/

theorem perform_lockS_held (id : Nat) (h : s.hif.lock = .held ag) : perform .lockS (.caller id) s = (none, s) := by
  simp only [perform, doLockS, h, Lock.take]

/-- `ChipWake`, `ChipSleep` and the two registrations wait for `S_LOCK` (R206, R207, R220, R221). -/
theorem sessionOperations_wait (group : Byte) (cb : Callback) (hr : Ready s) (hlock : s.hif.lock = .held ag)
    (hi : s.env.inbox = []) :
    ∀ i ∈ [Instr.opChipWake, .opChipSleep, .opRegisterCallback group cb, .opOpenEventChannel],
      exec i s = .next (waiting (taskOf s) i [] (newTask s)) := by
  have session : ∀ {i}, Asks .lockS i s → exec i s = .next (waiting (taskOf s) i [] (newTask s)) := fun h =>
    h.waits (perform_lockS_held _ hlock) hi
  have registers : ∀ k, whenIn s [.uninitialized, .ready] k = k := fun k => by
    rw [whenIn, if_pos ⟨by rw [hr.1]; rfl, hr.2⟩]
  simp only [List.forall_mem_cons]
  exact ⟨session ⟨_, whenReady_ready hr _⟩, session ⟨_, whenReady_ready hr _⟩, session ⟨_, registers _⟩,
    session ⟨_, registers _⟩, fun _ h => nomatch h⟩

/-- `Hif.Send`, and a row sent by itself, find the session ready and wait for `S_LOCK` (R208; log 10). -/
theorem send_waits {group opcode : Byte} {control data : Bytes} {offset : Nat} {i : Instr} (hr : Ready s)
    (hlock : s.hif.lock = .held ag) (hi : s.env.inbox = []) (hy : s.env.yields = [])
    (h : i = .opHifSend group opcode control data offset ∨
      RowOf s.params group opcode (.outbound control data offset) i) :
    exec i s = .next (waiting (taskOf s) i [.flag true] (newTask s)) := by
  have hready : perform .sessionReady (.caller (taskOf s)) (newTask s) = (some (.flag true), newTask s) := by
    show (some (Val.flag (decide (s.hif.state = .ready))), newTask s) = _
    rw [hr.1]
    rfl
  exact (exec_send h hr).trans
    (startTask_waits_second hready rfl (perform_lockS_held (s := newTask s) _ hlock) hy hi rfl)

/-! ### A slot's lock (R253) -/

theorem perform_lockSlot_held {k : Fin 11} (id : Nat) (h : (s.sock.slot k).lock = .held ag) :
    perform (.lockSlot k) (.caller id) s = (none, s) := by
  simp only [perform, doLockSlot, h, Lock.take]

/-- An operation on a slot begins by asking for the slot's lock (R253). -/
theorem perSlot_fin (k : Fin 11) (body : Fin 11 → Prog (Except Err Value)) :
    perSlot k.val body = enterSlot k ((body k).bind fun r => .andThen (.leave k) (.ret r)) := by
  rw [perSlot, slotIx_fin]

/-- `Setsockopt` between entering the slot and leaving it (R264). -/
def settingOption (p : Params) (option : Byte) (value : Bytes) (k : Fin 11) : Prog (Except Err Value) :=
  .act (.getSlot k) fun v => .act .nextSid fun w =>
    .andThen (.updSlot k (.sid (BitVec.ofNat 16 w.toNum))) <|
      (hifSend p groupIp (pickOpcode v.toSlot.ssl 0x4F 0x51)
        (encSetSockOpt p k option value (BitVec.ofNat 16 w.toNum)) [] 0).bind fun r => sentOr r .unit

/-- `Setsockopt` of a valid option (R264). -/
theorem exec_opSetsockopt (i : Int) {option : Byte} {value : Bytes} (s : State)
    (h : s.params.optValid.app (option, value) = .ok) :
    exec (.opSetsockopt i option value) s =
      whenLive s (startTask (.opSetsockopt i option value) (perSlot i (settingOption s.params option value)) s) := by
  show whenLive s (startTask _ (setsockoptOp s.params i option value) s) = _
  rw [setsockoptOp, h]
  rfl

/-- An operation on a slot waits for the slot's lock (R253). -/
theorem slotOperations_wait {k : Fin 11} (addr : SockAddr) (deadline : Word) (backlog option : Byte) (b value : Bytes)
    (buf : Span) (hlive : s.root.live = true) (hr : Ready s) (hlock : (s.sock.slot k).lock = .held ag)
    (hi : s.env.inbox = []) :
    ∀ i : Instr,
      (i ∈ [.opBind k.val addr deadline, .opListen k.val backlog deadline, .opConnect k.val addr deadline,
          .opSecure k.val deadline, .opSendSocket k.val b deadline, .opSendTo k.val b addr deadline,
          .opRecv k.val buf deadline, .opRecvFrom k.val buf deadline, .opShutdown k.val] ∨
        k.val ≤ 6 ∧ i = .opAccept k.val deadline ∨
        s.params.optValid.app (option, value) = .ok ∧ i = .opSetsockopt k.val option value) →
      exec i s = .next (waiting (taskOf s) i [] (newTask s)) := by
  have waits : ∀ {i}, Asks (.lockSlot k) i s → exec i s = .next (waiting (taskOf s) i [] (newTask s)) := fun h =>
    h.waits (perform_lockSlot_held _ hlock) hi
  have entering : ∀ {i body}, exec i s = whenLive s (startTask i (perSlot k.val body) s) →
      exec i s = .next (waiting (taskOf s) i [] (newTask s)) := fun he => by
    rw [whenLive_live hlive hr, perSlot_fin] at he
    exact waits ⟨_, he⟩
  have filling : ∀ {i body}, exec i s = whenLive s (startTask i (scrambleOnError buf (perSlot k.val body)) s) →
      exec i s = .next (waiting (taskOf s) i [] (newTask s)) := fun he => by
    rw [whenLive_live hlive hr, perSlot_fin] at he
    exact waits ⟨_, he⟩
  have listed : ∀ i ∈ [Instr.opBind k.val addr deadline, .opListen k.val backlog deadline,
      .opConnect k.val addr deadline, .opSecure k.val deadline, .opSendSocket k.val b deadline,
      .opSendTo k.val b addr deadline, .opRecv k.val buf deadline, .opRecvFrom k.val buf deadline, .opShutdown k.val],
      exec i s = .next (waiting (taskOf s) i [] (newTask s)) := by
    simp only [List.forall_mem_cons]
    exact ⟨entering rfl, entering rfl, entering rfl, entering rfl, entering rfl, entering rfl,
      filling (exec_opRecv _ _ _ s), filling (exec_opRecvFrom _ _ _ s), entering rfl, fun _ h => nomatch h⟩
  rintro i (h | ⟨hk, rfl⟩ | ⟨hok, rfl⟩)
  · exact listed i h
  · have hexec : exec (.opAccept k.val deadline) s =
        startTask (.opAccept k.val deadline) (acceptOp s.params k.val deadline) s := whenLive_live hlive hr _
    have hstream : streamIx (k.val : Int) = some k := streamIx_eq_some.mpr ⟨rfl, hk⟩
    rw [acceptOp, hstream] at hexec
    exact waits ⟨_, hexec⟩
  · exact entering (exec_opSetsockopt k.val s hok)

end

/-! ### The next turn of a task (R42, R72; logs 1, 23) -/

/-- A task's turn replays what its actions answered before, and goes on. -/
theorem step_resumed {s : State} {id : Nat} {i : Instr} {log : List Val} (hn : nextInput s = some (.resume id))
    (hf : findTask id s = some ⟨id, i, log⟩) :
    step s =
      settle id i ((progOf s.params i).run (callerGo id) log [] [] (dropExpiry (resumed id s))) := by
  have hfind : findTask id (popInput s) = some ⟨id, i, log⟩ := hf
  have hstep : step s = goOn id false (popInput s) := by
    simp only [step, hn]
    rfl
  rw [hstep, goOn, hfind]
  rfl

/-- A task whose turn takes it to the end. -/
theorem step_ends {s t : State} {id : Nat} {i : Instr} {r : Except Err Value} (hn : nextInput s = some (.resume id))
    (hf : findTask id s = some ⟨id, i, []⟩) (h : Runs id (progOf s.params i) (dropExpiry (resumed id s)) r t) :
    step s = .next (returnToCaller id (toResult r) t) := by
  rw [step_resumed hn hf, Prog.run_of_eval h]
  rfl

/-- An expiry dropped before operations on the bus is not seen behind them (log 19). -/
theorem BusDone.of_dropExpiry {s t : State} {ev : List BusEvent} {rest : List (Option Byte)}
    (h : BusDone (dropExpiry s) t ev rest) : BusDone s t ev rest :=
  { h with env := h.env }

/-- A task that goes on with a program which the device serves ends as that program does. -/
theorem Returned.of_resumed {s : State} {id : Nat} {i : Instr} {log sofar : List Val} {p : Prog (Except Err Value)}
    {xs : List Access} {r : Except Err Value} {ev : List BusEvent} {rest : List (Option Byte)}
    (hn : nextInput s = some (.resume id)) (hf : findTask id s = some ⟨id, i, log⟩)
    (hp : ∀ u, (progOf s.params i).run (callerGo id) log [] [] u = p.run (callerGo id) [] sofar [] u) (hs : BusReady s)
    (ha : Answers s xs ev rest) (h : Serves (callerGo id) p xs r (fun t => t) (dropExpiry (resumed id s))) :
    ∃ t, step s = .next t ∧ Returned (resumed id s) id (toResult r) ev rest t := by
  obtain ⟨u, heval, hdone⟩ := h.eval (ev := ev) (rest := rest) ⟨hs.lock, hs.idle, hs.limit, hs.yields⟩ ha
  refine ⟨_, ?_, u, hdone.of_dropExpiry, rfl⟩
  rw [step_resumed hn hf, hp, Prog.run_of_eval heval]
  rfl

/-- `Hif.Send` from the session lock on (R208). -/
def sendingInSession (p : Params) (group opcode : Byte) (control data : Bytes) (offset : Nat) :
    Prog (Except Err Unit) :=
  withSession <|
    if hifTotal control data offset > hifMaxPkt then raise .messageTooLong
    else (sendBody p group opcode control data offset).bind fun r => (chipSleep p).bind fun _ => .ret r

theorem hifSend_eq (p : Params) (group opcode : Byte) (control data : Bytes) (offset : Nat) :
    hifSend p group opcode control data offset = ifReady (sendingInSession p group opcode control data offset) := rfl

/-- A packet sent from a sleeping chip, once the session was found ready; what the session's state has become since is
not looked at (R208). -/
theorem sendingInSession_good {go : Action → State → Option Val × State} {ag : Agent} (hgo : Agrees go ag) (p : Params)
    {group opcode : Byte} {control data : Bytes} {offset : Nat} {w : SendWords} {s : State} (hl : s.hif.lock = .free)
    (ha : s.hif.awake = false) (hg : GoodSend p control data offset w) :
    Serves go (sendingInSession p group opcode control data offset) (sendAccesses p group opcode control data offset w)
      (.ok ()) (fun t => t) s := by
  refine (withSession_serves hgo (g := fun t => t.mapHif fun h => { h with awake := false }) (Respects.mapHif _) hl
    fun u hu => ?_).congr ?_
  · have hasleep : u.hif.awake = false := by rw [hu.hif]; exact ha
    have hbody := sendBody_serves hgo p (group := group) (opcode := opcode) hg.fits
      (chipWake_acked hgo p hasleep w.wakeA w.wakeB hg.acks hg.awake) hg.polls hg.published hg.dma hg.room
    rw [if_neg (show ¬hifTotal control data offset > hifMaxPkt from Nat.not_lt.mpr hg.fits)]
    refine (Serves.bind (h := fun t => t.mapHif fun h => { h with awake := false }) (Respects.mapHif _) hbody
      fun v hv => ?_).congr rfl
    exact Serves.bindLast (h := fun t => t) Respects.id
      (chipSleep_awake hgo p (by rw [hv.hif]; rfl) w.sleepB w.sleepA) fun x _ => Serves.ret _ x
  · have hlock : Lock.drop (.held ag) ag = s.hif.lock := by simp [Lock.drop, hl]
    simp [State.mapHif, hlock, ← ha]

/-- The state in which task `id` has taken the lock of slot `k` (R253). -/
def slotLocked (id : Nat) (k : Fin 11) (s : State) : State :=
  s.mapSock fun q => q.setSlot k fun x => { x with lock := .held (.caller id) }

section
variable {id : Nat} {k : Fin 11} {s s1 : State} {body : Fin 11 → Prog (Except Err Value)}

/-- A slot's lock taken (R253). -/
theorem perform_lockSlot_free (h : (s.sock.slot k).lock = .free) :
    perform (.lockSlot k) (.caller id) s = (some .unit, slotLocked id k s) := by
  simp only [perform, doLockSlot, h, Lock.take]
  rfl

/-- The lock taken changes nothing else of the slot. -/
theorem slotLocked_slot (id : Nat) (k : Fin 11) (s : State) :
    (slotLocked id k s).sock.slot k = { s.sock.slot k with lock := .held (.caller id) } :=
  Sockets.slot_setSlot_self ..

/-- The test of a slot that is locked (R253). -/
theorem perform_slotValid_locked :
    perform (.slotValid k) (.caller id) (slotLocked id k s) =
      (some (.flag ((s.sock.slot k).inUse && decide ((s.sock.slot k).desc = BitVec.ofNat 8 k.val))),
        slotLocked id k s) := by
  show (some (Val.flag (Sockets.valid _ k)), _) = _
  rw [Sockets.valid, slotLocked_slot]

/-- A slot's free lock taken and released again: the state is as before. -/
theorem perform_leave_locked (h : (s.sock.slot k).lock = .free) :
    perform (.leave k) (.caller id) (slotLocked id k s) = (some .unit, s) :=
  congrArg (fun q => (some Val.unit, s.mapSock fun _ => q)) (Sockets.setSlot_lock_drop h)

/-- A slot that is not in use is left as it was found (R253). -/
theorem Runs.perSlot_notInUse (hl : (s.sock.slot k).lock = .free) (hu : (s.sock.slot k).inUse = false)
    (hy : s.env.yields = []) (hf : s.env.fired = false) :
    Runs id (Machine.perSlot k.val body) s (.error .socketInvalid) s := by
  have hvalid := perform_slotValid_locked (id := id) (k := k) (s := s)
  rw [hu, Bool.false_and] at hvalid
  rw [perSlot_fin]
  refine Runs.andThen (perform_lockSlot_free hl) hy ?_
  rw [endAction_eq (s := slotLocked id k s) hy hf]
  refine Runs.look hvalid hy hf (Runs.andThen (perform_leave_locked hl) hy ?_)
  rw [endAction_eq hy hf]
  exact Runs.raise _ s

/-- A slot in use entered, its body run, and the slot left (R253). -/
theorem Runs.perSlot_inUse {r : Except Err Value} (hl : (s.sock.slot k).lock = .free)
    (hu : (s.sock.slot k).inUse = true) (hd : (s.sock.slot k).desc = BitVec.ofNat 8 k.val) (hy : s.env.yields = [])
    (hf : s.env.fired = false)
    (h : Runs id (body k) (slotLocked id k s) r s1) :
    Runs id (Machine.perSlot k.val body) s r (dropExpiry (changed k id (fun x => x) s1)) := by
  have hvalid := perform_slotValid_locked (id := id) (k := k) (s := s)
  rw [hu, decide_eq_true hd, Bool.true_and] at hvalid
  rw [perSlot_fin]
  refine Runs.andThen (perform_lockSlot_free hl) hy ?_
  rw [endAction_eq (s := slotLocked id k s) hy hf]
  exact Runs.look hvalid hy hf (Runs.bind h (Runs.last (v := .unit) r rfl (h.yields hy)))

end

/-- The opcode a slot uses is picked by its SSL flags (R108). -/
theorem opcodeFor_eq (x : Slot) (plain ssl : Byte) : opcodeFor x plain ssl = pickOpcode x.ssl plain ssl := by
  simp [opcodeFor, pickOpcode, SslFlags.tls]

/-- `Bind` in a slot whose request is answered with status 0 (R255). -/
theorem bind_resumed {s s1 : State} {id : Nat} {k : Fin 11} {addr : SockAddr} {deadline : Word} {sock : BitVec 8}
    {sid : Option Half} (hl : (s.sock.slot k).lock = .free) (hy : s.env.yields = []) (hf : s.env.fired = false)
    (hu : (s.sock.slot k).inUse = true) (hd : (s.sock.slot k).desc = BitVec.ofNat 8 k.val)
    (hreq : Runs id
      (request s.params k .bind ⟨groupIp, opcodeFor (s.sock.slot k) 0x41 0x54, encBind s.params addr k, [], 0⟩ deadline)
      (slotLocked id k s) (.ok (.status sock 0 sid)) s1)
    (hh : Holds k id s1) :
    Runs id (bindOp s.params k.val addr deadline) s (.ok .unit)
      (dropExpiry (changed k id (fun x => { x with state := .bound }) s1)) := by
  have hupd := Runs.last (Except.ok Value.unit : Except Err Value) (hh.perform_updSlot .bound) (hreq.yields hy)
  rw [← changed_setSlot]
  refine Runs.perSlot_inUse (s1 := dropExpiry (s1.mapSock fun q => q.setSlot k SlotUpd.bound.apply)) hl hu hd hy hf
    (Runs.getSlot (s := slotLocked id k s) hy hf ?_)
  rw [Val.toSlot, slotLocked_slot]
  rw [opcodeFor_eq] at hreq
  exact Runs.tryBind_ok hreq hupd

/-- Settles O26: the lock held, operation by operation; then the turns in which it is free. -/
theorem operationsWaitForTheBus : Obligations.OperationsWaitForTheBus := by
  refine ⟨?_, ?_, ?_, ?_, ?_, ?_⟩
  · intro s addr v buf a a15 n n24 w d seq ag hr ha h0 hl hd0 hd haddr ha15 hn0 hn hlock hi
    exact ⟨transportOperations_wait addr v buf a a15 n n24 w d seq hr ha h0 hl hd0 hd haddr ha15 hn0 hn hlock hi,
      transportInit_waits hr hlock hi⟩
  · intro s id addr v ev rest hn hf hs ha
    exact Returned.of_resumed hn hf (fun _ => rfl) hs ha (readRegisterProg_serves (callerGo_agrees id) addr v _)
  · intro s group opcode cb control data offset row ag hr hlock hi hy
    exact ⟨sessionOperations_wait group cb hr hlock hi, send_waits hr hlock hi hy (.inl rfl),
      fun hrow => send_waits hr hlock hi hy (.inr hrow)⟩
  · intro s id group opcode control data offset a ev rest hn hf hlock hs hawake hg ha
    exact Returned.of_resumed (p := noValue (sendingInSession s.params group opcode control data offset)) hn hf
      (fun _ => rfl) hs ha (noValue_serves_ok (sendingInSession_good (callerGo_agrees id) s.params hlock hawake hg))
  · intro s k addr deadline backlog option b value buf ag hlive hr hlock hi
    exact slotOperations_wait addr deadline backlog option b value buf hlive hr hlock hi
  · intro s id k addr deadline hn hf hlock hy
    refine ⟨fun hu => ?_, fun s1 sock sid hu hd hreq hh => ?_⟩
    · exact step_ends hn hf (Runs.perSlot_notInUse hlock hu hy rfl)
    · exact step_ends hn hf (bind_resumed (s := dropExpiry (resumed id s)) hlock hy rfl hu hd hreq hh)

end Sys2Proof.Machine

/-!
PROOFS. Calls of the session as a whole before a device that answers: `Setsockopt`, `Shutdown`, `GetHostByName`,
`Hif.Init` and `Initialize` (spec/42_hif.md R201 to R205, spec/43_socket.md R264 to R266, R280, R285).
-/

namespace Sys2Proof.Machine

section
variable {go : Action → State → Option Val × State} {ag : Agent} {id : Nat} {k : Fin 11} {s : State}

/-! ### What the calls on a slot do one action at a time (R251, R264, R265) -/

/-- A session id drawn where nobody holds the counter (R251). -/
theorem nextSid_serves {α : Type} (hgo : Agrees go ag) {next : Val → Prog α} {xs : List Access} {r : α} {v : Half}
    {h : State → State} (hh : Respects h) (hl : s.sock.sidLock = .free) (hv : s.sock.sid + 1 = v)
    (hn : ∀ u, After (s.mapSock fun q => { q with sid := v }) u → Serves go (next (.num v.toNat)) xs r h u) :
    Serves go (.act .nextSid next) xs r (fun t => h (t.mapSock fun q => { q with sid := v })) s := by
  subst hv
  have hp : perform .nextSid ag s =
      (some (.num (s.sock.sid + 1).toNat), s.mapSock fun q => { q with sid := s.sock.sid + 1 }) := by
    simp only [perform, doNextSid, hl]
    rfl
  exact Serves.update (g := fun t => t.mapSock fun q => { q with sid := s.sock.sid + 1 }) hgo hh hp rfl rfl
    (fun hb => ⟨hb.lock, hb.idle, hb.limit, hb.yields⟩) hn

/-- The number drawn is the new session id. -/
theorem ofNat_num_toNat (v : Half) : BitVec.ofNat 16 (Val.num v.toNat).toNum = v := by
  rw [Val.toNum, BitVec.ofNat_toNat, BitVec.setWidth_eq]

/-- A slot changed by its holder (R255 to R264). -/
theorem updSlot_serves {α : Type} (f : SlotUpd) {p : Prog α} {xs : List Access} {r : α} {h : State → State}
    (hh : Respects h) (hs : Holds k id s)
    (hn : ∀ u, After (s.mapSock fun q => q.setSlot k f.apply) u → Serves (callerGo id) p xs r h u) :
    Serves (callerGo id) (.andThen (.updSlot k f) p) xs r (fun t => h (t.mapSock fun q => q.setSlot k f.apply)) s :=
  Serves.update (g := fun t => t.mapSock fun q => q.setSlot k f.apply) (callerGo_agrees id) hh (hs.perform_updSlot f)
    rfl rfl (fun hb => ⟨hb.lock, hb.idle, hb.limit, hb.yields⟩) hn

/-- A slot of which the descriptor is invalidated (R265). -/
def closing (x : Slot) : Slot := { x with state := .closing, desc := 0xFF }

/-- The slot set to `Closing` by its holder; the answer is whether it uses SSL (R265). -/
theorem beginClose_serves {α : Type} {next : Val → Prog α} {xs : List Access} {r : α} {h : State → State}
    (hh : Respects h) (hs : Holds k id s)
    (hn : ∀ u, After (s.mapSock fun q => q.setSlot k closing) u →
      Serves (callerGo id) (next (.flag (s.sock.slot k).ssl.tls)) xs r h u) :
    Serves (callerGo id) (.act (.beginClose k) next) xs r (fun t => h (t.mapSock fun q => q.setSlot k closing)) s := by
  have hp : perform (.beginClose k) (.caller id) s =
      (some (.flag (s.sock.slot k).ssl.tls), s.mapSock fun q => q.setSlot k closing) := by
    simp only [perform, doBeginClose, hs.owns, if_true]
    rfl
  exact Serves.update (g := fun t => t.mapSock fun q => q.setSlot k closing) (callerGo_agrees id) hh hp rfl rfl
    (fun hb => ⟨hb.lock, hb.idle, hb.limit, hb.yields⟩) hn

/-- The slot freed by its holder, its waiters completed before (R265). -/
theorem freeSlot_serves {α : Type} (a : α) (hl : (s.sock.slot k).lock = .held (.caller id)) :
    Serves (callerGo id) (.andThen (.put (.wake k)) (.andThen (.freeSlot k) (.ret a))) [] a
      (fun t => t.mapSock fun q => (q.wakeSlot k).freeSlot k) s := by
  refine Serves.update (g := fun t => t.mapSock fun q => q.wakeSlot k) (h := fun t => t.mapSock fun q => q.freeSlot k)
    (callerGo_agrees id) (Respects.mapSock _) (v := .unit) rfl rfl rfl
    (fun hb => ⟨hb.lock, hb.idle, hb.limit, hb.yields⟩) fun u hu => ?_
  have hlock : (u.sock.slot k).lock = .held (.caller id) := by rw [hu.sock]; exact hl
  have hp : perform (.freeSlot k) (.caller id) u = (some .unit, u.mapSock fun q => q.freeSlot k) := by
    simp only [perform, doFreeSlot, hlock, if_true]
  exact Serves.update (g := fun t => t.mapSock fun q => q.freeSlot k) (callerGo_agrees id) Respects.id hp rfl rfl
    (fun hb => ⟨hb.lock, hb.idle, hb.limit, hb.yields⟩) fun w _ => Serves.ret a w

/-- Where nobody waits on a slot, there is nobody to complete (R265). -/
theorem Sockets.wakeSlot_of_none {q : Sockets} (hr : (q.slot k).replies = []) (ha : (q.slot k).acceptWaiters = []) :
    q.wakeSlot k = q := by
  simp only [Sockets.wakeSlot, waitersOf, hr, ha, List.map_nil, List.append_nil, List.foldl_nil]

/-- Who holds a slot depends on that slot alone. -/
theorem Holds.congr {u : State} (h : Holds k id s) (hu : u.sock.slot k = s.sock.slot k) : Holds k id u := by
  rwa [Holds, hu]

/-! ### `Setsockopt` (R264) -/

/-- What `Setsockopt` leaves of the sockets: an id is drawn, and recorded in the slot (R264). -/
def idRecorded (k : Fin 11) (v : Half) (q : Sockets) : Sockets :=
  { q with sid := v }.setSlot k fun x => { x with sid := v }

/-- `Setsockopt` in a slot that its caller holds (R264). -/
theorem settingOption_serves {option : Byte} {value : Bytes} {a : SendWords} (hh : Holds k id s)
    (hr : s.hif.state = .ready) (hl : s.hif.lock = .free) (hawake : s.hif.awake = false)
    (hsid : s.sock.sidLock = .free) {v : Half} (hv : s.sock.sid + 1 = v)
    (hg : GoodSend s.params (encSetSockOpt s.params k option value v) [] 0 a) :
    Serves (callerGo id) (settingOption s.params option value k)
      (sendAccesses s.params groupIp (opcodeFor (s.sock.slot k) 0x4F 0x51)
        (encSetSockOpt s.params k option value v) [] 0 a)
      (.ok .unit) (fun t => t.mapSock (idRecorded k v)) s := by
  have hgo := callerGo_agrees id
  have hset : Respects fun t : State => t.mapSock fun q => q.setSlot k (SlotUpd.sid v).apply := Respects.mapSock _
  refine Serves.look hgo (Respects.mapSock _) (v := .slot (s.sock.slot k)) rfl fun u hu => ?_
  rw [opcodeFor_eq, Val.toSlot]
  refine nextSid_serves hgo hset (by rw [hu.sock]; exact hsid) (by rw [hu.sock]; exact hv) fun x hx => ?_
  rw [ofNat_num_toNat]
  have hsock : x.sock.slot k = s.sock.slot k := by rw [hx.sock, State.mapSock_sock, hu.sock]; rfl
  refine updSlot_serves (.sid v) Respects.id (hh.congr hsock) fun w hw => ?_
  have hhif : w.hif = s.hif := hw.hif.trans (hx.hif.trans hu.hif)
  exact Serves.bindLast Respects.id
    (hifSend_good hgo s.params (by rw [hhif]; exact hr) (by rw [hhif]; exact hl) (by rw [hhif]; exact hawake) hg)
    fun x _ => Serves.ret _ x

/-- A slot entered, an id recorded in it, the slot left: the id alone has changed (R253, R264). -/
theorem changed_idRecorded (hs : SlotReady k s) (v : Half) :
    changed k (taskOf s) (fun x => x) ((entered k s).mapSock (idRecorded k v)) =
      (newTask s).mapSock fun q => { (q.setSlot k fun x => { x with sid := v }) with sid := v } := by
  have hslot := Sockets.setSlot_under_lock (ag := .caller (taskOf s)) (f := fun x => { x with sid := v }) hs.lock
    fun _ _ => rfl
  have hchanged := changed_setSlot k (taskOf s) (fun x => { x with sid := v })
    ((entered k s).mapSock fun q => { q with sid := v })
  exact hchanged.trans (congrArg (fun q : Sockets => (newTask s).mapSock fun _ => { q with sid := v }) hslot)

/-- `Setsockopt` as a whole (R264). -/
theorem setsockopt_returned {option : Byte} {value : Bytes} {ev : List BusEvent} {a : SendWords}
    {rest : List (Option Byte)} (hs : SlotReady k s) (hsession : SessionReady s) (hawake : s.hif.awake = false)
    (hsid : s.sock.sidLock = .free) (hok : s.params.optValid.app (option, value) = .ok)
    (hg : GoodSend s.params (encSetSockOpt s.params k option value (s.sock.sid + 1)) [] 0 a)
    (ha : Answers s
      (sendAccesses s.params groupIp (opcodeFor (s.sock.slot k) 0x4F 0x51)
        (encSetSockOpt s.params k option value (s.sock.sid + 1)) [] 0 a) ev rest) :
    ∃ t, exec (.opSetsockopt k.val option value) s = .next t ∧
      Returned
        ((newTask s).mapSock fun q =>
          { (q.setSlot k fun x => { x with sid := s.sock.sid + 1 }) with sid := s.sock.sid + 1 })
        (taskOf s) (.ok .unit) ev rest t := by
  have hexec : exec (.opSetsockopt k.val option value) s =
      startTask (.opSetsockopt k.val option value) (perSlot k.val (settingOption s.params option value)) s :=
    (exec_opSetsockopt k.val s hok).trans (whenLive_live hs.live hs.ready _)
  have hserves := perSlot_serves hs (Respects.mapSock (idRecorded k (s.sock.sid + 1))) fun u hu => by
    have hslot : u.sock.slot k = { s.sock.slot k with lock := .held (.caller (taskOf s)) } := by
      rw [hu.sock, entered_slot]
    have hbody := settingOption_serves (s := u) (option := option) (value := value) (a := a)
      ((entered_holds hs).congr (by rw [hu.sock])) (by rw [hu.hif]; exact hsession.ready.1)
      (by rw [hu.hif]; exact hsession.lock) (by rw [hu.hif]; exact hawake) (by rw [hu.sock]; exact hsid)
      (v := s.sock.sid + 1) (by rw [hu.sock]; rfl) (by rw [hu.params]; exact hg)
    rw [hu.params, hslot] at hbody
    exact hbody
  rw [← changed_idRecorded hs]
  exact Returned.of_serves hexec hsession.bus ha hserves

/-! ### `Shutdown` (R265) -/

/-- `Shutdown` between entering the slot and leaving it (R265). -/
def shuttingDown (p : Params) (k : Fin 11) : Prog (Except Err Value) :=
  .act (.beginClose k) fun v => .act .nextSid fun w =>
    (hifSend p groupIp (if v.toFlag then 0x4E else 0x49) (encClose p k (BitVec.ofNat 16 w.toNum)) [] 0).bind fun r =>
      .andThen (.put (.wake k)) (.andThen (.freeSlot k) (sentOr r .unit))

/-- What `Shutdown` leaves of the sockets, step by step: the slot closing, an id drawn, the waiters completed, the slot
freed (R265). -/
def shutDown (k : Fin 11) (v : Half) (q : Sockets) : Sockets :=
  (({ q.setSlot k closing with sid := v } : Sockets).wakeSlot k).freeSlot k

/-- `Shutdown` in a slot that its caller holds (R265). -/
theorem shuttingDown_serves {a : SendWords} (hh : Holds k id s) (hr : s.hif.state = .ready) (hl : s.hif.lock = .free)
    (hawake : s.hif.awake = false) (hsid : s.sock.sidLock = .free) {v : Half} (hv : s.sock.sid + 1 = v)
    (hg : GoodSend s.params (encClose s.params k v) [] 0 a) :
    Serves (callerGo id) (shuttingDown s.params k)
      (sendAccesses s.params groupIp (opcodeFor (s.sock.slot k) 0x49 0x4E) (encClose s.params k v) [] 0 a)
      (.ok .unit) (fun t => t.mapSock (shutDown k v)) s := by
  have hgo := callerGo_agrees id
  have hfree : Respects fun t : State => t.mapSock fun q => (q.wakeSlot k).freeSlot k := Respects.mapSock _
  have hdone : Respects fun t : State =>
      (t.mapSock fun q => { q with sid := v }).mapSock fun q => (q.wakeSlot k).freeSlot k :=
    (Respects.mapSock _).comp hfree
  rw [opcodeFor_eq, pickOpcode]
  refine beginClose_serves hdone hh fun u hu => ?_
  refine nextSid_serves hgo hfree (by rw [hu.sock]; exact hsid) (by rw [hu.sock]; exact hv) fun x hx => ?_
  rw [ofNat_num_toNat, Val.toFlag]
  have hhif : x.hif = s.hif := hx.hif.trans hu.hif
  refine Serves.bindLast hfree
    (hifSend_good hgo s.params (by rw [hhif]; exact hr) (by rw [hhif]; exact hl) (by rw [hhif]; exact hawake) hg)
    fun w hw => ?_
  have hlock : (w.sock.slot k).lock = .held (.caller id) := by
    obtain ⟨-, -, hlock⟩ := hh
    rw [hw.sock, hx.sock, State.mapSock_sock, Sockets.slot_withSid, hu.sock, State.mapSock_sock,
      Sockets.slot_setSlot_self]
    exact hlock
  exact freeSlot_serves _ hlock

/-- The slot as `Shutdown` leaves it, where nobody waited on it (R265). -/
def shutSlot (x : Slot) : Slot :=
  { x with inUse := false, desc := 0xFF, ssl := .empty, rxRem := 0, acceptq := none, state := .free }

/-- A slot closed and freed, where nobody waited on it (R265). -/
theorem shutDown_eq {q : Sockets} (v : Half) (hr : (q.slot k).replies = []) (ha : (q.slot k).acceptWaiters = []) :
    shutDown k v q = { q.setSlot k shutSlot with sid := v } := by
  have hclosing : ({ q.setSlot k closing with sid := v } : Sockets).slot k = closing (q.slot k) :=
    Sockets.slot_setSlot_self ..
  have hnone : ({ q.setSlot k closing with sid := v } : Sockets).wakeSlot k = { q.setSlot k closing with sid := v } :=
    Sockets.wakeSlot_of_none (by rw [hclosing]; exact hr) (by rw [hclosing]; exact ha)
  have hslot : freed (closing (q.slot k)) = shutSlot (q.slot k) := by
    simp only [freed, closing, shutSlot, hr, ha]
  have hset : (q.setSlot k closing).setSlot k freed = q.setSlot k shutSlot :=
    (Sockets.setSlot_setSlot ..).trans (Sockets.setSlot_congr hslot)
  rw [shutDown, Sockets.freeSlot, hnone, hnone, ← hset]
  rfl

/-- A slot entered, shut down and left (R253, R265). -/
theorem changed_shutDown (hs : SlotReady k s) (v : Half) (hr : (s.sock.slot k).replies = [])
    (ha : (s.sock.slot k).acceptWaiters = []) :
    changed k (taskOf s) (fun x => x) ((entered k s).mapSock (shutDown k v)) =
      (newTask s).mapSock fun q => { q.setSlot k shutSlot with sid := v } := by
  have hslot := Sockets.setSlot_under_lock (ag := .caller (taskOf s)) (f := shutSlot) hs.lock fun _ _ => rfl
  have hshut : (entered k s).mapSock (shutDown k v) =
      ((entered k s).mapSock fun q => { q with sid := v }).mapSock fun q => q.setSlot k shutSlot :=
    congrArg (fun q => (entered k s).mapSock fun _ => q)
      (shutDown_eq (q := (entered k s).sock) v (by simpa using hr) (by simpa using ha))
  rw [hshut, changed_setSlot]
  exact congrArg (fun q : Sockets => (newTask s).mapSock fun _ => { q with sid := v }) hslot

/-- `Shutdown` as a whole (R265). -/
theorem shutdown_returned {ev : List BusEvent} {a : SendWords} {rest : List (Option Byte)} (hs : SlotReady k s)
    (hsession : SessionReady s) (hawake : s.hif.awake = false) (hsid : s.sock.sidLock = .free)
    (hreplies : (s.sock.slot k).replies = []) (haccept : (s.sock.slot k).acceptWaiters = [])
    (hg : GoodSend s.params (encClose s.params k (s.sock.sid + 1)) [] 0 a)
    (ha : Answers s
      (sendAccesses s.params groupIp (opcodeFor (s.sock.slot k) 0x49 0x4E) (encClose s.params k (s.sock.sid + 1)) [] 0
        a) ev rest) :
    ∃ t, exec (.opShutdown k.val) s = .next t ∧
      Returned ((newTask s).mapSock fun q => { q.setSlot k shutSlot with sid := s.sock.sid + 1 }) (taskOf s) (.ok .unit)
        ev rest t := by
  have hexec : exec (.opShutdown k.val) s =
      startTask (.opShutdown k.val) (perSlot k.val (shuttingDown s.params)) s := whenLive_live hs.live hs.ready _
  have hserves := perSlot_serves hs (Respects.mapSock (shutDown k (s.sock.sid + 1))) fun u hu => by
    have hslot : u.sock.slot k = { s.sock.slot k with lock := .held (.caller (taskOf s)) } := by
      rw [hu.sock, entered_slot]
    have hbody := shuttingDown_serves (s := u) (a := a)
      ((entered_holds hs).congr (by rw [hu.sock])) (by rw [hu.hif]; exact hsession.ready.1)
      (by rw [hu.hif]; exact hsession.lock) (by rw [hu.hif]; exact hawake) (by rw [hu.sock]; exact hsid)
      (v := s.sock.sid + 1) (by rw [hu.sock]; rfl) (by rw [hu.params]; exact hg)
    rw [hu.params, hslot] at hbody
    exact hbody
  rw [← changed_shutDown hs _ hreplies haccept]
  exact Returned.of_serves hexec hsession.bus ha hserves

end

/-! ### `GetHostByName`, `Hif.Init` and `Initialize` (R201, R266, R280, R285) -/

section
variable {s : State} {ev : List BusEvent} {rest : List (Option Byte)}

/-- `GetHostByName` as a whole, its reply coming with the next round of the worker (R266, R280). -/
theorem getHostByName_returned {name got record : Bytes} {ip deadline : Word} {inputs : List Input} {a : SendWords}
    {b : RoundWords} {op : Byte} (hlive : s.root.live = true) (hs : Awaiting s inputs) (hn : s.sock.dnsReply = none)
    (hm : ∀ e ∈ s.sock.mail, e.1 < s.env.nextMail) (hg : GoodSend s.params (encDns s.params name) [] 0 a)
    (hw : GoodRound s.params record b) (hop : op &&& 0x7F = 0x4A) (hl : record.length = recSize s.params .dnsReply)
    (hr : decRec s.params .dnsReply record = .dns got ip)
    (ha : Answers s
      (sendAccesses s.params groupIp 0x4A (encDns s.params name) [] 0 a ++ roundAccesses s.params op record b) ev
      rest) :
    ∃ t, exec (.opGetHostByName name deadline) s = .next t ∧
      Returned
        (roundDone op (.dns got ip) b inputs ((newTask s).mapEnv fun e => { e with nextMail := s.env.nextMail + 1 }))
        (taskOf s) (.ok (.word ip)) ev rest t := by
  have hawaiting : Awaiting (newTask s) inputs :=
    { hs with session := ⟨hs.session.ready, hs.session.lock, hs.session.bus.newTask⟩ }
  obtain ⟨u, hrun, hdone⟩ := getHostByName_served (id := taskOf s) (s := newTask s) (deadline := deadline) hawaiting
    rfl hn hm hg hop hl hr hw ha
  refine ⟨_, ?_, u, hdone, rfl⟩
  show execGetHostByName name deadline s = _
  rw [execGetHostByName, whenLive_live hlive hs.session.ready, hn]
  exact startTask_of_eval hrun

/-- `Hif.Init` as a whole (R201 to R205). -/
theorem hifInit_returned {chip efuse pinMux enable config : Word}
    (hst : s.hif.state = .uninitialized ∨ s.hif.state = .shutdown) (hi : initializing s = false) (hs : BusReady s)
    (hd : BootsAtOnce s chip efuse pinMux enable config ev rest) :
    ∃ t, exec .opHifInit s = .next t ∧
      Returned (((newTask s).mapFr fun f => { f with crcEn := false }).mapHif fun h => { h with state := .ready })
        (taskOf s) (.ok .unit) ev rest t := by
  obtain ⟨u, hrun, hdone⟩ := hifInit_runs (id := taskOf s) (s := newTask s) hs.newTask rfl
    ⟨hd.family, hd.loaded, hd.wire⟩
  have hdown : [HifState.uninitialized, .shutdown].contains s.hif.state = true := by
    rcases hst with h | h <;> rw [h] <;> rfl
  refine ⟨_, ?_, u, hdone, rfl⟩
  show execHifInit s = _
  rw [execHifInit, whenIn, if_pos ⟨hdown, hi⟩]
  exact startTask_of_eval (Runs.noValue_ok hrun)

/-- Where `Initialize()` starts from, the bus is free (R46, R285). -/
theorem resetAll_busReady (hq : Quiet s) (hy : s.env.yields = []) (hl : s.fr.pktLimit ∈ legalLimits) :
    BusReady (resetAll s) := ⟨hq.transport, rfl, hl, hy⟩

theorem Respects.mapRoot (f : Root → Root) : Respects fun s => s.mapRoot f := fun _ _ _ _ h =>
  { h with root := congrArg f h.root }

/-- What `Initialize()` does behind `Hif.Init`: the callback registered, the worker started, the driver live (R285). -/
def livened (pin : Bool) (s : State) : State :=
  ((s.mapHif fun h => { h with cb := h.cb.set 1 (some .socket) }).mapIrq fun q =>
    { q with wseq := .wait, irqPrev := pin, intrEn := true }).mapRoot fun r => { r with live := true }

theorem Respects.livened (pin : Bool) : Respects (livened pin) :=
  ((Respects.mapHif _).comp (Respects.mapIrq _)).comp (Respects.mapRoot _)

/-- `Initialize()` as a whole (R285). -/
theorem initialize_returned {chip efuse pinMux enable config : Word} (hdead : s.root.live = false)
    (hb : s.hif.state ≠ .bootstrapping) (hi : initializing s = false) (hq : Quiet s) (hy : s.env.yields = [])
    (hl : s.fr.pktLimit ∈ legalLimits) (hd : BootsAtOnce s chip efuse pinMux enable config ev rest) :
    ∃ t, exec .opInitialize s = .next t ∧
      Returned
        (((((resetAll (newTask s)).mapFr fun f => { f with crcEn := false }).mapHif fun h =>
            { h with state := .ready, cb := h.cb.set 1 (some .socket) }).mapIrq fun q =>
              { q with wseq := .wait, irqPrev := s.env.pin, intrEn := true }).mapRoot fun r => { r with live := true })
        (taskOf s) (.ok .unit) ev rest t := by
  have hboot : BootsAtOnce (resetAll (newTask s)) chip efuse pinMux enable config ev rest :=
    ⟨hd.family, hd.loaded, hd.wire⟩
  obtain ⟨u, hrun, hdone⟩ := hifInit_runs (id := taskOf s)
    (resetAll_busReady (s := newTask s) (quiet_newTask.mpr hq) hy hl) rfl hboot
  have hlock : u.hif.lock = .free := by rw [hdone.hif]; exact hq.session
  have hpin : u.env.pin = s.env.pin := by rw [hdone.env]; rfl
  obtain ⟨b, hexec⟩ := initialize_ends_ok hdead hb hi hq hy hlock hrun
  rw [hpin] at hexec
  have hlive := Respects.livened s.env.pin _ _ _ _ hdone
  generalize resetAll (newTask s) = r at hlive ⊢
  exact ⟨_, hexec, _, hlive.withFired b, rfl⟩

end

/-- Settles O47: the five calls, one by one. -/
theorem sessionCallsComplete : Obligations.SessionCallsComplete := by
  refine ⟨fun s k option value ev a rest hs hsession hawake hsid hok hg ha => ?_,
    fun s k ev a rest hs hsession hawake hsid hr hacc hg ha => ?_,
    fun s name got record ev ip deadline inputs a b op rest hlive hs hn hm hg hw hop hl hr ha => ?_,
    fun s chip efuse pinMux enable config ev rest hst hi hs hd => ?_,
    fun s chip efuse pinMux enable config ev rest hlive hb hi hq hy hl hd => ?_⟩
  · exact setsockopt_returned hs hsession hawake hsid hok hg ha
  · exact shutdown_returned hs hsession hawake hsid hr hacc hg ha
  · exact getHostByName_returned hlive hs hn hm hg hw hop hl hr ha
  · exact hifInit_returned hst hi hs hd
  · exact initialize_returned hlive hb hi hq hy hl hd

end Sys2Proof.Machine

/-!
PROOFS. The boot of the session: the three boot steps by themselves, polls that go round again or expire, and
`Hif.Init` stage by stage (spec/42_hif.md R200 to R205, R340; log 19).
-/

namespace Sys2Proof.Machine

/-! ### The boot steps by themselves (R203, R204, R205) -/

section
variable {s : State}

theorem exec_waitForBootrom (hr : Ready s) :
    exec .opWaitForBootrom s = startTask .opWaitForBootrom (noValue (waitForBootrom s.params)) s := whenReady_ready hr _

theorem exec_waitForFirmwareStart (hr : Ready s) :
    exec .opWaitForFirmwareStart s = startTask .opWaitForFirmwareStart (noValue (waitForFirmwareStart s.params)) s :=
  whenReady_ready hr _

theorem exec_enableInterrupts (hr : Ready s) :
    exec .opEnableInterrupts s = startTask .opEnableInterrupts (noValue (enableInterrupts s.params)) s :=
  whenReady_ready hr _

end

/-- Settles O28: each step is served by a device that is ready at the first poll. -/
theorem bootSteps : Obligations.BootSteps := by
  refine ⟨fun s e ev rest hr hs he ha => ?_, fun s ev rest hr hs ha => ?_, fun s w1 w2 ev rest hr hs ha => ?_⟩
  · exact Returned.of_serves (exec_waitForBootrom hr) hs ha
      (noValue_serves_ok (waitForBootrom_serves (callerGo_agrees _) s.params he rfl))
  · exact Returned.of_serves (exec_waitForFirmwareStart hr) hs ha
      (noValue_serves_ok (waitForFirmwareStart_serves (callerGo_agrees _) s.params rfl))
  · exact Returned.of_serves (exec_enableInterrupts hr) hs ha
      (noValue_serves_ok (enableInterrupts_serves (callerGo_agrees _) s.params w1 w2 _))

/-! ### Polls that go round again (R203, R204, R340; log 19) -/

/-- What a call does behind its first part, which may have failed. -/
def behind {α : Type} (f : α → Prog (Except Err Unit)) : Except Err α → Prog (Except Err Value)
  | .ok a => noValue (f a)
  | .error e => raise e

theorem noValue_tryBind {α : Type} (p : Prog (Except Err α)) (f : α → Prog (Except Err Unit)) :
    noValue (p.tryBind f) = p.bind (behind f) := by
  rw [noValue, Prog.tryBind, Prog.tryBind, Prog.bind_assoc]
  congr 1
  funext r
  cases r <;> rfl

/-- An expiry that was pending before a run is gone when the run ends (log 19). -/
theorem Prog.run_fired {α : Type} {go : Action → State → Option Val × State} {p : Prog α} :
    ∀ {todo sofar head : List Val} {s t : State} {r : α}, p.run go todo sofar head s = .done r t →
      s.env.fired = false → t.env.fired = false := by
  induction p with
  | ret a => rintro _ _ _ s t r ⟨⟩ hf; exact hf
  | mark p ih => exact fun h hf => ih h hf
  | back => rintro _ _ _ _ _ _ ⟨⟩
  | refuse r => rintro _ _ _ _ _ _ ⟨⟩
  | act a k ih =>
    intro todo sofar head s t r h hf
    cases todo with
    | cons v todo => exact ih v h hf
    | nil =>
      simp only [Prog.run] at h
      split at h
      · cases h
      · split at h
        · cases h
        · exact ih _ h rfl

/-- The operation of a new task: its program is run from its first line. -/
theorem startTask_eq (i : Instr) (p : Prog (Except Err Value)) (s : State) :
    startTask i p s = settle (taskOf s) i (p.run (callerGo (taskOf s)) [] [] [] (newTask s)) := rfl

/-- The state in which a parked task has got its turn because its time is up (R340; log 19). -/
def expiring (id : Nat) (s : State) : State := (resumed id s).mapEnv fun e => { e with fired := true }

/-- A waiting task whose time is up replays what its actions answered before, and goes on with the expiry before it
(R340; log 19). -/
theorem step_expired {s : State} {id : Nat} {i : Instr} {log : List Val} (hn : nextInput s = some (.expire id))
    (hf : findTask id s = some ⟨id, i, log⟩) :
    step s =
      settle id i ((progOf s.params i).run (callerGo id) log [] [] (expiring id s)) := by
  have hfind : findTask id (popInput s) = some ⟨id, i, log⟩ := hf
  have hstep : step s = goOn id true (popInput s) := by
    simp only [step, hn]
    rfl
  rw [hstep, goOn, hfind]
  rfl

section
variable {s : State} {id : Nat} {i : Instr} {log : List Val} {a : Addr} {magic w : Word} {e : Err}
  {f : Unit → Prog (Except Err Unit)} {ev : List BusEvent} {rest : List (Option Byte)}

/-- A task at a poll whose time is up: the operation ends in the poll's error (R340). -/
theorem step_pollMagic_expires (hn : nextInput s = some (.expire id)) (hf : findTask id s = some ⟨id, i, log⟩)
    (hy : s.env.yields = []) {sofar head : List Val}
    (hp : ∀ u, (progOf s.params i).run (callerGo id) log [] [] u =
      ((pollMagic a magic e).bind (behind f)).run (callerGo id) [] sofar head u) :
    step s = .next (returnToCaller id (.err e) (dropExpiry (resumed id s))) := by
  have hyields : (expiring id s).env.yields = [] := hy
  have hend : endAction (expiring id s) = dropExpiry (resumed id s) := endAction_eq_unfired hyields
  rw [step_expired hn hf, hp, pollMagic_expires hyields rfl, hend]
  rfl

/-- A task at a poll that finds its magic missing once more waits at the same place (R203, R204; log 19). -/
theorem step_pollMagic_misses (hn : nextInput s = some (.resume id)) (hf : findTask id s = some ⟨id, i, log⟩)
    (hs : BusReady s) {sofar head : List Val} (hlog : sofar.reverse = log)
    (hp : ∀ u, (progOf s.params i).run (callerGo id) log [] [] u =
      ((pollMagic a magic e).bind (behind f)).run (callerGo id) [] sofar head u)
    (hw : w ≠ magic) (ha : Answers s [.read a w] ev rest) :
    ∃ u, step s = .next (waiting id i log u) ∧ BusDone (resumed id s) u ev rest := by
  obtain ⟨u, hdone, hrun⟩ := pollMagic_misses (id := id) (s := dropExpiry (resumed id s)) (e := e)
    ⟨hs.lock, hs.idle, hs.limit, hs.yields⟩ rfl hw (ev := ev) (rest := rest) ha
  refine ⟨u, ?_, hdone.of_dropExpiry⟩
  rw [step_resumed hn hf, hp, hrun, hlog]
  rfl

end

/-- `waitForFirmwareStart` begins with its poll (R204). -/
theorem waitForFirmwareStart_eq (p : Params) :
    noValue (waitForFirmwareStart p) =
      (pollMagic p.regFwState p.magicFwReady .firmwareTimeout).bind (behind fun _ => writeReg p.regFwState 0x00000000) :=
  noValue_tryBind _ _

/-- `waitForBootrom` behind the efuse poll (R203). -/
def bootromStart (p : Params) : Prog (Except Err Unit) :=
  (pollMagic p.regBootrom p.magicBootromDone .firmwareLoadFailed).tryBind fun _ =>
    (writeReg p.regVersionInfo p.versionInfoWord).tryBind fun _ =>
      (writeReg p.regChipConfig p.chipConfigWord).tryBind fun _ => writeReg p.regBootrom p.magicStartFirmware

/-- `waitForBootrom` begins with the efuse poll (R203). -/
theorem waitForBootrom_eq (p : Params) :
    noValue (waitForBootrom p) = (efusePoll p).bind (behind fun _ => bootromStart p) := noValue_tryBind _ _

theorem bootromStart_eq (p : Params) :
    noValue (bootromStart p) =
      (pollMagic p.regBootrom p.magicBootromDone .firmwareLoadFailed).bind
        (behind fun _ => (writeReg p.regVersionInfo p.versionInfoWord).tryBind fun _ =>
          (writeReg p.regChipConfig p.chipConfigWord).tryBind fun _ => writeReg p.regBootrom p.magicStartFirmware) :=
  noValue_tryBind _ _

theorem bootromStart_serves {go : Action → State → Option Val × State} {ag : Agent} (hgo : Agrees go ag) (p : Params)
    {s : State} (hs : s.env.fired = false) :
    Serves go (bootromStart p)
      [.read p.regBootrom p.magicBootromDone, .write p.regVersionInfo p.versionInfoWord,
        .write p.regChipConfig p.chipConfigWord, .write p.regBootrom p.magicStartFirmware] (.ok ()) (fun s => s) s :=
  Serves.tryBind (xs := [_]) Respects.id (pollMagic_serves hgo _ _ _ hs) fun u _ =>
    Serves.tryBind (xs := [_]) Respects.id (writeReg_serves hgo _ _ u) fun v _ =>
      Serves.tryBind (xs := [_]) Respects.id (writeReg_serves hgo _ _ v) fun x _ => writeReg_serves hgo _ _ x

section
variable {s : State} {w : Word} {ev : List BusEvent} {rest : List (Option Byte)}

/-- `waitForFirmwareStart` that finds the magic missing at its first poll waits (R204; log 19). -/
theorem firmwareStart_waits (hr : Ready s) (hs : BusReady s) (hw : w ≠ s.params.magicFwReady)
    (ha : Answers s [.read s.params.regFwState w] ev rest) :
    ∃ u, exec .opWaitForFirmwareStart s = .next (waiting (taskOf s) .opWaitForFirmwareStart [] u) ∧
      BusDone (newTask s) u ev rest := by
  obtain ⟨u, hdone, hrun⟩ := pollMagic_misses (id := taskOf s) (s := newTask s) (e := .firmwareTimeout) hs.newTask rfl hw
    (ev := ev) (rest := rest) ha
  refine ⟨u, ?_, hdone⟩
  rw [exec_waitForFirmwareStart hr, startTask_eq, waitForFirmwareStart_eq, hrun]
  rfl

/-- A task in `waitForFirmwareStart` that finds the magic clears the register and ends (R204). -/
theorem firmwareStart_resumes {id : Nat} (hn : nextInput s = some (.resume id))
    (hf : findTask id s = some ⟨id, .opWaitForFirmwareStart, []⟩) (hs : BusReady s)
    (ha : Answers s [.read s.params.regFwState s.params.magicFwReady, .write s.params.regFwState 0x00000000] ev rest) :
    ∃ t, step s = .next t ∧ Returned (resumed id s) id (.ok .unit) ev rest t :=
  Returned.of_resumed (p := progOf s.params .opWaitForFirmwareStart) (sofar := []) hn hf (fun _ => rfl) hs ha
    (noValue_serves_ok (waitForFirmwareStart_serves (callerGo_agrees id) s.params rfl))

/-- `waitForBootrom` that finds the efuses not loaded at its first poll waits (R203). -/
theorem bootrom_waits_for_efuses (hr : Ready s) (hs : BusReady s) (hw : w.getLsbD s.params.bitEfuseLoaded.val = false)
    (ha : Answers s [.read s.params.regEfuseStatus w, .delay .efusePoll] ev rest) :
    ∃ u, exec .opWaitForBootrom s = .next (waiting (taskOf s) .opWaitForBootrom [] u) ∧ BusDone (newTask s) u ev rest := by
  obtain ⟨u, hdone, hrun⟩ := efusePoll_misses (id := taskOf s) (s := newTask s) hs.newTask s.params hw
    (ev := ev) (rest := rest) ha
  refine ⟨u, ?_, hdone⟩
  rw [exec_waitForBootrom hr, startTask_eq, waitForBootrom_eq, hrun]
  rfl

/-- A task in `waitForBootrom` that finds the efuses not loaded once more waits again, without bound (R203). -/
theorem bootrom_waits_for_efuses_again {id : Nat} (hn : nextInput s = some (.resume id))
    (hf : findTask id s = some ⟨id, .opWaitForBootrom, []⟩) (hs : BusReady s)
    (hw : w.getLsbD s.params.bitEfuseLoaded.val = false)
    (ha : Answers s [.read s.params.regEfuseStatus w, .delay .efusePoll] ev rest) :
    ∃ u, step s = .next (waiting id .opWaitForBootrom [] u) ∧ BusDone (resumed id s) u ev rest := by
  obtain ⟨u, hdone, hrun⟩ := efusePoll_misses (id := id) (s := dropExpiry (resumed id s))
    ⟨hs.lock, hs.idle, hs.limit, hs.yields⟩ s.params hw (ev := ev) (rest := rest) ha
  refine ⟨u, ?_, hdone.of_dropExpiry⟩
  rw [step_resumed hn hf]
  show settle id _ ((noValue (waitForBootrom s.params)).run _ _ _ _ _) = _
  rw [waitForBootrom_eq, hrun]
  rfl

/-- `waitForBootrom` behind loaded efuses that finds the bootrom's magic missing waits; the answers it waits with bring
any task of it to the bootrom's poll (R203; logs 19, 23). -/
theorem bootrom_waits_for_magic {e : Word} (hr : Ready s) (hs : BusReady s)
    (he : e.getLsbD s.params.bitEfuseLoaded.val = true) (hw : w ≠ s.params.magicBootromDone)
    (ha : Answers s [.read s.params.regEfuseStatus e, .read s.params.regBootrom w] ev rest) :
    ∃ u sofar, exec .opWaitForBootrom s = .next (waiting (taskOf s) .opWaitForBootrom sofar.reverse u) ∧
      BusDone (newTask s) u ev rest ∧
      ∀ (id : Nat) (v : State),
        (progOf s.params .opWaitForBootrom).run (callerGo id) sofar.reverse [] [] v =
          (noValue (bootromStart s.params)).run (callerGo id) [] sofar [] v := by
  obtain ⟨u, vs, ev1, ev2, mid, rfl, hdone, ha2, hrun⟩ := efusePoll_passes (id := taskOf s) (s := newTask s) hs.newTask
    s.params he (ev := ev) (rest := rest) ha
  have hfired : u.env.fired = false := by
    have hret := (hrun fun r => .ret r).1 [] []
    exact Prog.run_fired hret rfl
  have ha2' : Answers u [.read s.params.regBootrom w] ev2 rest := ha2
  obtain ⟨v, hdone2, hrun2⟩ := pollMagic_misses (id := taskOf s) (e := .firmwareLoadFailed)
    (hdone.ready hs.newTask) hfired hw ha2'
  refine ⟨v, vs, ?_, hdone.trans hdone2, fun id x => ?_⟩
  · rw [exec_waitForBootrom hr, startTask_eq, waitForBootrom_eq, ((hrun _).1 [] []), behind, bootromStart_eq, hrun2,
      List.append_nil]
    rfl
  · show (noValue (waitForBootrom s.params)).run _ _ _ _ _ = _
    have hreplay := (hrun (behind fun _ => bootromStart s.params)).2 (callerGo id) [] [] [] x
    rwa [List.append_nil, List.append_nil, ← waitForBootrom_eq] at hreplay

end

/-- Settles O29: each poll by what it finds, the task at its poll by what brought it there. -/
theorem firmwareTimeout : Obligations.FirmwareTimeout := by
  refine ⟨fun s id hn hf hy => ?_, fun s w ev rest hr hs hw ha => firmwareStart_waits hr hs hw ha,
    fun s id w ev rest hn hf hs => ⟨fun hw ha => ?_, fun ha => firmwareStart_resumes hn hf hs ha⟩,
    fun s w ev rest hs hw ha => ⟨fun hr => bootrom_waits_for_efuses hr hs hw ha,
      fun id hn hf => bootrom_waits_for_efuses_again hn hf hs hw ha⟩,
    fun s e w ev rest hr hs he hw ha => ?_⟩
  · exact step_pollMagic_expires hn hf hy fun u => congrArg (Prog.run _ · [] [] [] u) (waitForFirmwareStart_eq s.params)
  · exact step_pollMagic_misses hn hf hs rfl
      (fun u => congrArg (Prog.run _ · [] [] [] u) (waitForFirmwareStart_eq s.params)) hw ha
  · obtain ⟨u, sofar, hexec, hdone, hrun⟩ := bootrom_waits_for_magic hr hs he hw ha
    refine ⟨u, sofar.reverse, hexec, hdone, fun v id hv hf => ?_⟩
    rw [← hv] at hrun ⊢
    have hpoll := fun x => bootromStart_eq v.params ▸ hrun id x
    exact ⟨fun hn hy => step_pollMagic_expires hn hf hy hpoll, fun w' ev' rest' hn hs' =>
      ⟨fun hw' ha' => step_pollMagic_misses hn hf hs' rfl hpoll hw' ha', fun ha' =>
        Returned.of_resumed hn hf (hrun id) hs' ha'
          (noValue_serves_ok (bootromStart_serves (callerGo_agrees id) v.params rfl))⟩⟩

/-! ### `Hif.Init` stage by stage (R200, R201) -/

/-- `Hif.Init` behind transport init (R201). -/
def initStages (p : Params) : Prog (Except Err Unit) :=
  initStage (checkChipId p) .incompatibleVersion <|
    initStage (waitForBootrom p) .bootromFailed <|
      initStage (waitForFirmwareStart p) .firmwareFailed <|
        initStage (enableInterrupts p) .interruptsEnableFailed <|
          .andThen (.put (.hifState .ready)) (.ret (.ok ()))

/-- `Hif.Init` on what transport init came to (R201). -/
def behindTransport (p : Params) : Except Err Unit → Prog (Except Err Unit)
  | .error e => initFail e
  | .ok _ => initStages p

/-- `HIF_STATE` set, no expiry pending. -/
def inState (st : HifState) (s : State) : State :=
  (s.mapHif fun h => { h with state := st }).mapEnv fun e => { e with fired := false }

section
variable {id : Nat} {s s1 t : State} {p : Params} {stage rest : Prog (Except Err Unit)} {r : Except Err Unit} {e : Err}

/-- `fail(E)` of `Init` leaves the session `uninitialized` (R201). -/
theorem Runs.initFail (e : Err) (hy : s.env.yields = []) :
    Runs id (Machine.initFail e) s (.error e) (inState .uninitialized s) := Runs.last _ rfl hy

/-- A stage that succeeds hands on to the next (R201). -/
theorem Runs.initStage_ok (h : Runs id stage s (.ok ()) s1) (hrest : Runs id rest s1 r t) :
    Runs id (initStage stage e rest) s r t := Runs.bind h hrest

/-- A stage that fails ends `Init` in the stage's own error (R201). -/
theorem Runs.initStage_error {e' : Err} (hy : s.env.yields = []) (h : Runs id stage s (.error e') s1) :
    Runs id (initStage stage e rest) s (.error e) (inState .uninitialized s1) :=
  Runs.bind h (Runs.initFail e (h.yields hy))

theorem Runs.hifInit_booting (hy : s.env.yields = []) (hf : s.env.fired = false)
    (h : Runs id ((Machine.transportInit p).bind (behindTransport p)) (s.mapHif fun h => { h with state := .bootstrapping })
      r t) :
    Runs id (hifInit p) s r t := by
  refine Runs.andThen (v := .unit) rfl hy ?_
  rw [endAction_eq (by exact hy) (by exact hf)]
  exact h

/-- Transport init succeeds: `Init` ends as its stages do (R201). -/
theorem Runs.hifInit_ok (hy : s.env.yields = []) (hf : s.env.fired = false)
    (h : Runs id (Machine.transportInit p) (s.mapHif fun h => { h with state := .bootstrapping }) (.ok ()) s1)
    (hstages : Runs id (initStages p) s1 r t) : Runs id (hifInit p) s r t :=
  Runs.hifInit_booting hy hf (Runs.bind h hstages)

/-- Transport init fails: its error is passed on as it is (R201). -/
theorem Runs.hifInit_error (hy : s.env.yields = []) (hf : s.env.fired = false)
    (h : Runs id (Machine.transportInit p) (s.mapHif fun h => { h with state := .bootstrapping }) (.error e) s1) :
    Runs id (hifInit p) s (.error e) (inState .uninitialized s1) :=
  Runs.hifInit_booting hy hf (Runs.bind h (Runs.initFail e (h.yields hy)))

end

section
variable {s t : State}

/-- `Hif.Init` has a meaning in `uninitialized` and `shutdown` (R200, R201, R224). -/
theorem exec_hifInit (hst : s.hif.state = .uninitialized ∨ s.hif.state = .shutdown) (hi : initializing s = false) :
    exec .opHifInit s = startTask .opHifInit (noValue (hifInit s.params)) s := by
  have hdown : [HifState.uninitialized, .shutdown].contains s.hif.state = true := by
    rcases hst with h | h <;> rw [h] <;> rfl
  show execHifInit s = _
  rw [execHifInit, whenIn, if_pos ⟨hdown, hi⟩]

theorem Ends.hifInit_ok (hst : s.hif.state = .uninitialized ∨ s.hif.state = .shutdown) (hi : initializing s = false)
    (h : Runs (taskOf s) (hifInit s.params) (newTask s) (.ok ()) (inState .ready t)) :
    Ends .opHifInit s (.ok .unit) (t.mapHif fun h => { h with state := .ready }) :=
  Ends.of_unfired (Ends.of_runs (exec_hifInit hst hi) (Runs.noValue_ok h))

theorem Ends.hifInit_error {e : Err} (hst : s.hif.state = .uninitialized ∨ s.hif.state = .shutdown)
    (hi : initializing s = false)
    (h : Runs (taskOf s) (hifInit s.params) (newTask s) (.error e) (inState .uninitialized t)) :
    Ends .opHifInit s (.err e) (t.mapHif fun h => { h with state := .uninitialized }) :=
  Ends.of_unfired (Ends.of_runs (exec_hifInit hst hi) (Runs.noValue_error h))

end

/-- Settles O30: the runs of the stages put together, up to the first that fails. -/
theorem initRunsItsStages : Obligations.InitRunsItsStages := by
  refine ⟨fun s s1 s2 s3 s4 s5 hst hi hy h1 h2 h3 h4 h5 => ?_,
    fun s s1 s2 s3 s4 s5 e hst hi hy => ⟨fun h1 => ?_, fun h1 => ?_⟩⟩
  · have hy5 := h5.yields (h4.yields (h3.yields (h2.yields (h1.yields hy))))
    exact Ends.hifInit_ok hst hi <| Runs.hifInit_ok hy rfl h1 <| Runs.initStage_ok h2 <| Runs.initStage_ok h3 <|
      Runs.initStage_ok h4 <| Runs.initStage_ok h5 <| Runs.last _ rfl hy5
  · exact Ends.hifInit_error hst hi (Runs.hifInit_error hy rfl h1)
  · have hy1 := h1.yields hy
    refine ⟨fun h2 => ?_, fun h2 => ⟨fun h3 => ?_, fun h3 => ⟨fun h4 => ?_, fun h4 h5 => ?_⟩⟩⟩ <;>
      refine Ends.hifInit_error hst hi (Runs.hifInit_ok hy rfl h1 ?_)
    · exact Runs.initStage_error hy1 h2
    · exact Runs.initStage_ok h2 (Runs.initStage_error (h2.yields hy1) h3)
    · exact Runs.initStage_ok h2 (Runs.initStage_ok h3 (Runs.initStage_error (h3.yields (h2.yields hy1)) h4))
    · exact Runs.initStage_ok h2 (Runs.initStage_ok h3 (Runs.initStage_ok h4
        (Runs.initStage_error (h4.yields (h3.yields (h2.yields hy1))) h5)))

end Sys2Proof.Machine

/-!
PROOFS. The chip woken and put to sleep by themselves, and the packets that are not sent (spec/42_hif.md R206 to R209).
-/

namespace Sys2Proof.Machine

variable {go : Action → State → Option Val × State} {ag : Agent}

/-! ### What runs under the session lock leaves it as it was (R226) -/

/-- An update that neither looks at the session lock nor changes it. -/
def LeavesLock (g : State → State) : Prop :=
  ∀ (s : State) (l : Lock), g (s.mapHif fun h => { h with lock := l }) = (g s).mapHif fun h => { h with lock := l }

theorem LeavesLock.id : LeavesLock fun s => s := fun _ _ => rfl

theorem LeavesLock.awake (b : Bool) : LeavesLock fun s => s.mapHif fun h => { h with awake := b } := fun _ _ => rfl

theorem LeavesLock.noted (errs : List Err) : LeavesLock (noted errs) := fun _ _ => rfl

theorem LeavesLock.comp {g h : State → State} (hg : LeavesLock g) (hh : LeavesLock h) : LeavesLock fun s => h (g s) :=
  fun s l => by simp only [hg s l, hh (g s) l]

/-- The lock taken before an update and given back behind it is free again. -/
theorem LeavesLock.released {g : State → State} (hg : LeavesLock g) {s : State} (hl : s.hif.lock = .free) :
    ((g (s.mapHif fun h => { h with lock := .held ag })).mapHif fun h => { h with lock := h.lock.drop ag }) = g s := by
  have hfree : (s.mapHif fun h => { h with lock := .free }) = s := by rw [← hl]; rfl
  rw [hg]
  calc _ = (g s).mapHif fun h => { h with lock := .free } := by simp [State.mapHif, Lock.drop]
    _ = g s := by rw [← hg, hfree]

/-- A program that runs under the session lock (R226). -/
theorem withSession_plays {α : Type} (hgo : Agrees go ag) {body : Prog α} {ev : List BusEvent} {r : α}
    {g : State → State} {s : State} (hg : Respects g) (hk : LeavesLock g) (hl : s.hif.lock = .free)
    (hb : ∀ u, After (s.mapHif fun h => { h with lock := .held ag }) u → Plays go body ev r g u) :
    Plays go (withSession body) ev r g s := by
  have hp : perform .lockS ag s = (some .unit, s.mapHif fun h => { h with lock := .held ag }) := by
    simp [perform, doLockS, hl, Lock.take]
  have unlock (v : State) : Plays go (.andThen .unlockS (.ret r)) [] r
      (fun s => s.mapHif fun h => { h with lock := h.lock.drop ag }) v :=
    Plays.update hgo Respects.id rfl rfl rfl (fun hs => ⟨hs.lock, hs.idle, hs.limit, hs.yields⟩) fun w _ => Plays.ret r w
  have hplays : Plays go (withSession body) (ev ++ []) r
      (fun s => (g (s.mapHif fun h => { h with lock := .held ag })).mapHif fun h => { h with lock := h.lock.drop ag }) s :=
    Plays.update (h := fun t => (g t).mapHif fun h => { h with lock := h.lock.drop ag }) hgo (hg.comp (Respects.mapHif _))
      rfl hp rfl (fun hs => ⟨hs.lock, hs.idle, hs.limit, hs.yields⟩) fun u hu =>
        Plays.bind (Respects.mapHif _) (hb u hu) fun v _ => unlock v
  rw [List.append_nil] at hplays
  exact hplays.congr (hk.released hl)

section
variable {i : Instr} {s : State} {body : Prog (Except Err Unit)} {ev : List BusEvent} {rest : List (Option Byte)}
  {r : Except Err Unit} {g : State → State}

/-- An operation under the session lock whose body goes over the bus in one known way. -/
theorem inSession_plays (he : exec i s = startTask i (noValue (withSession body)) s) (hs : SessionReady s)
    (hm : s.env.miso = answersOf ev ++ rest) (hg : Respects g) (hk : LeavesLock g)
    (hb : ∀ u, After ((newTask s).mapHif fun h => { h with lock := .held (.caller (taskOf s)) }) u →
      Plays (callerGo (taskOf s)) body ev r g u) :
    ∃ t, exec i s = .next t ∧ Returned (g (newTask s)) (taskOf s) (toResult (r.map fun _ => .unit)) ev rest t :=
  Returned.of_plays he hs.bus hm
    (noValue_plays (withSession_plays (s := newTask s) (callerGo_agrees _) hg hk hs.lock hb))

/-- An operation under the session lock that a device serves. -/
theorem inSession_serves {xs : List Access} (he : exec i s = startTask i (noValue (withSession body)) s) (hs : SessionReady s)
    (ha : Answers s xs ev rest) (hg : Respects g) (hk : LeavesLock g)
    (hb : ∀ u : State, u.hif.awake = s.hif.awake → Serves (callerGo (taskOf s)) body xs r g u) :
    ∃ t, exec i s = .next t ∧ Returned (g (newTask s)) (taskOf s) (toResult (r.map fun _ => .unit)) ev rest t :=
  inSession_plays he hs ha.2 hg hk fun u ⟨_, _, hu⟩ => by
    refine (hb u (by rw [hu.hif]; rfl)).plays ?_
    rw [hu.params, hu.crcEn, hu.limit]
    exact ha.1

/-- An operation under the session lock that fails on the bus (log 18). -/
theorem inSession_breaks {xs before after : List Access} {x : Access} {e : Err} {errs : List Err} {ev' : List BusEvent}
    (he : exec i s = startTask i (noValue (withSession body)) s) (hs : SessionReady s)
    (hw : AllOnWire s.params s.fr.crcEn s.fr.pktLimit before ev) (hx : Fails s.params s.fr.crcEn s.fr.pktLimit x e errs ev')
    (hm : s.env.miso = answersOf (ev ++ ev') ++ rest) (hsplit : xs = before ++ x :: after)
    (hb : ∀ u : State, u.hif.awake = s.hif.awake → Breaks (callerGo (taskOf s)) body xs u) :
    ∃ t, exec i s = .next t ∧ Returned (noted errs (newTask s)) (taskOf s) (.err e) (ev ++ ev') rest t :=
  inSession_plays (r := .error e) he hs hm (Respects.noted errs) (LeavesLock.noted errs) fun u ⟨_, _, hu⟩ => by
    refine (hb u (by rw [hu.hif]; rfl) before after x hsplit).plays (fun h => h) ?_ ?_
    · rw [hu.params, hu.crcEn, hu.limit]
      exact hw
    · rw [hu.params, hu.crcEn, hu.limit]
      exact hx

end

/-! ### `ChipWake` and `ChipSleep` by themselves (R206, R207) -/

theorem exec_chipWake {s : State} (hr : Ready s) :
    exec .opChipWake s = startTask .opChipWake (noValue (withSession (chipWake s.params))) s := whenReady_ready hr _

theorem exec_chipSleep {s : State} (hr : Ready s) :
    exec .opChipSleep s = startTask .opChipSleep (noValue (withSession (chipSleep s.params))) s := whenReady_ready hr _

/-- No access is answered by nothing going over the bus. -/
theorem Answers.nil (s : State) : Answers s [] [] s.env.miso := ⟨.nil, rfl⟩

/-- Settles O31: each handshake by whether the chip is awake, and by what the device answers. -/
theorem wakeAndSleepHandshakes : Obligations.WakeAndSleepHandshakes := by
  refine ⟨fun s wa wb polls ev rest hs => ⟨fun haw => ?_, fun haw ha => ⟨fun hl ho => ?_, fun hl ho => ?_⟩⟩,
    fun s wb wa ev rest hs => ⟨fun haw => ?_, fun haw ha => ?_⟩,
    fun s wa wb polls before after x e errs ev ev' rest hs hw hx hm => ⟨fun haw hl ho hsplit => ?_, fun haw hsplit => ?_⟩⟩
  · exact inSession_serves (exec_chipWake hs.ready) hs (.nil s) Respects.id LeavesLock.id fun u hu =>
      chipWake_awake (callerGo_agrees _) _ (hu.trans haw)
  · exact inSession_serves (exec_chipWake hs.ready) hs ha (Respects.mapHif _) (LeavesLock.awake true) fun u hu =>
      chipWake_acked (callerGo_agrees _) _ (hu.trans haw) wa wb hl ho
  · exact inSession_serves (exec_chipWake hs.ready) hs ha Respects.id LeavesLock.id fun u hu =>
      chipWake_silent (callerGo_agrees _) _ (hu.trans haw) wa wb hl ho
  · exact inSession_serves (exec_chipSleep hs.ready) hs (.nil s) Respects.id LeavesLock.id fun u hu =>
      chipSleep_asleep (callerGo_agrees _) _ (hu.trans haw)
  · exact inSession_serves (exec_chipSleep hs.ready) hs ha (Respects.mapHif _) (LeavesLock.awake false) fun u hu =>
      chipSleep_awake (callerGo_agrees _) _ (hu.trans haw) wb wa
  · exact inSession_breaks (exec_chipWake hs.ready) hs hw hx hm hsplit fun u hu =>
      chipWake_breaks (callerGo_agrees _) _ (hu.trans haw) wa wb hl ho
  · exact inSession_breaks (exec_chipSleep hs.ready) hs hw hx hm hsplit fun u hu =>
      chipSleep_breaks (callerGo_agrees _) _ (hu.trans haw) wb wa

/-! ### Packets that are not sent (R206, R208, R209) -/

section
variable {s : State} {group opcode : Byte} {control data : Bytes} {offset : Nat}

/-- A packet too long is rejected under the session lock, before any bus traffic (R208). -/
theorem hifSend_tooLong (hgo : Agrees go ag) (p : Params) (hr : s.hif.state = .ready) (hl : s.hif.lock = .free)
    (ht : hifMaxPkt < hifTotal control data offset) :
    Serves go (hifSend p group opcode control data offset) [] (.error .messageTooLong) (fun s => s) s := by
  rw [hifSend_eq]
  refine ifReady_serves hgo Respects.id hr fun u hu => ?_
  have hfree : u.hif.lock = .free := by rw [hu.hif, hl]
  rw [sendingInSession, if_pos ht]
  exact (withSession_serves hgo Respects.id hfree fun v _ => Serves.raise _ v).congr (LeavesLock.id.released hfree)

/-- The body of `Send` where the device publishes no address, or address 0 (R209). -/
theorem sendBody_noAddress (hgo : Agrees go ag) (p : Params) {ws ys : List Access} {dma : Option Word}
    (hw : Serves go (chipWake p) ws (.ok ()) (fun s => s.mapHif fun h => { h with awake := true }) s)
    (hd : ∀ u, Serves go (dmaPoll p 1 p.hifDmaPolls) ys (.ok dma) (fun s => s) u) (h0 : dma = none ∨ dma = some 0) :
    Serves go (sendBody p group opcode control data offset)
      (ws ++ ([.write p.regHifTxCtrl (p.ctrlWord.app
        (group, hifOpcodeByte opcode !data.isEmpty, BitVec.ofNat 16 (hifTotal control data offset)))] ++ (ys ++ [])))
      (.error .badMemoryAlloc) (fun s => s.mapHif fun h => { h with awake := true }) s := by
  refine Serves.tryBind Respects.id hw fun u _ => Serves.tryBind Respects.id (writeReg_serves hgo _ _ u) fun v _ =>
    Serves.tryBind Respects.id (hd v) fun x _ => ?_
  rcases h0 with rfl | rfl
  · exact Serves.raise _ x
  · exact Serves.raise _ x

theorem handoverAccesses_eq (p : Params) (group opcode : Byte) (control data : Bytes) (offset : Nat) (polls : List Word) :
    handoverAccesses p group opcode control data offset polls =
      [.write p.regHifTxCtrl (p.ctrlWord.app
        (group, hifOpcodeByte opcode !data.isEmpty, BitVec.ofNat 16 (hifTotal control data offset)))] ++
        dmaAccesses p 1 polls := by
  rw [hifOpcodeByte_eq]
  rfl

end

section
variable {i : Instr} {s : State} {group opcode : Byte} {control data : Bytes} {offset : Nat} {ev ev' : List BusEvent}
  {rest : List (Option Byte)} {r : Except Err Unit} {g g' : State → State}

/-- A packet whose body goes over the bus in one known way, and the sleep behind it (R208). -/
theorem send_plays
    (hi : i = .opHifSend group opcode control data offset ∨ RowOf s.params group opcode (.outbound control data offset) i)
    (hs : SessionReady s) (ht : hifTotal control data offset ≤ hifMaxPkt)
    (hm : s.env.miso = answersOf (ev ++ ev') ++ rest) (hg : Respects g) (hg' : Respects g') (hk : LeavesLock g)
    (hk' : LeavesLock g')
    (hb : ∀ u, After ((newTask s).mapHif fun h => { h with lock := .held (.caller (taskOf s)) }) u →
      Plays (callerGo (taskOf s)) (sendBody s.params group opcode control data offset) ev r g u)
    (hsl : ∀ u, After (g ((newTask s).mapHif fun h => { h with lock := .held (.caller (taskOf s)) })) u →
      Plays (callerGo (taskOf s)) ((chipSleep s.params).bind fun _ => .ret r) ev' r g' u) :
    ∃ t, exec i s = .next t ∧
      Returned (g' (g (newTask s))) (taskOf s) (toResult (r.map fun _ => .unit)) (ev ++ ev') rest t :=
  Returned.of_plays (exec_send hi hs.ready) hs.bus hm <| noValue_plays <|
    Plays.congr (g' := fun s => g' (g s))
      (hifSend_plays (s := newTask s) (callerGo_agrees _) s.params hg hg' hs.ready.1 hs.lock ht hb hsl)
      ((hk.comp hk').released (s := newTask s) hs.lock)

/-- A packet given up while the chip sleeps: there is nothing to put to sleep (R207, R208). -/
theorem send_asleep
    (hi : i = .opHifSend group opcode control data offset ∨ RowOf s.params group opcode (.outbound control data offset) i)
    (hs : SessionReady s) (ht : hifTotal control data offset ≤ hifMaxPkt) (hm : s.env.miso = answersOf ev ++ rest)
    (haw : s.hif.awake = false) {errs : List Err}
    (hb : ∀ u, After ((newTask s).mapHif fun h => { h with lock := .held (.caller (taskOf s)) }) u →
      Plays (callerGo (taskOf s)) (sendBody s.params group opcode control data offset) ev r (noted errs) u) :
    ∃ t, exec i s = .next t ∧
      Returned (noted errs (newTask s)) (taskOf s) (toResult (r.map fun _ => .unit)) ev rest t := by
  have hplays := send_plays (ev' := []) (rest := rest) (g' := fun s => s) hi hs ht (by rw [List.append_nil]; exact hm)
    (Respects.noted errs) Respects.id (LeavesLock.noted errs) LeavesLock.id hb fun u hu =>
      Plays.bind (ev' := []) (h := fun s => s) Respects.id
        ((chipSleep_asleep (callerGo_agrees _) s.params (s := u) (by rw [hu.hif]; exact haw)).plays .nil) fun v _ =>
          Plays.ret r v
  rwa [List.append_nil] at hplays

end

section
variable {i : Instr} {s : State} {group opcode : Byte} {control data : Bytes} {offset : Nat} {rest : List (Option Byte)}
  {acks : List Word}

/-- No address for the packet, or address 0: the chip is put to sleep behind the hand-over (R208, R209). -/
theorem send_noAddress
    (hi : i = .opHifSend group opcode control data offset ∨ RowOf s.params group opcode (.outbound control data offset) i)
    (hs : SessionReady s) (ht : hifTotal control data offset ≤ hifMaxPkt)
    (hak : s.hif.awake = false → acks.length ≤ 10 ∧ LastOnly (acked s.params) acks) (wa wb wb' wa' : Word) {ys : List Access}
    {dma : Option Word} {ev : List BusEvent}
    (hd : ∀ u, Serves (callerGo (taskOf s)) (dmaPoll s.params 1 s.params.hifDmaPolls) ys (.ok dma) (fun s => s) u)
    (h0 : dma = none ∨ dma = some 0)
    (ha : Answers s
      ((if s.hif.awake then [] else wakeAccesses s.params wa wb acks) ++
        ([.write s.params.regHifTxCtrl (s.params.ctrlWord.app
          (group, hifOpcodeByte opcode !data.isEmpty, BitVec.ofNat 16 (hifTotal control data offset)))] ++ (ys ++ [])) ++
        sleepAccesses s.params wb' wa') ev rest) :
    ∃ t, exec i s = .next t ∧
      Returned ((newTask s).mapHif fun h => { h with awake := false }) (taskOf s) (.err .badMemoryAlloc) ev rest t :=
  Returned.of_serves (exec_send hi hs.ready) hs.bus ha <| noValue_serves_error <|
    hifSend_serves (s := newTask s) (callerGo_agrees _) s.params wb' wa' hs.ready.1 hs.lock ht fun u hu => by
      have haw : u.hif.awake = s.hif.awake := by rw [hu.hif]; rfl
      rw [← haw]
      exact sendBody_noAddress (callerGo_agrees _) s.params
        (chipWake_wakes (callerGo_agrees _) s.params wa wb (by rw [haw]; exact hak)) hd h0

/-- An operation of the packet behind the wake-up fails: the sleep follows all the same (R207, R208; log 18). -/
theorem send_stops
    (hi : i = .opHifSend group opcode control data offset ∨ RowOf s.params group opcode (.outbound control data offset) i)
    (hs : SessionReady s) (ht : hifTotal control data offset ≤ hifMaxPkt)
    (hak : s.hif.awake = false → acks.length ≤ 10 ∧ LastOnly (acked s.params) acks) {polls : List Word} {wa wb dma : Word}
    (hn : polls.length ≤ s.params.hifDmaPolls) (ho : LastOnly s.params.dmaPublished.app polls) (h0 : dma ≠ 0)
    (hroom : dma.toNat + 8 + offset < 2 ^ 24) {before after : List Access} {x : Access}
    (hsplit : packetAccesses s.params group opcode control data offset polls dma = before ++ x :: after)
    {e : Err} {awake : Bool} {errs errs' : List Err} {ev ev' ev'' : List BusEvent}
    (hw : AllOnWire s.params s.fr.crcEn s.fr.pktLimit
      ((if s.hif.awake then [] else wakeAccesses s.params wa wb acks) ++ before) ev)
    (hx : Fails s.params s.fr.crcEn s.fr.pktLimit x e errs ev')
    (hsl : Slept s.params s.fr.crcEn s.fr.pktLimit awake errs' ev'')
    (hm : s.env.miso = answersOf (ev ++ ev' ++ ev'') ++ rest) :
    ∃ t, exec i s = .next t ∧
      Returned (noted errs' ((noted errs ((newTask s).mapHif fun h => { h with awake := true })).mapHif fun h =>
        { h with awake := awake })) (taskOf s) (.err e) (ev ++ ev' ++ ev'') rest t := by
  have hgo := callerGo_agrees (taskOf s)
  refine send_plays (r := .error e) (g := fun s => noted errs (s.mapHif fun h => { h with awake := true }))
    (g' := fun s => noted errs' (s.mapHif fun h => { h with awake := awake })) hi hs ht hm
    ((Respects.mapHif _).comp (Respects.noted errs)) ((Respects.mapHif _).comp (Respects.noted errs'))
    ((LeavesLock.awake true).comp (LeavesLock.noted errs)) ((LeavesLock.awake awake).comp (LeavesLock.noted errs'))
    (fun u ⟨_, _, hu⟩ => ?_) fun u ⟨_, _, hu⟩ => ?_
  · have haw : u.hif.awake = s.hif.awake := by rw [hu.hif]; rfl
    refine (sendBody_stops hgo s.params ht (chipWake_wakes hgo s.params wa wb (by rw [haw]; exact hak)) hn ho h0 hroom
      hsplit).plays (fun h => ⟨h.lock, h.idle, h.limit, h.yields⟩) ?_ ?_
    · rw [hu.params, hu.crcEn, hu.limit, haw]
      exact hw
    · rw [hu.params, hu.crcEn, hu.limit]
      exact hx
  · have hplays := chipSleep_plays (s := u) (r := (.error e : Except Err Unit)) hgo (by rw [hu.hif]; rfl)
      (by rw [hu.params, hu.crcEn, hu.limit]; exact hsl)
    rwa [hu.params] at hplays

end

/-- Settles O33: the packet is given up at its length, at the wake-up, at the address, or at an operation that fails. -/
theorem packetsNotSent : Obligations.PacketsNotSent := by
  intro s i group opcode control data offset hi hs
  have hgo := callerGo_agrees (taskOf s)
  refine ⟨fun ht => ?_, fun ht => ⟨fun wa wb acks ev rest haw hl ho ha => ?_,
    fun wa wb wa' wb' acks polls ev rest hak h => ?_,
    fun wa wb acks before after x e errs ev ev' rest haw hl ho hsplit hw hx hm => ?_,
    fun wa wb dma acks polls before after x e awake errs errs' ev ev' ev'' rest hak hn ho h0 hroom hsplit hw hx hsl
      hm => ?_⟩⟩
  · exact Returned.of_serves (exec_send hi hs.ready) hs.bus (.nil s)
      (noValue_serves_error (hifSend_tooLong (s := newTask s) hgo s.params hs.ready.1 hs.lock ht))
  · refine send_asleep (r := .error .wakeFailed) (errs := []) hi hs ht ha.2 haw fun u ⟨_, _, hu⟩ => ?_
    refine Serves.plays (Serves.tryBind_error (chipWake_silent hgo s.params (by rw [hu.hif]; exact haw) wa wb hl ho)) ?_
    rw [hu.params, hu.crcEn, hu.limit]
    exact ha.1
  · rcases h with ⟨hl, ho, ha⟩ | ⟨hl, ho, ha⟩
    · refine send_noAddress hi hs ht hak wa wb wb' wa' (dma := none)
        (fun u => hl ▸ dmaPoll_silent hgo s.params polls 1 u ho) (.inl rfl) ?_
      rw [handoverAccesses_eq] at ha
      simpa using ha
    · obtain ⟨before, w, rfl, hb, hw⟩ := ho
      refine send_noAddress hi hs ht hak wa wb wb' wa' (dma := some 0)
        (fun u => dmaPoll_published hgo s.params w 0 hw before 1 _ u hb (by simpa using hl)) (.inr rfl) ?_
      rw [handoverAccesses_eq] at ha
      simpa using ha
  · refine send_asleep (r := .error e) hi hs ht hm haw fun u ⟨_, _, hu⟩ => ?_
    have hstops := chipWake_breaks hgo s.params (s := u) (by rw [hu.hif]; exact haw) wa wb hl ho before after x hsplit
    refine hstops.now.plays (fun h => h) ?_ ?_
    · rw [hu.params, hu.crcEn, hu.limit]
      exact hw
    · rw [hu.params, hu.crcEn, hu.limit]
      exact hx
  · rw [← noted_append]
    exact send_stops hi hs ht hak hn ho h0 hroom hsplit hw hx hsl hm

end Sys2Proof.Machine

/-!
PROOFS. `Isr` as the worker runs it on a request: no packet, a corrupt one, one that nobody takes, and one that a
collaborator's callback takes (spec/42_hif.md R211 to R217; logs 16, 21).
-/

namespace Sys2Proof.Machine

variable {go : Action → State → Option Val × State} {ag : Agent}

/-! ### `Isr` asked for by a request (R211; log 16) -/

/-- The worker has taken up an `Isr` asked for by a request (log 16). -/
def takenUp (s : State) : State :=
  (newTask s).mapIrq fun q => { q with wseq := .isr, wjob := .isr (taskOf s), wlog := [] }

/-- `Isr` asked for by a request ends as its program does; then the worker waits again (R211; log 16). -/
theorem isr_returned {s : State} {xs : List Access} {v : Except Err Unit} {g : State → State} {ev : List BusEvent}
    {rest : List (Option Byte)} (hs : WorkerReady s) (hserves : Serves workerGo (isr s.params none) xs v g (takenUp s))
    (hirq : (g (takenUp s)).irq = (takenUp s).irq) (ha : Answers s xs ev rest) :
    ∃ t, exec .opIsr s = .next t ∧
      Returned (workerIdle (g (takenUp s))) (taskOf s) (toResult (v.map fun _ => .unit)) ev rest t := by
  obtain ⟨hlock, hidle, hlimit, hyields⟩ := hs.session.bus
  obtain ⟨u, heval, hdone⟩ := hserves.eval ⟨hlock, hidle, hlimit, hyields⟩ ha
  have hgoing : ¬(s.irq.wseq = .stopped ∨ s.irq.stop = true) := by rw [hs.wseq, hs.going]; decide
  have hrun : exec .opIsr s = .next (workerEnd v u) := by
    show startJob .isr s = _
    rw [startJob, whenReady_ready hs.session.ready, if_neg hgoing, if_neg (not_not_intro hs.wseq)]
    show workerSettle ((isr s.params none).run workerGo [] [] [] (takenUp s)) = _
    rw [Prog.run_of_eval heval]
    rfl
  have hjob : u.irq.wjob = .isr (taskOf s) := by rw [hdone.irq, hirq]; rfl
  have hstop : u.irq.stop = false := by rw [hdone.irq, hirq]; exact hs.going
  refine ⟨_, hrun, workerIdle u, Respects.mapIrq _ _ _ _ _ hdone, ?_⟩
  rw [workerEnd, hjob]
  simp [jobResult, returnToCaller, workerIdle, State.mapIrq, State.mapEnv, hstop]

/-- The head of `Isr` where no window is recorded: the lock is free again, `RXDONE_PEND` is set (R211). -/
theorem takenUp_pending {s : State} (hl : s.hif.lock = .free) :
    (((takenUp s).mapHif fun h => { h with lock := .held .worker, rxPend := true }).mapHif fun h =>
      { h with lock := h.lock.drop .worker }) = (takenUp s).mapHif fun h => { h with rxPend := true } := by
  have hfree : Lock.drop (.held .worker) .worker = s.hif.lock := by rw [hl]; rfl
  simp [takenUp, State.mapHif, State.mapIrq, hfree]

/-- The head of `Isr` where a window is recorded: the lock is free again, RX-done pending (R211). -/
theorem takenUp_opened {s : State} (hl : s.hif.lock = .free) (base r : Word) :
    ((windowSet base (rxSizeField s.params r)
      ((takenUp s).mapHif fun h => { h with lock := .held .worker, rxPend := true })).mapHif fun h =>
        { h with lock := h.lock.drop .worker }) = windowOpened base r true (takenUp s) := by
  have hfree : Lock.drop (.held .worker) .worker = s.hif.lock := by rw [hl]; rfl
  have hsize : BitVec.ofNat 12 (sizeOf12 s.params r) = rxSizeField s.params r := by
    rw [← rxSizeField_toNat, BitVec.ofNat_toNat, BitVec.setWidth_eq]
  simp [takenUp, windowSet, windowOpened, State.mapHif, State.mapIrq, hfree, hsize]

section
variable {s : State} {r base w : Word} {group op l0 l1 : Byte} {ev : List BusEvent} {rest : List (Option Byte)}

/-- `Isr` without a packet pending sets `RXDONE_PEND` (R211, R217). -/
theorem isr_empty (hgo : Agrees go ag) (hl : s.hif.lock = .free) (p : Params) (h0 : sizeOf12 p r = 0) :
    Serves go (isr p none) (isrAccesses p r ++ [] ++ []) (.ok ())
      (fun s => (s.mapHif fun h => { h with lock := .held ag, rxPend := true }).mapHif fun h =>
        { h with lock := h.lock.drop ag }) s :=
  isr_serves (hd := .ok none) (g := fun s => s) (h := fun s => s) hgo p none r Respects.id Respects.id hl
    (fun u _ => by
      rw [isrWindow, if_pos (rxSizeField_eq_zero.mpr h0)]
      exact Serves.ret _ u)
    fun u _ => Serves.ret _ u

/-- `Isr` on a request, no packet pending (R217). -/
theorem isrRequest_empty (hs : WorkerReady s) (h0 : sizeOf12 s.params r = 0)
    (ha : Answers s (isrAccesses s.params r) ev rest) :
    ∃ t, exec .opIsr s = .next t ∧
      Returned (workerIdle ((newTask s).mapHif fun h => { h with rxPend := true })) (taskOf s) (.ok .unit) ev rest t := by
  have hret := isr_returned hs (isr_empty (s := takenUp s) workerGo_agrees hs.session.lock s.params h0) rfl
    (by simpa using ha)
  rwa [takenUp_pending hs.session.lock] at hret

/-- `Isr` on a request, the packet's size exceeding its declared length by more than four (R212). -/
theorem isrRequest_corrupt (hs : WorkerReady s) (h0 : sizeOf12 s.params r ≠ 0) (haddr : base.toNat < 2 ^ 24)
    (hbad : l0.toNat + 256 * l1.toNat + 4 < sizeOf12 s.params r)
    (ha : Answers s
      (isrAccesses s.params r ++
        [.read s.params.regHifRxBase base, .readBlock (base.setWidth 24) [group, op, l0, l1]]) ev rest) :
    ∃ t, exec .opIsr s = .next t ∧
      Returned (workerIdle ((newTask s).mapHif fun h => { h with rxPend := true })) (taskOf s) (.err .operationFailed) ev
        rest t := by
  have hserves := isr_serves (ag := .worker) (s := takenUp s) (hd := .error .operationFailed) (ys := [])
    (v := .error .operationFailed) (g := fun s => s) (h := fun s => s) workerGo_agrees s.params none r Respects.id
    Respects.id hs.session.lock
    (fun u _ => isrWindow_bad (addr := base) workerGo_agrees s.params none ⟨group, op, fromLe2 l0 l1⟩ l0 l1 rfl (.inl rfl)
      (fun _ => haddr) (mt rxSizeField_eq_zero.mp h0) (by rw [rxSizeField_toNat, fromLe2_toNat]; exact hbad) u)
    (fun u _ => Serves.ret _ u)
  have hret := isr_returned hs hserves rfl (by simpa using ha)
  rwa [takenUp_pending hs.session.lock] at hret

/-- `Isr` on a request, a packet whose window is recorded, up to what its dispatch comes to (R211, R213). -/
theorem isrRequest_packet {ys : List Access} {v : Except Err Unit} {h : State → State} (hs : WorkerReady s)
    (h0 : sizeOf12 s.params r ≠ 0) (haddr : base.toNat < 2 ^ 24)
    (hok : sizeOf12 s.params r ≤ l0.toNat + 256 * l1.toNat + 4) (hh : Respects h)
    (hirq : (h (windowOpened base r true (takenUp s))).irq = (takenUp s).irq)
    (hd : ∀ u, After (windowOpened base r true (takenUp s)) u →
      Serves workerGo (isrDispatch s.params group op (fromLe2 l0 l1) base) ys v h u)
    (ha : Answers s
      (isrAccesses s.params r ++
        [.read s.params.regHifRxBase base, .readBlock (base.setWidth 24) [group, op, l0, l1]] ++ ys) ev rest) :
    ∃ t, exec .opIsr s = .next t ∧
      Returned (workerIdle (h (windowOpened base r true (takenUp s)))) (taskOf s) (toResult (v.map fun _ => .unit)) ev rest
        t := by
  have hopened := takenUp_opened hs.session.lock base r
  have hserves := isr_serves (ag := .worker) (s := takenUp s) (hd := .ok (some (⟨group, op, fromLe2 l0 l1⟩, base)))
    (g := windowSet base (rxSizeField s.params r)) workerGo_agrees s.params none r (Respects.windowSet _ _) hh
    hs.session.lock
    (fun u _ => isrWindow_good workerGo_agrees s.params none ⟨group, op, fromLe2 l0 l1⟩ l0 l1 rfl (.inl rfl)
      (fun _ => haddr) (mt rxSizeField_eq_zero.mp h0) (by rw [rxSizeField_toNat, fromLe2_toNat]; exact hok) u)
    (fun u hu => hd u (hopened ▸ hu))
  have hret := isr_returned hs hserves (by rw [hopened]; exact hirq) ha
  rwa [hopened] at hret

end

/-- Settles O34: the three outcomes of an `Isr` whose packet nobody takes. -/
theorem isrWithoutCallback : Obligations.IsrWithoutCallback := fun s r addr w group op l0 l1 ev rest hs =>
  ⟨isrRequest_empty hs, fun h0 haddr => ⟨isrRequest_corrupt hs h0 haddr, fun hok hn ha =>
    isrRequest_packet (h := fun t => t.mapHif fun h => { h with rxPend := false }) hs h0 haddr hok (Respects.mapHif _) rfl
      (fun u hu => isrDispatch_dropped workerGo_agrees s.params _ addr w (hn.congr (by rw [hu.hif]; rfl))
        (by rw [hu.hif]; rfl)) ha⟩⟩

/-! ### A collaborator's callback (R211, R213, R215, R216; log 21) -/

/-- The next run of a collaborator has been drawn, and what it was handed recorded (R31, R213; log 21). -/
def collabCalled (runs : List CollabRun) (call : CollabCall) (s : State) : State :=
  s.mapEnv fun e => { e with collab := runs, collabIx := e.collabIx + 1, calls := e.calls ++ [call] }

theorem Respects.collabCalled (runs : List CollabRun) (call : CollabCall) : Respects (collabCalled runs call) :=
  fun _ _ _ _ h => { h with bus := h.bus, env := by simp only [Machine.collabCalled, State.mapEnv_env]; rw [h.env] }

/-- A collaborator that receives nothing answers with its payload (R213; log 21). -/
theorem collabCb_serves (hgo : Agrees go ag) (p : Params) (call : CollabCall) {ret : Option Bytes} {runs : List CollabRun}
    {s : State} (hc : s.env.collab = ⟨[], ret⟩ :: runs) :
    Serves go (collabCb p call) [] (ret.map .bytes, false) (collabCalled runs call) s := by
  have hdraw : perform (.drawCollab call) ag s = (some (.collab ⟨[], ret⟩), collabCalled runs call s) := by
    simp only [perform, doDrawCollab, hc]
    rfl
  exact Serves.update (h := fun t => t) hgo Respects.id hdraw rfl rfl
    (fun hs => ⟨hs.lock, hs.idle, hs.limit, hs.yields⟩) fun u _ => Serves.ret _ u

/-- A packet whose group has a collaborator's callback: the callback is handed the packet, its payload is broadcast, and
RX-done given (R213, R215, R216). -/
theorem isrDispatch_collaborator (hgo : Agrees go ag) (p : Params) {group op : Byte} (length : Half) (addr w : Word)
    {c : Nat} {ret : Option Bytes} {runs : List CollabRun} {s : State}
    (hcb : s.hif.cb[group.toNat]'group.isLt = some (.collaborator c)) (hn : (s.hif.subs.map (·.id)).Nodup)
    (hpend : s.hif.rxPend = true) (hc : s.env.collab = ⟨[], ret⟩ :: runs) :
    Serves go (isrDispatch p group op length addr) (rxDoneAccesses p true w) (.ok ())
      (fun t => (offeredFor group op (ret.map .bytes)
        (collabCalled runs ⟨c, op, (length.toNat : Int) - 8, addr + 8⟩ t)).mapHif fun h => { h with rxPend := false }) s := by
  have hg : Respects fun t => (offeredFor group op (ret.map .bytes) t).mapHif fun h => { h with rxPend := false } :=
    (Respects.offeredFor _ _ _).comp (Respects.mapHif _)
  refine isrDispatch_serves hgo p group op length addr ((Respects.collabCalled _ _).comp hg) hcb fun u ⟨_, _, hu⟩ => ?_
  have hcu : u.env.collab = ⟨[], ret⟩ :: runs := by rw [hu.env]; exact hc
  refine Serves.bind (xs := []) hg (collabCb_serves hgo p _ hcu) fun v hv => ?_
  have hvh : v.hif = s.hif := by rw [hv.hif]; exact hu.hif
  exact isrFinish_any hgo p group op _ false w (pend := true) (by rw [hvh]; exact hn) (by rw [hvh]; exact hpend)

end Sys2Proof.Machine

/-!
PROOFS. Registrations, the end of a closed queue, and what a collaborator's callback is handed and returns
(spec/42_hif.md R211 to R216, R220, R221; logs 12, 16, 21).
-/

namespace Sys2Proof.Machine

/-! ### The two registrations (R220, R221; log 12) -/

/-- In one of the states asked for, and outside an `Initialize()`, the gate is open. -/
theorem whenIn_open {s : State} {states : List HifState} (hst : s.hif.state ∈ states) (hi : initializing s = false)
    (k : Host.Outcome State Fault Refusal) : whenIn s states k = k := by
  rw [whenIn, if_pos ⟨List.contains_iff_mem.mpr hst, hi⟩]

section
variable {s : State}

/-- A queue opened by a caller that finds the session lock free (R221). -/
theorem Runs.openEventChannel {id : Nat} (hl : s.hif.lock = .free) (hy : s.env.yields = []) :
    Runs id Machine.openEventChannel s (.ok (.queue s.env.nextQueue))
      (endAction ((s.mapHif fun h => { h with subs := h.subs ++ [⟨s.env.nextQueue, none⟩] }).mapEnv fun e =>
        { e with nextQueue := s.env.nextQueue + 1 })) := by
  have hp : perform .lockS (.caller id) s = (some .unit, s.mapHif fun h => { h with lock := .held (.caller id) }) := by
    simp only [perform, doLockS, hl, Lock.take]
  refine Runs.andThen hp hy (Runs.act rfl ?_ (Runs.andThen rfl ?_ ?_))
  · simp [hy]
  · simp [hy]
  · refine cast (congrArg (Runs id _ _ _) ?_) (Runs.ret (α := Except Err Value) _ _)
    simp [endAction, State.mapHif, State.mapEnv, hy, hl, Lock.drop]

variable (hst : s.hif.state ∈ [HifState.uninitialized, .ready]) (hi : initializing s = false) (hl : s.hif.lock = .free)
  (hy : s.env.yields = [])
include hst hi hl hy

/-- One entry of `CB` is replaced (R220). -/
theorem registerCallback_ends (g : Byte) (cb : Callback) :
    Ends (.opRegisterCallback g cb) s (.ok .unit)
      ((newTask s).mapHif fun h => { h with cb := h.cb.set g.toNat (some cb) g.isLt }) := by
  have he : exec (.opRegisterCallback g cb) s = startTask (.opRegisterCallback g cb) (registerCallback g cb) s :=
    whenIn_open hst hi _
  have hends := Ends.of_runs he (Runs.registerCallback (s := newTask s) g cb hl hy)
  rw [endAction_eq_unfired (by exact hy)] at hends
  exact Ends.of_unfired hends

/-- One empty queue is appended to `SUBS` (R221). -/
theorem openEventChannel_ends :
    Ends .opOpenEventChannel s (.ok (.queue s.env.nextQueue))
      (((newTask s).mapHif fun h => { h with subs := h.subs ++ [⟨s.env.nextQueue, none⟩] }).mapEnv fun e =>
        { e with nextQueue := s.env.nextQueue + 1 }) := by
  have he : exec .opOpenEventChannel s = startTask .opOpenEventChannel openEventChannel s := whenIn_open hst hi _
  have hends := Ends.of_runs he (Runs.openEventChannel (s := newTask s) hl hy)
  rw [endAction_eq_unfired (by exact hy)] at hends
  exact Ends.of_unfired hends

end

/-! ### The end of a closed queue (R215, R221) -/

/-- Once its event has been taken, a closed queue holds none. -/
theorem find?_emptied {q : Nat} {content : Option Event} {closed : List Queue}
    (h : closed.find? (fun x => x.id = q) = some ⟨q, content⟩) :
    (closed.map fun x => if x.id = q then (⟨q, none⟩ : Queue) else x).find? (fun x => x.id = q) = some ⟨q, none⟩ := by
  induction closed with
  | nil => cases h
  | cons x closed ih =>
    by_cases hx : x.id = q
    · simp [hx]
    · rw [List.find?_cons_of_neg (by simpa using hx)] at h
      rw [List.map_cons, if_neg hx, List.find?_cons_of_neg (by simpa using hx)]
      exact ih h

/-- A closed queue gives its consumer the event it holds, or the end of the stream (R215, R221). -/
theorem consumeQueue_closed {s : State} {q : Nat} {content : Option Event} (hopen : ∀ x ∈ s.hif.subs, x.id ≠ q)
    (hclosed : s.env.closed.find? (fun x => x.id = q) = some ⟨q, content⟩) :
    consumeQueue q s = s.mapEnv (fun _ => (consumeQueue q s).env) ∧
      (consumeQueue q s).env.delivered = s.env.delivered ++ [(q, content)] ∧
      (consumeQueue q s).env.closed.find? (fun x => x.id = q) = some ⟨q, none⟩ := by
  have hsubs : s.hif.subs.find? (fun x => x.id = q) = none := List.find?_eq_none.mpr (by simpa using hopen)
  cases content with
  | none =>
    simp only [consumeQueue, hsubs, hclosed]
    exact ⟨rfl, rfl, hclosed⟩
  | some event =>
    simp only [consumeQueue, hsubs, hclosed]
    exact ⟨rfl, rfl, find?_emptied hclosed⟩

/-! ### What a collaborator's callback is handed and returns (R211, R213, R215, R216; log 21) -/

/-- RX-done given before the collaborator's payload is broadcast or behind it leaves the same (R216). -/
theorem collab_finished (ret : Option Bytes) (group op : Byte) (runs : List CollabRun) (call : CollabCall) (base r : Word)
    (s : State) :
    workerIdle ((offeredFor group op (ret.map .bytes)
      (collabCalled runs call (windowOpened base r true (takenUp s)))).mapHif fun h => { h with rxPend := false }) =
      workerIdle (offeredFor group op (ret.map .bytes)
        (collabCalled runs call (windowOpened base r false (newTask s)))) := by
  cases ret with
  | none => rfl
  | some b => rfl

/-- Settles O39: the registrations, the closed queue, and the packet that a collaborator takes. -/
theorem registrations : Obligations.Registrations := by
  refine ⟨fun s g cb hst hi hl hy => ?_, fun s q content hn hopen hclosed => ?_,
    fun s r addr w group op l0 l1 c ret runs ev rest => ?_⟩
  · have hmem : s.hif.state ∈ [HifState.uninitialized, .ready] := by simpa using hst
    exact ⟨registerCallback_ends hmem hi hl hy g cb, openEventChannel_ends hmem hi hl hy⟩
  · refine ⟨consumeQueue q (popInput s), ?_, consumeQueue_closed (s := popInput s) hopen hclosed⟩
    simp only [step, hn]
    rfl
  · intro length called hs hn hcb hcollab h0 hok haddr ha
    have hlen : ((fromLe2 l0 l1).toNat : Int) - 8 = (length : Int) - 8 := by rw [fromLe2_toNat]
    have hret := isrRequest_packet hs h0 haddr hok
      (h := fun t => (offeredFor group op (ret.map .bytes)
        (collabCalled runs ⟨c, op, (length : Int) - 8, addr + 8⟩ t)).mapHif fun h => { h with rxPend := false })
      (((Respects.collabCalled _ _).comp (Respects.offeredFor _ _ _)).comp (Respects.mapHif _))
      (by cases ret <;> rfl)
      (fun u ⟨_, _, hu⟩ => hlen ▸ isrDispatch_collaborator workerGo_agrees s.params (fromLe2 l0 l1) addr w
        (by rw [hu.hif]; exact hcb) (by rw [hu.hif]; exact hn) (by rw [hu.hif]; rfl) (by rw [hu.env]; exact hcollab)) ha
    rw [collab_finished] at hret
    cases ret with
    | none => exact hret
    | some b => exact hret

end Sys2Proof.Machine

/-!
PROOFS. `Receive` inside the window (spec/42_hif.md R218, R219).
-/

namespace Sys2Proof.Machine

variable {go : Action → State → Option Val × State} {ag : Agent}

/-- `Receive` inside the window, into the span lent to it (R218). -/
theorem receiveProg_serves (hgo : Agrees go ag) (p : Params) (w : Word) {address : Word} {buf : Span} {d : Bytes}
    {done due : Bool} {s : State} (hr : s.hif.state = .ready) (hlen : d.length = buf.len)
    (hw : inWindow s.hif address buf.len) (ha : address.toNat < 2 ^ 24)
    (hdue : rxDoneDue s.hif address buf.len done = due) :
    Serves go (receiveProg p address buf done)
      ((if d = [] then [] else [.readBlock (address.setWidth 24) d]) ++ rxDoneAccesses p due w) (.ok .unit)
      (fun s => (fillSpan buf d s).mapHif fun h => { h with rxPend := h.rxPend && !due }) s := by
  rw [receiveProg, ← hlen]
  rw [← hlen] at hw hdue
  have hread := Serves.tryBind (ys := []) (f := fun _ => Prog.ret (.ok () : Except Err Unit)) Respects.id
    (receive_into_serves hgo p w buf hr hw ha hdue) fun u _ => Serves.ret _ u
  rw [List.append_nil] at hread
  exact Serves.bindLast Respects.id (noValue_serves_ok hread) fun u _ => Serves.ret _ u

/-- Settles O38. -/
theorem receiveReadsTheWindow : Obligations.ReceiveReadsTheWindow := by
  intro s address w buf done d ev rest hr hs hm hw ha hlen due hans
  obtain ⟨t, hexec, hret⟩ := Returned.of_serves (i := .opHifReceive address buf done) (whenReady_ready hr _) hs hans
    (receiveProg_serves (s := newTask s) (due := due) (callerGo_agrees _) s.params w hr.1 hlen hw ha rfl)
  refine ⟨t, memWriteBytes s.mem buf.base (d.take buf.len), hexec, hret, ?_⟩
  have hspan : buf = ⟨buf.base, d.length⟩ := by rw [hlen]
  rw [← hlen, List.take_length, hspan]
  exact filled_memWriteBytes hm buf.base d

end Sys2Proof.Machine

/-!
PROOFS. The interrupt pin and the worker between rounds (spec/42_hif.md R217, R222, R223, R326 to R331).
-/

namespace Sys2Proof.Machine

/-- Settles O40: `GO` is set by the edge under `INTR_EN`, and kept where it was set (R222, R328). -/
theorem fallingEdgePostsGo : Obligations.FallingEdgePostsGo := by
  intro s level hn
  have hgo : ∀ go prev en : Bool,
      (go || (prev && !level && en)) = if prev = true ∧ level = false ∧ en = true then true else go := by
    cases level <;> decide
  have hstep : step s = .next (samplePin level (popInput s)) := by
    simp only [step, hn]
    rfl
  simp only [hstep, samplePin, hgo]

/-! ### One turn of the worker (R223) -/

section
variable {s : State}

/-- A turn of the worker is what its input asks for (R223; log 1). -/
theorem step_work (hn : nextInput s = some .work) : step s = workerTurn (popInput s) := by
  simp only [step, hn]
  rfl

theorem workerTurn_stopped (hw : s.irq.wseq = .stopped) : workerTurn s = .next s := by
  simp only [workerTurn, hw]

theorem workerTurn_stops (hw : s.irq.wseq = .wait) (hs : s.irq.stop = true) :
    workerTurn s = .next (s.mapIrq fun q => { q with wseq := .stopped }) := by
  simp only [workerTurn, hw, hs, if_true]

theorem workerTurn_waits (hw : s.irq.wseq = .wait) (hs : s.irq.stop = false) (hg : s.irq.go = false) :
    workerTurn s = .next s := by
  simp only [workerTurn, hw, hs, hg, Bool.false_eq_true, if_false]

/-- The signal starts a round (R223, R328). -/
theorem workerTurn_starts (hw : s.irq.wseq = .wait) (hs : s.irq.stop = false) (hg : s.irq.go = true) :
    workerTurn s = workerRun (takeGo s) := by
  simp only [workerTurn, hw, hs, hg, Bool.false_eq_true, if_false, if_true]

end

/-! ### A round behind which there is no packet (R217, R223) -/

section
variable {go : Action → State → Option Val × State} {ag : Agent}

/-- A program under the session lock, the lock free again behind it (R226). -/
theorem inSession_served {α : Type} (hgo : Agrees go ag) {body : Prog α} {xs : List Access} {r : α} {g : State → State}
    {s : State} (hg : Respects g) (hk : LeavesLock g) (hl : s.hif.lock = .free)
    (hb : ∀ u : State, u.hif.awake = s.hif.awake → Serves go body xs r g u) : Serves go (withSession body) xs r g s :=
  (withSession_serves hgo hg hl fun u hu => hb u (by rw [hu.hif]; rfl)).congr (hk.released hl)

/-- `W_SEQ` moved on (R223). -/
theorem Serves.setWSeq {α : Type} (hgo : Agrees go ag) (q : WSeq) {p : Prog α} {xs : List Access} {r : α}
    {h : State → State} {s : State} (hh : Respects h)
    (hf : ∀ u, After (s.mapIrq fun x => { x with wseq := q }) u → Serves go p xs r h u) :
    Serves go (.andThen (.put (.wSeq q)) p) xs r (fun s => h (s.mapIrq fun x => { x with wseq := q })) s :=
  Serves.update (g := fun t => t.mapIrq fun x => { x with wseq := q }) hgo hh rfl rfl rfl
    (fun hs => ⟨hs.lock, hs.idle, hs.limit, hs.yields⟩) hf

/-- The round's `Isr` without a packet pending (R217). -/
theorem isr_pending (hgo : Agrees go ag) (p : Params) {r : Word} {s : State} (hl : s.hif.lock = .free)
    (h0 : sizeOf12 p r = 0) :
    Serves go (isr p none) (isrAccesses p r) (.ok ()) (fun s => s.mapHif fun h => { h with rxPend := true }) s := by
  have hempty := isr_empty hgo hl p h0
  rw [List.append_nil, List.append_nil] at hempty
  exact hempty.congr (LeavesLock.released (g := fun s => s.mapHif fun h => { h with rxPend := true }) (fun _ _ => rfl) hl)

/-- A round behind which there is no packet: the chip woken, the RX-control register examined, the chip put to sleep
(R217, R223). -/
theorem workerRound_empty (hgo : Agrees go ag) (p : Params) (wa wb wb' wa' : Word) {r : Word} {acks : List Word} {s : State}
    (hl : s.hif.lock = .free) (haw : s.hif.awake = false) (hn : acks.length ≤ 10) (ho : LastOnly (acked p) acks)
    (h0 : sizeOf12 p r = 0) :
    Serves go (workerRound p) (wakeAccesses p wa wb acks ++ (isrAccesses p r ++ (sleepAccesses p wb' wa' ++ []))) ()
      (fun s => (((((s.mapHif fun h => { h with awake := true }).mapIrq fun q => { q with wseq := .isr }).mapHif fun h =>
        { h with rxPend := true }).mapIrq fun q => { q with wseq := .sleep }).mapHif fun h => { h with awake := false })) s := by
  have sleep (u : State) (hul : u.hif.lock = .free) (hua : u.hif.awake = true) :
      Serves go ((withSession (chipSleep p)).bind fun _ => .ret ()) (sleepAccesses p wb' wa' ++ []) ()
        (fun s => s.mapHif fun h => { h with awake := false }) u :=
    Serves.bind Respects.id
      (inSession_served hgo (Respects.mapHif _) (LeavesLock.awake false) hul fun v hv =>
        chipSleep_awake hgo p (hv.trans hua) wb' wa') fun v _ => Serves.ret () v
  have behindIsr (u : State) (hul : u.hif.lock = .free) (hua : u.hif.awake = true) :
      Serves go ((isr p none).bind fun _ =>
          .andThen (.put (.wSeq .sleep)) <| (withSession (chipSleep p)).bind fun _ => .ret ())
        (isrAccesses p r ++ (sleepAccesses p wb' wa' ++ [])) ()
        (fun s => ((s.mapHif fun h => { h with rxPend := true }).mapIrq fun q => { q with wseq := .sleep }).mapHif fun h =>
          { h with awake := false }) u :=
    Serves.bind ((Respects.mapIrq _).comp (Respects.mapHif _)) (isr_pending hgo p hul h0) fun v hv =>
      Serves.setWSeq hgo .sleep (Respects.mapHif _) fun x hx =>
        sleep x (by rw [hx.hif]; show v.hif.lock = _; rw [hv.hif]; exact hul)
          (by rw [hx.hif]; show v.hif.awake = _; rw [hv.hif]; exact hua)
  refine Serves.bind (((Respects.mapIrq _).comp (Respects.mapHif _)).comp ((Respects.mapIrq _).comp (Respects.mapHif _)))
    (inSession_served hgo (Respects.mapHif _) (LeavesLock.awake true) hl fun u hu =>
      chipWake_acked hgo p (hu.trans haw) wa wb hn ho) fun u hu => ?_
  exact Serves.setWSeq hgo .isr (((Respects.mapHif _).comp (Respects.mapIrq _)).comp (Respects.mapHif _)) fun v hv =>
    behindIsr v (by rw [hv.hif]; show u.hif.lock = _; rw [hu.hif]; exact hl)
      (by rw [hv.hif]; show u.hif.awake = _; rw [hu.hif]; rfl)

end

/-- A round that a device serves: the worker waits again (R223). -/
theorem workerRun_round {s : State} {xs : List Access} {g : State → State} {ev : List BusEvent} {rest : List (Option Byte)}
    (hs : BusReady s) (hstop : s.irq.stop = false) (hserves : Serves workerGo (workerRound s.params) xs () g (takeGo s))
    (hjob : (g (takeGo s)).irq.wjob = .round) (hgoing : (g (takeGo s)).irq.stop = s.irq.stop) (ha : Answers s xs ev rest) :
    ∃ t, workerRun (takeGo s) = .next t ∧ BusDone (workerIdle (g (takeGo s))) t ev rest := by
  obtain ⟨u, heval, hdone⟩ := hserves.eval ⟨hs.lock, hs.idle, hs.limit, hs.yields⟩ ha
  refine ⟨workerIdle u, ?_, Respects.mapIrq _ _ _ _ _ hdone⟩
  have hround : ((workerRound s.params).bind fun _ => .ret (.ok ())).eval workerGo (takeGo s) =
      some ((.ok () : Except Err Unit), u) := by
    rw [Prog.eval_bind_of heval]
    rfl
  have hujob : u.irq.wjob = .round := by rw [hdone.irq, hjob]
  have hustop : u.irq.stop = false := by rw [hdone.irq, hgoing, hstop]
  show workerSettle (((workerRound s.params).bind fun _ => .ret (.ok ())).run workerGo [] [] [] (takeGo s)) = _
  rw [Prog.run_of_eval hround [] []]
  simp [workerSettle, workerEnd, jobResult, hujob, hustop, workerIdle, State.mapIrq]

/-- Settles O41: the worker's turns between rounds, and the round of a signal behind which there is no packet. -/
theorem oneSignalOneRound : Obligations.OneSignalOneRound := by
  refine ⟨fun s hn => ⟨fun hw => ?_, fun hw hs => ?_, fun hw hs hg => ?_⟩,
    fun s wa wb r wb' wa' acks ev rest hn hw hstop hg hl hs haw hacks ho h0 ha => ?_⟩
  · rw [step_work hn, workerTurn_stopped (s := popInput s) hw]
  · rw [step_work hn, workerTurn_stops (s := popInput s) hw hs]
  · rw [step_work hn, workerTurn_waits (s := popInput s) hw hs hg]
  · rw [step_work hn, workerTurn_starts (s := popInput s) hw hstop hg]
    have hround := workerRound_empty (s := takeGo (popInput s)) workerGo_agrees s.params wa wb wb' wa' hl haw hacks ho h0
    have hanswers : Answers (popInput s) (wakeAccesses s.params wa wb acks ++
        (isrAccesses s.params r ++ (sleepAccesses s.params wb' wa' ++ []))) ev rest := by
      rw [List.append_nil, ← List.append_assoc]
      exact ha
    obtain ⟨t, hrun, hdone⟩ :=
      workerRun_round (s := popInput s) ⟨hs.lock, hs.idle, hs.limit, hs.yields⟩ hstop hround rfl rfl hanswers
    refine ⟨t, hrun, ?_⟩
    have hasleep : (popInput s).hif.awake = false := haw
    simpa [workerIdle, takeGo, State.mapHif, State.mapIrq, hasleep] using hdone

end Sys2Proof.Machine

/-!
PROOFS. The gates of the operations: the session's states, the driver's life, and what only the worker runs
(spec/42_hif.md R200, R201, R224, R332 to R336, R374; spec/43_socket.md R252, R285, R286; logs 10, 11, 12, 16).
-/

namespace Sys2Proof.Machine

/-! ### Gates that are closed -/

section
variable {s : State} {k : Host.Outcome State Fault Refusal}

theorem whenReady_closed (h : s.hif.state ≠ .ready ∨ initializing s = true) :
    whenReady s k = .refused .wrongSessionState := by
  rcases h with hst | hi
  · exact if_neg fun hr => hst hr.1
  · exact if_neg fun hr => by rw [hi] at hr; cases hr.2

theorem whenIn_closed {states : List HifState} (h : s.hif.state ∉ states ∨ initializing s = true) :
    whenIn s states k = .refused .wrongSessionState := by
  rcases h with hst | hi
  · exact if_neg fun hr => hst (List.contains_iff_mem.mp hr.1)
  · exact if_neg fun hr => by rw [hi] at hr; cases hr.2

/-- While the session boots no list of states without `bootstrapping` lets anything in (R374). -/
theorem whenIn_booting {states : List HifState} (h : s.hif.state = .bootstrapping ∨ initializing s = true)
    (hstates : HifState.bootstrapping ∉ states) : whenIn s states k = .refused .wrongSessionState :=
  whenIn_closed (h.imp_left fun hst => by rwa [hst])

theorem whenLive_dead (h : s.root.live = false) : whenLive s k = .refused .rootNotLive :=
  if_neg (by rw [h]; decide)

/-- A frame builder is not invoked while the session boots (R72, R374; log 12). -/
theorem buildRow_booting {i : Instr} {c : Cmd} (h : s.hif.state = .bootstrapping ∨ initializing s = true)
    (hc : c.inRange = true) : buildRow i c s = .refused .wrongSessionState := by
  rw [buildRow, if_pos hc, whenIn_booting h (by decide)]

/-- A row in either direction has a meaning in `ready` only (R224, R336; log 10). -/
theorem hifRowExec_closed {i : Instr} {group op : Byte} {pk : HifPacket}
    (h : s.hif.state ≠ .ready ∨ initializing s = true) :
    hifRowExec i group op pk s = .refused .wrongSessionState := by
  cases pk with
  | outbound control data offset => exact whenReady_closed h
  | inbound flag length => exact whenReady_closed h

/-! ### What the worker alone runs (R332, R335; logs 10, 16) -/

variable {job : Nat → WorkerJob}

/-- Nothing is run once the worker has stopped (R332). -/
theorem startJob_stopped (hr : Ready s) (h : s.irq.wseq = .stopped ∨ s.irq.stop = true) :
    startJob job s = .refused .workerStopped := by
  rw [startJob, whenReady_ready hr, if_pos h]

/-- `Isr` is never re-entered (R335). -/
theorem startJob_reentered (hr : Ready s) (hstop : s.irq.stop = false) (h : s.irq.wseq ∈ [WSeq.wake, .isr, .sleep]) :
    startJob job s = .refused .isrReentry := by
  have hgoing : ¬(s.irq.wseq = .stopped ∨ s.irq.stop = true) := by
    rintro (hw | hs)
    · rw [hw] at h
      revert h
      decide
    · rw [hstop] at hs
      cases hs
  have hbusy : s.irq.wseq ≠ .wait := fun hw => by
    rw [hw] at h
    revert h
    decide
  rw [startJob, whenReady_ready hr, if_neg hgoing, if_pos hbusy]

end

/-! ### The gates of the operations -/

section
variable {s : State}

/-- Operations of the session and of the transport, and chunks by themselves, have a meaning in `ready` only (R224, R336;
logs 11, 12). -/
theorem sessionOperations_closed (h : s.hif.state ≠ .ready ∨ initializing s = true) (addr v : Word) (buf : Span)
    (done : Bool) (g op : Byte) (control data d : Bytes) (off : Nat) (seq : BitVec 4) :
    ∀ i ∈ [Instr.opReadRegister addr, .opWriteRegister addr v, .opReadBlock addr buf, .opWriteBlock addr buf,
        .opTransportReset, .opTransportInit, .opWaitForBootrom, .opWaitForFirmwareStart, .opEnableInterrupts,
        .opChipWake, .opChipSleep, .opHifSend g op control data off, .opIsr, .opHifReceive addr buf done,
        .tagFirst d, .tagMiddle d, .tagLast d, .tagAny seq],
      exec i s = .refused .wrongSessionState := by
  have closed : ∀ {i : Instr} {k}, exec i s = whenReady s k → exec i s = .refused .wrongSessionState := fun he =>
    he.trans (whenReady_closed h)
  simp only [List.forall_mem_cons]
  exact ⟨closed rfl, closed rfl, closed rfl, closed rfl, closed rfl, closed rfl, closed rfl, closed rfl, closed rfl,
    closed rfl, closed rfl, closed rfl, closed rfl, closed rfl, closed rfl, closed rfl, closed rfl, closed rfl,
    fun _ hi => nomatch hi⟩

/-- Nothing is invoked while the session boots (R374). -/
theorem operations_booting (h : s.hif.state = .bootstrapping ∨ initializing s = true) (g : Byte) (cb : Callback) (a : Addr)
    (a15 : BitVec 15) (n : Half) (n24 : BitVec 24) (d : Word) (ha : 0xFF < a.toNat) (ha15 : a15.toNat ≤ 0x30)
    (hn0 : 2 ≤ n24.toNat) (hn : n24.toNat ≤ 2040) :
    ∀ i ∈ [Instr.opHifInit, .opRegisterCallback g cb, .opOpenEventChannel, .cmdDmaWrite a n, .cmdDmaRead a n,
        .cmdInternalWrite a15 d, .cmdInternalRead a15, .cmdTerminate, .cmdRepeat, .cmdExtWrite a n24,
        .cmdExtRead a n24, .cmdSingleWrite a d, .cmdSingleRead a, .cmdReset],
      exec i s = .refused .wrongSessionState := by
  have session : ∀ {i : Instr} {states k}, exec i s = whenIn s states k → HifState.bootstrapping ∉ states →
      exec i s = .refused .wrongSessionState := fun he hs => he.trans (whenIn_booting h hs)
  have builder : ∀ {i : Instr} {c : Cmd}, c.inRange = true → exec i s = buildRow i c s →
      exec i s = .refused .wrongSessionState := fun hc he => he.trans (buildRow_booting h hc)
  simp only [List.forall_mem_cons]
  refine ⟨session rfl (by decide), session rfl (by decide), session rfl (by decide), builder (c := .dmaWrite a n) rfl rfl,
    builder (c := .dmaRead a n) rfl rfl, builder (c := .internalWrite a15 d) ?_ rfl,
    builder (c := .internalRead a15) ?_ rfl, builder (c := .terminate) rfl rfl, builder (c := .repeatData) rfl rfl,
    builder (c := .extWrite a n24) ?_ rfl, builder (c := .extRead a n24) ?_ rfl, builder (c := .singleWrite a d) ?_ rfl,
    builder (c := .singleRead a) ?_ rfl, builder (c := .reset) rfl rfl, fun _ hi => nomatch hi⟩ <;>
    simp only [Cmd.inRange, Bool.and_eq_true, decide_eq_true_eq] <;> omega

/-- Socket operations and `Reset` have a meaning only while the driver is live (R252, R286). -/
theorem socketOperations_dead (h : s.root.live = false) (type : SockType) (ssl : SslFlags) (i : Int) (addr : SockAddr)
    (deadline : Word) (backlog option : Byte) (b value name : Bytes) (buf : Span) :
    ∀ instr ∈ [Instr.opSocket type ssl, .opBind i addr deadline, .opListen i backlog deadline, .opAccept i deadline,
        .opConnect i addr deadline, .opSecure i deadline, .opSendSocket i b deadline, .opSendTo i b addr deadline,
        .opRecv i buf deadline, .opRecvFrom i buf deadline, .opSetsockopt i option value, .opShutdown i,
        .opGetHostByName name deadline, .opReset],
      exec instr s = .refused .rootNotLive := by
  have dead : ∀ {i : Instr} {k}, exec i s = whenLive s k → exec i s = .refused .rootNotLive := fun he =>
    he.trans (whenLive_dead h)
  simp only [List.forall_mem_cons]
  exact ⟨dead rfl, dead rfl, dead rfl, dead rfl, dead rfl, dead rfl, dead rfl, dead rfl, dead rfl, dead rfl, dead rfl,
    dead rfl, dead rfl, if_neg (by rw [h]; decide), fun _ hi => nomatch hi⟩

/-- `Isr` and the rows received are one start of the worker (R335; logs 10, 16). -/
theorem exec_worker {g op : Byte} {flag : Bool} {length : Half} {i : Instr}
    (hi : i = .opIsr ∨ hifRow g op (.inbound flag length) = some i) : ∃ job, exec i s = startJob job s := by
  rcases hi with rfl | hrow
  · exact ⟨_, rfl⟩
  · exact ⟨_, exec_inbound hrow⟩

end

/-- Settles O27. -/
theorem operationGates : Obligations.OperationGates := by
  refine ⟨fun s addr v buf done g op control data d off seq pk row h =>
      ⟨sessionOperations_closed h addr v buf done g op control data d off seq, fun hrow => ?row⟩,
    fun s g cb a a15 n n24 d => ⟨fun h ha ha15 hn0 hn => operations_booting h g cb a a15 n n24 d ha ha15 hn0 hn,
      fun hst => ?initReady, fun hst => ⟨?registered, ?opened⟩⟩,
    fun s type ssl i addr deadline backlog option b value name buf =>
      ⟨fun h => socketOperations_dead h type ssl i addr deadline backlog option b value name buf, fun hl => ?live,
        fun h => ⟨fun hl => ?rootDown, fun hl => ?rootUp⟩⟩,
    fun s g op flag length i hr hi => ?worker⟩
  case row =>
    obtain ⟨hsome, hwifi⟩ := hrow
    exact (exec_hifRow hsome s hwifi).trans (hifRowExec_closed h)
  case initReady => exact whenIn_closed (.inl (by rw [hst]; decide))
  case registered => exact whenIn_closed (.inl (by rw [hst]; decide))
  case opened => exact whenIn_closed (.inl (by rw [hst]; decide))
  case live => exact if_pos hl
  case rootDown => exact (if_neg (by rw [hl]; decide)).trans (whenIn_booting h (by decide))
  case rootUp => exact (if_pos hl).trans (whenIn_booting h (by decide))
  case worker =>
    obtain ⟨job, hexec⟩ := exec_worker (s := s) hi
    exact ⟨fun h => hexec.trans (startJob_stopped hr h), fun hstop h => hexec.trans (startJob_reentered hr hstop h)⟩

end Sys2Proof.Machine

/-!
PROOFS. `Bind`, `Listen`, `Connect`, `Secure`, `Send` and `SendTo` as a whole: the packet, the reply with the worker's next
round, and what the reply changes in the slot (spec/43_socket.md R253 to R261; spec/42_hif.md R223).
-/

namespace Sys2Proof.Machine

/-! ### What an operation on a slot does with the reply it asked for (R255, R256, R258 to R261) -/

section
variable {s s1 : State} {k : Fin 11} {i : Instr} {kind : Kind} {pk : Packet} {rep : Reply} {v : Value} {f : Slot → Slot}

/-- What a reply changes in the slot leaves the slot's lock alone. -/
theorem SlotRequest.keepsLock (h : SlotRequest s k i kind pk rep v f) (x : Slot) (l : Lock) :
    f { x with lock := l } = { f x with lock := l } := by
  cases h <;> rfl

/-- The last step of an operation on a slot: the slot changed by its holder (R255, R256, R258, R259). -/
theorem Runs.updSlot {id : Nat} (upd : SlotUpd) (hh : Holds k id s1) (hy : s1.env.yields = []) :
    Runs id (.andThen (.updSlot k upd) (.ret (.ok v : Except Err Value))) s1 (.ok v)
      ((s1.mapSock fun q => q.setSlot k upd.apply).mapEnv fun e => { e with fired := false }) :=
  Runs.last _ (hh.perform_updSlot upd) hy

/-- An operation on a slot that ends by changing it. -/
theorem Ends.perSlot_updated {body : Fin 11 → Prog (Except Err Value)}
    (he : exec i s = whenLive s (startTask i (Machine.perSlot k.val body) s)) (hs : SlotReady k s)
    (h : Runs (taskOf s) (body k) (entered k s) (.ok v)
      ((s1.mapSock fun q => q.setSlot k f).mapEnv fun e => { e with fired := false })) :
    Ends i s (.ok v) (changed k (taskOf s) f s1) := by
  rw [← changed_setSlot]
  exact Ends.of_unfired (Ends.perSlot he hs h)

/-- A positive count is what `Send` and `SendTo` answer (R260, R261). -/
theorem sentResult_ok (sock : BitVec 8) {n : BitVec 16} (sid : Option Half) (hn : 0 ≤ n.toInt) :
    sentResult (.send sock n sid) = .ret (.ok (.count n.toNat)) := if_neg (Int.not_lt.mpr hn)

/-- Status 0 is success (R254). -/
theorem statusOk_zero (p : Prog (Except Err Value)) : statusOk 0 p = p := if_neg (by decide)

/-- An `ExtraData` of at least 8 gives the offset (R258). -/
theorem extraOffset_ok {extra : Half} (he : 8 ≤ extra.toNat) (f : Half → Prog (Except Err Value)) :
    extraOffset extra f = f (extra - 8) := if_neg (Nat.not_lt.mpr he)

/-- An operation whose request is answered with success changes its slot as its rule says (R255, R256, R258 to R261). -/
theorem SlotRequest.ends (h : SlotRequest s k i kind pk rep v f) (hs : SlotReady k s) :
    ∃ deadline, ∀ s1, Runs (taskOf s) (request s.params k kind pk deadline) (entered k s) (.ok rep) s1 →
      Holds k (taskOf s) s1 → Ends i s (.ok v) (changed k (taskOf s) f s1) := by
  have hy : (entered k s).env.yields = [] := hs.yields
  cases h with
  | bind addr deadline sock sid =>
    refine ⟨deadline, fun s1 hreq hh => Ends.perSlot_updated rfl hs (Runs.getSlot hy rfl ?_)⟩
    rw [opcodeFor_eq] at hreq
    rw [Val.toSlot, entered_slot]
    exact Runs.tryBind_ok hreq (Runs.updSlot .bound hh (hreq.yields hy))
  | listen backlog deadline sock sid =>
    exact ⟨deadline, fun s1 hreq hh => Ends.perSlot_updated rfl hs
      (Runs.tryBind_ok hreq (Runs.updSlot .listening hh (hreq.yields hy)))⟩
  | connect addr deadline sock extra sid he =>
    refine ⟨deadline, fun s1 hreq hh => Ends.perSlot_updated rfl hs (Runs.getSlot hy rfl ?_)⟩
    rw [opcodeFor_eq] at hreq
    rw [Val.toSlot, entered_slot]
    refine Runs.tryBind_ok hreq ?_
    dsimp only
    rw [statusOk_zero, extraOffset_ok he]
    exact Runs.updSlot (.connected (extra - 8)) hh (hreq.yields hy)
  | secure deadline sock extra sid ha hd he =>
    refine ⟨deadline, fun s1 hreq hh => Ends.perSlot_updated rfl hs (Runs.getSlot hy rfl ?_)⟩
    rw [Val.toSlot, entered_slot]
    dsimp only
    rw [ha, hd, if_neg (by decide)]
    refine Runs.tryBind_ok hreq ?_
    dsimp only
    rw [statusOk_zero, extraOffset_ok he]
    exact Runs.updSlot (.secured (extra - 8)) hh (hreq.yields hy)
  | send b deadline sock n sid hn =>
    refine ⟨deadline, fun s1 hreq hh => Ends.perSlot (r := .ok (.count n.toNat)) rfl hs (Runs.getSlot hy rfl ?_)⟩
    rw [opcodeFor_eq] at hreq
    rw [Val.toSlot, entered_slot]
    refine Runs.tryBind_ok hreq ?_
    rw [sentResult_ok sock sid hn]
    exact Runs.ret _ _
  | sendTo b addr deadline sock n sid hn =>
    refine ⟨deadline, fun s1 hreq hh => Ends.perSlot (r := .ok (.count n.toNat)) rfl hs (Runs.getSlot hy rfl ?_)⟩
    rw [Val.toSlot, entered_slot]
    refine Runs.tryBind_ok hreq ?_
    rw [sentResult_ok sock sid hn]
    exact Runs.ret _ _

end

/-! ### The request as a whole (R223, R251, R253) -/

section
variable {s : State} {k : Fin 11} {f : Slot → Slot}

/-- A slot under the session id drawn for its request (R251). -/
def numberedSlot (v : Half) (x : Slot) : Slot := { x with sid := v }

/-- A slot entered, its session id drawn, changed and left: the id and the change alone are left (R251, R253). -/
theorem changed_numbered (hl : (s.sock.slot k).lock = .free) (hf : ∀ x l, f { x with lock := l } = { f x with lock := l })
    (op : Byte) (rep : Reply) (b : RoundWords) (inputs : List Input) :
    changed k (taskOf s) f (roundDone op rep b inputs (numbered k (entered k s))) =
      roundDone op rep b inputs ((numbered k (newTask s)).mapSock fun q => q.setSlot k f) := by
  have hunder := Sockets.setSlot_under_lock (ag := .caller (taskOf s)) (f := fun x => f (numberedSlot (s.sock.sid + 1) x)) hl
    fun x l => hf (numberedSlot (s.sock.sid + 1) x) l
  have hslot := (Sockets.setSlot_setSlot _ k (numberedSlot (s.sock.sid + 1))
      fun x => { f x with lock := (f x).lock.drop (.caller (taskOf s)) }).trans
    (hunder.trans (Sockets.setSlot_setSlot s.sock k (numberedSlot (s.sock.sid + 1)) f).symm)
  have hsock : (changed k (taskOf s) f (numbered k (entered k s))).sock =
      ((numbered k (newTask s)).mapSock fun q => q.setSlot k f).sock :=
    congrArg (fun q : Sockets => { q with sid := s.sock.sid + 1 }) hslot
  calc changed k (taskOf s) f (roundDone op rep b inputs (numbered k (entered k s)))
      = roundDone op rep b inputs ((numbered k (newTask s)).mapSock fun _ =>
          (changed k (taskOf s) f (numbered k (entered k s))).sock) := rfl
    _ = _ := by rw [hsock]; rfl

/-- The caller that has entered a slot waits as before. -/
theorem Awaiting.entered {inputs : List Input} (hs : Awaiting s inputs) : Awaiting (entered k s) inputs :=
  have hbus := hs.session.bus
  { hs with session := ⟨hs.session.ready, hs.session.lock, hbus.lock, hbus.idle, hbus.limit, hbus.yields⟩ }

/-- The holder of a slot holds it still behind a round that delivers its reply (R253). -/
theorem holds_roundDone {id : Nat} (hh : Holds k id s) (op : Byte) (rep : Reply) (b : RoundWords) (inputs : List Input) :
    Holds k id (roundDone op rep b inputs (numbered k s)) := by
  obtain ⟨hu, hd, hl⟩ := hh
  have hslot : (roundDone op rep b inputs (numbered k s)).sock.slot k = { s.sock.slot k with sid := s.sock.sid + 1 } :=
    Sockets.slot_setSlot_self s.sock k (numberedSlot (s.sock.sid + 1))
  rw [Holds, hslot]
  exact ⟨hu, hd, hl⟩

end

/-- Settles O46: the request by `request_served` in the slot entered, its reply by `SlotRequest.ends`. -/
theorem slotRequestsComplete : Obligations.SlotRequestsComplete := by
  intro s k i kind pk rep v f inputs a b op record ev rec rest hs haw hsid hreplies hmail hreq ha hb hrec hlen hdec hkey hid
    hans
  subst hdec
  obtain ⟨deadline, hends⟩ := hreq.ends hs
  obtain ⟨s1, hrun, hdone⟩ := request_served (id := taskOf s) (s := entered k s) (deadline := deadline) haw.entered rfl hsid
    (entered_holds hs) (by rw [entered_slot]; exact hreplies) hmail ha hrec hlen hb hkey hid hans
  have hholds : Holds k (taskOf s) s1 :=
    (holds_roundDone (entered_holds hs) op _ b inputs).congr (congrArg (·.slot k) hdone.sock)
  obtain ⟨fired, hexec⟩ := hends s1 hrun hholds
  refine ⟨_, hexec, _, BusDone.withFired (s := roundDone op _ b inputs _) ?_ fired, rfl⟩
  rw [← changed_numbered hs.lock hreq.keepsLock]
  exact Respects.mapSock _ _ _ _ _ hdone

end Sys2Proof.Machine

/-!
PROOFS. A Recv reply (spec/43_socket.md R277, R278, R382): the callback on its own, and rows 0x46, 0x4D and 0x48 as `Isr`
runs them.
-/

namespace Sys2Proof.Machine

section
variable {go : Action → State → Option Val × State} {ag : Agent}

/-! ### The callback behind its record (R277, R278) -/

/-- What the callback does once it has its record (R277). -/
def recvEvent (p : Params) (address : Word) (addr : SockAddr) (n : BitVec 16) (off : Half) (sock : BitVec 8)
    (sid : Option Half) : Prog CbAnswer :=
  .act (.matchReply sock sid .recv) fun v => cbRecvMatched p address addr n off sock sid v.toMail

/-- The callback: its record fetched without `done`, then what it does with it. -/
theorem cbRecv_eq (p : Params) (length : Int) (address : Word) :
    cbRecv p length address =
      (fetch p .recvReply length address false).bind fun r =>
        match r with
        | some (.recv addr n off sock sid) => recvEvent p address addr n off sock sid
        | _ => cbNil := rfl

/-- What the callback answers to a Recv reply: the reply where it is taken, and whether RX-done is deferred (R277, R382). -/
def recvAnswer (p : Params) (rep : Reply) (taken resident : Bool) : CbAnswer :=
  (if taken then some (.reply rep) else none, resident && p.recvDefersRxdone)

/-- The HIF window released by a `Receive` of nothing: RX-done is given where it is pending (R218, R219, R277). -/
theorem receive_release (hgo : Agrees go ag) (p : Params) (w : Word) {address : Word} {pend : Bool} {s : State}
    (hr : s.hif.state = .ready) (hw : inWindow s.hif address 0) (ha : address.toNat < 2 ^ 24) (hp : s.hif.rxPend = pend) :
    Serves go (receive p address 0 true none) (rxDoneAccesses p pend w) (.ok [])
      (fun t => t.mapHif fun h => { h with rxPend := false }) s := by
  have hdue : rxDoneDue s.hif address 0 true = pend := by simp [rxDoneDue, hp]
  have hserves := receive_serves hgo p w (b := []) hr hw ha hdue
  rw [if_pos rfl, List.nil_append] at hserves
  exact hserves.congr (by simp [State.mapHif, hp])

/-- The HIF window released, then what is left to do with the sockets (R277). -/
theorem released_serves {α : Type} (hgo : Agrees go ag) (p : Params) (w : Word) {address : Word} {pend : Bool} {s : State}
    {next : Prog α} {r : α} {k : Sockets} (hr : s.hif.state = .ready) (hw : inWindow s.hif address 0)
    (ha : address.toNat < 2 ^ 24) (hp : s.hif.rxPend = pend)
    (hf : ∀ u, u.sock = s.sock → Serves go next [] r (fun t => t.mapSock fun _ => k) u) :
    Serves go ((receive p address 0 true none).bind fun _ => next) (rxDoneAccesses p pend w) r
      (fun t => (t.mapHif fun h => { h with rxPend := false }).mapSock fun _ => k) s :=
  Serves.bindLast (Respects.mapSock _) (receive_release hgo p w hr hw ha hp) fun u hu => hf u hu.sock

/-- A positive count: the slot's window is recorded, and the entry filled (R277). -/
theorem recvEvent_bytes (hgo : Agrees go ag) (p : Params) (address : Word) (addr : SockAddr) {n : BitVec 16} (off : Half)
    {sock : BitVec 8} {sid : Option Half} {i : Fin 11} {m : Nat} {s : State}
    (hm : matchReply s.sock sock sid .recv = some m) (hi : sock.toInt = i.val) (hn : 0 < n.toInt) :
    Serves go (recvEvent p address addr n off sock sid) [] (recvAnswer p (.recv addr n off sock sid) true true)
      (fun t => t.mapSock fun _ =>
        { (s.sock.setSlot i fun x => { x with rxAddr := address + off.setWidth 32, rxRem := n, rxFrom := addr }) with
          mail := mailSet s.sock.mail m (.filled (.recv addr n off sock sid)) }) s := by
  obtain ⟨j, e, hj, hu, -, ⟨-, hwait⟩, rfl⟩ := matchReply_eq_some.mp hm
  have hji : j = i := Option.some.inj (hj.symm.trans (slotIx_eq_some.mpr hi))
  subst hji
  refine Serves.looks hgo (v := .mail (some e.mail)) (by simp only [perform, hm]) fun u hus _ => ?_
  have hmatched : cbRecvMatched p address addr n off sock sid (Val.mail (some e.mail)).toMail =
      .andThen (.setRxwin j (address + off.setWidth 32) n addr) (.andThen (.fillMail e.mail (.recv addr n off sock sid))
        (.ret (some (.reply (.recv addr n off sock sid)), p.recvDefersRxdone))) := by
    simp only [cbRecvMatched, Val.toMail, hj, gt_iff_lt, hn, if_true]
  rw [hmatched]
  refine Serves.sockets hgo (f := fun k => k.setSlot j (openWindow (address + off.setWidth 32) n addr)) rfl
    fun v hv _ => ?_
  refine Serves.sockets hgo (f := fun k => fillMail k e.mail (.recv addr n off sock sid)) rfl fun x hx _ =>
    Serves.retSockets _ ?_
  have hmail : mailGet v.sock.mail e.mail = some .waiting := by rw [hv, hus]; exact hwait
  have hopen : s.sock.setSlot j (openWindow (address + off.setWidth 32) n addr) =
      s.sock.setSlot j fun x => { x with rxAddr := address + off.setWidth 32, rxRem := n, rxFrom := addr } :=
    Sockets.setSlot_congr (if_pos hu)
  rw [hx, fillMail, if_pos hmail, hv, hus, hopen]
  rfl

/-- No bytes, or an error: the HIF window is released, and the entry filled (R277). -/
theorem recvEvent_empty (hgo : Agrees go ag) (p : Params) (w : Word) {address : Word} (addr : SockAddr) {n : BitVec 16}
    (off : Half) {sock : BitVec 8} {sid : Option Half} {m : Nat} {pend : Bool} {s : State} (hr : s.hif.state = .ready)
    (hw : inWindow s.hif address 0) (ha : address.toNat < 2 ^ 24) (hp : s.hif.rxPend = pend)
    (hm : matchReply s.sock sock sid .recv = some m) (hn : n.toInt ≤ 0) :
    Serves go (recvEvent p address addr n off sock sid) (rxDoneAccesses p pend w)
      (recvAnswer p (.recv addr n off sock sid) true false)
      (fun t => (t.mapHif fun h => { h with rxPend := false }).mapSock fun _ =>
        { s.sock with mail := mailSet s.sock.mail m (.filled (.recv addr n off sock sid)) }) s := by
  obtain ⟨j, -, hj, -⟩ := matchReply_eq_some.mp hm
  refine Serves.look hgo ((Respects.mapHif _).comp (Respects.mapSock _)) (v := .mail (some m))
    (by simp only [perform, hm]) fun u hu => ?_
  have hmatched : cbRecvMatched p address addr n off sock sid (Val.mail (some m)).toMail =
      (receive p address 0 true none).bind fun _ => .andThen (.fillMail m (.recv addr n off sock sid))
        (cbReply (.recv addr n off sock sid)) := by
    simp only [cbRecvMatched, Val.toMail, hj, gt_iff_lt, not_lt.mpr hn, if_false]
  rw [hmatched]
  refine released_serves hgo p w (by rw [hu.hif]; exact hr) (by rw [hu.hif]; exact hw) ha (by rw [hu.hif]; exact hp)
    fun v hv => ?_
  refine Serves.sockets hgo (f := fun k => fillMail k m (.recv addr n off sock sid)) rfl fun x hx _ =>
    Serves.retSockets _ ?_
  rw [hx, hv, hu.sock]
  exact fillMail_of_match _ hm

/-- A reply that nobody waits for: the HIF window is released, and the reply dropped (R278). -/
theorem recvEvent_late (hgo : Agrees go ag) (p : Params) (w : Word) {address : Word} (addr : SockAddr) (n : BitVec 16)
    (off : Half) {sock : BitVec 8} {sid : Option Half} {pend : Bool} {s : State} (hr : s.hif.state = .ready)
    (hw : inWindow s.hif address 0) (ha : address.toNat < 2 ^ 24) (hp : s.hif.rxPend = pend)
    (hm : matchReply s.sock sock sid .recv = none) :
    Serves go (recvEvent p address addr n off sock sid) (rxDoneAccesses p pend w)
      (recvAnswer p (.recv addr n off sock sid) false false)
      (fun t => (t.mapHif fun h => { h with rxPend := false }).mapSock fun _ => s.sock) s := by
  refine Serves.look hgo ((Respects.mapHif _).comp (Respects.mapSock _)) (v := .mail none)
    (by simp only [perform, hm]) fun u hu => ?_
  exact released_serves hgo p w (by rw [hu.hif]; exact hr) (by rw [hu.hif]; exact hw) ha (by rw [hu.hif]; exact hp)
    fun v hv => Serves.retSockets _ (hv.trans hu.sock)

/-- A Recv reply has one of its outcomes; where its bytes stay in the window, RX-done is left as it was (R277, R278). -/
theorem recvEvent_serves (hgo : Agrees go ag) (p : Params) (w : Word) {address : Word} {addr : SockAddr} {n : BitVec 16}
    {off : Half} {sock : BitVec 8} {sid : Option Half} {taken resident : Bool} {k : Sockets} {pend : Bool} {s : State}
    (hr : s.hif.state = .ready) (hw : inWindow s.hif address 0) (ha : address.toNat < 2 ^ 24) (hp : s.hif.rxPend = pend)
    (h : RecvOutcome s.sock address addr n off sock sid taken resident k) :
    Serves go (recvEvent p address addr n off sock sid) (rxDoneAccesses p (pend && !resident) w)
      (recvAnswer p (.recv addr n off sock sid) taken resident)
      (fun t => (t.mapHif fun h => { h with rxPend := h.rxPend && resident }).mapSock fun _ => k) s := by
  cases h with
  | bytes i m hm hi hn =>
    rw [Bool.not_true, Bool.and_false]
    exact (recvEvent_bytes hgo p address addr off hm hi hn).congr (by simp only [Bool.and_true, State.mapHif])
  | none m hm hn =>
    rw [Bool.not_false, Bool.and_true]
    exact (recvEvent_empty hgo p w addr off hr hw ha hp hm hn).congr (by simp only [Bool.and_false])
  | late hm =>
    rw [Bool.not_false, Bool.and_true]
    exact (recvEvent_late hgo p w addr n off hr hw ha hp hm).congr (by simp only [Bool.and_false])

/-! ### The callback, with its record (R270, R277) -/

/-- When the callback gives RX-done: for a record whose bytes stay in the window only where the record's end is the
window's, and else wherever it is pending (R218, R219, R277). -/
def recvDue (resident atEnd pend : Bool) : Bool := if resident then atEnd && pend else pend

/-- RX-done is given once: with the record where it ends the window, or with the release (R219). -/
theorem rxDoneAccesses_once (p : Params) (w : Word) (resident atEnd pend : Bool) :
    rxDoneAccesses p (atEnd && pend) w ++ rxDoneAccesses p ((pend && !(atEnd && pend)) && !resident) w =
      rxDoneAccesses p (recvDue resident atEnd pend) w := by
  cases resident <;> cases atEnd <;> cases pend <;> simp [rxDoneAccesses, recvDue]

/-- The callback on a record inside the window (R270, R277). -/
theorem cbRecv_serves (hgo : Agrees go ag) (p : Params) {length : Int} {address : Word} {b : Bytes} {atEnd pend : Bool}
    (w : Word) {addr : SockAddr} {n : BitVec 16} {off : Half} {sock : BitVec 8} {sid : Option Half}
    {taken resident : Bool} {k : Sockets} {s : State} (hs : s.hif.state = .ready)
    (hb : b.length = recSize p .recvReply) (hl : (recSize p .recvReply : Int) ≤ length)
    (hw : inWindow s.hif address (recSize p .recvReply)) (ha : address.toNat < 2 ^ 24) (hp : s.hif.rxPend = pend)
    (hend : decide (address.toNat + recSize p .recvReply = s.hif.rxAddr.toNat + s.hif.rxSize.toNat) = atEnd)
    (hdec : decRec p .recvReply b = .recv addr n off sock sid)
    (h : RecvOutcome s.sock address addr n off sock sid taken resident k) :
    Serves go (cbRecv p length address)
      (.readBlock (address.setWidth 24) b :: rxDoneAccesses p (recvDue resident atEnd pend) w)
      (recvAnswer p (.recv addr n off sock sid) taken resident)
      (fun t => (t.mapHif fun h => { h with rxPend := h.rxPend && !recvDue resident atEnd pend }).mapSock fun _ => k) s := by
  have hdue : rxDoneDue s.hif address (recSize p .recvReply) false = (atEnd && pend) := by
    rw [rxDoneDue, hend, hp, Bool.or_false]
  have hin : inWindow s.hif address 0 := by
    obtain ⟨hvalid, -, hlow, hhigh⟩ := hw
    exact ⟨hvalid, Nat.zero_le _, hlow, by omega⟩
  rw [cbRecv_eq, ← rxDoneAccesses_once]
  refine (Serves.bind (f := fun r => match r with
      | some (.recv addr n off sock sid) => recvEvent p address addr n off sock sid
      | _ => cbNil)
    (h := fun t => (t.mapHif fun h => { h with rxPend := h.rxPend && resident }).mapSock fun _ => k)
    ((Respects.mapHif _).comp (Respects.mapSock _)) (fetch_serves hgo p .recvReply w hs hb hl hw ha hdue) fun u hu => ?_).congr ?_
  · rw [hdec]
    exact recvEvent_serves hgo p w (by rw [hu.hif]; exact hs) (by rw [hu.hif]; exact hin) ha
      (by rw [hu.hif, State.mapHif_hif, hp]) (by rw [hu.sock]; exact h)
  · have hpend : ((pend && !(atEnd && pend)) && resident) = (pend && !recvDue resident atEnd pend) := by
      cases resident <;> cases atEnd <;> cases pend <;> rfl
    simp only [State.mapHif, State.mapSock, hp, hpend]

/-- The callback without its record: nothing is answered, nothing changed, RX-done left to `Isr` (R270). -/
theorem cbRecv_nothing (hgo : Agrees go ag) (p : Params) {length : Int} {address : Word} {s : State}
    (hr : s.hif.state = .ready)
    (h : length < recSize p .recvReply ∨ ¬inWindow s.hif address (recSize p .recvReply)) :
    Serves go (cbRecv p length address) [] (none, false) (fun t => t) s :=
  Serves.bindLast Respects.id (fetch_nothing hgo p .recvReply false hr h) fun u _ => Serves.ret _ u

end

/-! ### Rows 0x46, 0x4D and 0x48, as `Isr` runs them (R211, R215, R216, R270; log 10) -/

/-- The three opcodes, with or without the data flag, are dispatched to the Recv callback (R270). -/
theorem sockCb_recv (p : Params) {op : Byte} (hop : op ∈ [(0x46 : Byte), 0x4D, 0x48]) (flag : Bool) (length : Int)
    (address : Word) : sockCb p (hifOpcodeByte op flag) length address = cbRecv p length address := by
  simp only [List.mem_cons, List.not_mem_nil, or_false] at hop
  rcases hop with rfl | rfl | rfl <;> cases flag <;> rfl

/-- The opcode byte of these rows is the number with the data flag (R105, R107). -/
theorem hifOpcodeByte_recv {op : Byte} (hop : op ∈ [(0x46 : Byte), 0x4D, 0x48]) (flag : Bool) :
    hifOpcodeByte op flag = op ||| (if flag then 0x80 else 0x00) := by
  simp only [List.mem_cons, List.not_mem_nil, or_false] at hop
  rcases hop with rfl | rfl | rfl <;> cases flag <;> rfl

/-- Whether RX-done has been given when `Isr` ends: by the callback, or by `Isr` where it is not deferred (R216, R382). -/
def recvGiven (resident atEnd defers : Bool) : Bool := !resident || atEnd || !defers

section
variable {s : State} {i : Instr} {op : Byte} {flag : Bool} {length : Half} {b : Bytes} {r base w : Word}
  {ev : List BusEvent} {rest : List (Option Byte)}

/-- RX-done is given once: by the callback, or by `Isr` behind it (R216, R219, R382). -/
theorem rxDoneAccesses_isr (p : Params) (w : Word) (resident atEnd defers : Bool) :
    rxDoneAccesses p (recvDue resident atEnd true) w ++
        rxDoneAccesses p (!recvDue resident atEnd true && !(resident && defers)) w =
      rxDoneAccesses p (recvGiven resident atEnd defers) w := by
  cases resident <;> cases atEnd <;> cases defers <;> simp [rxDoneAccesses, recvDue, recvGiven]

/-- The record's end is the window's exactly where header and record fill the packet (R218). -/
theorem atEnd_behind_header {size : Nat} (hbase : base.toNat + 8 < 2 ^ 24) :
    decide ((base + 8).toNat + size =
      (windowOpened base r true (newTask s)).hif.rxAddr.toNat + (windowOpened base r true (newTask s)).hif.rxSize.toNat) =
      decide (8 + size = sizeOf12 s.params r) := by
  have ha : (base + 8).toNat = base.toNat + 8 := by
    rw [BitVec.toNat_add]
    exact Nat.mod_eq_of_lt (Nat.lt_trans hbase (by decide))
  have hsize : (windowOpened base r true (newTask s)).hif.rxSize.toNat = sizeOf12 s.params r :=
    windowOpened_rxSize base r true (newTask s)
  have hwin : (windowOpened base r true (newTask s)).hif.rxAddr = base := rfl
  rw [ha, hsize, hwin]
  exact decide_eq_decide.mpr (by omega)

/-- A packet with a Recv reply, received: the reply has one of its outcomes, and one that is taken is offered to the
subscribers (R215, R277, R278, R382). -/
theorem recvRow_event {addr : SockAddr} {n : BitVec 16} {off : Half} {sock : BitVec 8} {sid : Option Half}
    {taken resident : Bool} {k : Sockets} (hi : hifRow groupIp op (.inbound flag length) = some i)
    (hop : op ∈ [(0x46 : Byte), 0x4D, 0x48]) (hcb : s.hif.cb[groupIp.toNat]'groupIp.isLt = some .socket)
    (hs : WorkerReady s) (hn : (s.hif.subs.map (·.id)).Nodup) (hl : sizeOf12 s.params r ≤ length.toNat + 4)
    (hb : b.length = recSize s.params .recvReply) (hlen : 8 + recSize s.params .recvReply ≤ length.toNat)
    (hsize : 8 + recSize s.params .recvReply ≤ sizeOf12 s.params r) (hbase : base.toNat + 8 < 2 ^ 24)
    (hdec : decRec s.params .recvReply b = .recv addr n off sock sid)
    (h : RecvOutcome s.sock (base + 8) addr n off sock sid taken resident k) {given : Bool}
    (hgiven : given = recvGiven resident (decide (8 + recSize s.params .recvReply = sizeOf12 s.params r))
      s.params.recvDefersRxdone)
    (ha : Answers s
      (isrAccesses s.params r ++ [.read s.params.regHifRxBase base] ++
        .readBlock ((base + 8).setWidth 24) b :: rxDoneAccesses s.params given w) ev rest) :
    ∃ t, exec i s = .next t ∧
      Returned
        (workerIdle
          (let u := (windowOpened base r (!given) (newTask s)).mapSock fun _ => k
          if taken then
            offered ⟨groupIp, op ||| (if flag then 0x80 else 0x00), .reply (.recv addr n off sock sid)⟩ u
          else u))
        (taskOf s) (.ok .unit) ev rest t := by
  have haddr : (base + 8).toNat < 2 ^ 24 := by
    rw [BitVec.toNat_add]
    exact Nat.lt_of_le_of_lt (Nat.mod_le _ _) hbase
  generalize hatEnd : decide (8 + recSize s.params .recvReply = sizeOf12 s.params r) = atEnd at hgiven
  have hkept : (!recvDue resident atEnd true && (resident && s.params.recvDefersRxdone)) = !given := by
    rw [hgiven]
    cases resident <;> cases atEnd <;> cases s.params.recvDefersRxdone <;> rfl
  rw [hgiven, ← rxDoneAccesses_isr, ← List.cons_append] at ha
  have hret := inbound_returned (pl := if taken then some (.reply (.recv addr n off sock sid)) else none)
    (pend := !recvDue resident atEnd true) (defer := resident && s.params.recvDefersRxdone) (f := fun _ => k) (w := w)
    hi hcb hs hn (by omega) hl (fun u hu hsock _ => by
      have hpend : u.hif.rxPend = true := by rw [hu]; rfl
      rw [sockCb_recv s.params hop]
      refine (cbRecv_serves workerGo_agrees s.params w (atEnd := atEnd) ?_ hb (by omega) ?_ haddr hpend ?_ hdec
        (by rw [hsock]; exact h)).congr ?_
      · rw [hu]; exact hs.session.ready.1
      · rw [hu]; exact inWindow_behind_header hsize (by omega)
      · rw [hu, atEnd_behind_header hbase, hatEnd]
      · simp only [State.mapHif, State.mapSock, hpend, Bool.true_and]) ha
  rw [hkept, hifOpcodeByte_recv hop] at hret
  cases taken <;> exact hret

/-- A packet too short for its record, or whose record leaves the window, is released unread (R216, R270). -/
theorem recvRow_short (hi : hifRow groupIp op (.inbound flag length) = some i) (hop : op ∈ [(0x46 : Byte), 0x4D, 0x48])
    (hcb : s.hif.cb[groupIp.toNat]'groupIp.isLt = some .socket) (hs : WorkerReady s)
    (hn : (s.hif.subs.map (·.id)).Nodup) (hl : sizeOf12 s.params r ≤ length.toNat + 4) (h0 : sizeOf12 s.params r ≠ 0)
    (h : length.toNat < 8 + recSize s.params .recvReply ∨ sizeOf12 s.params r < 8 + recSize s.params .recvReply)
    (ha : Answers s
      (isrAccesses s.params r ++ [.read s.params.regHifRxBase base] ++ rxDoneAccesses s.params true w) ev rest) :
    ∃ t, exec i s = .next t ∧
      Returned (workerIdle (windowOpened base r false (newTask s))) (taskOf s) (.ok .unit) ev rest t :=
  inbound_returned (pl := none) (pend := true) (defer := false) (f := fun k => k) (xs := []) hi hcb hs hn h0 hl
    (fun u hu _ _ => by
      have hpend : u.hif.rxPend = true := by rw [hu]; rfl
      rw [sockCb_recv s.params hop]
      refine (cbRecv_nothing workerGo_agrees s.params (by rw [hu]; exact hs.session.ready.1) ?_).congr ?_
      · exact h.imp (fun h => by omega) fun h => by rw [hu]; exact not_inWindow_behind_header h
      · simp only [State.mapHif, State.mapSock, ← hpend]) ha

end

/-- Settles O57: the callback by the outcome of its reply, the rows by `inbound_returned` around the callback. -/
theorem recvReplyOpensTheWindow : Obligations.RecvReplyOpensTheWindow := by
  refine ⟨fun s address w length b ev rest addr n off sock sid taken resident k hr hbus _ hw ha hb hl hdec h hans => ?_,
    fun s i op flag length b r base w ev rest addr n off sock sid taken resident k hi hop hcb hs hn hl => ⟨?_, ?_⟩⟩
  · exact (cbRecv_serves workerGo_agrees s.params w hr hb hl hw ha rfl rfl hdec h).eval hbus hans
  · exact fun hb hlen hsize hbase hdec h hans => recvRow_event hi hop hcb hs hn hl hb hlen hsize hbase hdec h rfl hans
  · exact fun h0 h hans => recvRow_short hi hop hcb hs hn hl h0 h hans

end Sys2Proof.Machine

/-!
PROOFS. What an operation on a slot does with the answer to its request: `Bind` and `Listen`, `Connect` and `Secure`, `Send`
and `SendTo`, `Recv` and `RecvFrom` with nothing resident (spec/43_socket.md R254 to R263, R108; logs 6, 22, 31).
-/

namespace Sys2Proof.Machine

/-! ### One request, and what follows its reply (R253, R254) -/

/-- An operation on slot `k` that is a request in the slot entered, and what follows the reply (R253). -/
def SlotAsks (s : State) (k : Fin 11) (i : Instr) (ask : Prog (Except Err Reply))
    (next : Reply → Prog (Except Err Value)) : Prop :=
  ∃ body, exec i s = whenLive s (startTask i (perSlot k.val body) s) ∧
    ∀ r t, Runs (taskOf s) (ask.tryBind next) (entered k s) r t → Runs (taskOf s) (body k) (entered k s) r t

section
variable {s s1 t : State} {k : Fin 11} {i : Instr} {ask : Prog (Except Err Reply)}
  {next : Reply → Prog (Except Err Value)} {rep : Reply}

/-- Once its reply is there, the operation ends as what follows the reply. -/
theorem SlotAsks.ends (h : SlotAsks s k i ask next) (hs : SlotReady k s) {r : Except Err Value}
    (hask : Runs (taskOf s) ask (entered k s) (.ok rep) s1) (hnext : Runs (taskOf s) (next rep) s1 r t) :
    Ends i s (toResult r) (changed k (taskOf s) (fun x => x) t) := by
  obtain ⟨body, he, hbody⟩ := h
  exact Ends.perSlot he hs (hbody r t (Runs.tryBind_ok hask hnext))

/-- What follows the reply changes the slot, which is still the caller's. -/
theorem SlotAsks.ends_updated (h : SlotAsks s k i ask next) (hs : SlotReady k s) {v : Value} (upd : SlotUpd)
    (hask : Runs (taskOf s) ask (entered k s) (.ok rep) s1)
    (hnext : next rep = .andThen (.updSlot k upd) (.ret (.ok v))) (hh : Holds k (taskOf s) s1) :
    Ends i s (.ok v) (changed k (taskOf s) upd.apply s1) := by
  obtain ⟨body, he, hbody⟩ := h
  refine Ends.perSlot_updated he hs (hbody _ _ (Runs.tryBind_ok hask ?_))
  rw [hnext]
  exact Runs.updSlot upd hh (hask.yields hs.yields)

/-- What follows the reply is an error: the slot is left as it is. -/
theorem SlotAsks.ends_error (h : SlotAsks s k i ask next) (hs : SlotReady k s) {e : Err}
    (hask : Runs (taskOf s) ask (entered k s) (.ok rep) s1) (hnext : next rep = raise e) :
    Ends i s (.err e) (changed k (taskOf s) (fun x => x) s1) :=
  h.ends hs hask (r := .error e) (hnext ▸ Runs.raise e s1)

end

/-- An operation that reads its slot first, and then asks. -/
theorem SlotAsks.of_getSlot {s : State} {k : Fin 11} {i : Instr} {ask : Slot → Prog (Except Err Reply)}
    {next : Reply → Prog (Except Err Value)} (hs : SlotReady k s) {body : Fin 11 → Prog (Except Err Value)}
    (he : exec i s = whenLive s (startTask i (perSlot k.val body) s))
    (hb : body k = .act (.getSlot k) fun v => (ask v.toSlot).tryBind next) :
    SlotAsks s k i (ask { s.sock.slot k with lock := .held (.caller (taskOf s)) }) next := by
  refine ⟨body, he, fun r t h => ?_⟩
  rw [hb]
  refine Runs.getSlot hs.yields rfl ?_
  rw [Val.toSlot, entered_slot]
  exact h

/-- A status other than 0 is the device's error (R254). -/
theorem statusOk_error {st : BitVec 8} (h : st ≠ 0) (p : Prog (Except Err Value)) :
    statusOk st p = raise (.socketError st.toInt) := if_pos h

/-! ### `Bind` and `Listen` (R255, R256) -/

/-- What follows a status reply: the slot changed, or the device's error (R255, R256). -/
def statusReply (k : Fin 11) (upd : SlotUpd) : Reply → Prog (Except Err Value)
  | .status _ status _ => statusOk status (.andThen (.updSlot k upd) (.ret (.ok .unit)))
  | _ => raise .socketInvalid

section
variable {s s1 : State} {k : Fin 11} {i : Instr}

/-- `Bind` is one request in its slot (R255, R108). -/
theorem bind_asks (hs : SlotReady k s) (addr : SockAddr) (deadline : Word) :
    SlotAsks s k (.opBind k.val addr deadline)
      (request s.params k .bind ⟨groupIp, opcodeFor (s.sock.slot k) 0x41 0x54, encBind s.params addr k, [], 0⟩ deadline)
      (statusReply k .bound) := by
  rw [opcodeFor_eq]
  exact SlotAsks.of_getSlot
    (ask := fun x => request s.params k .bind (ipPacket (pickOpcode x.ssl 0x41 0x54) (encBind s.params addr k)) deadline)
    hs rfl rfl

/-- `Listen` is one request in its slot (R256). -/
theorem listen_asks (s : State) (k : Fin 11) (backlog : Byte) (deadline : Word) :
    SlotAsks s k (.opListen k.val backlog deadline)
      (request s.params k .listen ⟨groupIp, 0x42, encListen s.params k backlog, [], 0⟩ deadline)
      (statusReply k .listening) := ⟨_, rfl, fun _ _ h => h⟩

/-- The two endings of an operation that is answered with a status (R254 to R256). -/
theorem SlotAsks.status_ends {ask : Prog (Except Err Reply)} {upd : SlotUpd} {sock st : BitVec 8} {sid : Option Half}
    (h : SlotAsks s k i ask (statusReply k upd)) (hs : SlotReady k s)
    (hask : Runs (taskOf s) ask (entered k s) (.ok (.status sock st sid)) s1) :
    if st = 0 then Holds k (taskOf s) s1 → Ends i s (.ok .unit) (changed k (taskOf s) upd.apply s1)
    else Ends i s (.err (.socketError st.toInt)) (changed k (taskOf s) (fun x => x) s1) := by
  split
  · rename_i hst
    subst hst
    exact h.ends_updated hs upd hask (statusOk_zero _)
  · rename_i hst
    exact h.ends_error hs hask (statusOk_error hst _)

end

/-- Settles O48: each is one request in its slot, which a status ends. -/
theorem bindAndListen : Obligations.BindAndListen := by
  intro s s1 k addr backlog deadline sock st sid hs
  exact ⟨(bind_asks hs addr deadline).status_ends hs, (listen_asks s k backlog deadline).status_ends hs⟩

/-! ### `Connect` and `Secure` (R258, R259) -/

/-- What follows a connect reply: the slot changed at its offset, or an error (R258, R259). -/
def offsetReply (k : Fin 11) (upd : Half → SlotUpd) : Reply → Prog (Except Err Value)
  | .connect _ error extraData _ =>
    statusOk error <| extraOffset extraData fun off => .andThen (.updSlot k (upd off)) (.ret (.ok .unit))
  | _ => raise .socketInvalid

section
variable {s s1 : State} {k : Fin 11} {i : Instr}

/-- `Connect` is one request in its slot (R258, R108). -/
theorem connect_asks (hs : SlotReady k s) (addr : SockAddr) (deadline : Word) :
    SlotAsks s k (.opConnect k.val addr deadline)
      (request s.params k .connect
        ⟨groupIp, opcodeFor (s.sock.slot k) 0x44 0x4B, encConnect s.params addr k (s.sock.slot k).ssl, [], 0⟩ deadline)
      (offsetReply k .connected) := by
  rw [opcodeFor_eq]
  exact SlotAsks.of_getSlot
    (ask := fun x => request s.params k .connect
      (ipPacket (pickOpcode x.ssl 0x44 0x4B) (encConnect s.params addr k x.ssl)) deadline)
    hs rfl rfl

/-- `Secure` of a handshake that was deferred is one request in its slot (R259). -/
theorem secure_asks (hs : SlotReady k s) (deadline : Word) (ha : (s.sock.slot k).ssl.active = true)
    (hd : (s.sock.slot k).ssl.delayHandshake = true) :
    SlotAsks s k (.opSecure k.val deadline)
      (request s.params k .connect ⟨groupIp, 0x56, encConnect s.params .zero k (s.sock.slot k).ssl, [], 0⟩ deadline)
      (offsetReply k .secured) := by
  refine ⟨_, rfl, fun r t h => Runs.getSlot hs.yields rfl ?_⟩
  rw [Val.toSlot, entered_slot]
  dsimp only
  rw [ha, hd, if_neg (by decide)]
  exact h

/-- An `ExtraData` below 8 gives no offset (R258, R259). -/
theorem extraOffset_small {extra : Half} (h : extra.toNat < 8) (f : Half → Prog (Except Err Value)) :
    extraOffset extra f = raise .socketInvalid := if_pos h

/-- The three endings of an operation that is answered with an error and an offset (R258, R259). -/
theorem SlotAsks.offset_ends {ask : Prog (Except Err Reply)} {upd : Half → SlotUpd} {sock err : BitVec 8} {extra : Half}
    {sid : Option Half} (h : SlotAsks s k i ask (offsetReply k upd)) (hs : SlotReady k s)
    (hask : Runs (taskOf s) ask (entered k s) (.ok (.connect sock err extra sid)) s1) :
    if err ≠ 0 then Ends i s (.err (.socketError err.toInt)) (changed k (taskOf s) (fun x => x) s1)
    else if extra.toNat < 8 then Ends i s (.err .socketInvalid) (changed k (taskOf s) (fun x => x) s1)
    else Holds k (taskOf s) s1 → Ends i s (.ok .unit) (changed k (taskOf s) (upd (extra - 8)).apply s1) := by
  split
  · rename_i herr
    exact h.ends_error hs hask (statusOk_error herr _)
  · rename_i herr
    obtain rfl : err = 0 := by simpa using herr
    split
    · rename_i hextra
      exact h.ends_error hs hask ((statusOk_zero _).trans (extraOffset_small hextra _))
    · rename_i hextra
      exact h.ends_updated hs _ hask ((statusOk_zero _).trans (extraOffset_ok (Nat.not_lt.mp hextra) _))

/-- An operation on a slot that ends where it entered it: nothing has changed (R253). -/
theorem Ends.perSlot_unchanged {body : Fin 11 → Prog (Except Err Value)} {r : Except Err Value}
    (he : exec i s = whenLive s (startTask i (Machine.perSlot k.val body) s)) (hs : SlotReady k s)
    (h : Runs (taskOf s) (body k) (entered k s) r (entered k s)) : Ends i s (toResult r) (newTask s) := by
  have hleft : changed k (taskOf s) (fun x => x) (entered k s) = newTask s :=
    congrArg (fun q => (newTask s).mapSock fun _ => q) (Sockets.setSlot_lock_drop hs.lock)
  rw [← hleft]
  exact Ends.perSlot he hs h

/-- `Secure` where no handshake was deferred asks for nothing (R259). -/
theorem secure_notDeferred (hs : SlotReady k s) (deadline : Word)
    (h : ¬((s.sock.slot k).ssl.active = true ∧ (s.sock.slot k).ssl.delayHandshake = true)) :
    Ends (.opSecure k.val deadline) s (.err .socketInvalidArg) (newTask s) := by
  refine Ends.perSlot_unchanged (r := .error .socketInvalidArg) rfl hs (Runs.getSlot hs.yields rfl ?_)
  rw [Val.toSlot, entered_slot]
  dsimp only
  rw [← Bool.and_eq_true] at h
  rw [Bool.eq_false_iff.mpr h, if_pos (by decide)]
  exact Runs.raise _ _

end

/-- Settles O49: each is one request in its slot, which error and offset end; without a deferred handshake `Secure` only
enters its slot and leaves it. -/
theorem connectAndSecure : Obligations.ConnectAndSecure := by
  intro s s1 k addr deadline sock err extra sid hs
  exact ⟨(connect_asks hs addr deadline).offset_ends hs, secure_notDeferred hs deadline,
    fun ha hd => (secure_asks hs deadline ha hd).offset_ends hs⟩

/-! ### `Send` and `SendTo` (R260, R261) -/

section
variable {s s1 : State} {k : Fin 11}

/-- `Send` is one request in its slot (R260, R108). -/
theorem send_asks (hs : SlotReady k s) (b : Bytes) (deadline : Word) :
    SlotAsks s k (.opSendSocket k.val b deadline)
      (request s.params k .send
        ⟨groupIp, opcodeFor (s.sock.slot k) 0x45 0x4C, encSend s.params k b.length .zero, b,
          (s.sock.slot k).txOffset.toNat⟩ deadline)
      sentResult := by
  rw [opcodeFor_eq]
  exact SlotAsks.of_getSlot
    (ask := fun x => request s.params k .send
      ⟨groupIp, pickOpcode x.ssl 0x45 0x4C, encSend s.params k b.length .zero, b, x.txOffset.toNat⟩ deadline)
    hs rfl rfl

/-- `SendTo` is one request in its slot (R261). -/
theorem sendTo_asks (hs : SlotReady k s) (b : Bytes) (addr : SockAddr) (deadline : Word) :
    SlotAsks s k (.opSendTo k.val b addr deadline)
      (request s.params k .send
        ⟨groupIp, 0x47, encSend s.params k b.length addr, b, (s.sock.slot k).txOffset.toNat⟩ deadline)
      sentResult :=
  SlotAsks.of_getSlot
    (ask := fun x => request s.params k .send
      ⟨groupIp, 0x47, encSend s.params k b.length addr, b, x.txOffset.toNat⟩ deadline)
    hs rfl rfl

/-- The two endings of an operation that is answered with a count (R260, R261). -/
theorem SlotAsks.count_ends {i : Instr} {ask : Prog (Except Err Reply)} {sock : BitVec 8} {n : BitVec 16}
    {sid : Option Half} (h : SlotAsks s k i ask sentResult) (hs : SlotReady k s)
    (hask : Runs (taskOf s) ask (entered k s) (.ok (.send sock n sid)) s1) :
    Ends i s (if n.toInt < 0 then .err (.socketError n.toInt) else .ok (.count n.toNat))
      (changed k (taskOf s) (fun x => x) s1) := by
  split
  · rename_i hn
    exact h.ends_error hs hask (if_pos hn)
  · rename_i hn
    refine h.ends hs hask (r := .ok (.count n.toNat)) ?_
    rw [sentResult_ok sock sid (Int.not_lt.mp hn)]
    exact Runs.ret _ s1

end

/-- Settles O50: each is one request in its slot, which a count ends. -/
theorem sendAndSendTo : Obligations.SendAndSendTo := by
  intro s s1 k b addr deadline sock n sid i op dest hs hi hask
  rcases hi with ⟨rfl, rfl, rfl⟩ | ⟨rfl, rfl, rfl⟩
  · exact (send_asks hs b deadline).count_ends hs hask
  · exact (sendTo_asks hs b dest deadline).count_ends hs hask

/-! ### `Recv` and `RecvFrom` with nothing resident (R262, R263) -/

/-- `Recv` and `RecvFrom` behind the device's answer: a count of 0 pulls nothing (R262; log 31). -/
def countedPull (p : Params) (k : Fin 11) (buf : Span) (count : Nat) : Prog (Except Err (Nat × SockAddr)) :=
  if count = 0 then .act (.getSlot k) fun v => .ret (.ok (0, v.toSlot.rxFrom)) else pullWindow p k buf

section
variable {s s1 s2 : State} {k : Fin 11} {op : Slot → Byte} {answer : Nat × SockAddr → Value} {buf : Span}
  {deadline : Word} {addr : SockAddr} {n : BitVec 16} {off : Half} {sock : BitVec 8} {sid : Option Half} {i : Instr}

/-- The question that `Recv` and `RecvFrom` put to the device under an opcode (R262). -/
def recvAsk (p : Params) (k : Fin 11) (opcode : Byte) (deadline : Word) : Prog (Except Err Reply) :=
  request p k .recv ⟨groupIp, opcode, encRecv p (p.deadlineToDevice.app deadline) k, [], 0⟩ deadline

/-- A negative count is the device's error (R254, R262). -/
theorem Runs.recvRequest_error {id : Nat} {p : Params} {opcode : Byte} (hn : n.toInt < 0)
    (h : Runs id (recvAsk p k opcode deadline) s (.ok (.recv addr n off sock sid)) s1) :
    Runs id (recvRequest p k opcode deadline) s (.error (.socketError n.toInt)) s1 := by
  refine Runs.tryBind_ok h ?_
  dsimp only
  rw [if_pos hn]
  exact Runs.raise _ s1

/-- A count that is not negative is what the device has (R262). -/
theorem Runs.recvRequest_ok {id : Nat} {p : Params} {opcode : Byte} (hn : 0 ≤ n.toInt)
    (h : Runs id (recvAsk p k opcode deadline) s (.ok (.recv addr n off sock sid)) s1) :
    Runs id (recvRequest p k opcode deadline) s (.ok n.toNat) s1 := by
  refine Runs.tryBind_ok h ?_
  dsimp only
  rw [if_neg (Int.not_lt.mpr hn)]
  exact Runs.ret _ s1

/-- With nothing resident, the slot is asked for, and what follows is the device's answer (R262, R263). -/
theorem receiving_asks (hs : SlotReady k s) (hres : (s.sock.slot k).rxRem = 0)
    (hop : op { s.sock.slot k with lock := .held (.caller (taskOf s)) } = op (s.sock.slot k)) {r : Except Err Value}
    (h : Runs (taskOf s)
      (((recvRequest s.params k (op (s.sock.slot k)) deadline).tryBind (countedPull s.params k buf)).tryBind
        fun x => .ret (.ok (answer x))) (entered k s) r s1) :
    Runs (taskOf s) (receiving s.params op answer buf deadline k) (entered k s) r s1 := by
  refine Runs.getSlot hs.yields rfl ?_
  rw [Val.toSlot, entered_slot, hop]
  dsimp only
  rw [hres]
  exact h

/-- An operation on a slot that lends a span and ends well leaves the span as it is (R253; log 6). -/
theorem Ends.perSlot_unscrambled {body : Fin 11 → Prog (Except Err Value)} {v : Value}
    (he : exec i s = whenLive s (startTask i (scrambleOnError buf (Machine.perSlot k.val body)) s)) (hs : SlotReady k s)
    (h : Runs (taskOf s) (body k) (entered k s) (.ok v) s1) :
    Ends i s (.ok v) (changed k (taskOf s) (fun x => x) s1) := by
  obtain ⟨b, hslot⟩ := Runs.perSlot hs h
  exact (Ends.of_runs (he.trans (whenLive_live hs.live hs.ready _)) (Runs.bind hslot (Runs.ret _ _))).of_unfired

/-- The four endings of `Recv` and `RecvFrom` that have asked the device (R254, R262, R263; logs 6, 31). -/
theorem receiving_asked
    (he : exec i s = whenLive s
      (startTask i (scrambleOnError buf (Machine.perSlot k.val (receiving s.params op answer buf deadline))) s))
    (hs : SlotReady k s) (hres : (s.sock.slot k).rxRem = 0)
    (hop : op { s.sock.slot k with lock := .held (.caller (taskOf s)) } = op (s.sock.slot k))
    (hask : Runs (taskOf s) (recvAsk s.params k (op (s.sock.slot k)) deadline) (entered k s)
      (.ok (.recv addr n off sock sid)) s1) :
    (n = 0 → Ends i s (.ok (answer (0, (s1.sock.slot k).rxFrom))) (changed k (taskOf s) (fun x => x) s1)) ∧
    (∀ x, 0 < n.toInt → Runs (taskOf s) (pullWindow s.params k buf) s1 (.ok x) s2 →
      Ends i s (.ok (answer x)) (changed k (taskOf s) (fun x => x) s2)) ∧
    (∀ e, 0 < n.toInt → Runs (taskOf s) (pullWindow s.params k buf) s1 (.error e) s2 →
      Ends i s (.err e) (scrambleSpan buf (changed k (taskOf s) (fun x => x) s2))) ∧
    (n.toInt < 0 →
      Ends i s (.err (.socketError n.toInt)) (scrambleSpan buf (changed k (taskOf s) (fun x => x) s1))) := by
  have hy : s1.env.yields = [] := hask.yields hs.yields
  have hf : s1.env.fired = false := Prog.eval_fired hask rfl
  have pulls : 0 < n.toInt → countedPull s.params k buf n.toNat = pullWindow s.params k buf := fun hn => by
    have hne : n.toNat ≠ 0 := fun h0 => by
      rw [BitVec.eq_of_toNat_eq (y := 0) h0] at hn
      exact absurd hn (by decide)
    rw [countedPull, if_neg hne]
  refine ⟨fun hn => ?_, fun x hn hpull => ?_, fun e hn hpull => ?_, fun hn => ?_⟩
  · have hcount := Runs.recvRequest_ok (by rw [hn]; decide) hask
    subst hn
    exact Ends.perSlot_unscrambled he hs (receiving_asks hs hres hop
      (Runs.tryBind_ok (Runs.tryBind_ok hcount (Runs.getSlot hy hf (Runs.ret _ s1))) (Runs.ret _ s1)))
  · have hcount := Runs.recvRequest_ok (Int.le_of_lt hn) hask
    rw [← pulls hn] at hpull
    exact Ends.perSlot_unscrambled he hs (receiving_asks hs hres hop
      (Runs.tryBind_ok (Runs.tryBind_ok hcount hpull) (Runs.ret _ s2)))
  · have hcount := Runs.recvRequest_ok (Int.le_of_lt hn) hask
    rw [← pulls hn] at hpull
    exact Ends.perSlot_scrambled he hs (receiving_asks hs hres hop
      (Runs.tryBind_error (Runs.tryBind_ok hcount hpull)))
  · exact Ends.perSlot_scrambled he hs (receiving_asks hs hres hop
      (Runs.tryBind_error (Runs.tryBind_error (Runs.recvRequest_error hn hask))))

end

/-- Settles O52: `Recv` and `RecvFrom` are one program, `receiving`, which the device's count ends or sends on to the
pull. -/
theorem recvAsksTheDevice : Obligations.RecvAsksTheDevice := by
  intro s s1 s2 k buf deadline sock n addr off sid m sender i op v e hs hres hi hask
  rcases hi with ⟨rfl, rfl, rfl⟩ | ⟨rfl, rfl, rfl⟩
  · rw [opcodeFor_eq] at hask
    obtain ⟨hnone, hpulled, hfailed, herr⟩ :=
      receiving_asked (s2 := s2) (exec_opRecv k.val buf deadline s) hs hres rfl hask
    exact ⟨hnone, hpulled (m, sender), hfailed e, herr⟩
  · obtain ⟨hnone, hpulled, hfailed, herr⟩ :=
      receiving_asked (s2 := s2) (exec_opRecvFrom k.val buf deadline s) hs hres rfl hask
    exact ⟨hnone, hpulled (m, sender), hfailed e, herr⟩

end Sys2Proof.Machine

/-!
PROOFS. `Socket`, and operations on slots that are none or free (spec/43_socket.md R251 to R253, R34; logs 6, 22).
-/

namespace Sys2Proof.Machine

/-! ### Slots that are none, or free (R253) -/

/-- An index that is no slot's, or a slot that is not in use and that nobody holds (R253). -/
def Unusable (s : State) (i : Int) : Prop :=
  i < 0 ∨ 10 < i ∨ ∃ k : Fin 11, i = k.val ∧ (s.sock.slot k).inUse = false ∧ (s.sock.slot k).lock = .free

section
variable {id : Nat} {s t : State} {k : Fin 11} {i : Int}

/-- A slot's free lock taken by a `trylock` (R252). -/
theorem perform_tryLock_locked (h : (s.sock.slot k).lock = .free) :
    perform (.tryLock k) (.caller id) s = (some (.flag true), slotLocked id k s) := perform_tryLock_free h

/-- A slot that is not in use is not entered: its lock is taken and released again (R253). -/
theorem Runs.enterSlot_notInUse (body : Prog (Except Err Value)) (hl : (s.sock.slot k).lock = .free)
    (hu : (s.sock.slot k).inUse = false) (hy : s.env.yields = []) (hf : s.env.fired = false) :
    Runs id (Machine.enterSlot k body) s (.error .socketInvalid) s := by
  have hvalid := perform_slotValid_locked (id := id) (k := k) (s := s)
  rw [hu, Bool.false_and] at hvalid
  refine Runs.andThen (perform_lockSlot_free hl) hy ?_
  rw [endAction_eq (s := slotLocked id k s) hy hf]
  refine Runs.look hvalid hy hf (Runs.andThen (perform_leave_locked hl) hy ?_)
  rw [endAction_eq hy hf]
  exact Runs.raise _ s

/-- An operation on a slot that cannot be used ends without traffic and changes nothing (R253). -/
theorem Runs.perSlot_unusable (body : Fin 11 → Prog (Except Err Value)) (h : Unusable s i) (hy : s.env.yields = [])
    (hf : s.env.fired = false) : Runs id (Machine.perSlot i body) s (.error .socketInvalid) s := by
  rcases h with h | h | ⟨k, rfl, hu, hl⟩
  · rw [Machine.perSlot, slotIx_eq_none.mpr (.inl h)]
    exact Runs.raise _ s
  · rw [Machine.perSlot, slotIx_eq_none.mpr (.inr h)]
    exact Runs.raise _ s
  · exact Runs.perSlot_notInUse hl hu hy hf

/-- No stream slot has an index below 0 or above 6 (R34, R257). -/
theorem streamIx_eq_none (h : i < 0 ∨ 6 < i) : streamIx i = none := by
  cases hk : streamIx i with
  | none => rfl
  | some k =>
    obtain ⟨rfl, h6⟩ := streamIx_eq_some.mp hk
    omega

/-- `Accept` on an index that is no stream slot's ends at once (R257). -/
theorem Runs.acceptOp_noSlot (p : Params) (deadline : Word) (h : i < 0 ∨ 6 < i) :
    Runs id (Machine.acceptOp p i deadline) s (.error .socketInvalid) s := by
  rw [Machine.acceptOp, streamIx_eq_none h]
  exact Runs.raise _ s

/-- `Accept` on a slot that cannot be used ends without traffic and changes nothing (R253, R257). -/
theorem Runs.acceptOp_unusable (p : Params) (deadline : Word) (h : Unusable s i) (hy : s.env.yields = [])
    (hf : s.env.fired = false) : Runs id (Machine.acceptOp p i deadline) s (.error .socketInvalid) s := by
  by_cases hi : i < 0 ∨ 6 < i
  · exact Runs.acceptOp_noSlot p deadline hi
  · rcases h with h | h | ⟨k, rfl, hu, hl⟩
    · omega
    · omega
    · rw [Machine.acceptOp, streamIx_eq_some.mpr ⟨rfl, by omega⟩]
      exact Runs.enterSlot_notInUse _ hl hu hy hf

end

/-- Settles O44: each operation enters its slot first of all. -/
theorem freeSlotIsInvalid : Obligations.FreeSlotIsInvalid := by
  intro s i addr deadline backlog option b value buf hlive hr hy h
  have idle : ∀ {instr p}, exec instr s = whenLive s (startTask instr p s) →
      Runs (taskOf s) p (newTask s) (.error .socketInvalid) (newTask s) →
      Ends instr s (.err .socketInvalid) (newTask s) := fun he hrun =>
    Ends.of_runs (he.trans (whenLive_live hlive hr _)) hrun
  have entering : ∀ {instr body}, exec instr s = whenLive s (startTask instr (perSlot i body) s) →
      Ends instr s (.err .socketInvalid) (newTask s) := fun he => idle he (Runs.perSlot_unusable _ h hy rfl)
  have filling : ∀ {instr body}, exec instr s = whenLive s (startTask instr (scrambleOnError buf (perSlot i body)) s) →
      Ends instr s (.err .socketInvalid) (scrambleSpan buf (newTask s)) := fun he =>
    (Ends.of_runs (he.trans (whenLive_live hlive hr _))
      (Runs.scrambleOnError_error (Runs.perSlot_unusable (s := newTask s) _ h hy rfl) hy)).of_unfired
  have listed : ∀ instr ∈ [Instr.opBind i addr deadline, .opListen i backlog deadline, .opAccept i deadline,
      .opConnect i addr deadline, .opSecure i deadline, .opSendSocket i b deadline, .opSendTo i b addr deadline,
      .opShutdown i], Ends instr s (.err .socketInvalid) (newTask s) := by
    simp only [List.forall_mem_cons]
    exact ⟨entering rfl, entering rfl, idle rfl (Runs.acceptOp_unusable _ _ h hy rfl), entering rfl, entering rfl,
      entering rfl, entering rfl, entering rfl, fun _ h => nomatch h⟩
  refine ⟨?_, ?_⟩
  · rintro instr (hinstr | ⟨hok, rfl⟩)
    · exact listed instr hinstr
    · exact entering (exec_opSetsockopt i s hok)
  · simp only [List.forall_mem_cons]
    exact ⟨filling (exec_opRecv i buf deadline s), filling (exec_opRecvFrom i buf deadline s), fun _ h => nomatch h⟩

/-! ### The scan of `Socket` (R34, R252) -/

/-- The range of a type: the stream slots are those up to 6 (R34). -/
theorem mem_socketRange {type : SockType} {j : Fin 11} : j ∈ socketRange type ↔ (j.val ≤ 6 ↔ type = .stream) := by
  revert j
  cases type <;> decide

/-- The scan goes upwards (R252). -/
theorem socketRange_sorted (type : SockType) : (socketRange type).Pairwise (· < ·) := by
  cases type <;> decide

/-- A slot that `Socket` passes over: in use, or locked (R252). -/
def Taken (s : State) (j : Fin 11) : Prop := (s.sock.slot j).inUse = true ∨ (s.sock.slot j).lock ≠ .free

section
variable {id : Nat} {s t : State} {p : Params} {type : SockType} {ssl : SslFlags} {i : Fin 11}
  {rest : List (Fin 11)} {r : Except Err Value}

/-- A slot in use or locked is passed over, and left as it was (R252). -/
theorem Runs.socketScan_skip (h : Taken s i) (hy : s.env.yields = []) (hf : s.env.fired = false)
    (hrest : Runs id (Machine.socketScan p type ssl rest) s r t) :
    Runs id (Machine.socketScan p type ssl (i :: rest)) s r t := by
  by_cases hl : (s.sock.slot i).lock = .free
  · have hu : (s.sock.slot i).inUse = true := h.resolve_right (not_not_intro hl)
    have hused : perform (.slotInUse i) (.caller id) (slotLocked id i s) = (some (.flag true), slotLocked id i s) := by
      rw [← hu]
      show (some (Val.flag ((slotLocked id i s).sock.slot i).inUse), _) = _
      rw [slotLocked_slot]
    refine Runs.act (perform_tryLock_locked hl) hy ?_
    rw [endAction_eq (s := slotLocked id i s) hy hf]
    refine Runs.look hused hy hf (Runs.andThen (perform_leave_locked hl) hy ?_)
    rw [endAction_eq hy hf]
    exact hrest
  · exact Runs.look (perform_tryLock_held hl) hy hf hrest

theorem Runs.socketScan_skips (hy : s.env.yields = []) (hf : s.env.fired = false)
    (hrest : Runs id (Machine.socketScan p type ssl rest) s r t) :
    ∀ l : List (Fin 11), (∀ j ∈ l, Taken s j) → Runs id (Machine.socketScan p type ssl (l ++ rest)) s r t
  | [], _ => hrest
  | j :: l, h => Runs.socketScan_skip (h j (.head _)) hy hf
      (Runs.socketScan_skips hy hf hrest l fun j' hj => h j' (.tail _ hj))

/-- A slot that is free is taken, its lock held (R252). -/
theorem Runs.socketScan_found (hu : (s.sock.slot i).inUse = false) (hl : (s.sock.slot i).lock = .free)
    (hy : s.env.yields = []) (hf : s.env.fired = false)
    (hfound : Runs id (Machine.socketFound p type ssl i) (slotLocked id i s) r t) :
    Runs id (Machine.socketScan p type ssl (i :: rest)) s r t := by
  have hunused : perform (.slotInUse i) (.caller id) (slotLocked id i s) = (some (.flag false), slotLocked id i s) := by
    rw [← hu]
    show (some (Val.flag ((slotLocked id i s).sock.slot i).inUse), _) = _
    rw [slotLocked_slot]
  refine Runs.act (perform_tryLock_locked hl) hy ?_
  rw [endAction_eq (s := slotLocked id i s) hy hf]
  exact Runs.look hunused hy hf hfound

/-- `Socket` comes to the lowest free slot of its range (R252). -/
theorem Runs.socketOp_found (hi : i ∈ socketRange type) (hu : (s.sock.slot i).inUse = false)
    (hl : (s.sock.slot i).lock = .free) (hlow : ∀ j ∈ socketRange type, j < i → Taken s j)
    (hy : s.env.yields = []) (hf : s.env.fired = false)
    (hfound : Runs id (Machine.socketFound p type ssl i) (slotLocked id i s) r t) :
    Runs id (Machine.socketOp p type ssl) s r t := by
  obtain ⟨l, rest, hrange⟩ := List.append_of_mem hi
  have hsorted := socketRange_sorted type
  rw [hrange, List.pairwise_append] at hsorted
  obtain ⟨-, -, hbelow⟩ := hsorted
  rw [Machine.socketOp, hrange]
  refine Runs.socketScan_skips hy hf (Runs.socketScan_found hu hl hy hf hfound) l fun j hj => ?_
  exact hlow j (hrange ▸ List.mem_append_left _ hj) (hbelow j hj i (.head _))

/-- A slot's session id drawn where nobody holds the counter (R251). -/
theorem perform_nextSid_free {ag : Agent} (h : s.sock.sidLock = .free) :
    perform .nextSid ag s = (some (.num (s.sock.sid + 1).toNat), s.mapSock fun k => { k with sid := k.sid + 1 }) := by
  simp only [perform, doNextSid, h]

/-- The slot marked in use by the caller that holds it, and left (R251, R252). -/
theorem Runs.socketTake (hsid : s.sock.sidLock = .free) (hlive : s.root.live = true)
    (hl : (s.sock.slot i).lock = .held (.caller id)) (hy : s.env.yields = []) (hf : s.env.fired = false) :
    Runs id (Machine.socketTake p type ssl i) s (.ok (.slot i.val))
      ((changed i id (allocated i (s.sock.sid + 1) ssl (defaultOffset p type ssl))
        (s.mapSock fun k => { k with sid := k.sid + 1 })).mapEnv fun e => { e with fired := false }) := by
  let drawn := s.mapSock fun k => { k with sid := k.sid + 1 }
  have halloc : perform (.allocSlot i (s.sock.sid + 1) ssl (defaultOffset p type ssl)) (.caller id) drawn =
      (some (.flag true),
        drawn.mapSock fun k => k.setSlot i (allocated i (s.sock.sid + 1) ssl (defaultOffset p type ssl))) := by
    have hmay : mayAllocate (.caller id) i drawn = true := by
      simp only [mayAllocate, Bool.and_eq_true, decide_eq_true_eq]
      exact ⟨hlive, hl⟩
    simp only [perform, doAllocSlot, hmay, if_true]
  refine Runs.act (perform_nextSid_free hsid) hy ?_
  rw [endAction_eq (s := drawn) hy hf, ofNat_num_toNat]
  refine Runs.act halloc hy ?_
  rw [endAction_eq (s := drawn.mapSock _) hy hf, ← changed_setSlot]
  exact Runs.last (v := .unit) (Except.ok (Value.slot i.val)) rfl hy

end

section
variable {s s1 : State} {type : SockType} {ssl : SslFlags} {i : Fin 11} {e : Err}

/-- The call of `Socket` (R252). -/
theorem exec_opSocket (hlive : s.root.live = true) (hr : Ready s) :
    exec (.opSocket type ssl) s = startTask (.opSocket type ssl) (socketOp s.params type ssl) s :=
  whenLive_live hlive hr _

/-- Without SSL creation the slot that was found is taken at once (R252). -/
theorem socketFound_plain (p : Params) (i : Fin 11) (h : type = .stream → ssl.active = false) :
    socketFound p type ssl i = socketTake p type ssl i :=
  if_neg fun ⟨htype, hactive⟩ => Bool.false_ne_true ((h htype).symm.trans hactive)

/-- The offset of a slot without SSL creation (R252). -/
theorem defaultOffset_plain (p : Params) (h : type = .stream → ssl.active = false) :
    defaultOffset p type ssl = if type = .datagram then p.txOffsetUdp else p.txOffsetTcp := by
  cases type with
  | datagram => rfl
  | stream => simp [defaultOffset, SslFlags.tls, h rfl]

/-- The offset of a slot with SSL creation (R252). -/
theorem defaultOffset_tls (p : Params) (h : ssl.active = true) :
    defaultOffset p .stream ssl = if ssl.delayHandshake then p.txOffsetTcp else p.txOffsetTls := by
  cases hd : ssl.delayHandshake <;> simp [defaultOffset, SslFlags.tls, h, hd]

/-- `Socket` without SSL creation takes the lowest free slot of its range (R251, R252). -/
theorem socket_ends_plain (hlive : s.root.live = true) (hr : Ready s) (hy : s.env.yields = [])
    (hsid : s.sock.sidLock = .free) (hplain : type = .stream → ssl.active = false) (hi : i ∈ socketRange type)
    (hu : (s.sock.slot i).inUse = false) (hl : (s.sock.slot i).lock = .free)
    (hlow : ∀ j ∈ socketRange type, j < i → Taken s j) :
    Ends (.opSocket type ssl) s (.ok (.slot i.val))
      ((newTask s).mapSock fun k =>
        { k.setSlot i (allocated i (s.sock.sid + 1) ssl
            (if type = .datagram then s.params.txOffsetUdp else s.params.txOffsetTcp)) with
          sid := s.sock.sid + 1 }) := by
  have hheld : ((entered i s).sock.slot i).lock = .held (.caller (taskOf s)) := by rw [entered_slot]
  have htake := Runs.socketTake (id := taskOf s) (s := entered i s) (p := s.params) (type := type) (ssl := ssl) hsid hlive
    hheld hy rfl
  rw [← socketFound_plain s.params i hplain] at htake
  have hends := (Ends.of_runs (exec_opSocket hlive hr)
    (Runs.socketOp_found (s := newTask s) hi hu hl hlow hy rfl htake)).of_unfired
  have hslot := Sockets.setSlot_under_lock (ag := .caller (taskOf s))
    (f := allocated i (s.sock.sid + 1) ssl (defaultOffset s.params type ssl)) hl fun _ _ => rfl
  have hstate : changed i (taskOf s) (allocated i (s.sock.sid + 1) ssl (defaultOffset s.params type ssl))
      ((entered i s).mapSock fun k => { k with sid := k.sid + 1 }) =
      (newTask s).mapSock fun k =>
        { k.setSlot i (allocated i (s.sock.sid + 1) ssl (defaultOffset s.params type ssl)) with
          sid := s.sock.sid + 1 } :=
    congrArg (fun q : Sockets => (newTask s).mapSock fun _ => { q with sid := s.sock.sid + 1 }) hslot
  rw [← defaultOffset_plain s.params hplain, ← hstate]
  exact hends

/-- With every slot of its range in use or locked, `Socket` changes nothing (R252). -/
theorem socket_ends_none (hlive : s.root.live = true) (hr : Ready s) (hy : s.env.yields = [])
    (h : ∀ j ∈ socketRange type, Taken s j) : Ends (.opSocket type ssl) s (.err .noAvailableSocket) (newTask s) := by
  have hscan := Runs.socketScan_skips (id := taskOf s) (p := s.params) (type := type) (ssl := ssl) (rest := []) (s := newTask s) hy rfl
    (Runs.raise .noAvailableSocket _) (socketRange type) h
  rw [List.append_nil] at hscan
  exact Ends.of_runs (exec_opSocket hlive hr) hscan

/-- `Socket` with SSL creation sends the packet from the lowest free stream slot, its lock held, and goes on as the packet
went (R252). -/
theorem socket_ends_tls {r : Except Err Unit} {v : Except Err Value} {t : State} (hlive : s.root.live = true)
    (hr : Ready s) (hy : s.env.yields = []) (hactive : ssl.active = true) (hi : i ∈ socketRange .stream)
    (hu : (s.sock.slot i).inUse = false) (hl : (s.sock.slot i).lock = .free)
    (hlow : ∀ j ∈ socketRange .stream, j < i → Taken s j)
    (hsend : Runs (taskOf s) (hifSend s.params s.params.groupWifi 0x50 (encSslCreate s.params i) [] 0) (entered i s) r s1)
    (hrest : Runs (taskOf s)
      (match r with
        | .ok _ => Machine.socketTake s.params .stream ssl i
        | .error _ => .andThen (.leave i) (raise .socketInvalid)) s1 v
      (t.mapEnv fun e => { e with fired := false })) :
    Ends (.opSocket .stream ssl) s (toResult v) t := by
  have hfound : Runs (taskOf s) (socketFound s.params .stream ssl i) (entered i s) v
      (t.mapEnv fun e => { e with fired := false }) := by
    rw [socketFound, if_pos ⟨rfl, hactive⟩]
    exact Runs.bind hsend hrest
  exact (Ends.of_runs (exec_opSocket hlive hr)
    (Runs.socketOp_found (s := newTask s) hi hu hl hlow hy rfl hfound)).of_unfired

end

/-- Settles O42: the scan passes over what is in use or locked, and takes the first slot that is free. -/
theorem socketTakesTheLowestFreeSlot : Obligations.SocketTakesTheLowestFreeSlot := by
  refine ⟨fun s type ssl i hlive hr hy hsid hrange hu hl hlow => ?_, fun s type ssl hlive hr hy h =>
    socket_ends_none hlive hr hy fun j hj => h j (mem_socketRange.mp hj)⟩
  have hplain : type = .stream → ssl.active = false := by
    rcases hrange with ⟨-, h, -⟩ | ⟨rfl, -⟩
    · exact fun _ => h
    · exact nofun
  have hi : i ∈ socketRange type := by
    rcases hrange with ⟨rfl, -, h⟩ | ⟨rfl, h⟩
    · exact mem_socketRange.mpr (iff_of_true h rfl)
    · exact mem_socketRange.mpr (iff_of_false (by omega) nofun)
  refine socket_ends_plain hlive hr hy hsid hplain hi hu hl fun j hj hji => hlow j hji fun hd => ?_
  subst hd
  have := mt (mem_socketRange.mp hj).mp nofun
  omega

/-- Settles O43: the scan as in O42, behind whose slot the packet goes out; then the slot is taken, or left. -/
theorem socketCreatesTlsFirst : Obligations.SocketCreatesTlsFirst := by
  intro s s1 ssl e i hlive hr hy hsid hactive h6 hu hl hlow
  have hi : i ∈ socketRange .stream := mem_socketRange.mpr (iff_of_true h6 rfl)
  refine ⟨fun hsend hlive1 hl1 => ?_, fun hsend => ?_⟩
  · rw [← defaultOffset_tls s.params hactive]
    exact socket_ends_tls hlive hr hy hactive hi hu hl (fun j _ hj => hlow j hj) hsend
      (Runs.socketTake hsid hlive1 hl1 (hsend.yields hy) (Prog.eval_fired hsend rfl))
  · refine socket_ends_tls (v := .error .socketInvalid) hlive hr hy hactive hi hu hl (fun j _ hj => hlow j hj) hsend ?_
    exact Runs.last (v := .unit) (Except.error Err.socketInvalid) rfl (hsend.yields hy)

end Sys2Proof.Machine

/-!
PROOFS. `Shutdown`, `Reset` and `GetHostByName`: whom they complete, and how they end (spec/43_socket.md R265, R266, R280,
R286, spec/10_state.md R46; logs 10, 19, 22).
-/

namespace Sys2Proof.Machine

/-! ### Reply slots set and completed (R36, R265, R286) -/

/-- A reply slot after one was set: that one has its new value, if it is there. -/
theorem mailGet_mailSet (mail : List (Nat × Mail)) (n m : Nat) (v : Mail) :
    mailGet (mailSet mail n v) m = if m = n then (mailGet mail m).map fun _ => v else mailGet mail m := by
  induction mail with
  | nil => simp [mailGet, mailSet]
  | cons e mail ih =>
    have hcons : ∀ (e : Nat × Mail) l, mailGet (e :: l) m = if e.1 = m then some e.2 else mailGet l m := fun e l => by
      by_cases h : e.1 = m <;> simp [mailGet, h]
    have hset : mailSet (e :: mail) n v = (if e.1 = n then (e.1, v) else e) :: mailSet mail n v := rfl
    have hkey : (if e.1 = n then (e.1, v) else e) = (e.1, if e.1 = n then v else e.2) := by split <;> rfl
    rw [hset, hkey, hcons, hcons, ih]
    by_cases hm : e.1 = m
    · subst hm
      by_cases hn : e.1 = n <;> simp [hn]
    · simp [hm]

/-- The reply slots of a list completed. -/
theorem mailGet_abandonAll (l : List Nat) (mail : List (Nat × Mail)) (m : Nat) :
    mailGet (l.foldl mailAbandon mail) m = if m ∈ l then (mailGet mail m).map fun _ => .abandoned else mailGet mail m := by
  induction l generalizing mail with
  | nil => rfl
  | cons n l ih =>
    rw [List.foldl_cons, ih, mailAbandon, mailGet_mailSet]
    by_cases hn : m = n
    · subst hn
      by_cases hl : m ∈ l <;> simp [hl, Function.comp_def]
    · simp [hn]

/-- A reply slot that is there is completed with its list. -/
theorem mailGet_abandonAll_mem {l : List Nat} {mail : List (Nat × Mail)} {m : Nat} (h : m ∈ l)
    (hm : mailGet mail m ≠ none) : mailGet (l.foldl mailAbandon mail) m = some .abandoned := by
  obtain ⟨v, hv⟩ := Option.ne_none_iff_exists'.mp hm
  rw [mailGet_abandonAll, if_pos h, hv]
  rfl

/-- A reply slot that was completed stays so while others are. -/
theorem mailGet_abandonAll_abandoned (l : List Nat) {mail : List (Nat × Mail)} {m : Nat}
    (hm : mailGet mail m = some .abandoned) : mailGet (l.foldl mailAbandon mail) m = some .abandoned := by
  rw [mailGet_abandonAll, hm]
  split <;> rfl

/-- No reply slot goes away while others are completed. -/
theorem mailGet_abandonAll_ne_none (l : List Nat) {mail : List (Nat × Mail)} {m : Nat} (hm : mailGet mail m ≠ none) :
    mailGet (l.foldl mailAbandon mail) m ≠ none := by
  rw [mailGet_abandonAll]
  split
  · simpa using hm
  · exact hm

/-! ### Slots freed (R265, R286) -/

namespace Sockets

/-- Every waiter of a slot that is freed is completed (R265, R286). -/
theorem mailGet_freeSlot_waiter {q : Sockets} {i : Fin 11} {m : Nat} (h : m ∈ waitersOf (q.slot i))
    (hm : mailGet q.mail m ≠ none) : mailGet ((q.wakeSlot i).freeSlot i).mail m = some .abandoned :=
  mailGet_abandonAll_abandoned (waitersOf (q.slot i)) (mailGet_abandonAll_mem h hm)

theorem mailGet_freeSlot_abandoned {q : Sockets} (i : Fin 11) {m : Nat} (hm : mailGet q.mail m = some .abandoned) :
    mailGet ((q.wakeSlot i).freeSlot i).mail m = some .abandoned :=
  mailGet_abandonAll_abandoned (waitersOf (q.slot i)) (mailGet_abandonAll_abandoned (waitersOf (q.slot i)) hm)

theorem mailGet_freeSlot_ne_none {q : Sockets} (i : Fin 11) {m : Nat} (hm : mailGet q.mail m ≠ none) :
    mailGet ((q.wakeSlot i).freeSlot i).mail m ≠ none :=
  mailGet_abandonAll_ne_none (waitersOf (q.slot i)) (mailGet_abandonAll_ne_none (waitersOf (q.slot i)) hm)

theorem mailGet_freeSlots_abandoned (l : List (Fin 11)) {q : Sockets} {m : Nat}
    (hm : mailGet q.mail m = some .abandoned) : mailGet (q.freeSlots l).mail m = some .abandoned := by
  induction l generalizing q with
  | nil => exact hm
  | cons i l ih => exact ih (mailGet_freeSlot_abandoned i hm)

theorem mailGet_freeSlots_ne_none (l : List (Fin 11)) {q : Sockets} {m : Nat} (hm : mailGet q.mail m ≠ none) :
    mailGet (q.freeSlots l).mail m ≠ none := by
  induction l generalizing q with
  | nil => exact hm
  | cons i l ih => exact ih (mailGet_freeSlot_ne_none i hm)

/-- Every waiter of a slot that is freed among others is completed (R286). -/
theorem mailGet_freeSlots_waiter {l : List (Fin 11)} {q : Sockets} {i : Fin 11} {m : Nat} (hi : i ∈ l)
    (h : m ∈ waitersOf (q.slot i)) (hm : mailGet q.mail m ≠ none) :
    mailGet (q.freeSlots l).mail m = some .abandoned := by
  induction l generalizing q with
  | nil => cases hi
  | cons j l ih =>
    by_cases hj : i = j
    · subst hj
      exact mailGet_freeSlots_abandoned l (mailGet_freeSlot_waiter h hm)
    · refine ih ((List.mem_cons.mp hi).resolve_left hj) ?_ (mailGet_freeSlot_ne_none j hm)
      rw [slot_freeSlot, if_neg hj]
      exact h

theorem dnsReply_freeSlots (l : List (Fin 11)) (q : Sockets) : (q.freeSlots l).dnsReply = q.dnsReply := by
  induction l generalizing q with
  | nil => rfl
  | cons i l ih => exact ih ((q.wakeSlot i).freeSlot i)

end Sockets

/-! ### `Shutdown` (R265) -/

section
variable {id : Nat} {s t : State} {k : Fin 11}

/-- The slot set to `Closing` by its holder (R265). -/
theorem Holds.perform_beginClose (hh : Holds k id s) :
    perform (.beginClose k) (.caller id) s =
      (some (.flag (s.sock.slot k).ssl.tls), s.mapSock fun q => q.setSlot k closing) := by
  simp only [perform, doBeginClose, hh.owns, if_true]
  rfl

/-- The slot's waiters completed and the slot freed, by its holder (R265). -/
theorem Runs.freeSlot {α : Type} {p : Prog α} {r : α} (hl : (s.sock.slot k).lock = .held (.caller id))
    (hy : s.env.yields = []) (hf : s.env.fired = false)
    (h : Runs id p (s.mapSock fun q => (q.wakeSlot k).freeSlot k) r t) :
    Runs id (.andThen (.put (.wake k)) (.andThen (.freeSlot k) p)) s r t := by
  let woken := s.mapSock fun q => q.wakeSlot k
  have hp : perform (.freeSlot k) (.caller id) woken = (some .unit, woken.mapSock fun q => q.freeSlot k) := by
    have hheld : (woken.sock.slot k).lock = .held (.caller id) := hl
    simp only [perform, doFreeSlot, hheld, if_true]
  refine Runs.put hy hf (Runs.andThen hp hy ?_)
  rw [endAction_eq (s := woken.mapSock _) hy hf]
  exact h

/-- What an operation answers whose packet awaits no reply (R254, R264, R265). -/
def sentAnswer (r : Except Err Unit) (v : Value) : Except Err Value :=
  match r with
  | .ok _ => .ok v
  | .error _ => .error .socketInvalid

theorem Runs.sentOr (r : Except Err Unit) (v : Value) : Runs id (Machine.sentOr r v) s (sentAnswer r v) s := by
  cases r <;> exact Runs.ret _ s

/-- `Shutdown` in a slot that its caller holds: the slot closing, the packet, and, sent or not, the slot freed (R265). -/
theorem Runs.shuttingDown {s1 : State} {p : Params} {r : Except Err Unit} (hh : Holds k id s)
    (hsid : s.sock.sidLock = .free) (hy : s.env.yields = []) (hf : s.env.fired = false)
    (hsend : Runs id
      (hifSend p groupIp (opcodeFor (s.sock.slot k) 0x49 0x4E) (encClose p k (s.sock.sid + 1)) [] 0)
      (s.mapSock fun q => { q.setSlot k closing with sid := s.sock.sid + 1 }) r s1)
    (hl : (s1.sock.slot k).lock = .held (.caller id)) :
    Runs id (Machine.shuttingDown p k) s (sentAnswer r .unit)
      (s1.mapSock fun q => (q.wakeSlot k).freeSlot k) := by
  let closed := s.mapSock fun q => q.setSlot k closing
  have hfree : closed.sock.sidLock = .free := hsid
  refine Runs.act hh.perform_beginClose hy ?_
  rw [endAction_eq (s := closed) hy hf]
  refine Runs.act (perform_nextSid_free hfree) hy ?_
  rw [endAction_eq (s := closed.mapSock _) hy hf, ofNat_num_toNat, Val.toFlag]
  rw [opcodeFor_eq, pickOpcode] at hsend
  exact Runs.bind hsend (Runs.freeSlot hl (hsend.yields hy) (Prog.eval_fired hsend hf) (Runs.sentOr r .unit))

end

/-- Settles O55: what the slot and the reply slots hold behind `freeSlot`, the lock released. -/
theorem shutdownFreesTheSlot : Obligations.ShutdownFreesTheSlot := by
  intro s s1 k r hs hsid hsend hl
  have hrun := Runs.shuttingDown (s := entered k s) (p := s.params) (entered_holds hs) hsid hs.yields rfl
    (by rw [entered_slot]; exact hsend) hl
  have hends := Ends.perSlot (i := .opShutdown k.val) (body := shuttingDown s.params) rfl hs hrun
  let freedSock := (s1.sock.wakeSlot k).freeSlot k
  let u := changed k (taskOf s) (fun x => x) (s1.mapSock fun _ => freedSock)
  have hslot : u.sock.slot k = { freed (s1.sock.slot k) with lock := .free } := by
    have hdrop : Lock.drop (.held (.caller (taskOf s))) (.caller (taskOf s)) = .free := if_pos rfl
    rw [← hdrop, ← hl]
    show (Sockets.setSlot freedSock k _).slot k = _
    rw [Sockets.slot_setSlot_self, Sockets.slot_freeSlot, if_pos rfl]
    rfl
  have hother : ∀ j, j ≠ k → u.sock.slot j = s1.sock.slot j := fun j hj => by
    show (Sockets.setSlot freedSock k _).slot j = _
    rw [Sockets.slot_setSlot_ne _ _ hj, Sockets.slot_freeSlot, if_neg hj]
  refine ⟨u, ?_, rfl, ?_⟩
  · cases r <;> exact hends
  · rw [hslot]
    exact ⟨rfl, rfl, rfl, rfl, rfl, rfl, rfl, rfl, rfl, hother, rfl, fun m hm hget =>
      Sockets.mailGet_freeSlot_waiter (List.mem_append.mpr hm) hget⟩

/-! ### `Reset` (R46, R286, R372) -/

/-- What `Reset()` leaves: every slot freed, the waiter for DNS completed, the queues closed (R286, R372). -/
theorem teardown_eq (s : State) :
    teardown s =
    { s with
      irq :=
        { s.irq with
          intrEn := false
          stop := true
          go := false
          irqPrev := true
          wseq := if s.irq.wseq = .wait then .stopped else s.irq.wseq }
      hif :=
        { s.hif with
          state := .shutdown
          awake := false
          rxValid := false
          rxPend := false
          cb := Vector.replicate 256 none
          subs := [] }
      env := { s.env with closed := s.env.closed ++ s.hif.subs.map (fun q => { q with content := none }) }
      root := { s.root with live := false }
      sock :=
        { s.sock.freeSlots allSlots with
          dnsReply := none
          mail := s.sock.dnsReply.toList.foldl mailAbandon (s.sock.freeSlots allSlots).mail
          sid := 0 } } := by
  rw [teardown, resetPuts, putAll_append, putAll_append, slotPuts, putAll_freeSlots]
  simp only [putAll, List.foldl, Put.apply, State.mapHif, State.mapIrq, State.mapEnv, State.mapRoot, State.mapSock,
    Sockets.dnsReply_freeSlots]

/-- Every slot is freed, its lock untouched (R286). -/
theorem teardown_slot (s : State) (i : Fin 11) : (teardown s).sock.slot i = freed (s.sock.slot i) := by
  have hfree := Sockets.slot_freeSlots allSlots s.sock i
  rw [if_pos (mem_allSlots i)] at hfree
  rw [teardown_eq]
  generalize s.sock.freeSlots allSlots = q at hfree ⊢
  exact hfree

/-- Every waiter is completed: the one for DNS, and those of the slots (R286). -/
theorem teardown_completes {s : State} {m : Nat} (hm : mailGet s.sock.mail m ≠ none)
    (h : s.sock.dnsReply = some m ∨ ∃ i, m ∈ waitersOf (s.sock.slot i)) :
    mailGet (teardown s).sock.mail m = some .abandoned := by
  rw [teardown_eq]
  rcases h with h | ⟨i, h⟩
  · exact mailGet_abandonAll_mem (by simp [h]) (Sockets.mailGet_freeSlots_ne_none allSlots hm)
  · exact mailGet_abandonAll_abandoned _ (Sockets.mailGet_freeSlots_waiter (mem_allSlots i) h hm)

/-- A call of `Reset()` that no gate turns away (R286, R374). -/
theorem reset_ends {s : State} (hlive : s.root.live = true) (hb : s.hif.state ≠ .bootstrapping)
    (hi : initializing s = false) (hy : s.env.yields = []) :
    Ends .opReset s (.ok .unit) (teardown (newTask s)) := by
  have hst : s.hif.state ∈ [HifState.uninitialized, .ready, .shutdown] := by
    revert hb
    cases s.hif.state <;> decide
  have hexec : exec .opReset s = startTask .opReset resetOp s := by
    show execReset s = _
    rw [execReset, if_pos hlive, whenIn_open hst hi]
  exact Ends.of_runs hexec (Runs.puts (l := resetPuts) hy rfl (Runs.ret (Except.ok Value.unit) _))

/-- Settles O60: `teardown`, element by element. -/
theorem resetTearsDown : Obligations.ResetTearsDown := by
  intro s hlive hb hi hy
  have hslots := fun i => teardown_slot (newTask s) i
  have hmail := fun (m : Nat) (hm : mailGet s.sock.mail m ≠ none) h => teardown_completes (s := newTask s) hm h
  have hends := reset_ends hlive hb hi hy
  have hlock := Sockets.sidLock_freeSlots allSlots (newTask s).sock
  rw [teardown_eq] at hends hmail
  simp only [teardown_eq] at hslots
  generalize (newTask s).sock.freeSlots allSlots = q at hends hmail hslots hlock
  exact ⟨_, hends, rfl, rfl, rfl, rfl, rfl, rfl, rfl, rfl, rfl, rfl, hlock, rfl, hslots,
    fun m hm h => hmail m hm (h.imp id fun ⟨i, hi⟩ => ⟨i, List.mem_append.mpr hi⟩)⟩

/-! ### `GetHostByName` (R254, R266; log 19) -/

section
variable {id : Nat} {s t u : State}

/-- An action answered by itself is answered so inside a program. -/
theorem Runs.act_call {α : Type} {a : Action} {next : Val → Prog α} {v : Val} {r : α}
    (h : Runs id (Prog.call a) s v t) (hnext : Runs id (next v) t r u) : Runs id (.act a next) s r u :=
  Runs.bind (p := Prog.call a) h hnext

/-- An action for whose answer the caller waited. -/
theorem Runs.act_waited {α : Type} {a : Action} {next : Val → Prog α} {v : Val} {r : α}
    (h : callerGo id a s = (some v, t)) (hy : t.env.yields = []) (hnext : Runs id (next v) (endAction t) r u) :
    Runs id (.act a next) s r u := by
  rw [Runs, Prog.eval_act h (by rw [handOver_of_nil hy])]
  exact hnext

/-- A caller whose own time is up before anything else happens (R340; log 19). -/
theorem callerGo_expires {a : Action} {v : Val} {inputs : List Input} (hi : s.env.inbox = .expire id :: inputs)
    (hf : s.env.fired = false) (hwait : perform a (.caller id) s = (none, s))
    (hexp : perform a (.caller id) (s.mapEnv fun e => { e with fired := true }) = (some v, t)) :
    callerGo id a s = (some v, t.mapEnv fun e => { e with inbox := inputs }) := by
  simp only [callerGo, hwait, hi, waitFor, serveInput, dropExpiry_eq hf, if_true, hexp]

/-- The name of the reply slot for DNS put in place (R266). -/
def dnsAsked (s : State) : State :=
  (s.mapSock fun k => { k with dnsReply := some s.env.nextMail, mail := k.mail ++ [(s.env.nextMail, .waiting)] }).mapEnv
    fun e => { e with nextMail := s.env.nextMail + 1 }

/-- `GetHostByName` behind its packet (R254, R266). -/
def resolving (m : Nat) (bounded : Bool) (r : Except Err Unit) : Prog (Except Err Value) :=
  match r with
  | .error _ => .andThen (.dnsClose m) (raise .socketInvalid)
  | .ok _ => .act (.dnsWait m bounded) fun w =>
    match w.toReply with
    | .ok (.dns _ ip) => .ret (.ok (.word ip))
    | .ok _ => raise .socketInvalid
    | .error e => raise e

/-- `GetHostByName`: the reply slot, the packet, and what follows it (R266). -/
theorem Runs.getHostByNameOp {p : Params} {name : Bytes} {deadline : Word} {r : Except Err Unit} {v : Except Err Value}
    (hy : s.env.yields = []) (hf : s.env.fired = false)
    (hsend : Runs id (hifSend p groupIp 0x4A (encDns p name) [] 0) (dnsAsked s) r t)
    (hrest : Runs id (resolving s.env.nextMail (deadline != 0) r) t v u) :
    Runs id (Machine.getHostByNameOp p name deadline) s v u := by
  refine Runs.act (v := .num s.env.nextMail) (t := dnsAsked s) rfl hy ?_
  rw [endAction_eq (s := dnsAsked s) hy hf]
  exact Runs.bind hsend hrest

/-- A reply that came holds the address (R266). -/
theorem Runs.resolving_answered {m : Nat} {bounded : Bool} {got : Bytes} {ip : Word}
    (h : Runs id (Prog.call (.dnsWait m bounded)) s (.reply (.ok (.dns got ip))) t) :
    Runs id (resolving m bounded (.ok ())) s (.ok (.word ip)) t := Runs.act_call h (Runs.ret _ t)

/-- A deadline that passes first (R266, R340; log 19). -/
theorem Runs.resolving_expired {m : Nat} {inputs : List Input} (hm : mailGet s.sock.mail m = some .waiting)
    (hi : s.env.inbox = .expire id :: inputs) (hy : s.env.yields = []) (hf : s.env.fired = false) :
    Runs id (resolving m true (.ok ())) s (.error .socketTimeout)
      ((s.mapSock fun k => k.dropDns m).mapEnv fun e => { e with inbox := inputs, fired := false }) := by
  have hwait : perform (.dnsWait m true) (.caller id) s = (none, s) := by
    simp only [perform, doDnsWait, hm, hf, Bool.and_false, Bool.false_eq_true, if_false]
  have hexp : perform (.dnsWait m true) (.caller id) (s.mapEnv fun e => { e with fired := true }) =
      (some (.reply (.error .socketTimeout)),
        (s.mapEnv fun e => { e with fired := true }).mapSock fun k => k.dropDns m) := by
    simp only [perform, doDnsWait, State.mapEnv_sock, hm, State.mapEnv_env, Bool.and_true, if_true]
  refine Runs.act_waited (callerGo_expires hi hf hwait hexp) hy ?_
  rw [endAction_eq_unfired (by exact hy)]
  exact Runs.raise _ _

/-- A name that cannot be sent: no waiter is left (R254, R266). -/
theorem Runs.resolving_unsent (m : Nat) (bounded : Bool) (e : Err) (hy : s.env.yields = []) :
    Runs id (resolving m bounded (.error e)) s (.error .socketInvalid)
      ((s.mapSock fun k => k.dropDns m).mapEnv fun e => { e with fired := false }) :=
  Runs.last (v := .unit) (Except.error Err.socketInvalid) rfl hy

/-- A resolution while none is outstanding (R266). -/
theorem exec_getHostByName {name : Bytes} {deadline : Word} (hlive : s.root.live = true) (hr : Ready s)
    (hn : s.sock.dnsReply = none) :
    exec (.opGetHostByName name deadline) s =
      startTask (.opGetHostByName name deadline) (Machine.getHostByNameOp s.params name deadline) s := by
  refine (whenLive_live hlive hr _).trans ?_
  rw [hn]
  rfl

/-- A second resolution is refused (R266). -/
theorem exec_getHostByName_busy {name : Bytes} {deadline : Word} (hlive : s.root.live = true) (hr : Ready s)
    (hn : s.sock.dnsReply ≠ none) : exec (.opGetHostByName name deadline) s = .refused .dnsBusy :=
  (whenLive_live hlive hr _).trans (if_pos (Option.isSome_iff_ne_none.mpr hn))

end

/-! ### The row 0x4A, as `Isr` runs it (R211, R215, R216, R270, R280; log 10) -/

section
variable {go : Action → State → Option Val × State} {ag : Agent}

/-- The opcode number 0x4A is the DNS reply's (R270). -/
theorem sockCb_dns (p : Params) (flag : Bool) (length : Int) (address : Word) :
    sockCb p (hifOpcodeByte 0x4A flag) length address = cbDns p length address := by
  cases flag <;> rfl

/-- A DNS reply that nobody waits for is dropped (R280). -/
theorem cbDns_dropped (hgo : Agrees go ag) (p : Params) {length : Int} {address : Word} {b : Bytes} (w : Word) {s : State}
    (hs : s.hif.state = .ready) (hb : b.length = recSize p .dnsReply) (hl : (recSize p .dnsReply : Int) ≤ length)
    (hw : inWindow s.hif address (recSize p .dnsReply)) (ha : address.toNat < 2 ^ 24) (hd : s.hif.rxPend = true)
    (hnone : ∀ m, s.sock.dnsReply = some m → mailGet s.sock.mail m ≠ some .waiting) :
    Serves go (cbDns p length address) (.readBlock (address.setWidth 24) b :: rxDoneAccesses p true w) (none, false)
      (fun t => t.mapHif fun h => { h with rxPend := false }) s := by
  have hdue : rxDoneDue s.hif address (recSize p .dnsReply) true = true := by simp [rxDoneDue, hd]
  have hfetch := fetch_serves hgo p .dnsReply (done := true) w hs hb hl hw ha hdue
  refine (Serves.bindLast (h := fun t => t) Respects.id hfetch fun u hu => ?_).congr (by simp [State.mapHif])
  have hfill : perform (.dnsFill (decRec p .dnsReply b)) ag u = (some (.flag false), u) := by
    have hsock : u.sock = s.sock := hu.sock
    simp only [perform, doDnsFill, hsock]
    cases hm : s.sock.dnsReply with
    | none => rfl
    | some m => exact if_neg (hnone m hm)
  exact Serves.look hgo Respects.id hfill fun v _ => Serves.ret _ v

/-- A packet too short for its record, or whose record leaves the window: nothing is read, nothing answered (R270). -/
theorem cbDns_nothing (hgo : Agrees go ag) (p : Params) {length : Int} {address : Word} {s : State}
    (hr : s.hif.state = .ready)
    (h : length < recSize p .dnsReply ∨ ¬inWindow s.hif address (recSize p .dnsReply)) :
    Serves go (cbDns p length address) [] (none, false) (fun t => t) s :=
  Serves.bindLast Respects.id (fetch_nothing hgo p .dnsReply true hr h) fun u _ => Serves.ret _ u

end

section
variable {s : State} {i : Instr} {flag : Bool} {length : Half} {b : Bytes} {r base w : Word} {ev : List BusEvent}
  {rest : List (Option Byte)}

/-- A DNS reply received while somebody waits for it: the waiter is filled and the event offered (R215, R280). -/
theorem dnsRow_filled (hi : hifRow groupIp 0x4A (.inbound flag length) = some i)
    (hcb : s.hif.cb[groupIp.toNat]'groupIp.isLt = some .socket) (hs : WorkerReady s)
    (hn : (s.hif.subs.map (·.id)).Nodup) (hl : sizeOf12 s.params r ≤ length.toNat + 4)
    (hb : b.length = recSize s.params .dnsReply) (hlen : 8 + recSize s.params .dnsReply ≤ length.toNat)
    (hsize : 8 + recSize s.params .dnsReply ≤ sizeOf12 s.params r) (hbase : base.toNat + 8 < 2 ^ 24)
    (ha : Answers s
      (isrAccesses s.params r ++ [.read s.params.regHifRxBase base] ++
        .readBlock ((base + 8).setWidth 24) b :: rxDoneAccesses s.params true w) ev rest) {m : Nat}
    (hm : s.sock.dnsReply = some m) (hwait : mailGet s.sock.mail m = some .waiting) :
    ∃ t, exec i s = .next t ∧
      Returned
        (workerIdle (offered ⟨groupIp, 0x4A ||| (if flag then 0x80 else 0x00), .reply (decRec s.params .dnsReply b)⟩
          ((windowOpened base r false (newTask s)).mapSock fun k =>
            { k with mail := mailSet k.mail m (.filled (decRec s.params .dnsReply b)) })))
        (taskOf s) (.ok .unit) ev rest t := by
  have haddr : (base + 8).toNat < 2 ^ 24 := by
    rw [BitVec.toNat_add]
    exact Nat.lt_of_le_of_lt (Nat.mod_le _ _) hbase
  have hret := inbound_returned (pend := false) (defer := false) (w := w) hi hcb hs hn (by omega) hl
    (fun u hu hsock _ => sockCb_dns_serves (due := true) (b := b) workerGo_agrees s.params w
      (by rw [hu]; exact hs.session.ready.1) (Laws.Encoding.opcode_mask 0x4A flag) hb (by omega)
      (by rw [hu]; exact inWindow_behind_header hsize (by omega)) haddr (by rw [hu]; rfl) (by rw [hsock]; exact hm)
      (by rw [hsock]; exact hwait))
    (by simpa [rxDoneAccesses] using ha)
  have hfill : fillMail s.sock m (decRec s.params .dnsReply b) =
      { s.sock with mail := mailSet s.sock.mail m (.filled (decRec s.params .dnsReply b)) } := if_pos hwait
  have hstate : ((windowOpened base r false (newTask s)).mapSock fun k => fillMail k m (decRec s.params .dnsReply b)) =
      (windowOpened base r false (newTask s)).mapSock fun k =>
        { k with mail := mailSet k.mail m (.filled (decRec s.params .dnsReply b)) } :=
    congrArg (fun q => (windowOpened base r false (newTask s)).mapSock fun _ => q) hfill
  rw [← hstate]
  cases flag <;> exact hret

/-- A DNS reply received that comes late, or unasked, is dropped (R280). -/
theorem dnsRow_dropped (hi : hifRow groupIp 0x4A (.inbound flag length) = some i)
    (hcb : s.hif.cb[groupIp.toNat]'groupIp.isLt = some .socket) (hs : WorkerReady s)
    (hn : (s.hif.subs.map (·.id)).Nodup) (hl : sizeOf12 s.params r ≤ length.toNat + 4)
    (hb : b.length = recSize s.params .dnsReply) (hlen : 8 + recSize s.params .dnsReply ≤ length.toNat)
    (hsize : 8 + recSize s.params .dnsReply ≤ sizeOf12 s.params r) (hbase : base.toNat + 8 < 2 ^ 24)
    (ha : Answers s
      (isrAccesses s.params r ++ [.read s.params.regHifRxBase base] ++
        .readBlock ((base + 8).setWidth 24) b :: rxDoneAccesses s.params true w) ev rest)
    (hnone : ∀ m, s.sock.dnsReply = some m → mailGet s.sock.mail m ≠ some .waiting) :
    ∃ t, exec i s = .next t ∧
      Returned (workerIdle (windowOpened base r false (newTask s))) (taskOf s) (.ok .unit) ev rest t := by
  have haddr : (base + 8).toNat < 2 ^ 24 := by
    rw [BitVec.toNat_add]
    exact Nat.lt_of_le_of_lt (Nat.mod_le _ _) hbase
  refine inbound_returned (pl := none) (pend := false) (defer := false) (f := fun k => k) (w := w)
    (xs := .readBlock ((base + 8).setWidth 24) b :: rxDoneAccesses s.params true w) hi hcb hs hn (by omega) hl
    (fun u hu hsock _ => ?_) (by simpa [rxDoneAccesses] using ha)
  rw [sockCb_dns]
  exact cbDns_dropped workerGo_agrees s.params w (by rw [hu]; exact hs.session.ready.1) hb (by omega)
    (by rw [hu]; exact inWindow_behind_header hsize (by omega)) haddr (by rw [hu]; rfl) (by rw [hsock]; exact hnone)

/-- A packet too short for its record, or whose record leaves the window, is released unread (R216, R270). -/
theorem dnsRow_short (hi : hifRow groupIp 0x4A (.inbound flag length) = some i)
    (hcb : s.hif.cb[groupIp.toNat]'groupIp.isLt = some .socket) (hs : WorkerReady s)
    (hn : (s.hif.subs.map (·.id)).Nodup) (hl : sizeOf12 s.params r ≤ length.toNat + 4) (h0 : sizeOf12 s.params r ≠ 0)
    (h : length.toNat < 8 + recSize s.params .dnsReply ∨ sizeOf12 s.params r < 8 + recSize s.params .dnsReply)
    (ha : Answers s
      (isrAccesses s.params r ++ [.read s.params.regHifRxBase base] ++ rxDoneAccesses s.params true w) ev rest) :
    ∃ t, exec i s = .next t ∧
      Returned (workerIdle (windowOpened base r false (newTask s))) (taskOf s) (.ok .unit) ev rest t := by
  refine inbound_returned (pl := none) (pend := true) (defer := false) (f := fun k => k) (xs := []) hi hcb hs hn h0 hl
    (fun u hu _ _ => ?_) ha
  have hpend : u.hif.rxPend = true := by rw [hu]; rfl
  rw [sockCb_dns]
  refine (cbDns_nothing workerGo_agrees s.params (by rw [hu]; exact hs.session.ready.1) ?_).congr ?_
  · exact h.imp (fun h => by omega) fun h => by rw [hu]; exact not_inWindow_behind_header h
  · simp only [State.mapHif, State.mapSock, ← hpend]

end

/-- Settles O56: the call by how its packet and its wait end, the row by `inbound_returned` around the callback. -/
theorem resolutionReturnsTheAddress : Obligations.ResolutionReturnsTheAddress := by
  refine ⟨fun s s1 s2 name got ip deadline e inputs hlive hr hy => ?_,
    fun s i flag length b r base w ev rest hi hcb hs hn hl => ⟨fun hb hlen hsize hbase ha => ?_, fun h0 h ha => ?_⟩⟩
  · refine ⟨exec_getHostByName_busy hlive hr, fun hnone => ⟨fun hsend => ⟨fun hwait => ?_, fun hd hm hinbox => ?_⟩,
      fun hsend => ?_⟩⟩
    · exact Ends.of_runs (exec_getHostByName hlive hr hnone)
        (Runs.getHostByNameOp (s := newTask s) hy rfl hsend (Runs.resolving_answered hwait))
    · have hbounded : (deadline != 0) = true := by simpa using hd
      have hexp := Runs.resolving_expired hm hinbox (hsend.yields hy) (Prog.eval_fired hsend rfl)
      rw [← hbounded] at hexp
      exact (Ends.of_runs (exec_getHostByName hlive hr hnone)
        (Runs.getHostByNameOp (s := newTask s) hy rfl hsend hexp)).of_unfired (b := false)
    · exact (Ends.of_runs (exec_getHostByName hlive hr hnone)
        (Runs.getHostByNameOp (s := newTask s) hy rfl hsend
          (Runs.resolving_unsent _ (deadline != 0) e (hsend.yields hy)))).of_unfired
  · exact ⟨fun m hm hwait => dnsRow_filled hi hcb hs hn hl hb hlen hsize hbase ha hm hwait,
      dnsRow_dropped hi hcb hs hn hl hb hlen hsize hbase ha⟩
  · exact dnsRow_short hi hcb hs hn hl h0 h ha

end Sys2Proof.Machine

/-!
PROOFS. `Accept` on a stream slot: the record taken, the wait with the slot's lock held or released, and the wait's end at
its deadline (spec/43_socket.md R257; logs 19, 22, 23, 30).
-/

namespace Sys2Proof.Machine

/-! ### The actions of `Accept`, one at a time (R257) -/

/-- The state in which a caller has joined the `Accept` waiters of slot `k` under a new reply slot (R257). -/
def joined (k : Fin 11) (s : State) : State :=
  (s.mapSock fun q =>
    { (q.setSlot k fun x => { x with acceptWaiters := x.acceptWaiters ++ [s.env.nextMail] }) with
      mail := q.mail ++ [(s.env.nextMail, .waiting)] }).mapEnv fun e => { e with nextMail := s.env.nextMail + 1 }

/-- The state in which the lock of slot `k` is free. -/
def slotUnlocked (k : Fin 11) (s : State) : State := s.mapSock fun q => q.setSlot k fun x => { x with lock := .free }

/-- The state in which an `Accept` has taken the record of slot `k` and left its waiters (R257). -/
def recordTaken (k : Fin 11) (m : Nat) (s : State) : State :=
  s.mapSock fun q => (q.setSlot k takeAccept).dropAccept k m

section
variable (k j : Fin 11) (m : Nat) (s : State)

theorem slotUnlocked_slot :
    (slotUnlocked k s).sock.slot j = if j = k then { s.sock.slot k with lock := .free } else s.sock.slot j :=
  Sockets.slot_setSlot s.sock k j fun x => { x with lock := .free }

/-- The slots once a caller has joined the waiters of one. -/
theorem joined_slot :
    (joined k s).sock.slot j =
      if j = k then { s.sock.slot k with acceptWaiters := (s.sock.slot k).acceptWaiters ++ [s.env.nextMail] }
      else s.sock.slot j :=
  Sockets.slot_setSlot s.sock k j fun x => { x with acceptWaiters := x.acceptWaiters ++ [s.env.nextMail] }

/-- The slots once a caller has taken a record and left the waiters. -/
theorem recordTaken_slot :
    (recordTaken k m s).sock.slot j =
      if j = k then
        { s.sock.slot k with
          acceptq := none
          acceptWaiters := (s.sock.slot k).acceptWaiters.filter fun w => w ≠ m }
      else s.sock.slot j := by
  show ((s.sock.setSlot k takeAccept).setSlot k fun x =>
    { x with acceptWaiters := x.acceptWaiters.filter fun w => w ≠ m }).slot j = _
  rw [Sockets.setSlot_setSlot, Sockets.slot_setSlot]
  rfl

end

section
variable {id m : Nat} {k : Fin 11} {s : State} {ag : Agent} {rec : AcceptRec}

theorem Holds.perform_acceptOpen (h : Holds k id s) :
    perform (.acceptOpen k) (.caller id) s = (some (.mail (some s.env.nextMail)), joined k s) := by
  simp only [perform, doAcceptOpen, h.owns, if_true]
  rfl

/-- The holder of a slot leaves it (R253). -/
theorem perform_leave_held (h : (s.sock.slot k).lock = .held (.caller id)) :
    perform (.leave k) (.caller id) s = (some .unit, slotUnlocked k s) := by
  refine congrArg (fun q => (some Val.unit, s.mapSock fun _ => q)) (Sockets.setSlot_congr ?_)
  simp only [h, Lock.drop, if_true]

/-- A slot left and entered again is as before. -/
theorem slotLocked_slotUnlocked (h : (s.sock.slot k).lock = .held (.caller id)) :
    slotLocked id k (slotUnlocked k s) = s := by
  have hsock : ((s.sock.setSlot k fun x => { x with lock := .free }).setSlot k fun x =>
      { x with lock := .held (.caller id) }) = s.sock := by
    refine Sockets.ext_slots (fun j => ?_) rfl rfl rfl rfl
    rw [Sockets.setSlot_setSlot, Sockets.slot_setSlot]
    split
    · rename_i hj
      rw [hj, ← h]
    · rfl
  exact congrArg (fun q => s.mapSock fun _ => q) hsock

theorem perform_lockSlot_unlocked (h : (s.sock.slot k).lock = .held (.caller id)) :
    perform (.lockSlot k) (.caller id) (slotUnlocked k s) = (some .unit, s) := by
  have hfree : ((slotUnlocked k s).sock.slot k).lock = .free := by rw [slotUnlocked_slot, if_pos rfl]
  rw [perform_lockSlot_free hfree, slotLocked_slotUnlocked h]

/-- A waiter whose reply slot is waiting has not been woken (R265, R286). -/
theorem acceptWoken_waiting (hm : mailGet s.sock.mail m = some .waiting) : acceptWoken s.sock m = false := by
  simp [acceptWoken, hm]

/-- Where no record is there, `Accept` waits (R257). -/
theorem perform_acceptWait_none (bounded : Bool) (hm : mailGet s.sock.mail m = some .waiting)
    (hq : (s.sock.slot k).acceptq = none) (hf : s.env.fired = false) :
    perform (.acceptWait k m bounded) ag s = (none, s) := by
  simp only [perform, doAcceptWait, acceptWoken_waiting hm, hq, hf, Bool.and_false, Bool.false_eq_true, if_false]

theorem perform_acceptPeek_none (bounded : Bool) (hm : mailGet s.sock.mail m = some .waiting)
    (hq : (s.sock.slot k).acceptq = none) (hf : s.env.fired = false) :
    perform (.acceptPeek k m bounded) ag s = (none, s) := by
  simp only [perform, doAcceptPeek, acceptWoken_waiting hm, hq, hf, Bool.and_false, Bool.false_eq_true, if_false]

/-- A deadline that passes ends the wait (R257, R340). -/
theorem perform_acceptWait_fired (hm : mailGet s.sock.mail m = some .waiting) (hq : (s.sock.slot k).acceptq = none)
    (hf : s.env.fired = true) :
    perform (.acceptWait k m true) ag s =
      (some (.accepted (.error .socketTimeout)), s.mapSock fun q => q.dropAccept k m) := by
  simp only [perform, doAcceptWait, acceptWoken_waiting hm, hq, hf, Bool.and_true, Bool.false_eq_true, if_false, if_true]

theorem perform_acceptPeek_fired (hm : mailGet s.sock.mail m = some .waiting) (hq : (s.sock.slot k).acceptq = none)
    (hf : s.env.fired = true) :
    perform (.acceptPeek k m true) ag s =
      (some (.accepted (.error .socketTimeout)), s.mapSock fun q => q.dropAccept k m) := by
  simp only [perform, doAcceptPeek, acceptWoken_waiting hm, hq, hf, Bool.and_true, Bool.false_eq_true, if_false, if_true]

/-- A record that is there is taken (R257). -/
theorem perform_acceptWait_some (bounded : Bool) (hm : mailGet s.sock.mail m = some .waiting)
    (hq : (s.sock.slot k).acceptq = some rec) :
    perform (.acceptWait k m bounded) ag s = (some (.accepted (.ok (some rec))), recordTaken k m s) := by
  simp only [perform, doAcceptWait, acceptWoken_waiting hm, hq, Bool.false_eq_true, if_false]
  rfl

theorem perform_acceptPeek_some (bounded : Bool) (hm : mailGet s.sock.mail m = some .waiting)
    (hq : (s.sock.slot k).acceptq = some rec) :
    perform (.acceptPeek k m bounded) ag s = (some (.accepted (.ok none)), s) := by
  simp only [perform, doAcceptPeek, acceptWoken_waiting hm, hq, Bool.false_eq_true, if_false]

theorem perform_acceptTake_some (hm : mailGet s.sock.mail m = some .waiting)
    (hq : (s.sock.slot k).acceptq = some rec) :
    perform (.acceptTake k m) ag s = (some (.accepted (.ok (some rec))), recordTaken k m s) := by
  simp only [perform, doAcceptTake, acceptWoken_waiting hm, hq, Bool.false_eq_true, if_false]
  rfl

end

/-! ### The state in which `Accept` looks for a record (R257) -/

section
variable {k : Fin 11} {s : State}

/-- The state in which the operation of a new task has changed the sockets to `q` and waits under a new reply slot. -/
def waitingOn (s : State) (q : Sockets) : State :=
  ((newTask s).mapSock fun _ => { q with mail := s.sock.mail ++ [(s.env.nextMail, .waiting)] }).mapEnv fun e =>
    { e with nextMail := s.env.nextMail + 1 }

/-- The state in which `Accept` waits with the slot's lock held, the slot changed once (R257). -/
theorem joined_entered (k : Fin 11) (s : State) :
    joined k (entered k s) =
      ((newTask s).mapSock fun q =>
        { (q.setSlot k fun x =>
            { x with
              acceptWaiters := x.acceptWaiters ++ [s.env.nextMail]
              lock := .held (.caller (taskOf s)) }) with
          mail := q.mail ++ [(s.env.nextMail, .waiting)] }).mapEnv fun e => { e with nextMail := s.env.nextMail + 1 } :=
  congrArg (waitingOn s)
    (Sockets.setSlot_setSlot s.sock k (fun x => { x with lock := .held (.caller (taskOf s)) })
      fun x => { x with acceptWaiters := x.acceptWaiters ++ [s.env.nextMail] })

/-- The state in which `Accept` waits with the slot's lock released (R257; log 30). -/
theorem slotUnlocked_joined (k : Fin 11) (s : State) :
    slotUnlocked k (joined k (entered k s)) =
      ((newTask s).mapSock fun q =>
        { (q.setSlot k fun x =>
            { x with
              acceptWaiters := x.acceptWaiters ++ [s.env.nextMail]
              lock := .free }) with
          mail := q.mail ++ [(s.env.nextMail, .waiting)] }).mapEnv fun e => { e with nextMail := s.env.nextMail + 1 } := by
  rw [joined_entered]
  exact congrArg (waitingOn s)
    (Sockets.setSlot_setSlot s.sock k
      (fun x => { x with
        acceptWaiters := x.acceptWaiters ++ [s.env.nextMail]
        lock := .held (.caller (taskOf s)) })
      fun x => { x with lock := .free })

/-- The new reply slot waits: its name is fresh (R36). -/
theorem joined_waiting (hok : StateOk s) :
    mailGet (joined k (entered k s)).sock.mail s.env.nextMail = some .waiting :=
  mailGet_append_self hok.sockets.mailNames

theorem joined_lock (k : Fin 11) (s : State) :
    ((joined k (entered k s)).sock.slot k).lock = .held (.caller (taskOf s)) := by
  rw [joined_slot, if_pos rfl, entered_slot]

theorem joined_acceptq (k : Fin 11) (s : State) :
    ((joined k (entered k s)).sock.slot k).acceptq = (s.sock.slot k).acceptq := by
  rw [joined_slot, if_pos rfl, entered_slot]

end

/-! ### `Accept` as a program (R257) -/

/-- `Accept` once it has joined the slot's waiters under `m`. -/
def accepting (p : Params) (k : Fin 11) (m : Nat) (deadline : Word) : Prog (Except Err Value) :=
  if p.acceptHoldsSlotLock then acceptHolding k m (deadline != 0) else acceptReleasing k m (deadline != 0)

/-- `Accept` on a stream slot, whose wait `accepting` is (R34, R257). -/
theorem acceptOp_stream (p : Params) {k : Fin 11} (deadline : Word) (hk : k.val ≤ 6) :
    acceptOp p k.val deadline = enterSlot k (.act (.acceptOpen k) fun w =>
      match w.toMail with
      | none => .andThen (.leave k) (raise .socketInvalid)
      | some m => accepting p k m deadline) := by
  rw [acceptOp, streamIx_eq_some.mpr ⟨rfl, hk⟩]
  rfl

/-- The wait with the lock released, where the caller has left the slot and stands in front of the wait (R257). -/
def acceptPeeking (k : Fin 11) (m : Nat) (bounded : Bool) : Prog (Except Err Value) :=
  .act (.acceptPeek k m bounded) fun v =>
    match v.toAccepted with
    | .error e => raise e
    | .ok _ =>
      .andThen (.lockSlot k) <| .act (.acceptTake k m) fun w =>
        .andThen (.leave k) <|
          match w.toAccepted with
          | .error e => raise e
          | .ok none => .back
          | .ok (some r) => acceptResult r

theorem acceptReleasing_eq (k : Fin 11) (m : Nat) (bounded : Bool) :
    acceptReleasing k m bounded = .andThen (.leave k) (.mark (acceptPeeking k m bounded)) := rfl

section
variable {id m : Nat} {k : Fin 11} {s t : State} {deadline : Word}

/-- A program whose next action is done at once. -/
theorem Prog.run_performed {α : Type} {a : Action} {v : Val} (next : Val → Prog α)
    (hp : perform a (.caller id) s = (some v, t)) (hy : t.env.yields = []) (hf : t.env.fired = false)
    (sofar head : List Val) :
    (Prog.act a next).run (callerGo id) [] sofar head s = (next v).run (callerGo id) [] (v :: sofar) head t := by
  rw [Prog.run_answered (callerGo_agrees id a s v t hp) hy, endAction_eq hy hf]

/-- `Accept` in a slot that can be entered: it has joined the slot's waiters (R257). -/
theorem acceptOp_joins (p : Params) (hs : SlotReady k s) (hk : k.val ≤ 6) :
    (acceptOp p k.val deadline).run (callerGo (taskOf s)) [] [] [] (newTask s) =
      (accepting p k s.env.nextMail deadline).run (callerGo (taskOf s)) []
        [.mail (some s.env.nextMail), .flag true, .unit] [] (joined k (entered k s)) := by
  have hlock : perform (.lockSlot k) (.caller (taskOf s)) (newTask s) = (some .unit, entered k s) :=
    perform_lockSlot_free hs.lock
  have hvalid : perform (.slotValid k) (.caller (taskOf s)) (entered k s) = (some (.flag true), entered k s) := by
    have h := perform_slotValid_locked (id := taskOf s) (k := k) (s := newTask s)
    rw [newTask_sock, hs.inUse, decide_eq_true hs.desc] at h
    exact h
  rw [acceptOp_stream p deadline hk, enterSlot, Prog.andThen,
    Prog.run_performed (t := entered k s) _ hlock hs.yields rfl, Prog.run_performed (t := entered k s) _ hvalid hs.yields rfl,
    Val.toFlag, if_pos rfl, Prog.run_performed _ (entered_holds hs).perform_acceptOpen hs.yields rfl]
  rfl

/-- A task of `Accept` that parked in front of its wait, the slot's lock held, comes back there (R42). -/
theorem acceptOp_replays_holding {p : Params} (hh : p.acceptHoldsSlotLock = true) (hk : k.val ≤ 6) (u : State) :
    (acceptOp p k.val deadline).run (callerGo id) [.unit, .flag true, .mail (some m)] [] [] u =
      (acceptHolding k m (deadline != 0)).run (callerGo id) [] [.mail (some m), .flag true, .unit] [] u := by
  have hacc : accepting p k m deadline = acceptHolding k m (deadline != 0) := if_pos hh
  rw [acceptOp_stream p deadline hk, ← hacc]
  rfl

/-- A task of `Accept` that parked in front of its wait, the slot's lock released, comes back there (R42). -/
theorem acceptOp_replays_releasing {p : Params} (hh : ¬p.acceptHoldsSlotLock = true) (hk : k.val ≤ 6) (u : State) :
    (acceptOp p k.val deadline).run (callerGo id) [.unit, .flag true, .mail (some m), .unit] [] [] u =
      (acceptPeeking k m (deadline != 0)).run (callerGo id) [] [.unit, .mail (some m), .flag true, .unit]
        [.unit, .mail (some m), .flag true, .unit] u := by
  have hacc : accepting p k m deadline = .andThen (.leave k) (.mark (acceptPeeking k m (deadline != 0))) := if_neg hh
  have hreplay : (acceptOp p k.val deadline).run (callerGo id) [.unit, .flag true, .mail (some m), .unit] [] [] u =
      (accepting p k m deadline).run (callerGo id) [.unit] [.mail (some m), .flag true, .unit] [] u := by
    rw [acceptOp_stream p deadline hk]
    rfl
  rw [hreplay, hacc]
  rfl

end

/-! ### Its wait, and its end at the deadline (R257, R340; logs 19, 23, 30) -/

section
variable {id m : Nat} {k : Fin 11} {s : State} {deadline : Word}

/-- `Accept` on a stream slot that can be entered. -/
theorem exec_opAccept (hs : SlotReady k s) :
    exec (.opAccept k.val deadline) s =
      startTask (.opAccept k.val deadline) (acceptOp s.params k.val deadline) s := whenLive_live hs.live hs.ready _

/-- Where no record is there, `Accept` waits with the slot's lock held (R257). -/
theorem exec_opAccept_waits_holding (hs : SlotReady k s) (hok : StateOk s) (hk : k.val ≤ 6)
    (hq : (s.sock.slot k).acceptq = none) (hi : s.env.inbox = []) (hh : s.params.acceptHoldsSlotLock = true) :
    exec (.opAccept k.val deadline) s =
      .next (waiting (taskOf s) (.opAccept k.val deadline) [.unit, .flag true, .mail (some s.env.nextMail)]
        (joined k (entered k s))) := by
  have hwait := perform_acceptWait_none (ag := .caller (taskOf s)) (k := k) (deadline != 0) (joined_waiting hok)
    ((joined_acceptq k s).trans hq) rfl
  rw [exec_opAccept hs, startTask_eq, acceptOp_joins s.params hs hk, accepting, if_pos hh, acceptHolding,
    Prog.run_blocked (callerGo_blocked hwait hi rfl)]
  rfl

/-- Where no record is there, `Accept` waits with the slot's lock released (R257; log 30). -/
theorem exec_opAccept_waits_releasing (hs : SlotReady k s) (hok : StateOk s) (hk : k.val ≤ 6)
    (hq : (s.sock.slot k).acceptq = none) (hi : s.env.inbox = []) (hh : ¬s.params.acceptHoldsSlotLock = true) :
    exec (.opAccept k.val deadline) s =
      .next (waiting (taskOf s) (.opAccept k.val deadline) [.unit, .flag true, .mail (some s.env.nextMail), .unit]
        (slotUnlocked k (joined k (entered k s)))) := by
  have hqueue : ((slotUnlocked k (joined k (entered k s))).sock.slot k).acceptq = none := by
    rw [slotUnlocked_slot, if_pos rfl]
    exact (joined_acceptq k s).trans hq
  have hwait := perform_acceptPeek_none (ag := .caller (taskOf s)) (s := slotUnlocked k (joined k (entered k s)))
    (deadline != 0) (joined_waiting (k := k) hok) hqueue rfl
  have hblocked := callerGo_blocked (s := slotUnlocked k (joined k (entered k s))) hwait hi rfl
  rw [exec_opAccept hs, startTask_eq, acceptOp_joins s.params hs hk, accepting, if_neg hh, acceptReleasing_eq,
    Prog.andThen, Prog.run_performed _ (perform_leave_held (joined_lock k s)) hs.yields rfl, Prog.run, acceptPeeking,
    Prog.run_blocked hblocked]
  rfl

/-- A waiting task whose time is up ends as the program does that it stood in front of (R340; log 19). -/
theorem step_expired_ends {i : Instr} {log sofar head : List Val} {p : Prog (Except Err Value)} {r : Except Err Value}
    {t : State} (hn : nextInput s = some (.expire id)) (hf : findTask id s = some ⟨id, i, log⟩)
    (hp : ∀ u, (progOf s.params i).run (callerGo id) log [] [] u = p.run (callerGo id) [] sofar head u)
    (h : Runs id p (expiring id s) r t) : step s = .next (returnToCaller id (toResult r) t) := by
  rw [step_expired hn hf, hp, Prog.run_of_eval h]
  rfl

variable (hm : mailGet s.sock.mail m = some .waiting) (hq : (s.sock.slot k).acceptq = none) (hy : s.env.yields = [])
include hm hq hy

/-- The deadline of a wait with the slot's lock held: the waiter is gone, and the slot is left (R257, R340). -/
theorem Runs.acceptHolding_expires :
    Runs id (Machine.acceptHolding k m true) (expiring id s) (.error .socketTimeout)
      ((dropExpiry (resumed id s)).mapSock fun q =>
        { (q.setSlot k fun x =>
            { x with
              acceptWaiters := x.acceptWaiters.filter fun w => w ≠ m
              lock := x.lock.drop (.caller id) }) with
          mail := mailDel q.mail m }) := by
  let dropped := (dropExpiry (resumed id s)).mapSock fun q => q.dropAccept k m
  have hend : endAction ((expiring id s).mapSock fun q => q.dropAccept k m) = dropped :=
    endAction_eq_unfired (by exact hy)
  have hleave : perform (.leave k) (.caller id) dropped =
      (some .unit, dropped.mapSock fun q => q.setSlot k fun x => { x with lock := x.lock.drop (.caller id) }) := rfl
  refine Runs.act (perform_acceptWait_fired (s := expiring id s) hm hq rfl) hy ?_
  rw [hend]
  refine Runs.andThen hleave hy ?_
  rw [endAction_eq (by exact hy) rfl]
  have hsock := Sockets.setSlot_setSlot { s.sock with mail := mailDel s.sock.mail m } k
    (fun x => { x with acceptWaiters := x.acceptWaiters.filter fun w => w ≠ m })
    fun x => { x with lock := x.lock.drop (.caller id) }
  exact congrArg (fun q => some ((.error .socketTimeout : Except Err Value),
    (dropExpiry (resumed id s)).mapSock fun _ => q)) hsock

/-- The deadline of a wait with the slot's lock released: the waiter is gone (R257, R340; log 30). -/
theorem Runs.acceptPeeking_expires :
    Runs id (Machine.acceptPeeking k m true) (expiring id s) (.error .socketTimeout)
      ((dropExpiry (resumed id s)).mapSock fun q => q.dropAccept k m) := by
  refine Runs.act (perform_acceptPeek_fired (s := expiring id s) hm hq rfl) hy ?_
  rw [endAction_eq_unfired (by exact hy)]
  exact Runs.raise _ _

end

/-! ### The record taken (R257) -/

section
variable {k : Fin 11} {s : State} {rec : AcceptRec}

/-- The answer to a record: a negative descriptor is the device's error (R257). -/
def recordAnswer (r : AcceptRec) : Except Err Value :=
  if r.connDesc.toInt < 0 then .error (.socketError r.connDesc.toInt) else .ok (.accepted r.connDesc.toInt r.addr)

theorem recordAnswer_result (r : AcceptRec) :
    toResult (recordAnswer r) =
      if r.connDesc.toInt < 0 then .err (.socketError r.connDesc.toInt)
      else .ok (.accepted r.connDesc.toInt r.addr) := by
  rw [recordAnswer]
  split <;> rfl

theorem Runs.acceptResult (id : Nat) (r : AcceptRec) (s : State) :
    Runs id (Machine.acceptResult r) s (recordAnswer r) s := by
  rw [Machine.acceptResult, recordAnswer]
  split
  · exact Runs.raise _ s
  · exact Runs.ret _ s

/-- The slot behind an `Accept` that took its record: entered and left, the waiter joined and gone (R257). -/
theorem slotUnlocked_recordTaken (hs : SlotReady k s) (hok : StateOk s) :
    slotUnlocked k (recordTaken k s.env.nextMail (joined k (entered k s))) =
      ((newTask s).mapSock fun q => q.setSlot k fun x =>
        { x with
          acceptq := none
          acceptWaiters := x.acceptWaiters.filter fun w => w ≠ s.env.nextMail }).mapEnv fun e =>
        { e with nextMail := s.env.nextMail + 1 } := by
  have hmail : mailDel (s.sock.mail ++ [(s.env.nextMail, .waiting)]) s.env.nextMail = s.sock.mail :=
    mailDel_append_self hok.sockets.mailNames
  have hsock : (slotUnlocked k (recordTaken k s.env.nextMail (joined k (entered k s)))).sock =
      s.sock.setSlot k fun x =>
        { x with
          acceptq := none
          acceptWaiters := x.acceptWaiters.filter fun w => w ≠ s.env.nextMail } := by
    refine Sockets.ext_slots (fun j => ?_) hmail rfl rfl rfl
    rw [slotUnlocked_slot, recordTaken_slot, recordTaken_slot, joined_slot, joined_slot, Sockets.slot_setSlot]
    by_cases hj : j = k
    · subst hj
      simp [← hs.lock, entered]
    · simp [hj, entered, Sockets.slot_setSlot_ne]
  exact congrArg (fun q => ((newTask s).mapSock fun _ => q).mapEnv fun e =>
    { e with nextMail := s.env.nextMail + 1 }) hsock

/-- `Accept` of a record that is there takes it, whether the slot's lock is held during the wait or not (R257; log 30). -/
theorem Runs.accepting_takes (hs : SlotReady k s) (hok : StateOk s) (hq : (s.sock.slot k).acceptq = some rec)
    (p : Params) (deadline : Word) :
    Runs (taskOf s) (accepting p k s.env.nextMail deadline) (joined k (entered k s)) (recordAnswer rec)
      (slotUnlocked k (recordTaken k s.env.nextMail (joined k (entered k s)))) := by
  have hy : (joined k (entered k s)).env.yields = [] := hs.yields
  have hm := joined_waiting (k := k) hok
  have hrec := (joined_acceptq k s).trans hq
  have hlock := joined_lock k s
  have hlock' : ((recordTaken k s.env.nextMail (joined k (entered k s))).sock.slot k).lock =
      .held (.caller (taskOf s)) := by
    rw [← hlock, recordTaken_slot, if_pos rfl]
  have hleave : Runs (taskOf s) (.andThen (.leave k) (Machine.acceptResult rec))
      (recordTaken k s.env.nextMail (joined k (entered k s))) (recordAnswer rec)
      (slotUnlocked k (recordTaken k s.env.nextMail (joined k (entered k s)))) := by
    refine Runs.andThen (perform_leave_held hlock') hy ?_
    rw [endAction_eq (by exact hy) rfl]
    exact Runs.acceptResult _ rec _
  rw [accepting]
  split
  · refine Runs.act (perform_acceptWait_some (deadline != 0) hm hrec) hy ?_
    rw [endAction_eq (by exact hy) rfl]
    exact hleave
  · refine Runs.andThen (perform_leave_held hlock) hy ?_
    rw [endAction_eq (by exact hy) rfl]
    have hpeek : perform (.acceptPeek k s.env.nextMail (deadline != 0)) (.caller (taskOf s))
        (slotUnlocked k (joined k (entered k s))) =
        (some (.accepted (.ok none)), slotUnlocked k (joined k (entered k s))) :=
      perform_acceptPeek_some (deadline != 0) hm (by rw [slotUnlocked_slot, if_pos rfl]; exact hrec)
    refine Runs.look hpeek hy rfl (Runs.andThen (perform_lockSlot_unlocked hlock) hy ?_)
    rw [endAction_eq hy rfl]
    refine Runs.act (perform_acceptTake_some hm hrec) hy ?_
    rw [endAction_eq (by exact hy) rfl]
    exact hleave

/-- `Accept` in a slot with a record (R257). -/
theorem Runs.acceptOp_takes (hs : SlotReady k s) (hok : StateOk s) (hk : k.val ≤ 6)
    (hq : (s.sock.slot k).acceptq = some rec) (p : Params) (deadline : Word) :
    Runs (taskOf s) (Machine.acceptOp p k.val deadline) (newTask s) (recordAnswer rec)
      (slotUnlocked k (recordTaken k s.env.nextMail (joined k (entered k s)))) := by
  rw [acceptOp_stream p deadline hk]
  refine Runs.enterSlot hs (Runs.act (entered_holds hs).perform_acceptOpen hs.yields ?_)
  rw [endAction_eq (by exact hs.yields) rfl]
  exact Runs.accepting_takes hs hok hq p deadline

end

/-- Settles O53: the wait by whether the slot's lock is held during it, the record taken either way. -/
theorem acceptTakesTheRecord : Obligations.AcceptTakesTheRecord := by
  refine ⟨fun s i deadline hlive hr hi => ?_, fun s k deadline hs hok hk hq hi => ?_,
    fun s k deadline r hs hok hk hq => ?_⟩
  · have hexec : exec (.opAccept i deadline) s =
        startTask (.opAccept i deadline) (acceptOp s.params i deadline) s := whenLive_live hlive hr _
    exact Ends.of_runs hexec (Runs.acceptOp_noSlot s.params deadline hi)
  · have replays : ∀ {v : State} {id : Nat}, v.params = s.params → ∀ u log,
        (progOf v.params (.opAccept k.val deadline)).run (callerGo id) log [] [] u =
          (acceptOp s.params k.val deadline).run (callerGo id) log [] [] u := fun hv u log => by rw [hv]; rfl
    by_cases hh : s.params.acceptHoldsSlotLock = true
    · have hwaits := exec_opAccept_waits_holding (deadline := deadline) hs hok hk hq hi hh
      rw [joined_entered] at hwaits
      simp only [hh, if_true]
      refine ⟨_, hwaits, fun v id hv hd hn hf hy hvq hm => ?_⟩
      have hbounded : (deadline != 0) = true := by simpa using hd
      exact step_expired_ends hn hf (fun u => (replays hv u _).trans (acceptOp_replays_holding hh hk u))
        (hbounded ▸ Runs.acceptHolding_expires hm hvq hy)
    · have hwaits := exec_opAccept_waits_releasing (deadline := deadline) hs hok hk hq hi hh
      rw [slotUnlocked_joined] at hwaits
      simp only [hh]
      refine ⟨_, hwaits, fun v id hv hd hn hf hy hvq hm => ?_⟩
      have hbounded : (deadline != 0) = true := by simpa using hd
      exact step_expired_ends hn hf (fun u => (replays hv u _).trans (acceptOp_replays_releasing hh hk u))
        (hbounded ▸ Runs.acceptPeeking_expires hm hvq hy)
  · have hends := Ends.of_runs (exec_opAccept hs) (Runs.acceptOp_takes hs hok hk hq s.params deadline)
    rw [slotUnlocked_recordTaken hs hok, recordAnswer_result] at hends
    exact hends

end Sys2Proof.Machine

/-!
PROOFS. A request on a slot: its entry in the registry and its reply slot from the insertion to the end of the wait, and
the bytes of its record (spec/43_socket.md R251, R253, R254; spec/30_encoding.md R109, R110; logs 22, 26).
-/

namespace Sys2Proof.Machine

/-! ### The reply slot and the registry entry go together (R36, R253) -/

/-- A reply slot that was removed is there no more (R36). -/
theorem mailGet_mailDel (mail : List (Nat × Mail)) (m : Nat) : mailGet (mailDel mail m) m = none := by
  have hnone : (mailDel mail m).find? (fun e => e.1 = m) = none :=
    List.find?_eq_none.mpr fun e he => by simpa using (List.mem_filter.mp he).2
  rw [mailGet, hnone]
  rfl

/-- The registry of a slot without one entry (R253). -/
theorem dropReply_replies (q : Sockets) (i : Fin 11) (m : Nat) :
    ((q.dropReply i m).slot i).replies = (q.slot i).replies.filter fun e => e.mail ≠ m := by
  show ((q.setSlot i fun x => { x with replies := x.replies.filter fun e => e.mail ≠ m }).slot i).replies = _
  rw [Sockets.slot_setSlot_self]

theorem dropReply_lock (q : Sockets) (i : Fin 11) (m : Nat) : ((q.dropReply i m).slot i).lock = (q.slot i).lock := by
  show ((q.setSlot i fun x => { x with replies := x.replies.filter fun e => e.mail ≠ m }).slot i).lock = _
  rw [Sockets.slot_setSlot_self]

/-- After an entry was removed no entry of the slot has its reply slot. -/
theorem dropReply_gone (q : Sockets) (i : Fin 11) (m : Nat) :
    mailGet (q.dropReply i m).mail m = none ∧ ∀ e ∈ ((q.dropReply i m).slot i).replies, e.mail ≠ m := by
  refine ⟨mailGet_mailDel q.mail m, fun e he => ?_⟩
  rw [dropReply_replies] at he
  simpa using (List.mem_filter.mp he).2

section
variable {i : Fin 11} {m : Nat} {bounded : Bool} {ag : Agent} {s t : State} {v : Val}

/-- A wait for a reply that ends takes the entry and the reply slot away, however it ends (R253). -/
theorem perform_waitReply_ends (h : perform (.waitReply i m bounded) ag s = (some v, t)) :
    t = s.mapSock fun k => k.dropReply i m := by
  simp only [perform, doWaitReply] at h
  split at h
  · cases h; rfl
  · split at h
    · cases h; rfl
    · cases h
  · cases h; rfl
  · cases h; rfl

/-- A wait for a reply that goes on changes nothing (R253). -/
theorem perform_waitReply_goesOn (h : perform (.waitReply i m bounded) ag s = (none, t)) : t = s := by
  simp only [perform, doWaitReply] at h
  split at h
  · cases h
  · split at h
    · cases h
    · cases h; rfl
  · cases h
  · cases h

end

/-! ### A request in a slot that its caller holds, or does not (R251, R253; log 22) -/

section
variable {id : Nat} {i : Fin 11} {kind : Kind} {s t : State} {p : Params} {pk : Packet} {deadline : Word}

/-- An entry under session id `sid` and its waiting reply slot put in place (R253). -/
def inserted (i : Fin 11) (sid : Half) (kind : Kind) (s : State) : State :=
  (s.mapSock fun k =>
    { (k.setSlot i fun x =>
        { x with sid := sid, replies := ⟨sid, kind, s.env.nextMail⟩ :: x.replies.filter fun e => e.sid ≠ sid }) with
      mail := k.mail ++ [(s.env.nextMail, .waiting)] }).mapEnv fun e => { e with nextMail := s.env.nextMail + 1 }

/-- The slot in which an entry was put. -/
theorem inserted_slot (i : Fin 11) (sid : Half) (kind : Kind) (s : State) :
    (inserted i sid kind s).sock.slot i =
      { s.sock.slot i with
        sid := sid
        replies := ⟨sid, kind, s.env.nextMail⟩ :: (s.sock.slot i).replies.filter fun e => e.sid ≠ sid } :=
  Sockets.slot_setSlot_self s.sock i fun x =>
    { x with sid := sid, replies := ⟨sid, kind, s.env.nextMail⟩ :: x.replies.filter fun e => e.sid ≠ sid }

/-- A session id drawn and its entry put in place (R251, R253). -/
theorem requested_eq (i : Fin 11) (kind : Kind) (s : State) :
    requested i kind s = inserted i (s.sock.sid + 1) kind (s.mapSock fun k => { k with sid := k.sid + 1 }) := rfl

theorem perform_insertReply_holds {sid : Half} (h : Holds i id s) :
    perform (.insertReply i sid kind) (.caller id) s = (some (.mail (some s.env.nextMail)), inserted i sid kind s) := by
  simp only [perform, doInsertReply, h.owns, if_true]
  rfl

/-- A slot that is the caller's no more takes no entry (log 22). -/
theorem perform_insertReply_not {sid : Half} (h : ¬Holds i id s) :
    perform (.insertReply i sid kind) (.caller id) s = (some (.mail none), s) :=
  if_neg fun ho => h (Sockets.owns_iff.mp ho)

/-- The error of a packet that cannot be sent (R254). -/
theorem sendError_eq (kind : Kind) : sendError kind = if kind = .send then .socketBufferFull else .socketInvalid := by
  cases kind <;> rfl

/-- A request once its packet has been sent, or could not be (R253). -/
def requestSent (i : Fin 11) (kind : Kind) (m : Nat) (deadline : Word) (r : Except Err Unit) :
    Prog (Except Err Reply) :=
  match r with
  | .error _ => .andThen (.removeReply i m) (raise (sendError kind))
  | .ok _ => .act (.waitReply i m (deadline != 0)) fun u => .ret u.toReply

/-- A request on a slot that is the caller's no more ends at once, its session id drawn (R251; log 22). -/
theorem Runs.request_notHeld (h : ¬Holds i id s) (hsid : s.sock.sidLock = .free) (hy : s.env.yields = [])
    (hf : s.env.fired = false) :
    Runs id (Machine.request p i kind pk deadline) s (.error .socketInvalid)
      (s.mapSock fun k => { k with sid := k.sid + 1 }) := by
  let drawn := s.mapSock fun k => { k with sid := k.sid + 1 }
  have hnot : ¬Holds i id drawn := h
  refine Runs.act (perform_nextSid_free hsid) hy ?_
  rw [endAction_eq (s := drawn) hy hf]
  exact Runs.look (perform_insertReply_not hnot) hy hf (Runs.raise _ drawn)

/-- A request of the slot's holder: insert, send, and what follows (R251, R253). -/
theorem Runs.request_held {r : Except Err Unit} {a : Except Err Reply} {u : State} (h : Holds i id s)
    (hsid : s.sock.sidLock = .free) (hy : s.env.yields = []) (hf : s.env.fired = false)
    (hsend : Runs id (hifSend p pk.group pk.opcode (pk.control (s.sock.sid + 1)) pk.data pk.offset) (requested i kind s)
      r t) (hrest : Runs id (requestSent i kind s.env.nextMail deadline r) t a u) :
    Runs id (Machine.request p i kind pk deadline) s a u := by
  let drawn := s.mapSock fun k => { k with sid := k.sid + 1 }
  have hh : Holds i id drawn := h
  refine Runs.act (perform_nextSid_free hsid) hy ?_
  rw [endAction_eq (s := drawn) hy hf, ofNat_num_toNat]
  refine Runs.act (perform_insertReply_holds hh) hy ?_
  rw [endAction_eq (s := inserted i (s.sock.sid + 1) kind drawn) hy hf]
  exact Runs.bind hsend hrest

/-- A packet that cannot be sent: the entry is removed, and the request ends in the kind's error (R253, R254). -/
theorem Runs.requestSent_error (kind : Kind) (m : Nat) (e : Err) (hy : s.env.yields = []) (hf : s.env.fired = false) :
    Runs id (requestSent i kind m deadline (.error e)) s
      (.error (if kind = .send then .socketBufferFull else .socketInvalid)) (s.mapSock fun k => k.dropReply i m) := by
  rw [← sendError_eq]
  refine Runs.andThen (t := s.mapSock fun k => k.dropReply i m) (v := .unit) rfl hy ?_
  rw [endAction_eq (s := s.mapSock _) hy hf]
  exact Runs.raise _ _

end

/-! ### The registry of a request's slot, whatever goes on meanwhile (R36, R253, R287) -/

section
variable {id m : Nat} {i : Fin 11} {l : List ReplyEntry} {s t : State} {bounded : Bool} {v : Val}

/-- An entry removed from a slot that is held. -/
theorem Registered.dropReply (h : Registered i id l s) :
    Registered i id (l.filter fun e => e.mail ≠ m) (s.mapSock fun k => k.dropReply i m) := by
  obtain ⟨hlock, rfl⟩ := h
  exact ⟨(dropReply_lock s.sock i m).trans hlock, dropReply_replies s.sock i m⟩

/-- Whatever happens while a caller waits for a reply, its entry is gone when the wait ends, and no other (R253). -/
theorem waitFor_waitReply : ∀ (inputs : List Input) {s : State}, Registered i id l s →
    waitFor (.waitReply i m bounded) id inputs s = (some v, t) → Registered i id (l.filter fun e => e.mail ≠ m) t
  | [], _, _, h => nomatch h
  | inp :: rest, s, hs, h => by
    simp only [waitFor] at h
    split at h
    · cases h
    · rename_i s1 hserve
      have hs1 := serveInput_registered hs hserve
      split at h
      · rename_i w s2 hp
        cases h
        rw [perform_waitReply_ends hp]
        exact hs1.dropReply
      · rename_i s2 hp
        rw [perform_waitReply_goesOn hp] at h
        exact waitFor_waitReply rest (s := dropExpiry s1) hs1 h

theorem callerGo_waitReply (hs : Registered i id l s) (h : callerGo id (.waitReply i m bounded) s = (some v, t)) :
    Registered i id (l.filter fun e => e.mail ≠ m) t := by
  simp only [callerGo] at h
  split at h
  · rename_i w s1 hp
    cases h
    rw [perform_waitReply_ends hp]
    exact hs.dropReply
  · rename_i s1 hp
    rw [perform_waitReply_goesOn hp] at h
    exact waitFor_waitReply _ (s := dropExpiry s) hs h

variable {α : Type} {r a : α} {kind : Kind} {p : Params} {pk : Packet} {deadline : Word}

/-- A program that is done has changed nothing. -/
theorem Runs.of_ret (h : Runs id (.ret a) s r t) : t = s := by
  cases h
  rfl

/-- A request whose packet has been sent or not leaves its entry behind in neither case (R253). -/
theorem Runs.requestSent_registered {e : ReplyEntry} {r : Except Err Unit} {a : Except Err Reply}
    (h : Runs id (requestSent i kind e.mail deadline r) s a t) (hs : Registered i id [e] s) :
    (t.sock.slot i).replies = [] := by
  have hnone : ([e].filter fun x => decide (x.mail ≠ e.mail)) = [] := by simp
  cases r with
  | error err =>
    obtain ⟨v, u, hgo, hret⟩ := Runs.of_act h
    rw [callerGo_agrees id _ s .unit (s.mapSock fun k => k.dropReply i e.mail) rfl] at hgo
    cases hgo
    rw [Runs.of_ret hret]
    exact (hs.dropReply (m := e.mail)).2.trans hnone
  | ok _ =>
    obtain ⟨v, u, hgo, hret⟩ := Runs.of_act h
    rw [Runs.of_ret hret]
    exact (callerGo_waitReply hs hgo).2.trans hnone

/-- A request on a slot whose registry is empty leaves it empty, however it ends and whatever goes on meanwhile (R36,
R287 b and e). -/
theorem Runs.request_registered {a : Except Err Reply} (h : Runs id (Machine.request p i kind pk deadline) s a t)
    (hs : Registered i id [] s) : (t.sock.slot i).replies = [] := by
  obtain ⟨v, s1, hgo, h1⟩ := Runs.of_act h
  have hs1 : Registered i id [] (endAction s1) := by
    have := callerGo_registered (a := .nextSid) rfl hs
    rwa [hgo] at this
  obtain ⟨w, s2, hgo2, h2⟩ := Runs.of_act h1
  by_cases hh : Holds i id (endAction s1)
  · rw [callerGo_agrees id _ _ _ _ (perform_insertReply_holds hh)] at hgo2
    cases hgo2
    obtain ⟨r, s3, hsend, hrest⟩ := Runs.of_bind h2
    refine Runs.requestSent_registered (e := ⟨BitVec.ofNat 16 v.toNum, kind, (endAction s1).env.nextMail⟩) hrest
      (hsend.hifSend_registered ?_)
    obtain ⟨hlock, hreplies⟩ := hs1
    have hslot := inserted_slot i (BitVec.ofNat 16 v.toNum) kind (endAction s1)
    rw [hreplies] at hslot
    exact ⟨(congrArg Slot.lock hslot).trans hlock, congrArg Slot.replies hslot⟩
  · rw [callerGo_agrees id _ _ _ _ (perform_insertReply_not hh)] at hgo2
    cases hgo2
    rw [Runs.of_ret h2]
    exact hs1.2

/-- A request's one entry, where the registry was empty (R253). -/
theorem requested_replies (hr : (s.sock.slot i).replies = []) :
    ((requested i kind s).sock.slot i).replies = [⟨s.sock.sid + 1, kind, s.env.nextMail⟩] := by
  have hslot := inserted_slot i (s.sock.sid + 1) kind (s.mapSock fun k => { k with sid := k.sid + 1 })
  have hempty : ((s.mapSock fun k => { k with sid := k.sid + 1 }).sock.slot i).replies = [] := hr
  rw [hempty] at hslot
  exact congrArg Slot.replies hslot

end

/-! ### The records of the requests (R63, R109; log 26) -/

/-- Fields that share no byte, in either order. -/
theorem Apart.of_ne {l : Layout} {fs : List Bytes} (h : Apart l fs) {j k : Nat} {f g : Bytes} (hne : j ≠ k)
    (hj : fs[j]? = some f) (hk : fs[k]? = some g) :
    l.offs.getD j 0 + f.length ≤ l.offs.getD k 0 ∨ l.offs.getD k 0 + g.length ≤ l.offs.getD j 0 := by
  rcases Nat.lt_or_gt_of_ne hne with hlt | hlt
  · exact h j k f g hlt hj hk
  · exact (h k j g f hlt hk hj).symm

/-- Fields of which one is left empty share no byte either. -/
theorem Apart.set_nil {l : Layout} {fs : List Bytes} (h : Apart l fs) (n : Nat) : Apart l (fs.set n []) := by
  have shrink : ∀ {k : Nat} {f : Bytes}, (fs.set n [])[k]? = some f → ∃ g, fs[k]? = some g ∧ f.length ≤ g.length := by
    intro k f hk
    rw [List.getElem?_set] at hk
    split at hk
    · rename_i hn
      split at hk
      · rename_i hlt
        cases hk
        exact ⟨fs[k]'(hn ▸ hlt), by simp [← hn], Nat.zero_le _⟩
      · cases hk
    · exact ⟨f, hk, Nat.le_refl _⟩
  intro j k f g hjk hj hk
  obtain ⟨f', hj', hf⟩ := shrink hj
  obtain ⟨g', hk', hg⟩ := shrink hk
  have := h j k f' g' hjk hj' hk'
  omega

/-- A record whose field number `n` is laid down last, over a record in which that field is empty (R264). -/
theorem IsRecord.overlay_last {l : Layout} {fs : List Bytes} {n : Nat} {f b : Bytes} (h : Apart l fs)
    (hn : fs[n]? = some f) (hb : IsRecord l (fs.set n []) b) : IsRecord l fs (overlay b (l.offs.getD n 0) f) := by
  have hlt : n < fs.length := (List.getElem?_eq_some_iff.mp hn).1
  have hempty : (fs.set n [])[n]? = some [] := by simp [hlt]
  have hother : ∀ {k}, k ≠ n → (fs.set n [])[k]? = fs[k]? := fun hk => List.getElem?_set_ne (Ne.symm hk)
  have hwithin : ∀ {k g}, k ≠ n → fs[k]? = some g → l.offs.getD k 0 + g.length ≤ b.length := fun hk hg =>
    hb.sized.within _ _ ((hother hk).trans hg)
  have hsize := overlay_length b (l.offs.getD n 0) f
  have hstands : ∀ k g, fs[k]? = some g → l.offs.getD k 0 + g.length ≤ (overlay b (l.offs.getD n 0) f).length := by
    intro k g hg
    rw [hsize]
    by_cases hk : k = n
    · subst hk
      cases hn.symm.trans hg
      exact Nat.le_max_right _ _
    · exact Nat.le_trans (hwithin hk hg) (Nat.le_max_left _ _)
  refine ⟨fun k g hg => (field_iff (hstands k g hg)).mpr fun x hx => ?_, ⟨?_, hstands, ?_⟩, fun x hx hout => ?_⟩
  · rw [overlay_getD]
    by_cases hk : k = n
    · subst hk
      cases hn.symm.trans hg
      rw [if_pos (by omega), Nat.add_sub_cancel_left]
    · have hap := h.of_ne hk hg hn
      rw [if_neg (by omega)]
      exact (field_iff (hwithin hk hg)).mp (hb.stand k g ((hother hk).trans hg)) x hx
  · rw [hsize]
    exact Nat.le_trans hb.sized.base (Nat.le_max_left _ _)
  · rw [hsize]
    rcases Nat.le_total b.length (l.offs.getD n 0 + f.length) with hle | hle
    · exact .inr ⟨n, f, hn, Nat.max_eq_right hle⟩
    · rw [Nat.max_eq_left hle]
      refine hb.sized.reached.imp id fun ⟨k, g, hg, hlen⟩ => ?_
      by_cases hk : k = n
      · subst hk
        cases hempty.symm.trans hg
        rw [List.length_nil] at hlen
        exact ⟨k, f, hn, by omega⟩
      · exact ⟨k, g, (hother hk).symm.trans hg, hlen⟩
  · have hoff := hout n f hn
    have hstart := hb.sized.within n [] hempty
    rw [hsize] at hx
    rw [List.length_nil] at hstart
    rw [overlay_getD, if_neg (by omega)]
    refine hb.other x (by omega) fun k g hg => ?_
    by_cases hk : k = n
    · subst hk
      cases hempty.symm.trans hg
      rw [List.length_nil]
      omega
    · exact hout k g ((hother hk).symm.trans hg)

/-- The bytes of a word in the model are those of R63. -/
theorem toLe_word (v : Word) : toLe 4 v.toNat = wordField v := by
  have byte : ∀ off, v.extractLsb' off 8 = BitVec.ofNat 8 (v.toNat / 2 ^ off) := fun off => by
    rw [← Nat.shiftRight_eq_div_pow]
    rfl
  simp only [toLe, wordField, byte, Nat.div_div_eq_div_mul, Nat.pow_zero, Nat.div_one]
  rfl

/-- Every request's record holds its fields (R109, R110, R252 to R266). -/
theorem RequestRecord.isRecord {p : Params} {l : Layout} {fields : List Bytes} {b : Bytes}
    (h : RequestRecord p l fields b) (ha : Apart l fields) : IsRecord l fields b := by
  cases h with
  | bind addr k sid => exact enc_isRecord _ _ ha
  | listen k backlog sid => exact enc_isRecord _ _ ha
  | connect addr k ssl sid => exact enc_isRecord _ _ ha
  | send k n addr sid => exact enc_isRecord _ _ ha
  | recv timeout k sid =>
    rw [← toLe_word] at ha ⊢
    exact enc_isRecord _ _ ha
  | close k sid => exact enc_isRecord _ _ ha
  | setSockOpt k option value sid =>
    exact IsRecord.overlay_last (n := 2) ha rfl (enc_isRecord p.layouts.setSockOptCmd _ (ha.set_nil 2))
  | sslCreate k => exact enc_isRecord _ _ ha
  | dns name => exact enc_isRecord _ _ ha

/-! ### Addresses and SSL flags in a record (R34, R110; log 26) -/

/-- The layout of an address as that of a record of three fields (R110). -/
def addrRecord (l : AddrLayout) : Layout :=
  ⟨List.replicate 8 0x00, [l.offs.1, l.offs.2.1, l.offs.2.2], none, true⟩

/-- The fields of an address (R110). -/
def addrFields (l : AddrLayout) (a : SockAddr) : List Bytes :=
  [le2 a.family, inOrder l.portNetwork (le2 a.port), inOrder l.ipNetwork (toLe 4 a.ip.toNat)]

theorem addrEnc_eq (l : AddrLayout) (a : SockAddr) : l.enc a = (addrRecord l).enc (addrFields l a) := rfl

theorem inOrder_length (network : Bool) (b : Bytes) : (inOrder network b).length = b.length := by
  cases network
  · rfl
  · exact List.length_reverse

/-- Family, port and IP lie in the eight bytes and share none, in each of the six orders (R110). -/
theorem addrOffs_apart (l : AddrLayout) :
    (l.offs.1 + 2 ≤ l.offs.2.1 ∨ l.offs.2.1 + 2 ≤ l.offs.1) ∧ (l.offs.1 + 2 ≤ l.offs.2.2 ∨ l.offs.2.2 + 4 ≤ l.offs.1) ∧
      (l.offs.2.1 + 2 ≤ l.offs.2.2 ∨ l.offs.2.2 + 4 ≤ l.offs.2.1) ∧
      l.offs.1 + 2 ≤ 8 ∧ l.offs.2.1 + 2 ≤ 8 ∧ l.offs.2.2 + 4 ≤ 8 := by
  obtain ⟨order, portNetwork, ipNetwork⟩ := l
  simp only [AddrLayout.offs]
  fin_cases order <;> decide

/-- The fields of an address by their number: where each begins, and how long it is. -/
theorem addrFields_cases {l : AddrLayout} {a : SockAddr} {k : Nat} {f : Bytes} (h : (addrFields l a)[k]? = some f) :
    k = 0 ∧ f.length = 2 ∨ k = 1 ∧ f.length = 2 ∨ k = 2 ∧ f.length = 4 := by
  match k, h with
  | 0, rfl => exact .inl ⟨rfl, rfl⟩
  | 1, rfl => exact .inr (.inl ⟨rfl, inOrder_length _ _⟩)
  | 2, rfl => exact .inr (.inr ⟨rfl, inOrder_length _ _⟩)

theorem addrFields_apart (l : AddrLayout) (a : SockAddr) : Apart (addrRecord l) (addrFields l a) := by
  obtain ⟨h01, h02, h12, -⟩ := addrOffs_apart l
  intro j k f g hjk hj hk
  rcases addrFields_cases hj with ⟨rfl, hf⟩ | ⟨rfl, hf⟩ | ⟨rfl, hf⟩ <;>
    rcases addrFields_cases hk with ⟨rfl, hg⟩ | ⟨rfl, hg⟩ | ⟨rfl, hg⟩ <;> rw [hf, hg]
  · omega
  · exact h01
  · exact h02
  · omega
  · omega
  · exact h12
  · omega
  · omega
  · omega

/-- The eight bytes of an address (R63, R110). -/
theorem addrEnc_bytes (l : AddrLayout) (a : SockAddr) : AddrBytes l a (l.enc a) := by
  have hrec := enc_isRecord (addrRecord l) (addrFields l a) (addrFields_apart l a)
  rw [← addrEnc_eq] at hrec
  obtain ⟨-, -, -, h0, h1, h2⟩ := addrOffs_apart l
  refine ⟨?_, hrec.stand 0 _ rfl, ?_, ?_⟩
  · have hbase : 8 ≤ (l.enc a).length := hrec.sized.base
    rcases hrec.sized.reached with hlen | ⟨k, f, hk, hlen⟩
    · exact hlen
    · rcases addrFields_cases hk with ⟨rfl, hf⟩ | ⟨rfl, hf⟩ | ⟨rfl, hf⟩ <;> rw [hf] at hlen
      · exact Nat.le_antisymm (hlen.trans_le h0) hbase
      · exact Nat.le_antisymm (hlen.trans_le h1) hbase
      · exact Nat.le_antisymm (hlen.trans_le h2) hbase
  · have hport := hrec.stand 1 _ rfl
    rw [inOrder_length] at hport
    exact hport
  · have hip := hrec.stand 2 _ rfl
    rw [inOrder_length, toLe_word] at hip
    exact hip

/-- One bit of the SSL flags: set where its flag is (R34, R109). -/
theorem flagBit_getLsbD (c : Bool) (b k : Fin 8) :
    (if c then (1 : Byte) <<< b.val else 0).getLsbD k.val = true ↔ c = true ∧ k = b := by
  revert c b k
  decide

/-- Settles O45, part by part: the request, its wait, its slot's registry, its record, the address, the SSL flags. -/
theorem requestInsertsSendsAndWaits : Obligations.RequestInsertsSendsAndWaits := by
  refine ⟨fun id p i kind pk deadline s s1 s2 v e hsid hy hf => ⟨fun h => ?_, fun h hsend hwait => ?_, fun h hsend => ?_⟩,
    fun ag i m bounded s => ⟨fun v t h => ?_, fun hm hb => ?_, fun r hm => ?_, fun hm hb hf => ?_, fun hm => ?_⟩,
    fun id p i kind pk deadline s t r hh hr => ⟨requested_replies hr, fun h => h.request_registered ⟨hh.2.2, hr⟩⟩,
    fun p l fields b h ha => h.isRecord ha, fun l a => ⟨(addrEnc_bytes l a).dec, addrEnc_bytes l a⟩, fun bits f k => ?_⟩
  · exact Runs.request_notHeld h hsid hy hf
  · exact Runs.request_held h hsid hy hf hsend (Runs.act_call hwait (Runs.ret _ s2))
  · exact Runs.request_held h hsid hy hf hsend
      (Runs.requestSent_error kind _ e (hsend.yields hy) (Prog.eval_fired hsend hf))
  · rw [perform_waitReply_ends h]
    exact dropReply_gone s.sock i m
  · have hgoes : (bounded && s.env.fired) = false := by
      rcases hb with hb | hb <;> simp [hb]
    simp only [perform, doWaitReply, hm, hgoes, Bool.false_eq_true, if_false]
  · simp only [perform, doWaitReply, hm]
  · simp only [perform, doWaitReply, hm, hb, hf, Bool.and_self, if_true]
  · simp only [perform, doWaitReply, hm]
  · simp only [sslByte, BitVec.getLsbD_or, Bool.or_eq_true, flagBit_getLsbD, or_assoc]

end Sys2Proof.Machine

/-!
PROOFS. `Setsockopt`: a malformed option, one that is sent, and one that cannot be sent (spec/43_socket.md R264,
spec/60_exceptions.md R329).
-/

namespace Sys2Proof.Machine

/-! ### A malformed option (R264, R329) -/

section
variable {s : State} {i : Int} {option : Byte} {value : Bytes}

/-- An option whose validation ends the program in an error: neither index nor slot is looked at (R264, R329). -/
theorem Ends.setsockopt_malformed {e : Err} (hlive : s.root.live = true) (hr : Ready s)
    (h : setsockoptOp s.params i option value = raise e) :
    Ends (.opSetsockopt i option value) s (.err e) (newTask s) := by
  have hexec : exec (.opSetsockopt i option value) s = startTask (.opSetsockopt i option value) (raise e) s := by
    rw [← h]
    exact whenLive_live hlive hr _
  exact Ends.of_runs hexec (Runs.raise e _)

theorem setsockoptOp_badOption (h : s.params.optValid.app (option, value) = .badOption) :
    setsockoptOp s.params i option value = raise .invalidParameter := by
  rw [setsockoptOp, h]

theorem setsockoptOp_badValue (h : s.params.optValid.app (option, value) = .badValue) :
    setsockoptOp s.params i option value = raise .socketInvalidArg := by
  rw [setsockoptOp, h]

end

/-! ### A valid option (R108, R254, R264) -/

/-- `Setsockopt` in a slot that its caller holds: an id drawn and recorded in the slot, and the packet, whose end is
the operation's (R251, R254, R264). -/
theorem Runs.settingOption {id : Nat} {k : Fin 11} {s s1 : State} {p : Params} {option : Byte} {value : Bytes}
    {r : Except Err Unit} (hh : Holds k id s) (hsid : s.sock.sidLock = .free) (hy : s.env.yields = [])
    (hf : s.env.fired = false)
    (hsend : Runs id
      (hifSend p groupIp (opcodeFor (s.sock.slot k) 0x4F 0x51)
        (encSetSockOpt p k option value (s.sock.sid + 1)) [] 0)
      (s.mapSock (idRecorded k (s.sock.sid + 1))) r s1) :
    Runs id (Machine.settingOption p option value k) s (sentAnswer r .unit) s1 := by
  let drawn := s.mapSock fun q => { q with sid := q.sid + 1 }
  have hdrawn : Holds k id drawn := hh.congr rfl
  refine Runs.getSlot hy hf (Runs.act (perform_nextSid_free hsid) hy ?_)
  rw [endAction_eq (s := drawn) hy hf, ofNat_num_toNat, Val.toSlot]
  refine Runs.andThen (hdrawn.perform_updSlot _) hy ?_
  rw [endAction_eq (s := drawn.mapSock _) hy hf]
  rw [opcodeFor_eq] at hsend
  exact Runs.bind hsend (Runs.sentOr r .unit)

/-- Settles O54: the validation that fails, option or value; then the run of a valid option in the slot entered. -/
theorem setsockoptSendsTheOption : Obligations.SetsockoptSendsTheOption := by
  refine ⟨fun s i option value hlive hr => ⟨fun hbad => ?_, fun hbad => ?_⟩, ?_⟩
  · exact Ends.setsockopt_malformed hlive hr (setsockoptOp_badOption hbad)
  · exact Ends.setsockopt_malformed hlive hr (setsockoptOp_badValue hbad)
  · intro s s1 k option value r hs hok hsid hsend
    have hrun := Runs.settingOption (s := entered k s) (p := s.params) (entered_holds hs) hsid hs.yields rfl
      (by rw [entered_slot]; exact hsend)
    have hends := Ends.perSlot (exec_opSetsockopt k.val s hok) hs hrun
    cases r <;> exact hends

end Sys2Proof.Machine
